-- ==== Sys2Proof/Word.lean ====
section
/-! DEFINITION. The word types of the block (00_scope.md R9). Every quantity is unsigned. -/

namespace Sys2Proof

/-- A byte. -/
abbrev Byte := BitVec 8

/-- A 16-bit operand, field or result. -/
abbrev Half := BitVec 16

/-- The bits of a command-register word (R120, R121), of a data-port word (R51, R52, R83), of `BASE` (R7) and of a bitmap with one
bit for each of the 32 indices (R46 to R49); none of them is `REG_W`. -/
abbrev Config.wordW : Nat := 32

/-- The widest register the model can hold. `REG_W` itself, the width of a chip's registers, is the field `regW` of `Chip`, at most
this (DESIGN CHOICE, log 22). -/
abbrev Config.regMax : Nat := 64

/-- Bits of a packet length at the data port (R51, R52, R59); `MPS_W` (R7, D10) is at most this. -/
abbrev Config.lenW : Nat := 10

/-- A 32-bit word: of the command register, of the data port, or of one bit for each index. -/
abbrev Word := BitVec Config.wordW

/-- The value of a register: its `REG_W` bits (R7, R10, R40), and zeros above them. -/
abbrev RegWord := BitVec Config.regMax

/-- A packet length (R59) or a max packet size (R58). -/
abbrev Mps := BitVec Config.lenW

/-- A hardware endpoint index, 0..31 (R14, R128). -/
abbrev Idx := BitVec 5

end Sys2Proof
end

