-- ==== Sys2Proof/Config.lean ====
section
/-! DEFINITION. The configuration record `Cfg` (00_scope.md R7), whose fields are the numbers the spec decides (D2 to D13) and the
open parameters, and the free values: constants with no body for what the spec leaves unspecified (93, log 3). -/

namespace Sys2Proof

/-- Register offsets from BASE (R40, D3). -/
structure RegOffsets where
  (offDEVINTST offDEVINTEN offDEVINTCLR offCMDCODE offCMDDATA offRXDATA offTXDATA offRXPLEN offTXPLEN offDPCTL : Nat)
  (offEPINTST offEPINTEN offEPINTCLR offREALIZE : Nat)
deriving DecidableEq, Repr

/-- Flag bit positions: DEVINTST and DEVINTEN (R41, R42, D4); DPCTL and RXPLEN (R50, R51, D16); DEVSTAT (R55, R143, D13); the raw
endpoint status (R58, R142, D12); the normalised bitmaps (R61, R62); the operands of commands (R185, R186, R190, D10). -/
structure FlagBits where
  (bitFRAME bitEP bitDEVSTAT bitCCEMPTY bitCDFULL bitEPRLZD bitRDEN bitWREN lsbLOGEP bitDV bitPKTRDY bitCON : Nat)
  (bitCONCH bitSUS bitSUSCH bitRST bitFE bitST bitSTP bitPO bitEPN bitDATAREADY bitSTALLED bitSETUP bitNACKED : Nat)
  (bitERROR bitCONNECT bitSUSPEND bitRESET bitDEVEN bitCONF bitHALT : Nat)
deriving DecidableEq, Repr

/-- Phase codes of a command-register word (R122, D6). -/
structure PhaseCodes where
  (phCmd phWrite phRead : Byte)
deriving DecidableEq, Repr

/-- Engine command codes (R124, D7); the first three are bases to which the index is added (R125). -/
structure CommandCodes where
  (codeSelectEp codeSetEpStatus codeSetMaxpkt codeSetAddress codeConfigureDevice codeClearBuffer : Byte)
  (codeValidateBuffer codeGetDevStatus : Byte)
deriving DecidableEq, Repr

/-- MPS_W, "bits in a max-packet-size value" (R7, D10): no wider than a packet length at the data port (R51, R52). -/
abbrev SizeWidth := { n : Nat // n ≤ Config.lenW }

/-- REG_W, "width in bits of every ENG register" (R7, D2): whole bytes, no less than 32, since "32 index bits must fit one register"
(D2), and no more than `regMax` (DESIGN CHOICE, log 22). -/
abbrev RegWidth := { n : Nat // Config.wordW ≤ n ∧ n ≤ Config.regMax ∧ n % 8 = 0 }

/-- Does every flag lie inside what holds it: a register of `regW` bits (R41, R42, R50, R51), the raw statuses and the normalised
endpoint status of 5 bits (R55, R58, R61), the normalised device status of 3 (R62), the address register of 8 (R53), a command's
operand of 16 (R185, R186, R190)? -/
def FlagBits.fit (f : FlagBits) (regW : Nat) : Bool :=
  [f.bitFRAME, f.bitEP, f.bitDEVSTAT, f.bitCCEMPTY, f.bitCDFULL, f.bitEPRLZD].all (· < regW) &&
  [f.bitRDEN, f.bitWREN, f.lsbLOGEP + 3, f.bitDV, f.bitPKTRDY].all (· < regW) &&
  [f.bitCON, f.bitCONCH, f.bitSUS, f.bitSUSCH, f.bitRST, f.bitFE, f.bitST, f.bitSTP, f.bitPO, f.bitEPN].all (· < 5) &&
  [f.bitDATAREADY, f.bitSTALLED, f.bitSETUP, f.bitNACKED, f.bitERROR].all (· < 5) &&
  [f.bitCONNECT, f.bitSUSPEND, f.bitRESET].all (· < 3) && [f.bitDEVEN].all (· < 8) && [f.bitCONF, f.bitHALT].all (· < 16)

/-- A chip: the fields of the configuration record of R7 whose kind is "decision", the numbers the spec invents (D2). The rules
read each only through its name, "so that a different chip is a different `Cfg`, not a different semantics" (R7). A flag outside
what holds it is no chip: `fits` (DESIGN CHOICE, log 32). -/
structure Chip extends RegOffsets, FlagBits, PhaseCodes, CommandCodes where
  regW : RegWidth
  mpsW : SizeWidth
  fits : toFlagBits.fit regW.val = true
deriving DecidableEq, Repr

/-- M0, "max packet size of endpoint 0, both directions; 1 <= M0 <= 1023" (R7, D46). -/
abbrev ControlSize := { n : Nat // 1 ≤ n ∧ n ≤ 1023 }

/-- BASE, "32-bit address, multiple of 4" (R7, R89, spec/93 section 3). -/
abbrev WindowBase := { b : Word // b.toNat % 4 = 0 }

/-- The configuration record of R7, fixed for a machine: the numbers of the chip (kind "decision") and the parameters of kind "open"
(log 22). `DESC` and the hooks are open too and are set by APP at boot (R446), so they are fields of State. `STAGE_CAP` is no field:
it is `M0` (R26). The fields of kind "source" are in types (`Idx`), and the USB constants are constants: "a model should not vary
them" (spec/93 section 2). -/
structure Cfg extends Chip where
  /-- Byte address of register offset 0 (R7, R89). -/
  window : WindowBase
  controlSize : ControlSize
  /-- Bit 0 of the device GET_STATUS reply (R300, D32). -/
  selfPowered : Bool
  /-- Whether ENG ever completes a phase (R175, D9). -/
  engResponsive : Bool
  /-- The alternative treatment of U10 (R404): false = the BufferOverrun fault, true = excess bytes are dropped. -/
  overrunDrops : Bool
deriving DecidableEq, Repr

/-- BASE as a word. -/
def Cfg.base (c : Cfg) : Word := c.window.val

@[simp] theorem Cfg.base_aligned (c : Cfg) : c.base.toNat % 4 = 0 := c.window.property

/-- M0 as a number. -/
def Cfg.m0 (c : Cfg) : Nat := c.controlSize.val

@[simp] theorem Cfg.m0_pos (c : Cfg) : 1 ≤ c.m0 := c.controlSize.property.1

@[simp] theorem Cfg.m0_le (c : Cfg) : c.m0 ≤ 1023 := c.controlSize.property.2

/-- STAGE_CAP = M0: the staging buffer is "sized to the control endpoint's max packet size" (R26). -/
def Cfg.stageCap (c : Cfg) : Nat := c.m0

/-- A byte space a `CT.ptr` may name (R23, R80). -/
inductive Space where
  | stage
  | desc
  | hookmem
deriving DecidableEq, Repr, Inhabited

/-- "Pointer to the data to send or receive": a space and a byte offset (R23). -/
structure Ptr where
  space : Space
  off : Nat
deriving DecidableEq, Repr, Inhabited

/-- What a request hook answers (R33, R292): `fail`, or `ok` with the reported length and pointer, the bytes it stored
in STAGE (offset and byte) and the content of its own HOOKMEM. -/
inductive HookAnswer where
  | fail
  | ok (len : Nat) (ptr : Ptr) (stored : List (Nat × Byte)) (hookmem : List Byte)
deriving DecidableEq, Repr, Inhabited

namespace Config

/-- Register offsets from BASE (R40, D3) of the chip the spec describes. -/
def offsets : RegOffsets where
  offDEVINTST := 0x00
  offDEVINTEN := 0x04
  offDEVINTCLR := 0x08
  offCMDCODE := 0x10
  offCMDDATA := 0x14
  offRXDATA := 0x18
  offTXDATA := 0x1C
  offRXPLEN := 0x20
  offTXPLEN := 0x24
  offDPCTL := 0x28
  offEPINTST := 0x30
  offEPINTEN := 0x34
  offEPINTCLR := 0x38
  offREALIZE := 0x44

/-- Flag bit positions of the chip the spec describes. -/
def bits : FlagBits where
  bitFRAME := 0
  bitEP := 2
  bitDEVSTAT := 3
  bitCCEMPTY := 4
  bitCDFULL := 5
  bitEPRLZD := 8
  bitRDEN := 0
  bitWREN := 1
  lsbLOGEP := 2
  bitDV := 10
  bitPKTRDY := 11
  bitCON := 0
  bitCONCH := 1
  bitSUS := 2
  bitSUSCH := 3
  bitRST := 4
  bitFE := 0
  bitST := 1
  bitSTP := 2
  bitPO := 3
  bitEPN := 4
  bitDATAREADY := 0
  bitSTALLED := 1
  bitSETUP := 2
  bitNACKED := 3
  bitERROR := 4
  bitCONNECT := 0
  bitSUSPEND := 1
  bitRESET := 2
  bitDEVEN := 7
  bitCONF := 0
  bitHALT := 0

/-- Phase codes of a command-register word (R122, D6) of the chip the spec describes. -/
def phases : PhaseCodes where
  phCmd := 0x05#8
  phWrite := 0x01#8
  phRead := 0x02#8

/-- Engine command codes (R124, D7); the first three are bases to which the index is added (R125) of the chip the spec describes. -/
def codes : CommandCodes where
  codeSelectEp := 0x00#8
  codeSetEpStatus := 0x40#8
  codeSetMaxpkt := 0x80#8
  codeSetAddress := 0xD0#8
  codeConfigureDevice := 0xD8#8
  codeClearBuffer := 0xF2#8
  codeValidateBuffer := 0xFA#8
  codeGetDevStatus := 0xFE#8

/-- The chip the spec describes: every "decision" field at the value the spec gives as its default (R7, spec/92). -/
def chip : Chip where
  toRegOffsets := offsets
  toFlagBits := bits
  toPhaseCodes := phases
  toCommandCodes := codes
  regW := ⟨32, by decide⟩
  mpsW := ⟨10, by decide⟩
  fits := by decide

/-- `N_IDX`, hardware endpoint indices (R7). -/
def nIdx : Nat := 32

/-! The USB constants, which a compliant host fixes: request codes (R134), request types and recipients (R135), descriptor types
(R152), feature selectors (R157), all D48. -/
def reqGetStatus : Byte := 0x00#8
def reqClearFeature : Byte := 0x01#8
def reqSetFeature : Byte := 0x03#8
def reqSetAddress : Byte := 0x05#8
def reqGetDescriptor : Byte := 0x06#8
def reqSetDescriptor : Byte := 0x07#8
def reqGetConfiguration : Byte := 0x08#8
def reqSetConfiguration : Byte := 0x09#8
def reqGetInterface : Byte := 0x0A#8
def reqSetInterface : Byte := 0x0B#8
def reqSynchFrame : Byte := 0x0C#8
def rtypeStandard : BitVec 2 := 0#2
def rtypeClass : BitVec 2 := 1#2
def rtypeVendor : BitVec 2 := 2#2
def rtypeReserved : BitVec 2 := 3#2
def recipDevice : BitVec 2 := 0#2
def recipInterface : BitVec 2 := 1#2
def recipEndpoint : BitVec 2 := 2#2
def recipOther : BitVec 2 := 3#2
def descDevice : Byte := 0x01#8
def descConfiguration : Byte := 0x02#8
def descString : Byte := 0x03#8
def descInterface : Byte := 0x04#8
def descEndpoint : Byte := 0x05#8
def featEndpointHalt : Half := 0#16
def featRemoteWakeup : Half := 1#16
def featTestMode : Half := 2#16

/-! The values of the chip's fields, for proofs. -/
@[simp] theorem nIdx_eq : nIdx = 32 := rfl
@[simp] theorem wordW_eq : wordW = 32 := rfl
@[simp] theorem regMax_eq : regMax = 64 := rfl
@[simp] theorem lenW_eq : lenW = 10 := rfl
theorem chip_offDEVINTST : chip.offDEVINTST = 0x00 := rfl
theorem chip_offDEVINTEN : chip.offDEVINTEN = 0x04 := rfl
theorem chip_offDEVINTCLR : chip.offDEVINTCLR = 0x08 := rfl
theorem chip_offCMDCODE : chip.offCMDCODE = 0x10 := rfl
theorem chip_offCMDDATA : chip.offCMDDATA = 0x14 := rfl
theorem chip_offRXDATA : chip.offRXDATA = 0x18 := rfl
theorem chip_offTXDATA : chip.offTXDATA = 0x1C := rfl
theorem chip_offRXPLEN : chip.offRXPLEN = 0x20 := rfl
theorem chip_offTXPLEN : chip.offTXPLEN = 0x24 := rfl
theorem chip_offDPCTL : chip.offDPCTL = 0x28 := rfl
theorem chip_offEPINTST : chip.offEPINTST = 0x30 := rfl
theorem chip_offEPINTEN : chip.offEPINTEN = 0x34 := rfl
theorem chip_offEPINTCLR : chip.offEPINTCLR = 0x38 := rfl
theorem chip_offREALIZE : chip.offREALIZE = 0x44 := rfl
theorem chip_bitFRAME : chip.bitFRAME = 0 := rfl
theorem chip_bitEP : chip.bitEP = 2 := rfl
theorem chip_bitDEVSTAT : chip.bitDEVSTAT = 3 := rfl
theorem chip_bitCCEMPTY : chip.bitCCEMPTY = 4 := rfl
theorem chip_bitCDFULL : chip.bitCDFULL = 5 := rfl
theorem chip_bitEPRLZD : chip.bitEPRLZD = 8 := rfl
theorem chip_bitRDEN : chip.bitRDEN = 0 := rfl
theorem chip_bitWREN : chip.bitWREN = 1 := rfl
@[simp] theorem chip_lsbLOGEP : chip.lsbLOGEP = 2 := rfl
@[simp] theorem chip_bitDV : chip.bitDV = 10 := rfl
@[simp] theorem chip_bitPKTRDY : chip.bitPKTRDY = 11 := rfl
@[simp] theorem chip_bitCON : chip.bitCON = 0 := rfl
@[simp] theorem chip_bitCONCH : chip.bitCONCH = 1 := rfl
@[simp] theorem chip_bitSUS : chip.bitSUS = 2 := rfl
@[simp] theorem chip_bitSUSCH : chip.bitSUSCH = 3 := rfl
@[simp] theorem chip_bitRST : chip.bitRST = 4 := rfl
@[simp] theorem chip_bitFE : chip.bitFE = 0 := rfl
@[simp] theorem chip_bitST : chip.bitST = 1 := rfl
@[simp] theorem chip_bitSTP : chip.bitSTP = 2 := rfl
@[simp] theorem chip_bitPO : chip.bitPO = 3 := rfl
@[simp] theorem chip_bitEPN : chip.bitEPN = 4 := rfl
@[simp] theorem chip_bitDATAREADY : chip.bitDATAREADY = 0 := rfl
@[simp] theorem chip_bitSTALLED : chip.bitSTALLED = 1 := rfl
@[simp] theorem chip_bitSETUP : chip.bitSETUP = 2 := rfl
@[simp] theorem chip_bitNACKED : chip.bitNACKED = 3 := rfl
@[simp] theorem chip_bitERROR : chip.bitERROR = 4 := rfl
@[simp] theorem chip_bitCONNECT : chip.bitCONNECT = 0 := rfl
@[simp] theorem chip_bitSUSPEND : chip.bitSUSPEND = 1 := rfl
@[simp] theorem chip_bitRESET : chip.bitRESET = 2 := rfl
@[simp] theorem chip_bitDEVEN : chip.bitDEVEN = 7 := rfl
@[simp] theorem chip_bitCONF : chip.bitCONF = 0 := rfl
@[simp] theorem chip_bitHALT : chip.bitHALT = 0 := rfl
@[simp] theorem chip_regW : chip.regW.val = 32 := rfl
@[simp] theorem chip_mpsW : chip.mpsW.val = 10 := rfl
theorem chip_phCmd : chip.phCmd = 0x05#8 := rfl
theorem chip_phWrite : chip.phWrite = 0x01#8 := rfl
theorem chip_phRead : chip.phRead = 0x02#8 := rfl
theorem chip_codeSelectEp : chip.codeSelectEp = 0x00#8 := rfl
theorem chip_codeSetEpStatus : chip.codeSetEpStatus = 0x40#8 := rfl
theorem chip_codeSetMaxpkt : chip.codeSetMaxpkt = 0x80#8 := rfl
theorem chip_codeSetAddress : chip.codeSetAddress = 0xD0#8 := rfl
theorem chip_codeConfigureDevice : chip.codeConfigureDevice = 0xD8#8 := rfl
theorem chip_codeClearBuffer : chip.codeClearBuffer = 0xF2#8 := rfl
theorem chip_codeValidateBuffer : chip.codeValidateBuffer = 0xFA#8 := rfl
theorem chip_codeGetDevStatus : chip.codeGetDevStatus = 0xFE#8 := rfl
@[simp] theorem rtypeStandard_eq : rtypeStandard = 0#2 := rfl
@[simp] theorem rtypeClass_eq : rtypeClass = 1#2 := rfl
@[simp] theorem rtypeVendor_eq : rtypeVendor = 2#2 := rfl
@[simp] theorem rtypeReserved_eq : rtypeReserved = 3#2 := rfl
@[simp] theorem recipDevice_eq : recipDevice = 0#2 := rfl
@[simp] theorem recipInterface_eq : recipInterface = 1#2 := rfl
@[simp] theorem recipEndpoint_eq : recipEndpoint = 2#2 := rfl
@[simp] theorem recipOther_eq : recipOther = 3#2 := rfl
@[simp] theorem descDevice_eq : descDevice = 0x01#8 := rfl
@[simp] theorem descString_eq : descString = 0x03#8 := rfl

end Config

/-- The chip of the spec with the defaults of spec/93 section 3; M0 is 8 as in every worked example (log 1, DESIGN CHOICE). -/
def Cfg.default : Cfg :=
  { Config.chip with
    window := ⟨0xE0090000#32, by decide⟩, controlSize := ⟨8, by decide⟩, selfPowered := false, engResponsive := true
    overrunDrops := false }

namespace Config

/-! FREE VALUES (log 3): constants with no body, applied to a counter of State (`fresh`), so that each occurrence is a
new unconstrained value and no proof can see it. -/

/-- `SU.b[k]` at reset: "8 bytes of any value" (R66, R441, U1). -/
opaque resetSU : Nat → Byte

/-- A read of a write-only register (U3), of RXDATA with RD_EN = 0 (R51). -/
opaque freeWord : Nat → RegWord

/-- CMDDATA[15:0] while not valid (U4), and the data of a reserved read-data phase (R193). -/
opaque freeHalf : Nat → Half

/-- What GET_DEV_STATUS returns once poisoned: "any 5-bit value" (R187, U5). -/
opaque freeStatus : Nat → BitVec 5

/-- A STAGE byte never written since reset (U9, D51). -/
opaque freeByte : Nat → Byte

/-- The packet VALIDATE_BUFFER leaves outside its preconditions (U8); `freePacket` bounds it. -/
opaque freeBytes : Nat → List Byte

/-- Which of the two phase-complete flags a word of unknown PHASE raises (log 10). -/
opaque freeBit : Nat → Bool

/-- What a request hook answers when no answer is listed in State (R33, D47). -/
opaque freeHook : Nat → HookAnswer

/-- U8: "an arbitrary byte list of length at most 1023". -/
def freePacket (n : Nat) : List Byte := (freeBytes n).take 1023

end Config

end Sys2Proof
end

