-- ==== Sys2Proof/Syntax.lean ====
section
/-! DEFINITION. The block's instructions: one constructor of `Instr` for each of the 82 rows of
spec/opcode_table.json (formats CMDW, SETUP, DEVINT, EPEVT, CALL, WIRE; 30_encoding.md R120). -/

namespace Sys2Proof

/-- What stands in a slot of the handler table `HND[0..31]` (R33): CTE's own handler `Ctl` (R260) or an external one. -/
inductive Handler where
  | ctl
  | ext (id : Nat)
deriving DecidableEq, Repr

/-- The operand fields every SETUP row carries (R131, R132): direction, the reserved bits 4:2 of the type byte (ignored by
decode), value, index, length. -/
structure SetupFields where
  dir : Bool
  rsv : BitVec 3
  value : Half
  index : Half
  length : Half
deriving DecidableEq, Repr

/-- What a phase word handed to ENG is (R121 to R126): the twelve CMDW rows. -/
inductive PhaseWord where
  | selectEp (idx : Idx)
  | selectEpRd (idx : Idx)
  | setEpStatus (idx : Idx)
  | setMaxpkt (idx : Idx)
  | setAddress
  | configureDevice
  | clearBuffer
  | validateBuffer
  | getDevStatus
  | getDevStatusRd
  | wrdata (data : Half)
  | reserved (word : Word)
deriving DecidableEq, Repr

/-- An event of the host and the cable (R370). -/
inductive WireEvent where
  | setup (b : Vector Byte 8)
  | out (num : BitVec 4) (bytes : List Byte)
  | inn (num : BitVec 4)
  | sof
  | busReset
  | connect (v : Bool)
  | suspend (v : Bool)
deriving DecidableEq, Repr

inductive Instr where
  -- format CMDW (R124, R182, R193)
  | selectEp (idx : Idx)
  | selectEpRd (idx : Idx)
  | setEpStatus (idx : Idx)
  | setMaxpkt (idx : Idx)
  | setAddress
  | configureDevice
  | clearBuffer
  | validateBuffer
  | getDevStatus
  | getDevStatusRd
  | wrdata (data : Half)
  | reservedCmdw (word : Word)
  -- format SETUP: the cells of the request table (R300 to R332)
  | getStatusDev (f : SetupFields)
  | getStatusIf (f : SetupFields)
  | getStatusEp (f : SetupFields)
  | clearFeatureDev (f : SetupFields)
  | clearFeatureIf (f : SetupFields)
  | clearFeatureEp (f : SetupFields)
  | setFeatureDev (f : SetupFields)
  | setFeatureIf (f : SetupFields)
  | setFeatureEp (f : SetupFields)
  | setAddressDev (f : SetupFields)
  | setAddressIf (f : SetupFields)
  | setAddressEp (f : SetupFields)
  | getDescriptorDev (f : SetupFields)
  | getDescriptorIf (f : SetupFields)
  | getDescriptorEp (f : SetupFields)
  | getConfigurationDev (f : SetupFields)
  | getConfigurationIf (f : SetupFields)
  | getConfigurationEp (f : SetupFields)
  | setConfigurationDev (f : SetupFields)
  | setConfigurationIf (f : SetupFields)
  | setConfigurationEp (f : SetupFields)
  | getInterfaceDev (f : SetupFields)
  | getInterfaceIf (f : SetupFields)
  | getInterfaceEp (f : SetupFields)
  | setInterfaceDev (f : SetupFields)
  | setInterfaceIf (f : SetupFields)
  | setInterfaceEp (f : SetupFields)
  | setDescriptorDev (f : SetupFields)
  | setDescriptorIf (f : SetupFields)
  | setDescriptorEp (f : SetupFields)
  | synchFrameDev (f : SetupFields)
  | synchFrameIf (f : SetupFields)
  | synchFrameEp (f : SetupFields)
  -- format SETUP: outside the table (R333 to R338)
  | unknownRequest (f : SetupFields) (req : Byte) (recip : BitVec 2)
  | recipientOther (f : SetupFields) (req : Byte)
  | hReqClass (f : SetupFields) (req : Byte) (recip : BitVec 2)
  | hReqVendor (f : SetupFields) (req : Byte) (recip : BitVec 2)
  | hReqReserved (f : SetupFields) (req : Byte) (recip : BitVec 2)
  | hCustom (f : SetupFields) (req : Byte) (recip : BitVec 2)
  -- format DEVINT (R140, R141)
  | frameArm
  | devstatArm
  | endpointArm
  | endpointEvent (i : Idx)
  -- format EPEVT (R144, R261); the operand is the normalised status handed to the handler
  | setupEvent (status : BitVec 5)
  | outDataEvent (status : BitVec 5)
  | outStatusEvent (status : BitVec 5)
  | inEvent (status : BitVec 5)
  -- format CALL: the operations software calls (R160, R161)
  | command (code : Byte)
  | commandWrite (code : Byte) (data : Half)
  | commandRead (code : Byte)
  | registerHandler (address : Byte) (h : Option Handler)
  | configureEndpoint (address : Byte) (maxPacketSize : Half)
  | stall (address : Byte)
  | unstall (address : Byte)
  | getStatus (address : Byte)
  | epRead (address : Byte) (maxlen : Nat)
  | epWrite (address : Byte) (bytes : List Byte)
  | dispatchNow
  | dataIn
  | stallControl
  | findDescriptor (typeIndex : Half) (langId : Half)
  | configureForSettingZero (altSetting : Byte)
  | configureForSettingNonzero (configIndex : Byte) (altSetting : Byte)
  -- format WIRE: the host's events (R372 to R378)
  | wireSetup (b : Vector Byte 8)
  | wireOut (num : BitVec 4) (bytes : List Byte)
  | wireIn (num : BitVec 4)
  | wireSof
  | wireBusReset
  | wireConnect (v : Bool)
  | wireSuspend (v : Bool)
deriving DecidableEq, Repr

/-- The row a phase word belongs to. -/
def PhaseWord.toInstr : PhaseWord → Instr
  | .selectEp i => .selectEp i
  | .selectEpRd i => .selectEpRd i
  | .setEpStatus i => .setEpStatus i
  | .setMaxpkt i => .setMaxpkt i
  | .setAddress => .setAddress
  | .configureDevice => .configureDevice
  | .clearBuffer => .clearBuffer
  | .validateBuffer => .validateBuffer
  | .getDevStatus => .getDevStatus
  | .getDevStatusRd => .getDevStatusRd
  | .wrdata d => .wrdata d
  | .reserved w => .reservedCmdw w

/-- The row a WIRE event belongs to. -/
def WireEvent.toInstr : WireEvent → Instr
  | .setup b => .wireSetup b
  | .out n b => .wireOut n b
  | .inn n => .wireIn n
  | .sof => .wireSof
  | .busReset => .wireBusReset
  | .connect v => .wireConnect v
  | .suspend v => .wireSuspend v

/-- Is the instruction one of the sixteen operations software calls (format CALL)? -/
def Instr.isCall : Instr → Bool
  | .command _ | .commandWrite _ _ | .commandRead _ | .registerHandler _ _ | .configureEndpoint _ _ | .stall _
  | .unstall _ | .getStatus _ | .epRead _ _ | .epWrite _ _ | .dispatchNow | .dataIn | .stallControl
  | .findDescriptor _ _ | .configureForSettingZero _ | .configureForSettingNonzero _ _ => true
  | _ => false

/-- The formats with a binary pattern (R120) and what each one holds. -/
inductive Code where
  /-- a word written to CMDCODE -/
  | cmdw (w : Word)
  /-- the 8 bytes of a setup packet as one number, byte 0 least significant (R132) -/
  | setup (w : BitVec 64)
  /-- the snapshot of DEVINTST, `REG_W` bits (R29) -/
  | devint (w : RegWord)
  /-- an endpoint address and a normalised status -/
  | epevt (address : Byte) (status : BitVec 5)
deriving DecidableEq, Repr

end Sys2Proof
end

