-- ==== Sys2Proof/WellFormed.lean ====
section
/-! DEFINITION. Which terms of `Instr` are instructions: the operands a row's own words allow. Everything a field's width
already says (an index is 5 bits, a setup packet is 8 bytes, R372) is in the types. -/

namespace Sys2Proof

/-- R134: does the request code have a row in the table of requests? -/
def isRequestCode (r : Byte) : Bool :=
  r == Config.reqGetStatus || r == Config.reqClearFeature || r == Config.reqSetFeature ||
  r == Config.reqSetAddress || r == Config.reqGetDescriptor || r == Config.reqSetDescriptor ||
  r == Config.reqGetConfiguration || r == Config.reqSetConfiguration || r == Config.reqGetInterface ||
  r == Config.reqSetInterface || r == Config.reqSynchFrame

/-- Is the code an index added to this base? (R124, R125) -/
def hasBase (base c : Byte) : Bool := decide ((c - base).toNat < Config.nIdx)

/-- The index that was added to the base (R125). -/
def indexIn (base c : Byte) : Idx := (c - base).setWidth 5

/-- R124: is the code one of the engine's commands? -/
def isCommandCode (chip : Chip) (c : Byte) : Bool :=
  hasBase chip.codeSelectEp c || hasBase chip.codeSetEpStatus c || hasBase chip.codeSetMaxpkt c ||
  c == chip.codeSetAddress || c == chip.codeConfigureDevice || c == chip.codeClearBuffer ||
  c == chip.codeValidateBuffer || c == chip.codeGetDevStatus

/-- R124: does the command have read data? -/
def isReadCode (chip : Chip) (c : Byte) : Bool :=
  hasBase chip.codeSelectEp c || c == chip.codeGetDevStatus

/-- R126: is the word reserved whatever the state (unlisted code, unknown PHASE, nonzero bits 7:0 or, in a command or
read word, 31:24, which is log 31)? Words reserved only because of CUR are rows of their own. -/
def isReservedWord (chip : Chip) (w : Word) : Bool :=
  w.extractLsb' 0 8 != 0#8 ||
  (w.extractLsb' 8 8 != chip.phWrite &&
    (w.extractLsb' 24 8 != 0#8 ||
      !((w.extractLsb' 8 8 == chip.phCmd && isCommandCode chip (w.extractLsb' 16 8)) ||
        (w.extractLsb' 8 8 == chip.phRead && isReadCode chip (w.extractLsb' 16 8)))))

/-- `SETUP` of a normalised status (R61). -/
def statusSetup (chip : Chip) (st : BitVec 5) : Bool := st.getLsbD chip.bitSETUP

/-- The operands each row allows. A row that is not named here allows every operand of its types. -/
def Instr.wf (chip : Chip) : Instr → Bool
  | .reservedCmdw w => isReservedWord chip w
  | .unknownRequest _ req recip => !isRequestCode req && recip != Config.recipOther
  | .setupEvent st => statusSetup chip st
  | .outDataEvent st => !statusSetup chip st
  | .outStatusEvent st => !statusSetup chip st
  | .epRead a _ => !a.getLsbD 7
  | .epWrite a bytes => a.getLsbD 7 && bytes.length ≤ 1023
  | .configureForSettingNonzero c _ => c != 0#8
  | _ => true

end Sys2Proof
end

