-- ==== Sys2Proof/Decode.lean ====
section
/-! DEFINITION. The block's decoders (30_encoding.md): command-register words, setup packets, the interrupt snapshot and
endpoint events, each total, and after them the encoder written from the same tables. -/

namespace Sys2Proof

/-! ## Little-endian bytes (R82) -/

/-- `le16(lo, hi) = hi :: lo` (R9). -/
def le16 (lo hi : Byte) : Half := hi ++ lo

/-- The `n` low bytes of a number, least significant first. -/
def leBytes : Nat → Nat → List Byte
  | 0, _ => []
  | n + 1, w => BitVec.ofNat 8 w :: leBytes n (w / 256)

/-- The number whose bytes these are, least significant first. -/
def ofLeBytes : List Byte → Nat
  | [] => 0
  | b :: bs => b.toNat + 256 * ofLeBytes bs

/-! ## Format CMDW (R121 to R126) -/

/-- A command phase: PAYLOAD[7:0] is a command code (R122, R124); codes that collide are taken in R124's order (log 22). -/
def decodeCommandCode (chip : Chip) (c : Byte) (w : Word) : PhaseWord :=
  if hasBase chip.codeSelectEp c then .selectEp (indexIn chip.codeSelectEp c)
  else if hasBase chip.codeSetEpStatus c then .setEpStatus (indexIn chip.codeSetEpStatus c)
  else if hasBase chip.codeSetMaxpkt c then .setMaxpkt (indexIn chip.codeSetMaxpkt c)
  else if c = chip.codeSetAddress then .setAddress
  else if c = chip.codeConfigureDevice then .configureDevice
  else if c = chip.codeClearBuffer then .clearBuffer
  else if c = chip.codeValidateBuffer then .validateBuffer
  else if c = chip.codeGetDevStatus then .getDevStatus
  else .reserved w

/-- A read-data phase: PAYLOAD[7:0] repeats a code that has read data (R122, R126). -/
def decodeReadCode (chip : Chip) (c : Byte) (w : Word) : PhaseWord :=
  if hasBase chip.codeSelectEp c then .selectEpRd (indexIn chip.codeSelectEp c)
  else if c = chip.codeGetDevStatus then .getDevStatusRd
  else .reserved w

/-- R121, R122: bits 31:16 PAYLOAD, 15:8 PHASE, 7:0 zero. DESIGN CHOICE (log 31): a command or read-data word whose PAYLOAD[15:8]
is not 0, as R122 has it, is a reserved word. -/
def decodeCmdw (chip : Chip) (w : Word) : PhaseWord :=
  if w.extractLsb' 0 8 ≠ 0#8 then .reserved w
  else if w.extractLsb' 8 8 = chip.phWrite then .wrdata (w.extractLsb' 16 16)
  else if w.extractLsb' 24 8 ≠ 0#8 then .reserved w
  else if w.extractLsb' 8 8 = chip.phCmd then decodeCommandCode chip (w.extractLsb' 16 8) w
  else if w.extractLsb' 8 8 = chip.phRead then decodeReadCode chip (w.extractLsb' 16 8) w
  else .reserved w

/-! ## Format SETUP (R130 to R138) -/

/-- The operand fields of a setup packet (R132). -/
def setupFields (w : BitVec 64) : SetupFields :=
  { dir := w.getLsbD 7
    rsv := w.extractLsb' 2 3
    value := w.extractLsb' 16 16
    index := w.extractLsb' 32 16
    length := w.extractLsb' 48 16 }

def setupRtype (w : BitVec 64) : BitVec 2 := w.extractLsb' 5 2
def setupRecip (w : BitVec 64) : BitVec 2 := w.extractLsb' 0 2
def setupReq (w : BitVec 64) : Byte := w.extractLsb' 8 8

/-- The arms of the device sub-handler (R342, column `.dev`). -/
def stdDevice (f : SetupFields) (r : Byte) : Option Instr :=
  if r = Config.reqGetStatus then some (.getStatusDev f)
  else if r = Config.reqClearFeature then some (.clearFeatureDev f)
  else if r = Config.reqSetFeature then some (.setFeatureDev f)
  else if r = Config.reqSetAddress then some (.setAddressDev f)
  else if r = Config.reqGetDescriptor then some (.getDescriptorDev f)
  else if r = Config.reqSetDescriptor then some (.setDescriptorDev f)
  else if r = Config.reqGetConfiguration then some (.getConfigurationDev f)
  else if r = Config.reqSetConfiguration then some (.setConfigurationDev f)
  else if r = Config.reqGetInterface then some (.getInterfaceDev f)
  else if r = Config.reqSetInterface then some (.setInterfaceDev f)
  else if r = Config.reqSynchFrame then some (.synchFrameDev f)
  else none

/-- The arms of the interface sub-handler (R342, column `.if`). -/
def stdInterface (f : SetupFields) (r : Byte) : Option Instr :=
  if r = Config.reqGetStatus then some (.getStatusIf f)
  else if r = Config.reqClearFeature then some (.clearFeatureIf f)
  else if r = Config.reqSetFeature then some (.setFeatureIf f)
  else if r = Config.reqSetAddress then some (.setAddressIf f)
  else if r = Config.reqGetDescriptor then some (.getDescriptorIf f)
  else if r = Config.reqSetDescriptor then some (.setDescriptorIf f)
  else if r = Config.reqGetConfiguration then some (.getConfigurationIf f)
  else if r = Config.reqSetConfiguration then some (.setConfigurationIf f)
  else if r = Config.reqGetInterface then some (.getInterfaceIf f)
  else if r = Config.reqSetInterface then some (.setInterfaceIf f)
  else if r = Config.reqSynchFrame then some (.synchFrameIf f)
  else none

/-- The arms of the endpoint sub-handler (R342, column `.ep`). -/
def stdEndpoint (f : SetupFields) (r : Byte) : Option Instr :=
  if r = Config.reqGetStatus then some (.getStatusEp f)
  else if r = Config.reqClearFeature then some (.clearFeatureEp f)
  else if r = Config.reqSetFeature then some (.setFeatureEp f)
  else if r = Config.reqSetAddress then some (.setAddressEp f)
  else if r = Config.reqGetDescriptor then some (.getDescriptorEp f)
  else if r = Config.reqSetDescriptor then some (.setDescriptorEp f)
  else if r = Config.reqGetConfiguration then some (.getConfigurationEp f)
  else if r = Config.reqSetConfiguration then some (.setConfigurationEp f)
  else if r = Config.reqGetInterface then some (.getInterfaceEp f)
  else if r = Config.reqSetInterface then some (.setInterfaceEp f)
  else if r = Config.reqSynchFrame then some (.synchFrameEp f)
  else none

/-- `Standard()` by recipient and request code (R293, R333, R334). -/
def decodeStandard (f : SetupFields) (recip : BitVec 2) (r : Byte) : Instr :=
  if recip = Config.recipOther then .recipientOther f r
  else ((if recip = Config.recipDevice then stdDevice f r else if recip = Config.recipInterface then stdInterface f r else stdEndpoint f r).getD
    (.unknownRequest f r recip))

/-- The request a setup packet selects, with no custom hook asked: rtype first, then recipient, then code (R133, R293). -/
def decodeSetup (w : BitVec 64) : Instr :=
  let f := setupFields w
  if setupRtype w = Config.rtypeClass then .hReqClass f (setupReq w) (setupRecip w)
  else if setupRtype w = Config.rtypeVendor then .hReqVendor f (setupReq w) (setupRecip w)
  else if setupRtype w = Config.rtypeReserved then .hReqReserved f (setupReq w) (setupRecip w)
  else decodeStandard f (setupRecip w) (setupReq w)

/-- What `Dispatch()` runs first (R290): a standard-type request is offered to the custom hook when there is one. -/
def decodeDispatch (customHook : Bool) (w : BitVec 64) : Instr :=
  if customHook && setupRtype w == Config.rtypeStandard then .hCustom (setupFields w) (setupReq w) (setupRecip w)
  else decodeSetup w

/-! ## Formats DEVINT and EPEVT (R140 to R144) -/

/-- The first arm the snapshot still selects, in the fixed order FRAME, DEV_STAT, EP (R140, R232). -/
def decodeDevint (chip : Chip) (w : RegWord) : Option Instr :=
  if w.getLsbD chip.bitFRAME then some .frameArm
  else if w.getLsbD chip.bitDEVSTAT then some .devstatArm
  else if w.getLsbD chip.bitEP then some .endpointArm
  else none

/-- `Ctl`'s decode of its arguments (R261); `outPending` is the one bit of SEQ state the third guard reads, CT.resid > 0. -/
def decodeEpevt (chip : Chip) (outPending : Bool) (address : Byte) (status : BitVec 5) : Option Instr :=
  if address = 0x00#8 then
    if statusSetup chip status then some (.setupEvent status)
    else if outPending then some (.outDataEvent status)
    else some (.outStatusEvent status)
  else if address = 0x80#8 then some (.inEvent status)
  else none

/-! ## The decoder, total on any bytes -/

inductive Format where
  | cmdw
  | setup
  | devint
  | epevt
deriving DecidableEq, Repr

inductive DecodeError where
  /-- the bytes are not as many as the format has (R120) -/
  | wrongLength
  /-- a snapshot in which none of the three arm bits is set (R140) -/
  | noArm
  /-- an address that is neither half of endpoint 0 (R261) -/
  | noEvent
deriving DecidableEq, Repr

/-- Bytes of a register, what one access moves: `REG_W` bits (R10, R40, R85). -/
def regBytes (chip : Chip) : Nat := chip.regW.val / 8

/-- How many bytes a format has: CMDW 32 bits, SETUP 64, DEVINT a register's `REG_W` (R29, R120). DESIGN CHOICE (log 33): EPEVT,
"8 + 5 bits", the arguments of a call, takes two bytes; the spec gives it no byte layout. -/
def Format.bytes (chip : Chip) : Format → Nat
  | .cmdw => 4
  | .setup => 8
  | .devint => regBytes chip
  | .epevt => 2

/-- The bytes of one instruction of a format, in the order of their offsets (R82, R130). DESIGN CHOICE (log 33): of the two bytes of
an EPEVT pair the first is the endpoint address and the second holds the status in its bits 4:0; its bits 7:5 are dropped. -/
def codeOfBytes (chip : Chip) (fmt : Format) (bs : List Byte) : Except DecodeError Code :=
  if bs.length ≠ fmt.bytes chip then .error .wrongLength
  else
    let n := ofLeBytes bs
    match fmt with
    | .cmdw => .ok (.cmdw (BitVec.ofNat Config.wordW n))
    | .setup => .ok (.setup (BitVec.ofNat 64 n))
    | .devint => .ok (.devint (BitVec.ofNat Config.regMax n))
    | .epevt => .ok (.epevt (BitVec.ofNat 8 n) (BitVec.ofNat 5 (n / 256)))

def decode (chip : Chip) (outPending : Bool) : Code → Except DecodeError Instr
  | .cmdw w => .ok (decodeCmdw chip w).toInstr
  | .setup w => .ok (decodeSetup w)
  | .devint w => match decodeDevint chip w with
    | some i => .ok i
    | none => .error .noArm
  | .epevt a st => match decodeEpevt chip outPending a st with
    | some i => .ok i
    | none => .error .noEvent

def decodeBytes (chip : Chip) (fmt : Format) (outPending : Bool) (bs : List Byte) : Except DecodeError Instr :=
  match codeOfBytes chip fmt bs with
  | .ok c => decode chip outPending c
  | .error e => .error e

/-! ## The encoder -/

/-- `CmdWord(c)` (R123). -/
def cmdWord (chip : Chip) (c : Byte) : Word := 0#8 ++ c ++ chip.phCmd ++ 0#8

/-- `WrWord(d)` (R123). -/
def wrWord (chip : Chip) (d : Half) : Word := d ++ chip.phWrite ++ 0#8

/-- `RdWord(c)` (R123). -/
def rdWord (chip : Chip) (c : Byte) : Word := 0#8 ++ c ++ chip.phRead ++ 0#8

/-- "The index ... is added to the base code" (R125). -/
def codeWithIdx (base : Byte) (idx : Idx) : Byte := base + idx.setWidth 8

/-- The 64-bit number of a setup packet (R132). -/
def setupWord (f : SetupFields) (rtype recip : BitVec 2) (req : Byte) : BitVec 64 :=
  f.length ++ f.index ++ f.value ++ req ++ BitVec.ofBool f.dir ++ rtype ++ f.rsv ++ recip

def encodeStd (f : SetupFields) (recip : BitVec 2) (req : Byte) : Option Code := some (.setup (setupWord f Config.rtypeStandard recip req))

/-- The code of an instruction; CALL and WIRE rows and ENDPOINT_EVENT have no binary pattern (30_encoding.md). -/
def encode (chip : Chip) : Instr → Option Code
  | .selectEp i => some (.cmdw (cmdWord chip (codeWithIdx chip.codeSelectEp i)))
  | .selectEpRd i => some (.cmdw (rdWord chip (codeWithIdx chip.codeSelectEp i)))
  | .setEpStatus i => some (.cmdw (cmdWord chip (codeWithIdx chip.codeSetEpStatus i)))
  | .setMaxpkt i => some (.cmdw (cmdWord chip (codeWithIdx chip.codeSetMaxpkt i)))
  | .setAddress => some (.cmdw (cmdWord chip chip.codeSetAddress))
  | .configureDevice => some (.cmdw (cmdWord chip chip.codeConfigureDevice))
  | .clearBuffer => some (.cmdw (cmdWord chip chip.codeClearBuffer))
  | .validateBuffer => some (.cmdw (cmdWord chip chip.codeValidateBuffer))
  | .getDevStatus => some (.cmdw (cmdWord chip chip.codeGetDevStatus))
  | .getDevStatusRd => some (.cmdw (rdWord chip chip.codeGetDevStatus))
  | .wrdata d => some (.cmdw (wrWord chip d))
  | .reservedCmdw w => some (.cmdw w)
  | .getStatusDev f => encodeStd f Config.recipDevice Config.reqGetStatus
  | .getStatusIf f => encodeStd f Config.recipInterface Config.reqGetStatus
  | .getStatusEp f => encodeStd f Config.recipEndpoint Config.reqGetStatus
  | .clearFeatureDev f => encodeStd f Config.recipDevice Config.reqClearFeature
  | .clearFeatureIf f => encodeStd f Config.recipInterface Config.reqClearFeature
  | .clearFeatureEp f => encodeStd f Config.recipEndpoint Config.reqClearFeature
  | .setFeatureDev f => encodeStd f Config.recipDevice Config.reqSetFeature
  | .setFeatureIf f => encodeStd f Config.recipInterface Config.reqSetFeature
  | .setFeatureEp f => encodeStd f Config.recipEndpoint Config.reqSetFeature
  | .setAddressDev f => encodeStd f Config.recipDevice Config.reqSetAddress
  | .setAddressIf f => encodeStd f Config.recipInterface Config.reqSetAddress
  | .setAddressEp f => encodeStd f Config.recipEndpoint Config.reqSetAddress
  | .getDescriptorDev f => encodeStd f Config.recipDevice Config.reqGetDescriptor
  | .getDescriptorIf f => encodeStd f Config.recipInterface Config.reqGetDescriptor
  | .getDescriptorEp f => encodeStd f Config.recipEndpoint Config.reqGetDescriptor
  | .getConfigurationDev f => encodeStd f Config.recipDevice Config.reqGetConfiguration
  | .getConfigurationIf f => encodeStd f Config.recipInterface Config.reqGetConfiguration
  | .getConfigurationEp f => encodeStd f Config.recipEndpoint Config.reqGetConfiguration
  | .setConfigurationDev f => encodeStd f Config.recipDevice Config.reqSetConfiguration
  | .setConfigurationIf f => encodeStd f Config.recipInterface Config.reqSetConfiguration
  | .setConfigurationEp f => encodeStd f Config.recipEndpoint Config.reqSetConfiguration
  | .getInterfaceDev f => encodeStd f Config.recipDevice Config.reqGetInterface
  | .getInterfaceIf f => encodeStd f Config.recipInterface Config.reqGetInterface
  | .getInterfaceEp f => encodeStd f Config.recipEndpoint Config.reqGetInterface
  | .setInterfaceDev f => encodeStd f Config.recipDevice Config.reqSetInterface
  | .setInterfaceIf f => encodeStd f Config.recipInterface Config.reqSetInterface
  | .setInterfaceEp f => encodeStd f Config.recipEndpoint Config.reqSetInterface
  | .setDescriptorDev f => encodeStd f Config.recipDevice Config.reqSetDescriptor
  | .setDescriptorIf f => encodeStd f Config.recipInterface Config.reqSetDescriptor
  | .setDescriptorEp f => encodeStd f Config.recipEndpoint Config.reqSetDescriptor
  | .synchFrameDev f => encodeStd f Config.recipDevice Config.reqSynchFrame
  | .synchFrameIf f => encodeStd f Config.recipInterface Config.reqSynchFrame
  | .synchFrameEp f => encodeStd f Config.recipEndpoint Config.reqSynchFrame
  | .unknownRequest f req recip => encodeStd f recip req
  | .recipientOther f req => encodeStd f Config.recipOther req
  | .hReqClass f req recip => some (.setup (setupWord f Config.rtypeClass recip req))
  | .hReqVendor f req recip => some (.setup (setupWord f Config.rtypeVendor recip req))
  | .hReqReserved f req recip => some (.setup (setupWord f Config.rtypeReserved recip req))
  | .hCustom f req recip => some (.setup (setupWord f Config.rtypeStandard recip req))
  | .frameArm => some (.devint (1#Config.regMax <<< chip.bitFRAME))
  | .devstatArm => some (.devint (1#Config.regMax <<< chip.bitDEVSTAT))
  | .endpointArm => some (.devint (1#Config.regMax <<< chip.bitEP))
  | .setupEvent st => some (.epevt 0x00#8 st)
  | .outDataEvent st => some (.epevt 0x00#8 st)
  | .outStatusEvent st => some (.epevt 0x00#8 st)
  | .inEvent st => some (.epevt 0x80#8 st)
  | .endpointEvent _ | .command _ | .commandWrite _ _ | .commandRead _ | .registerHandler _ _
  | .configureEndpoint _ _ | .stall _ | .unstall _ | .getStatus _ | .epRead _ _ | .epWrite _ _ | .dispatchNow
  | .dataIn | .stallControl | .findDescriptor _ _ | .configureForSettingZero _ | .configureForSettingNonzero _ _
  | .wireSetup _ | .wireOut _ _ | .wireIn _ | .wireSof | .wireBusReset | .wireConnect _ | .wireSuspend _ => none

/-- The bytes of a code, in the order of their offsets (R82). DESIGN CHOICE (log 33): an EPEVT pair is the address, then the status
in bits 4:0 of a second byte whose bits 7:5 are 0. -/
def bytesOfCode (chip : Chip) : Code → Format × List Byte
  | .cmdw w => (.cmdw, leBytes 4 w.toNat)
  | .setup w => (.setup, leBytes 8 w.toNat)
  | .devint w => (.devint, leBytes (regBytes chip) w.toNat)
  | .epevt a st => (.epevt, leBytes 2 (a.toNat + 256 * st.toNat))

/-! ## The table's words -/

/-- The instruction read from a table word: 64 bits are a setup packet; 32 bits are a command-register word or, where that
is no command word, a snapshot (log 17). -/
def decodeTableWord (nbits w : Nat) : Option Instr :=
  if nbits = 64 then (decodeBytes Config.chip .setup false (leBytes 8 w)).toOption
  else if nbits = 32 then
    match decodeBytes Config.chip .cmdw false (leBytes 4 w), decodeBytes Config.chip .devint false (leBytes 4 w) with
    | .ok (.reservedCmdw _), .ok i => some i
    | .ok i, _ => some i
    | .error _, _ => none
  else none

end Sys2Proof
end

