-- ==== Sys2Proof/Machine/State.lean ====
section
/-! DEFINITION. All state of the block (10_state.md), the inputs that say which agent moves next, the reasons a step can
stop, and the state after reset. -/

namespace Sys2Proof.Machine

/-! ## Why a step can stop -/

/-- The fault kinds of 60_exceptions.md R405, R406: states from which the spec defines no further step. -/
inductive Fault where
  /-- Label 4: an access to STAGE past STAGE_CAP (R404), raised by DataIn, OUT_DATA_EVENT and the replies of the request
  table. Safe: the spec stops here by default; the hardware may go on. -/
  | bufferOverrun
  /-- Label 5: a read of DESC or HOOKMEM past its end (R84, R405), raised by the walks and by DataIn. Safe. -/
  | tableOverrun
  /-- Label 6: an APP operation while IRQ_MASK = 0 (R432), raised by every CALL row and every guarded act. Safe. -/
  | contextViolation
  /-- Label 7: a write of CMDCODE while PEND is set (R180, R461), raised by a register write. Safe. -/
  | reentrancy
  /-- Received data with CT.ptr outside STAGE, to which no rule gives a meaning (R11, R81, R269; log 12), raised by
  OUT_DATA_EVENT. Safe. -/
  | readOnlyStore
deriving DecidableEq, Repr

/-- Inputs the spec lets a model reject (93 treatment "refuse"). -/
inductive Refusal where
  /-- An arm of `exec` with no meaning yet. Safe. -/
  | notModelled (mnemonic : String)
  /-- U2: not an aligned 32-bit word at a listed offset (R85); raised by an APP register access. Safe. -/
  | badRegAccess
  /-- U6: a REALIZE bit written from 1 to 0 (R49); raised by a register write. Safe. -/
  | unrealise
  /-- U7: DPCTL written with RD_EN and WR_EN both 1 (R50); raised by a register write. Safe. -/
  | bothPorts
  /-- A call turn that holds no operation of format CALL (R160, log 5); raised by `step`. Safe. -/
  | badInput
deriving DecidableEq, Repr

/-! ## The engine (R40 to R60) -/

/-- An endpoint's one packet buffer (R58, R88). -/
inductive Buf where
  | empty
  | full (bytes : List Byte) (setup : Bool)
deriving DecidableEq, Repr, Inhabited

/-- The per-index endpoint record (R58). -/
structure EpRec where
  mps : Mps
  stalled : Bool
  nak : Bool
  err : Bool
  buf : Buf
deriving DecidableEq, Repr, Inhabited

/-- R65: mps 0, stalled 0, nak 0, err 0, buf empty. -/
def EpRec.reset : EpRec := { mps := 0#Config.lenW, stalled := false, nak := false, err := false, buf := .empty }

/-- The registers of the map (R40). -/
inductive Reg where
  | DEVINTST
  | DEVINTEN
  | DEVINTCLR
  | CMDCODE
  | CMDDATA
  | RXDATA
  | TXDATA
  | RXPLEN
  | TXPLEN
  | DPCTL
  | EPINTST
  | EPINTEN
  | EPINTCLR
  | REALIZE
deriving DecidableEq, Repr

/-- An EpRead or EpWrite under way: the index it works on (R379, log 13), and whether it is an EpWrite of more bytes than a packet
holds (R220, U8, log 20). -/
structure PortUse where
  idx : Idx
  long : Bool
deriving DecidableEq, Repr

/-- ENG: the register file (R40 to R52) and the internal state (R53 to R59). -/
structure Eng where
  devintst : RegWord
  devinten : RegWord
  epintst : Word
  epinten : Word
  /-- REALIZE, the marks (R49) -/
  realize : Word
  /-- RLZD, the hidden confirmations (R49, R206) -/
  rlzd : Word
  dpctl : RegWord
  /-- CMDDATA[15:0] (R45) -/
  cmddata : Half
  /-- "valid from the moment ENG sets CDFULL until the next write of CMDCODE" (R45) -/
  cmddataValid : Bool
  /-- DEVADDR: bit 7 DEV_EN, bits 6:0 the address (R53) -/
  devaddr : Byte
  /-- CONF (R54) -/
  conf : Bool
  /-- DEVSTAT: CON, CON_CH, SUS, SUS_CH, RST (R55) -/
  devstat : BitVec 5
  dsAck : Bool
  devstatPoison : Bool
  /-- SEL (R56) -/
  sel : Idx
  /-- CUR (R57) -/
  cur : Option Byte
  /-- PEND (R57) -/
  pend : Option Word
  /-- EP[0..31] (R58) -/
  ep : Vector EpRec 32
  rxidx : Idx
  rxpos : Nat
  /-- has RD_EN been written 1 since reset? (the model's own, log 7) -/
  rxOpened : Bool
  txidx : Idx
  txlen : Mps
  txacc : List Byte
  /-- the EpRead or EpWrite under way (the model's own, R379, log 13) -/
  portLock : Option PortUse
  /-- counter of ENG's free values (the model's own, log 3) -/
  fresh : Nat
deriving DecidableEq, Repr

/-- R65, R441. -/
def Eng.reset : Eng :=
  { devintst := 0#Config.regMax, devinten := 0#Config.regMax, epintst := 0#Config.wordW, epinten := 0#Config.wordW
    realize := 0#Config.wordW, rlzd := 0#Config.wordW, dpctl := 0#Config.regMax,
    cmddata := 0#16, cmddataValid := false, devaddr := 0x00#8, conf := false, devstat := 0#5, dsAck := false,
    devstatPoison := false, sel := 0#5, cur := none, pend := none, ep := Vector.replicate 32 EpRec.reset,
    rxidx := 0#5, rxpos := 0, rxOpened := false, txidx := 0#5, txlen := 0#Config.lenW, txacc := [], portLock := none, fresh := 0 }

/-! ## The sequencer (R21 to R35) -/

/-- CT.phase (R28). -/
inductive Phase where
  | idle
  | setupCaptured
  | dataD2H
  | dataH2D
  | statusStage
deriving DecidableEq, Repr

/-- The control-transfer registers (R22 to R25, R28). -/
structure Ct where
  phase : Phase
  dir : Bool
  ptr : Ptr
  resid : Half
  len : Nat
deriving DecidableEq, Repr

/-- What `Dispatch()` returns (R290). -/
inductive ReqResult where
  | ok
  | fail
deriving DecidableEq, Repr

/-- STAGE: (offset, byte) pairs, offsets strictly rising; an unlisted byte has no value of its own (U9, log 24). -/
abbrev Memory := List Host.Cell

/-- What SEQ still has to do, innermost first: the position of the one SEQ thread (R15, R91, log 18). -/
inductive Frame where
  /-- the pass, testing SNAP (R232); the bits in `tested` are done -/
  | arms (tested : RegWord)
  /-- the scan of EPINTST at index `i` (R238) -/
  | scan (i : Nat)
  /-- index `i` was seen set: serve it (R240) -/
  | epEvent (i : Idx)
  /-- the call of CTE's handler (R261) -/
  | handler (address : Byte) (status : BitVec 5)
  /-- EPM operations an external handler performs (R246) -/
  | hookOps (ops : List Instr)
  /-- `Dispatch()` (R290) -/
  | dispatch
  /-- the request in SU, the custom hook absent or having declined (R290, R293) -/
  | request
  /-- what `DispatchNow()` does with the result (R264) -/
  | replyNow
  /-- what `OnOutData()` does with the result (R269) -/
  | replyOut
deriving DecidableEq, Repr

/-! ## Observations (R16) and inputs -/

/-- What WIRE observes of an event (R370). -/
inductive WireOutcome where
  | ack
  | nak
  | stall
  | data (bytes : List Byte)
  | done
deriving DecidableEq, Repr

/-- A hook call with its arguments (R16 (d), R33). -/
inductive HookCall where
  | sof (id : Nat)
  | devst (id : Nat) (status : BitVec 3)
  | handler (id : Nat) (address : Byte) (status : BitVec 5)
  | request (id : Nat) (su : Vector Byte 8) (len : Nat) (ptr : Ptr) (stage : Memory)
deriving DecidableEq, Repr

/-- The result of the last APP call (R174, R212, R216, R351) or act. -/
inductive Ret where
  | none
  | data (d : Half)
  | status (st : BitVec 5)
  | bytes (bs : List Byte)
  | descriptor (r : Option (Nat × Nat))
  | word (w : RegWord)
  | byte (b : Byte)
  | flags (f : BitVec 3)
  | ct (c : Ct)
  | handler (h : Option Handler)
  | hook (h : Option Nat)
deriving DecidableEq, Repr

/-- The hook slots of R33 beside the handler table. -/
inductive HookSlot where
  | sof
  | devst
  | req1
  | req2
  | req3
  | custom
deriving DecidableEq, Repr

/-- What APP does that is no row of the table (R430 to R433, R446): the mask; one register access; and under the mask reads and
writes of SEQ state, "anything SEQ may write" (R67). IN_ISR, SNAP and SEQ's position are not among them: interrupt context
"cannot be entered by software" (R430). That these single acts are the grain of APP is the model's choice (log 28). -/
inductive AppAct where
  | setMask (v : Bool)
  | setDesc (d : List Byte)
  | installHook (slot : HookSlot) (h : Option Nat)
  | regRead (addr : Nat) (size : Nat)
  | regWrite (addr : Nat) (size : Nat) (v : RegWord)
  /-- the read-modify-write OR of R87 -/
  | regOr (addr : Nat) (v : RegWord)
  | readConfig
  | readDevflags
  | readSu
  | readCt
  | readStage (off n : Nat)
  | readHandler (i : Idx)
  | readHook (slot : HookSlot)
  | writeConfig (b : Byte)
  | writeDevflags (f : BitVec 3)
  | writeSu (b : Vector Byte 8)
  | writeCt (c : Ct)
  | writeStage (off : Nat) (bytes : List Byte)
deriving DecidableEq, Repr

/-- A step of another agent between two accesses of SEQ (R91). -/
inductive Move where
  | eng
  | wire (e : WireEvent)
deriving DecidableEq, Repr

/-- Whose turn it is. `inter` lists, for each coming access of SEQ, what ENG and WIRE do before it (log 5). -/
inductive Turn where
  | wire (e : WireEvent)
  | eng
  | seq (inter : List (List Move))
  | call (i : Instr) (inter : List (List Move))
  | app (a : AppAct) (inter : List (List Move))
deriving DecidableEq, Repr

/-- The whole state (R20). -/
structure State where
  /-- the configuration record; no step changes it (R7) -/
  cfg : Cfg
  eng : Eng
  /-- SU (R21) -/
  su : Vector Byte 8
  ct : Ct
  /-- STAGE (R26) -/
  stage : Memory
  /-- CONFIG (R31) -/
  config : Byte
  /-- DEVFLAGS (R32) -/
  devflags : BitVec 3
  /-- HND[0..31] (R33) -/
  hnd : Vector (Option Handler) 32
  hSof : Option Nat
  hDevst : Option Nat
  hReq1 : Option Nat
  hReq2 : Option Nat
  hReq3 : Option Nat
  hCustom : Option Nat
  /-- IN_ISR (R29) -/
  inIsr : Bool
  /-- SNAP (R29) -/
  snap : Option RegWord
  /-- the SEQ thread's position (log 18) -/
  frames : List Frame
  /-- the flag SEQ waits for for ever (R175, R403) -/
  hung : Option Nat
  /-- what the last `Dispatch()` returned -/
  result : ReqResult
  /-- IRQ_MASK (R34) -/
  irqMask : Bool
  /-- DESC (R80, R350) -/
  desc : List Byte
  /-- HOOKMEM (R80) -/
  hookmem : List Byte
  /-- input: whose turn is next (log 5) -/
  turns : List Turn
  /-- input: moves before each coming access of the running instruction (log 5) -/
  slots : List (List Move)
  /-- input: answers of the request hooks (log 14) -/
  hookAnswers : List HookAnswer
  /-- input: what external handlers do (log 14) -/
  handlerScripts : List (List Instr)
  /-- counter of SEQ's free values (log 3) -/
  fresh : Nat
  /-- observed by WIRE, newest first (R370) -/
  wireLog : List (WireEvent × WireOutcome)
  /-- hook calls, newest first -/
  hookLog : List HookCall
  /-- result of the last APP call -/
  ret : Ret
deriving DecidableEq, Repr

/-- R66, R441, R442. SU is any 8 bytes; the model's own fields and open parameters as log 1, 2 and 26 say. -/
def State.reset : State :=
  { cfg := Cfg.default
    eng := Eng.reset
    su := Vector.ofFn (fun k : Fin 8 => Config.resetSU k.val)
    ct := { phase := .idle, dir := false, ptr := { space := .stage, off := 0 }, resid := 0#16, len := 0 }
    stage := []
    config := 0x00#8
    devflags := 0#3
    hnd := Vector.replicate 32 none
    hSof := none, hDevst := none, hReq1 := none, hReq2 := none, hReq3 := none, hCustom := none
    inIsr := false
    snap := none
    frames := []
    hung := none
    result := .fail
    irqMask := true
    desc := [0x00#8]
    hookmem := []
    turns := []
    slots := []
    hookAnswers := []
    handlerScripts := []
    fresh := 0
    wireLog := []
    hookLog := []
    ret := .none }

end Sys2Proof.Machine
end

