-- ==== Sys2Proof/Machine/Operands.lean ====
section
/-! DEFINITION. How operands are read: endpoint addresses and indices (R127 to R129), fields of SU (R21), bytes of data-port
words (R83), bytes of the descriptor table. -/

namespace Sys2Proof.Machine

/-- `EpIdx(a) = (number << 1) | direction` (R128); bits 6:4 are dropped (R129). -/
def epIdx (a : Byte) : Idx := a.extractLsb' 0 4 ++ a.extractLsb' 7 1

/-- `EpAddr(i)`, the inverse (R128). -/
def epAddr (i : Idx) : Byte := i.extractLsb' 0 1 ++ 0#3 ++ i.extractLsb' 1 4

/-- The OUT index of an endpoint number (R51). -/
def outIdx (num : BitVec 4) : Idx := num ++ 0#1

/-- The IN index of an endpoint number (R52). -/
def inIdx (num : BitVec 4) : Idx := num ++ 1#1

/-- The eight bytes of SU as the 64-bit number the decoder reads (R21, R132). -/
def suWord (b : Vector Byte 8) : BitVec 64 := b[7] ++ b[6] ++ b[5] ++ b[4] ++ b[3] ++ b[2] ++ b[1] ++ b[0]

/-- `SU.length = le16(b[6], b[7])` (R21). -/
def suLength (b : Vector Byte 8) : Half := le16 b[6] b[7]

/-- `SU.type[7]`: 1 is device-to-host (R131). -/
def suDir (b : Vector Byte 8) : Bool := b[0].getLsbD 7

/-- "for k in 0 .. n-1: SU.b[k] <- b[k]" (R262): the bytes read replace the first ones. -/
def suCapture (su : Vector Byte 8) (bs : List Byte) : Vector Byte 8 :=
  Vector.ofFn (fun k : Fin 8 => (bs[k.val]?).getD su[k])

/-- `a = SU.index[7:0]`, the endpoint address of an endpoint request (R302). -/
def indexAddress (f : SetupFields) : Byte := f.index.extractLsb' 0 8

/-- The endpoint number in the low bits of an address, as DPCTL takes it (R217, R221). -/
def portNumber (a : Byte) : BitVec 4 := a.extractLsb' 0 4

/-- Byte `k` of a packet, 0 past its end (R51, R221). -/
def byteOr0 (bs : List Byte) (k : Nat) : Byte := (bs[k]?).getD 0#8

/-- The data-port word at packet offset `p`: "byte at packet offset RXPOS + j in bits [8j+7 : 8j]" (R51, R83). -/
def portWord (bs : List Byte) (p : Nat) : Word :=
  byteOr0 bs (p + 3) ++ byteOr0 bs (p + 2) ++ byteOr0 bs (p + 1) ++ byteOr0 bs p

/-- "the four bytes v[7:0], v[15:8], v[23:16], v[31:24] in that order" (R52). -/
def wordBytes (v : Word) : List Byte :=
  [v.extractLsb' 0 8, v.extractLsb' 8 8, v.extractLsb' 16 8, v.extractLsb' 24 8]

/-- The number of data-port words of a packet, `ceil(n / 4)` (R217, R221). -/
def portWords (n : Nat) : Nat := (n + 3) / 4

/-- The offset of a register (R40). -/
def Reg.offset (chip : Chip) : Reg → Nat
  | .DEVINTST => chip.offDEVINTST
  | .DEVINTEN => chip.offDEVINTEN
  | .DEVINTCLR => chip.offDEVINTCLR
  | .CMDCODE => chip.offCMDCODE
  | .CMDDATA => chip.offCMDDATA
  | .RXDATA => chip.offRXDATA
  | .TXDATA => chip.offTXDATA
  | .RXPLEN => chip.offRXPLEN
  | .TXPLEN => chip.offTXPLEN
  | .DPCTL => chip.offDPCTL
  | .EPINTST => chip.offEPINTST
  | .EPINTEN => chip.offEPINTEN
  | .EPINTCLR => chip.offEPINTCLR
  | .REALIZE => chip.offREALIZE

/-- Every register of the map, in the order of R40. -/
def Reg.all : List Reg :=
  [.DEVINTST, .DEVINTEN, .DEVINTCLR, .CMDCODE, .CMDDATA, .RXDATA, .TXDATA] ++
  [.RXPLEN, .TXPLEN, .DPCTL, .EPINTST, .EPINTEN, .EPINTCLR, .REALIZE]

/-- The register an access names: a whole aligned word of `REG_W` bits at a listed offset from BASE, nothing else (R40, R85). DESIGN
CHOICE: of two registers at one offset the first in R40's order (log 22); a register whose offset is not a multiple of the word is
named by no access of APP, since every access to it is misaligned (log 32). -/
def regOfAddr (chip : Chip) (base : Word) (addr size : Nat) : Option Reg :=
  if size = regBytes chip ∧ addr % regBytes chip = 0 then Reg.all.find? (fun r => base.toNat + r.offset chip == addr) else none

end Sys2Proof.Machine
end

