-- ==== Sys2Proof/Machine/Flags.lean ====
section
/-! DEFINITION. The flags: bits of the interrupt registers, the raw and the normalised status bitmaps (R41, R58, R61, R62)
and the interrupt line (R60). -/

namespace Sys2Proof.Machine

/-- The value of `w` bits with only bit `i` set: of a register, or of a bitmap of the indices. -/
def bit {w : Nat} (i : Nat) : BitVec w := 1#w <<< i

/-- `x` with bit `i` set. -/
def setBit {w : Nat} (x : BitVec w) (i : Nat) : BitVec w := x ||| bit i

/-- The defined bits of DEVINTST and DEVINTEN (R41): 0, 2, 3, 4, 5 and 8; the others are reserved and read 0. -/
def devintMask (chip : Chip) : RegWord :=
  bit chip.bitFRAME ||| bit chip.bitEP ||| bit chip.bitDEVSTAT ||| bit chip.bitCCEMPTY ||| bit chip.bitCDFULL |||
    bit chip.bitEPRLZD

/-- DPCTL keeps RD_EN, WR_EN and the four bits of LOG_EP (R50). -/
def dpctlMask (chip : Chip) : RegWord := bit chip.bitRDEN ||| bit chip.bitWREN ||| (0xF#Config.regMax <<< chip.lsbLOGEP)

/-- DPCTL.RD_EN (R50). -/
def rdEn (chip : Chip) (dpctl : RegWord) : Bool := dpctl.getLsbD chip.bitRDEN

/-- DPCTL.WR_EN (R50). -/
def wrEn (chip : Chip) (dpctl : RegWord) : Bool := dpctl.getLsbD chip.bitWREN

/-- DPCTL.LOG_EP (R50). -/
def logEp (chip : Chip) (dpctl : RegWord) : BitVec 4 := dpctl.extractLsb' chip.lsbLOGEP 4

/-- Does the buffer hold a packet? (FE, R58) -/
def Buf.isFull : Buf → Bool
  | .empty => false
  | .full _ _ => true

/-- Is the buffered packet a SETUP packet? (STP, R58) -/
def Buf.isSetup : Buf → Bool
  | .empty => false
  | .full _ s => s

/-- The packet in the buffer, empty if there is none. -/
def Buf.packet : Buf → List Byte
  | .empty => []
  | .full b _ => b

/-- A register or status with only bit `i` holding `b`; every position of a chip lies inside (`Chip.fits`, log 32). -/
def flagAt {w : Nat} (i : Nat) (b : Bool) : BitVec w := (BitVec.ofBool b).setWidth w <<< i

/-- `RAW(i) = EPN :: PO :: STP :: ST :: FE` (R58). -/
def EpRec.raw (chip : Chip) (r : EpRec) : BitVec 5 :=
  flagAt chip.bitEPN r.nak ||| flagAt chip.bitPO r.err ||| flagAt chip.bitSTP r.buf.isSetup |||
    flagAt chip.bitST r.stalled ||| flagAt chip.bitFE r.buf.isFull

/-- `NormEp(raw)`: DATA_READY = FE, STALLED = ST, SETUP = STP, NACKED = EPN, ERROR = PO (R61). -/
def normEp (chip : Chip) (raw : BitVec 5) : BitVec 5 :=
  flagAt chip.bitDATAREADY (raw.getLsbD chip.bitFE) ||| flagAt chip.bitSTALLED (raw.getLsbD chip.bitST) |||
    flagAt chip.bitSETUP (raw.getLsbD chip.bitSTP) ||| flagAt chip.bitNACKED (raw.getLsbD chip.bitEPN) |||
    flagAt chip.bitERROR (raw.getLsbD chip.bitPO)

/-- `STALLED` of a normalised status (R61). -/
def statusStalled (chip : Chip) (st : BitVec 5) : Bool := st.getLsbD chip.bitSTALLED

/-- `NormDev(raw)`: CONNECT = CON, SUSPEND = SUS, RESET = RST (R62). -/
def normDev (chip : Chip) (raw : BitVec 5) : BitVec 3 :=
  flagAt chip.bitCONNECT (raw.getLsbD chip.bitCON) ||| flagAt chip.bitSUSPEND (raw.getLsbD chip.bitSUS) |||
    flagAt chip.bitRESET (raw.getLsbD chip.bitRST)

/-- "any of connect-changed/suspend-changed/reset is set" (R236). -/
def devChanged (chip : Chip) (raw : BitVec 5) : Bool :=
  raw.getLsbD chip.bitCONCH || raw.getLsbD chip.bitSUSCH || raw.getLsbD chip.bitRST

/-- `DEVSTAT` with one bit written (R376 to R378). -/
def devPut (i : Nat) (v : Bool) (d : BitVec 5) : BitVec 5 := if v then d ||| flagAt i true else d &&& ~~~flagAt i true

/-- `DEVSTAT` with `CON_CH`, `SUS_CH` and `RST` cleared (R187). -/
def devLevels (chip : Chip) (d : BitVec 5) : BitVec 5 :=
  devPut chip.bitCONCH false (devPut chip.bitSUSCH false (devPut chip.bitRST false d))

/-- `IRQ = ((DEVINTST & DEVINTEN) != 0)` (R60). -/
def Eng.irq (e : Eng) : Bool := (e.devintst &&& e.devinten) != 0#Config.regMax

end Sys2Proof.Machine
end

