-- ==== Sys2Proof/Machine/Ops.lean ====
section
/-! DEFINITION. The named operations over memory, endpoint records and registers, entry and return of a dispatcher pass
(the block's exception entry, R413, R414), and the shape of a sequencer computation. -/

namespace Sys2Proof.Machine

abbrev Out := Host.Outcome State Fault Refusal

/-! ## STAGE as memory (R26, R80, log 24) -/

/-- Offsets strictly rising: the canonical form. -/
def Memory.wf : Memory → Bool
  | [] => true
  | [_] => true
  | a :: b :: m => decide (a.1 < b.1) && Memory.wf (b :: m)

/-- The byte at an offset; `none` where nothing has been written since reset. -/
def Memory.read : Memory → Nat → Option Byte
  | [], _ => none
  | (k, v) :: m, a => if k = a then some v else Memory.read m a

/-- Store one byte, keeping the canonical form. -/
def Memory.write : Memory → Nat → Byte → Memory
  | [], a, b => [(a, b)]
  | (k, v) :: m, a, b =>
    if a < k then (a, b) :: (k, v) :: m
    else if a = k then (a, b) :: m
    else (k, v) :: Memory.write m a b

/-- Store bytes in ascending order from an offset (R81). -/
def Memory.writeList : Memory → Nat → List Byte → Memory
  | m, _, [] => m
  | m, a, b :: bs => Memory.writeList (Memory.write m a b) (a + 1) bs

/-- Store the bytes a hook says it wrote, where they lie in `STAGE[0 .. STAGE_CAP)` (R292). -/
def Memory.writeCells (cap : Nat) : Memory → List (Nat × Byte) → Memory
  | m, [] => m
  | m, (a, b) :: cs => Memory.writeCells cap (if a < cap then Memory.write m a b else m) cs

/-- `n` bytes of STAGE from an offset; a byte never written is a free value, the next of the counter (U9). The second part
is the counter afterwards. -/
def Memory.readList (m : Memory) : Nat → Nat → Nat → List Byte × Nat
  | _, 0, fresh => ([], fresh)
  | a, n + 1, fresh =>
    match Memory.read m a with
    | some b => let r := Memory.readList m (a + 1) n fresh; (b :: r.1, r.2)
    | none => let r := Memory.readList m (a + 1) n (fresh + 1); (Config.freeByte fresh :: r.1, r.2)

/-! ## Endpoint records (R58) -/

/-- `EP[i]`. -/
def Eng.epAt (e : Eng) (i : Idx) : EpRec := e.ep[i.toNat]'(by have := i.isLt; omega)

/-- `EP[i] <- r`. -/
def Eng.setEp (e : Eng) (i : Idx) (r : EpRec) : Eng :=
  { e with ep := e.ep.set i.toNat r (by have := i.isLt; omega) }

/-- The index an EpRead or EpWrite is working on (R379, log 13). -/
def Eng.lockedIdx (e : Eng) : Option Idx := e.portLock.map PortUse.idx

/-- Is an EpWrite of more bytes than a packet holds under way? Its packet is then any (R220, U8, log 20). -/
def Eng.overLong (e : Eng) : Bool := (e.portLock.map PortUse.long).getD false

/-- `HND[i]`. -/
def State.hndAt (s : State) (i : Idx) : Option Handler := s.hnd[i.toNat]'(by have := i.isLt; omega)

/-- The size a SET_MAXPKT word carries: its low `MPS_W` bits (R58, R184, R202, D10). -/
def sizeIn (chip : Chip) (d : Half) : Mps := d.extractLsb' 0 Config.lenW &&& BitVec.ofNat Config.lenW (2 ^ chip.mpsW.val - 1)

/-- R381: the endpoint's pending bit, and the umbrella flag if the endpoint is enabled, whether or not the bit was
already 1. -/
def setEpInt (chip : Chip) (i : Idx) (e : Eng) : Eng :=
  { e with
    epintst := setBit e.epintst i.toNat
    devintst := if e.epinten.getLsbD i.toNat then setBit e.devintst chip.bitEP else e.devintst }

/-! ## The register file: one access (R40 to R52, R87) -/

/-- Why a sequencer computation ends before its end. -/
inductive Stop where
  | hang (bit : Nat)
  | fault (f : Fault)
  | refuse (r : Refusal)
deriving DecidableEq, Repr

/-- The next of ENG's free values has been used. -/
def Eng.tick (e : Eng) : Eng := { e with fresh := e.fresh + 1 }

/-- RXPLEN once the port has been opened (R51): PKT_RDY = 1, DV, LEN in the low bits; the others are reserved and read 0. -/
def rxplen (chip : Chip) (b : Buf) : RegWord :=
  bit chip.bitPKTRDY ||| flagAt chip.bitDV b.isFull ||| (BitVec.ofNat Config.lenW b.packet.length).setWidth Config.regMax

/-- A read of RXDATA with RD_EN = 1 (R51). DESIGN CHOICE (log 29): RXPOS is held against LEN here, after a read, and not when the
port opens, so that a port opened on an empty packet stays open until one read. -/
def Eng.readRxdata (chip : Chip) (e : Eng) : RegWord × Eng :=
  let pkt := (e.epAt e.rxidx).buf.packet
  let pos := e.rxpos + 4
  ((portWord pkt e.rxpos).setWidth Config.regMax,
    { e with rxpos := pos, dpctl := if pkt.length ≤ pos then e.dpctl &&& ~~~(bit chip.bitRDEN) else e.dpctl })

/-- Any value of a register, `REG_W` bits (U3). -/
def anyWord (chip : Chip) (n : Nat) : RegWord := ((Config.freeWord n).setWidth chip.regW.val).setWidth Config.regMax

/-- `RegRead` (R41 to R52, R86): the value, zeros at the reserved bits (R40). DESIGN CHOICE (log 30): a read of RXDATA with RD_EN = 0 returns any value (R51) and moves
neither RXPOS nor DPCTL. -/
def Eng.readReg (chip : Chip) (r : Reg) (e : Eng) : RegWord × Eng :=
  match r with
  | .DEVINTST => (e.devintst, e)
  | .DEVINTEN => (e.devinten, e)
  | .EPINTST => (e.epintst.setWidth Config.regMax, e)
  | .EPINTEN => (e.epinten.setWidth Config.regMax, e)
  | .REALIZE => (e.realize.setWidth Config.regMax, e)
  | .DPCTL => (e.dpctl, e)
  | .CMDDATA =>
    if e.cmddataValid then (e.cmddata.setWidth Config.regMax, e) else ((Config.freeHalf e.fresh).setWidth Config.regMax, e.tick)
  | .RXPLEN =>
    if e.rxOpened || rdEn chip e.dpctl then (rxplen chip (e.epAt e.rxidx).buf, e) else (0#Config.regMax, e)
  | .RXDATA => if rdEn chip e.dpctl then e.readRxdata chip else (anyWord chip e.fresh, e.tick)
  | .DEVINTCLR => (anyWord chip e.fresh, e.tick)
  | .CMDCODE => (anyWord chip e.fresh, e.tick)
  | .TXDATA => (anyWord chip e.fresh, e.tick)
  | .TXPLEN => (anyWord chip e.fresh, e.tick)
  | .EPINTCLR => (anyWord chip e.fresh, e.tick)

/-- R43: write-one-to-clear; a 1 in bit 3 also sets DS_ACK. -/
def Eng.writeDevintclr (chip : Chip) (v : RegWord) (e : Eng) : Eng :=
  { e with devintst := e.devintst &&& ~~~v, dsAck := e.dsAck || v.getLsbD chip.bitDEVSTAT }

/-- R47, R41: an enable that goes from 0 to 1 over a pending event raises the umbrella flag. -/
def Eng.writeEpinten (chip : Chip) (v : Word) (e : Eng) : Eng :=
  { e with
    epinten := v
    devintst := if (v &&& ~~~e.epinten &&& e.epintst) != 0#Config.wordW then setBit e.devintst chip.bitEP else e.devintst }

/-- R50, R59: opening a port loads its cursors. DESIGN CHOICE (log 29): it clears neither enable, also where the packet to be
read is empty and RXPOS = 0 is not below LEN = 0. -/
def Eng.writeDpctl (chip : Chip) (v : RegWord) (e : Eng) : Eng :=
  { e with
    dpctl := v &&& dpctlMask chip
    rxidx := if rdEn chip v then outIdx (logEp chip v) else e.rxidx
    rxpos := if rdEn chip v then 0 else e.rxpos
    rxOpened := e.rxOpened || rdEn chip v
    txidx := if wrEn chip v then inIdx (logEp chip v) else e.txidx }

/-- R52: "Whenever len(TXACC) >= TXLEN after either kind of write, ENG clears DPCTL.WR_EN". -/
def Eng.closeTx (chip : Chip) (e : Eng) : Eng :=
  { e with dpctl := if e.txlen.toNat ≤ e.txacc.length then e.dpctl &&& ~~~(bit chip.bitWREN) else e.dpctl }

/-- R52, with the port open. -/
def Eng.writeTxplen (chip : Chip) (v : Word) (e : Eng) : Eng :=
  ({ e with txlen := v.extractLsb' 0 Config.lenW, txacc := [] } : Eng).closeTx chip

/-- R52, with the port open. -/
def Eng.writeTxdata (chip : Chip) (v : Word) (e : Eng) : Eng :=
  ({ e with txacc := e.txacc ++ wordBytes v } : Eng).closeTx chip

/-- R44, R45, R180: acceptance of a phase word; CMDDATA is no longer valid. -/
def Eng.accept (w : Word) (e : Eng) : Eng := { e with pend := some w, cmddataValid := false }

/-- R49: marks are set, never taken back (U6). -/
def Eng.writeRealize (v : Word) (e : Eng) : Except Stop Eng :=
  if (e.realize &&& ~~~v) != 0#Config.wordW then .error (.refuse .unrealise) else .ok { e with realize := v }

/-- `RegWrite` (R41 to R52, R86): of the value, the bits the register has; the reserved ones ignore writes (R40). PRESUMED: TXPLEN with WR_EN = 0 is ignored, as R52 says of TXDATA (log 8), and so is a write of
a read-only register (log 9). -/
def Eng.writeReg (chip : Chip) (r : Reg) (v : RegWord) (e : Eng) : Except Stop Eng :=
  match r with
  | .DEVINTEN => .ok { e with devinten := v &&& devintMask chip }
  | .DEVINTCLR => .ok (e.writeDevintclr chip v)
  | .CMDCODE => if e.pend.isSome then .error (.fault .reentrancy) else .ok (e.accept (v.setWidth Config.wordW))
  | .TXDATA => .ok (if wrEn chip e.dpctl then e.writeTxdata chip (v.setWidth Config.wordW) else e)
  | .TXPLEN => .ok (if wrEn chip e.dpctl then e.writeTxplen chip (v.setWidth Config.wordW) else e)
  | .DPCTL => if rdEn chip v && wrEn chip v then .error (.refuse .bothPorts) else .ok (e.writeDpctl chip v)
  | .EPINTEN => .ok (e.writeEpinten chip (v.setWidth Config.wordW))
  | .EPINTCLR => .ok { e with epintst := e.epintst &&& ~~~(v.setWidth Config.wordW) }
  | .REALIZE => e.writeRealize (v.setWidth Config.wordW)
  | .DEVINTST => .ok e
  | .CMDDATA => .ok e
  | .RXDATA => .ok e
  | .RXPLEN => .ok e
  | .EPINTST => .ok e

/-! ## Entry to a pass and return from it (R230, R231, R242, R413, R414) -/

/-- "The dispatcher is entered when IRQ = 1, IRQ_MASK = 0 and IN_ISR = 0" (R60, R230). -/
def State.entryEnabled (s : State) : Bool := s.eng.irq && !s.irqMask && !s.inIsr

/-- Entry: IN_ISR <- 1 and nothing else is saved; the first access loads SNAP; control goes to the arms (R413). -/
def enterPass (s : State) : State :=
  { s with inIsr := true, snap := some s.eng.devintst, frames := [.arms 0#Config.regMax] }

/-- Return: IN_ISR <- 0, nothing restored; the snapshot does not survive (R29, R242, R414). -/
def exitPass (s : State) : State :=
  { s with inIsr := false, snap := none, frames := [] }

/-! ## Sequencer computations -/

/-- A sequence of SEQ's accesses on the state. -/
abbrev SeqM := EStateM Stop State

/-- The state at a hang (R403): SEQ never moves again; the exclusion of R379 ends, since ENG goes on answering from the
buffers (log 13). -/
def hangState (b : Nat) (s : State) : State :=
  { s with hung := some b, eng := { s.eng with portLock := none } }

/-- The outcome of a computation: a hang is a state, a fault and a refusal stop the model (R11). -/
def outcome {α : Type} : EStateM.Result Stop State α → Out
  | .ok _ s => .next s
  | .error (.hang b) s => .next (hangState b s)
  | .error (.fault f) _ => .fault f
  | .error (.refuse r) _ => .refused r

/-- Run a computation from a state. -/
def runSeq {α : Type} (m : SeqM α) (s : State) : Out := outcome (m s)

/-- APP may touch the block only under the mask, SEQ only in a pass (R176, R432). -/
def State.mayOperate (s : State) : Bool := s.inIsr || s.irqMask

/-- An operation software calls (R161): the context rule first, then the operation. -/
def runCall {α : Type} (m : SeqM α) (s : State) : Out :=
  if s.mayOperate then runSeq m s else .fault .contextViolation

/-- Continue with these frames above the ones that wait. -/
def pushFrames (fs : List Frame) : SeqM Unit := modify (fun s => { s with frames := fs ++ s.frames })

/-- The result `Dispatch()` returns (R290). -/
def setResult (r : ReqResult) : SeqM Unit := modify (fun s => { s with result := r })

/-- The result of an APP call. -/
def setRet (r : Ret) : SeqM Unit := modify (fun s => { s with ret := r })

/-- Note a hook call (R16 (d)). -/
def logHook (c : HookCall) : SeqM Unit := modify (fun s => { s with hookLog := c :: s.hookLog })

end Sys2Proof.Machine
end

