-- ==== Sys2Proof/Machine/Engine.lean ====
section
/-! DEFINITION. ENG's side of the command protocol (40_hci.md R180 to R193): format CMDW. Each row is the completion of the
phase word in PEND, one ENG step; the effect is a function on `Eng`, which SEQ's waits use too. -/

namespace Sys2Proof.Machine

/-! ## The ends of a phase -/

/-- R181: the end of a command phase with code `c`. -/
def Eng.endCommand (chip : Chip) (c : Byte) (e : Eng) : Eng :=
  { e with cur := some c, pend := none, devintst := setBit e.devintst chip.bitCCEMPTY }

/-- R182: the end of a write-data phase. -/
def Eng.endWrite (chip : Chip) (e : Eng) : Eng :=
  { e with cur := none, pend := none, devintst := setBit e.devintst chip.bitCCEMPTY }

/-- R183: the end of a read-data phase with a 16-bit value. -/
def Eng.endRead (chip : Chip) (v : Half) (e : Eng) : Eng :=
  { e with
    cmddata := v, cmddataValid := true, cur := none, pend := none
    devintst := setBit e.devintst chip.bitCDFULL }

/-- R193: a reserved read-data phase completes "with any value in CMDDATA". -/
def Eng.reservedRead (chip : Chip) (e : Eng) : Eng := (Eng.endRead chip (Config.freeHalf e.fresh) e).tick

/-- R193: a reserved word whose PHASE is none of the three raises one of the two flags (log 10). -/
def Eng.reservedPhase (chip : Chip) (e : Eng) : Eng :=
  if Config.freeBit e.fresh then (e.endWrite chip).tick else (Eng.endRead chip (Config.freeHalf (e.fresh + 1)) e).tick.tick

/-! ## Effects of the commands -/

/-- R190: "of this index only `stalled`". -/
def Eng.setStalled (i : Idx) (v : Bool) (e : Eng) : Eng := e.setEp i { e.epAt i with stalled := v }

/-- R184, R206: the size; for a marked index the confirmation, and at the first realisation an empty endpoint. -/
def Eng.setMps (chip : Chip) (i : Idx) (m : Mps) (e : Eng) : Eng :=
  if e.realize.getLsbD i.toNat then
    let r : EpRec :=
      if e.rlzd.getLsbD i.toNat then { e.epAt i with mps := m }
      else { mps := m, stalled := false, nak := false, err := false, buf := .empty }
    { e.setEp i r with rlzd := setBit e.rlzd i.toNat, devintst := setBit e.devintst chip.bitEPRLZD }
  else e.setEp i { e.epAt i with mps := m }

/-- R191. -/
def Eng.clearBuffer (e : Eng) : Eng := e.setEp e.sel { e.epAt e.sel with buf := .empty, err := false }

/-- The preconditions of R192; an index the port fills is an IN index (R52, U8), and no EpWrite longer than a packet is under way
(R220, U8). DESIGN CHOICE (log 11): the capacity compared with is `mps`, which SET_MAXPKT stores for an index that is not
realised too (R184), although R454 speaks of a capacity of 0 there. -/
def Eng.mayValidate (chip : Chip) (e : Eng) : Bool :=
  e.sel == e.txidx && e.sel.getLsbD 0 && !wrEn chip e.dpctl && decide (e.txlen.toNat ≤ e.txacc.length) &&
    decide (e.txlen.toNat ≤ (e.epAt e.sel).mps.toNat) && !e.overLong

/-- R192; outside the preconditions "the content of the buffer is any byte list" of length at most 1023 (U8, log 11). -/
def Eng.validateBuffer (chip : Chip) (e : Eng) : Eng :=
  if e.mayValidate chip then e.setEp e.sel { e.epAt e.sel with buf := .full (e.txacc.take e.txlen.toNat) false }
  else (e.setEp e.sel { e.epAt e.sel with buf := .full (Config.freePacket e.fresh) false }).tick

/-- R187: the value read, "DEVSTAT_POISON = 1 before this step ? any 5-bit value : DEVSTAT". -/
def Eng.devStatusValue (e : Eng) : Half :=
  (if e.devstatPoison then Config.freeStatus e.fresh else e.devstat).setWidth 16

/-- R187: reading before clearing poisons; the three event bits and DS_ACK are cleared. -/
def Eng.afterDevStatus (chip : Chip) (e : Eng) : Eng :=
  { e with
    devstatPoison := e.devstatPoison || (e.devintst.getLsbD chip.bitDEVSTAT && !e.dsAck)
    devstat := devLevels chip e.devstat
    dsAck := false
    fresh := if e.devstatPoison then e.fresh + 1 else e.fresh }

/-! ## Completions, one per row -/

/-- R188. -/
def Eng.completeSelectEp (chip : Chip) (i : Idx) (e : Eng) : Eng :=
  Eng.endCommand chip (codeWithIdx chip.codeSelectEp i) { e with sel := i }

/-- R189; reserved where CUR is another code (R126). -/
def Eng.completeSelectEpRd (chip : Chip) (i : Idx) (e : Eng) : Eng :=
  if e.cur = some (codeWithIdx chip.codeSelectEp i) then Eng.endRead chip (((e.epAt i).raw chip).setWidth 16) e else e.reservedRead chip

/-- R181: no effect in the command phase. -/
def Eng.completeSetEpStatus (chip : Chip) (i : Idx) (e : Eng) : Eng := e.endCommand chip (codeWithIdx chip.codeSetEpStatus i)

/-- R181: no effect in the command phase. -/
def Eng.completeSetMaxpkt (chip : Chip) (i : Idx) (e : Eng) : Eng := e.endCommand chip (codeWithIdx chip.codeSetMaxpkt i)

/-- R181: no effect in the command phase. -/
def Eng.completeSetAddress (chip : Chip) (e : Eng) : Eng := e.endCommand chip chip.codeSetAddress

/-- R181: no effect in the command phase. -/
def Eng.completeConfigureDevice (chip : Chip) (e : Eng) : Eng := e.endCommand chip chip.codeConfigureDevice

/-- R181, R191. -/
def Eng.completeClearBuffer (chip : Chip) (e : Eng) : Eng := e.clearBuffer.endCommand chip chip.codeClearBuffer

/-- R181, R192. -/
def Eng.completeValidateBuffer (chip : Chip) (e : Eng) : Eng := (e.validateBuffer chip).endCommand chip chip.codeValidateBuffer

/-- R181: no effect in the command phase. -/
def Eng.completeGetDevStatus (chip : Chip) (e : Eng) : Eng := e.endCommand chip chip.codeGetDevStatus

/-- R187, R183; reserved where CUR is another code. -/
def Eng.completeGetDevStatusRd (chip : Chip) (e : Eng) : Eng :=
  if e.cur = some chip.codeGetDevStatus then (e.afterDevStatus chip).endRead chip e.devStatusValue else e.reservedRead chip

/-- The effect of the command in CUR with operand `d` (R182; R184, R185, R186, R190); a code with no write data has none
(R126, R193). -/
def Eng.writeData (chip : Chip) (c : Byte) (d : Half) (e : Eng) : Eng :=
  if hasBase chip.codeSetEpStatus c then e.setStalled (indexIn chip.codeSetEpStatus c) (d.getLsbD chip.bitHALT)
  else if hasBase chip.codeSetMaxpkt c then e.setMps chip (indexIn chip.codeSetMaxpkt c) (sizeIn chip d)
  else if c = chip.codeSetAddress then { e with devaddr := d.extractLsb' 0 8 }
  else if c = chip.codeConfigureDevice then { e with conf := d.getLsbD chip.bitCONF }
  else e

/-- R182; with CUR = none the word is reserved and only ends (R193). -/
def Eng.completeWrdata (chip : Chip) (d : Half) (e : Eng) : Eng :=
  match e.cur with
  | some c => (e.writeData chip c d).endWrite chip
  | none => e.endWrite chip

/-- R193: "ENG accepts it, completes it raising CCEMPTY ... or CDFULL ..., sets CUR <- none and changes no other state". -/
def Eng.completeReserved (chip : Chip) (w : Word) (e : Eng) : Eng :=
  if w.extractLsb' 8 8 = chip.phRead then e.reservedRead chip
  else if w.extractLsb' 8 8 = chip.phCmd ∨ w.extractLsb' 8 8 = chip.phWrite then e.endWrite chip
  else e.reservedPhase chip

/-- The completion of a phase word. -/
def Eng.complete (chip : Chip) (p : PhaseWord) (e : Eng) : Eng :=
  match p with
  | .selectEp i => e.completeSelectEp chip i
  | .selectEpRd i => e.completeSelectEpRd chip i
  | .setEpStatus i => e.completeSetEpStatus chip i
  | .setMaxpkt i => e.completeSetMaxpkt chip i
  | .setAddress => e.completeSetAddress chip
  | .configureDevice => e.completeConfigureDevice chip
  | .clearBuffer => e.completeClearBuffer chip
  | .validateBuffer => e.completeValidateBuffer chip
  | .getDevStatus => e.completeGetDevStatus chip
  | .getDevStatusRd => e.completeGetDevStatusRd chip
  | .wrdata d => e.completeWrdata chip d
  | .reserved w => e.completeReserved chip w

/-- The phase ENG can complete now: PEND is set and ENG is responsive (R175, R181 to R183). -/
def Eng.ready (chip : Chip) (responsive : Bool) (e : Eng) : Option PhaseWord := if responsive then e.pend.map (decodeCmdw chip) else none

/-- One ENG step, where one is enabled. -/
def Eng.advance (chip : Chip) (responsive : Bool) (e : Eng) : Option Eng := (e.ready chip responsive).map (fun p => e.complete chip p)

/-! ## The rows -/

/-- ENG moves and nothing else changes. -/
def engNext (f : Eng → Eng) (s : State) : Out := .next { s with eng := f s.eng }

/-- SELECT_EP, command phase (R188). -/
def execSelectEp (i : Idx) (s : State) : Out := engNext (Eng.completeSelectEp s.cfg.toChip i) s

/-- SELECT_EP, read-data phase (R189). -/
def execSelectEpRd (i : Idx) (s : State) : Out := engNext (Eng.completeSelectEpRd s.cfg.toChip i) s

/-- SET_EP_STATUS, command phase (R181, R190). -/
def execSetEpStatus (i : Idx) (s : State) : Out := engNext (Eng.completeSetEpStatus s.cfg.toChip i) s

/-- SET_MAXPKT, command phase (R181, R184). -/
def execSetMaxpkt (i : Idx) (s : State) : Out := engNext (Eng.completeSetMaxpkt s.cfg.toChip i) s

/-- SET_ADDRESS, command phase (R181, R185). -/
def execSetAddress (s : State) : Out := engNext (Eng.completeSetAddress s.cfg.toChip) s

/-- CONFIGURE_DEVICE, command phase (R181, R186). -/
def execConfigureDevice (s : State) : Out := engNext (Eng.completeConfigureDevice s.cfg.toChip) s

/-- CLEAR_BUFFER (R191). -/
def execClearBuffer (s : State) : Out := engNext (Eng.completeClearBuffer s.cfg.toChip) s

/-- VALIDATE_BUFFER (R192). -/
def execValidateBuffer (s : State) : Out := engNext (Eng.completeValidateBuffer s.cfg.toChip) s

/-- GET_DEV_STATUS, command phase (R181, R187). -/
def execGetDevStatus (s : State) : Out := engNext (Eng.completeGetDevStatus s.cfg.toChip) s

/-- GET_DEV_STATUS, read-data phase (R187). -/
def execGetDevStatusRd (s : State) : Out := engNext (Eng.completeGetDevStatusRd s.cfg.toChip) s

/-- A write-data phase, the effect of the command in CUR (R182). -/
def execWrdata (d : Half) (s : State) : Out := engNext (Eng.completeWrdata s.cfg.toChip d) s

/-- A reserved word (R193). -/
def execReservedCmdw (w : Word) (s : State) : Out := engNext (Eng.completeReserved s.cfg.toChip w) s

end Sys2Proof.Machine
end

