-- ==== Sys2Proof/Machine/Wire.lean ====
section
/-! DEFINITION. The engine's reaction to the host and the cable (46_engine_wire_events.md): format WIRE. Each event is a
partial function on `Eng`: `none` where it is not enabled, and then it "does not happen at all" (R371, log 21). -/

namespace Sys2Proof.Machine

/-! ## Enabling -/

/-- `DEVSTAT.CON` (R55). -/
def Eng.connected (chip : Chip) (e : Eng) : Bool := e.devstat.getLsbD chip.bitCON

/-- `DEVSTAT.SUS` (R55). -/
def Eng.suspended (chip : Chip) (e : Eng) : Bool := e.devstat.getLsbD chip.bitSUS

/-- R371: connected, not suspended, device enabled, index realised, endpoint 0 or device configured. -/
def Eng.packetEnabled (chip : Chip) (num : BitVec 4) (i : Idx) (e : Eng) : Bool :=
  e.connected chip && !e.suspended chip && e.devaddr.getLsbD chip.bitDEVEN && e.rlzd.getLsbD i.toNat && (num == 0#4 || e.conf)

/-- R379: no packet event on the index an EpRead or EpWrite is working on. -/
def Eng.unlocked (i : Idx) (e : Eng) : Bool := e.lockedIdx != some i

/-! ## Packet events -/

/-- R372. -/
def Eng.acceptSetup (chip : Chip) (b : List Byte) (e : Eng) : Eng :=
  let r0 := e.epAt 0#5
  let r1 := e.epAt 1#5
  let e1 := e.setEp 0#5
    { r0 with buf := .full b true, stalled := false, nak := false, err := r0.err || r0.buf.isFull }
  let e2 := e1.setEp 1#5 { r1 with buf := .empty, stalled := false }
  setEpInt chip 0#5 e2

/-- `WireSetup(b)` (R372); it touches indices 0 and 1 (R379). -/
def Eng.wireSetup (chip : Chip) (b : Vector Byte 8) (e : Eng) : Option (Eng × WireOutcome) :=
  if e.packetEnabled chip 0#4 0#5 && e.unlocked 0#5 && e.unlocked 1#5 then some (e.acceptSetup chip b.toList, .ack) else none

/-- R373 on an enabled index. -/
def Eng.offerOut (chip : Chip) (i : Idx) (bytes : List Byte) (e : Eng) : Eng × WireOutcome :=
  let r := e.epAt i
  if r.stalled then (e, .stall)
  else if r.buf.isFull || decide (r.mps.toNat < bytes.length) then (e.setEp i { r with nak := true }, .nak)
  else (setEpInt chip i (e.setEp i { r with buf := .full bytes false, nak := false }), .ack)

/-- `WireOut(num, bytes)` (R373). -/
def Eng.wireOut (chip : Chip) (num : BitVec 4) (bytes : List Byte) (e : Eng) : Option (Eng × WireOutcome) :=
  if e.packetEnabled chip num (outIdx num) && e.unlocked (outIdx num) then some (e.offerOut chip (outIdx num) bytes) else none

/-- R374 on an enabled index. -/
def Eng.askIn (chip : Chip) (i : Idx) (e : Eng) : Eng × WireOutcome :=
  let r := e.epAt i
  if r.stalled then (e, .stall)
  else
    match r.buf with
    | .empty => (e.setEp i { r with nak := true }, .nak)
    | .full bytes _ => (setEpInt chip i (e.setEp i { r with buf := .empty, nak := false }), .data bytes)

/-- `WireIn(num)` (R374). -/
def Eng.wireIn (chip : Chip) (num : BitVec 4) (e : Eng) : Option (Eng × WireOutcome) :=
  if e.packetEnabled chip num (inIdx num) && e.unlocked (inIdx num) then some (e.askIn chip (inIdx num)) else none

/-! ## Bus-state events -/

/-- `WireSof` (R375). -/
def Eng.wireSof (chip : Chip) (e : Eng) : Option (Eng × WireOutcome) :=
  if e.connected chip && !e.suspended chip then some ({ e with devintst := setBit e.devintst chip.bitFRAME }, .done) else none

/-- What a bus reset leaves of an endpoint record: its size (R376). -/
def EpRec.busReset (r : EpRec) : EpRec := { r with buf := .empty, stalled := false, nak := false, err := false }

/-- `WireBusReset` (R376). -/
def Eng.wireBusReset (chip : Chip) (e : Eng) : Option (Eng × WireOutcome) :=
  if e.connected chip then
    some ({ e with
      devaddr := flagAt chip.bitDEVEN true
      conf := false
      ep := e.ep.map EpRec.busReset
      devstat := devPut chip.bitRST true (devPut chip.bitSUS false e.devstat)
      devintst := setBit e.devintst chip.bitDEVSTAT }, .done)
  else none

/-- `WireConnect(v)` (R377): CON, CON_CH, and on removal SUS <- 0. -/
def Eng.wireConnect (chip : Chip) (v : Bool) (e : Eng) : Option (Eng × WireOutcome) :=
  if e.connected chip != v then
    some ({ e with
      devstat := devPut chip.bitCON v (devPut chip.bitCONCH true (if v then e.devstat else devPut chip.bitSUS false e.devstat))
      devintst := setBit e.devintst chip.bitDEVSTAT }, .done)
  else none

/-- `WireSuspend(v)` (R378): SUS and SUS_CH. -/
def Eng.wireSuspend (chip : Chip) (v : Bool) (e : Eng) : Option (Eng × WireOutcome) :=
  if e.connected chip && e.suspended chip != v then
    some ({ e with
      devstat := devPut chip.bitSUS v (devPut chip.bitSUSCH true e.devstat)
      devintst := setBit e.devintst chip.bitDEVSTAT }, .done)
  else none

/-- An event of the host or the cable (R370). -/
def Eng.wire (chip : Chip) (ev : WireEvent) (e : Eng) : Option (Eng × WireOutcome) :=
  match ev with
  | .setup b => e.wireSetup chip b
  | .out num bytes => e.wireOut chip num bytes
  | .inn num => e.wireIn chip num
  | .sof => e.wireSof chip
  | .busReset => e.wireBusReset chip
  | .connect v => e.wireConnect chip v
  | .suspend v => e.wireSuspend chip v

/-! ## The rows -/

/-- The state after an event: ENG's, and what WIRE observed; unchanged where the event is not enabled. -/
def wireState (ev : WireEvent) (r : Option (Eng × WireOutcome)) (s : State) : State :=
  match r with
  | some (e, o) => { s with eng := e, wireLog := (ev, o) :: s.wireLog }
  | none => s

/-- WireSetup (R372). -/
def execWireSetup (b : Vector Byte 8) (s : State) : Out := .next (wireState (.setup b) (s.eng.wireSetup s.cfg.toChip b) s)

/-- WireOut (R373). -/
def execWireOut (num : BitVec 4) (bytes : List Byte) (s : State) : Out :=
  .next (wireState (.out num bytes) (s.eng.wireOut s.cfg.toChip num bytes) s)

/-- WireIn (R374). -/
def execWireIn (num : BitVec 4) (s : State) : Out := .next (wireState (.inn num) (s.eng.wireIn s.cfg.toChip num) s)

/-- WireSof (R375). -/
def execWireSof (s : State) : Out := .next (wireState .sof (s.eng.wireSof s.cfg.toChip) s)

/-- WireBusReset (R376). -/
def execWireBusReset (s : State) : Out := .next (wireState .busReset (s.eng.wireBusReset s.cfg.toChip) s)

/-- WireConnect (R377). -/
def execWireConnect (v : Bool) (s : State) : Out := .next (wireState (.connect v) (s.eng.wireConnect s.cfg.toChip v) s)

/-- WireSuspend (R378). -/
def execWireSuspend (v : Bool) (s : State) : Out := .next (wireState (.suspend v) (s.eng.wireSuspend s.cfg.toChip v) s)

end Sys2Proof.Machine
end

