-- ==== Sys2Proof/Machine/Seq.lean ====
section
/-! DEFINITION. The accesses of SEQ (R10, R91): what ENG and WIRE do before each, one register access, the wait for a flag,
and reads and writes of the data spaces. -/

namespace Sys2Proof.Machine

/-! ## Moves of the other agents between two accesses -/

/-- ENG completes the pending phase, if it can (R181 to R183). -/
def engMove (chip : Chip) (s : State) : State :=
  match s.eng.advance chip s.cfg.engResponsive with
  | some e => { s with eng := e }
  | none => s

/-- One move of ENG or WIRE. -/
def applyMove (chip : Chip) (m : Move) (s : State) : State :=
  match m with
  | .eng => engMove chip s
  | .wire ev => wireState ev (s.eng.wire chip ev) s

/-- Several moves in order. -/
def applyMoves (chip : Chip) : List Move → State → State
  | [], s => s
  | m :: ms, s => applyMoves chip ms (applyMove chip m s)

/-- The moves listed before the next access are made, and leave the list. -/
def beforeAccess (chip : Chip) (s : State) : State :=
  match s.slots with
  | [] => s
  | ms :: rest => applyMoves chip ms { s with slots := rest }

/-! ## One access -/

/-- `RegRead(r)`. -/
def regRead (chip : Chip) (r : Reg) : SeqM RegWord := fun s =>
  let s1 := beforeAccess chip s
  .ok (s1.eng.readReg chip r).1 { s1 with eng := (s1.eng.readReg chip r).2 }

/-- `RegWrite(r, v)`. -/
def regWrite (chip : Chip) (r : Reg) (v : RegWord) : SeqM Unit := fun s =>
  let s1 := beforeAccess chip s
  match s1.eng.writeReg chip r v with
  | .ok e => .ok () { s1 with eng := e }
  | .error x => .error x s1

/-- `wait until DEVINTST[b] = 1` (R171, R175): a busy-wait on reads of DEVINTST. If the flag is not set, the ENG step that is
enabled is taken; if that does not set it, nothing ever will (R403: only ENG sets it), and SEQ hangs. -/
def waitFlag (chip : Chip) (b : Nat) : SeqM Unit := fun s =>
  let s1 := beforeAccess chip s
  if s1.eng.devintst.getLsbD b then .ok () s1
  else
    let s2 := engMove chip s1
    if s2.eng.devintst.getLsbD b then .ok () s2 else .error (.hang b) s2

/-- `x ← RegRead(r); RegWrite(r, x | v)`, two accesses (R87). -/
def regOr (chip : Chip) (r : Reg) (v : RegWord) : SeqM Unit := do
  let x ← regRead chip r
  regWrite chip r (x ||| v)

/-! ## Data spaces (R80, R81) -/

/-- A computation that ends in a fault. -/
def raise {α : Type} (f : Fault) : SeqM α := throw (.fault f)

/-- `n` bytes of a list from an offset, all of them inside it, else TableOverrun (R84). -/
def tableRead (t : List Byte) (off n : Nat) : SeqM (List Byte) :=
  if off + n ≤ t.length then pure ((t.drop off).take n) else raise .tableOverrun

/-- `MemRead(STAGE, off, n)`: past STAGE_CAP the BufferOverrun fault or, with the alternative of R404, only the bytes that
fit (log 19). -/
def stageRead (off n : Nat) : SeqM (List Byte) := fun s =>
  let m := if s.cfg.stageCap < off + n ∧ s.cfg.overrunDrops then s.cfg.stageCap - off else n
  if s.cfg.stageCap < off + n ∧ !s.cfg.overrunDrops then .error (.fault .bufferOverrun) s
  else
    let r := Memory.readList s.stage off m s.fresh
    .ok r.1 { s with fresh := r.2 }

/-- `MemRead(space, off, n)`; "n = 0 reads ... nothing and cannot fault" (R81). -/
def memRead (p : Ptr) (n : Nat) : SeqM (List Byte) := do
  if n = 0 then pure []
  else
    let s ← get
    match p.space with
    | .stage => stageRead p.off n
    | .desc => tableRead s.desc p.off n
    | .hookmem => tableRead s.hookmem p.off n

/-- `MemWrite(STAGE, off, n, bytes)` with `n` the length of the list; bounds first (R404). -/
def stageWrite (off : Nat) (bytes : List Byte) : SeqM Unit := fun s =>
  if bytes.length = 0 then .ok () s
  else if off + bytes.length ≤ s.cfg.stageCap then .ok () { s with stage := Memory.writeList s.stage off bytes }
  else if s.cfg.overrunDrops then
    .ok () { s with stage := Memory.writeList s.stage off (bytes.take (s.cfg.stageCap - off)) }
  else .error (.fault .bufferOverrun) s

/-- `MemWrite(space, off, n, bytes)`; "DESC and HOOKMEM are never written by the block" (R81), and no rule says what
becomes of data received for them (log 12). -/
def memWrite (p : Ptr) (bytes : List Byte) : SeqM Unit :=
  if bytes.length = 0 then pure ()
  else
    match p.space with
    | .stage => stageWrite p.off bytes
    | .desc => raise .readOnlyStore
    | .hookmem => raise .readOnlyStore

/-- `CT.ptr <- p; CT.len <- n`. -/
def setReply (p : Ptr) (n : Nat) : SeqM Unit := modify (fun s => { s with ct := { s.ct with ptr := p, len := n } })

/-! ## EpRead and EpWrite exclude packet events on their index (R379, log 13) -/

def lockPort (u : PortUse) : SeqM Unit := modify (fun s => { s with eng := { s.eng with portLock := some u } })

def unlockPort : SeqM Unit := modify (fun s => { s with eng := { s.eng with portLock := none } })

end Sys2Proof.Machine
end

