-- ==== Sys2Proof/Machine/Hci.lean ====
section
/-! DEFINITION. The Hardware Command Interface, SEQ's side (40_hci.md R170 to R176): the three primitives and their CALL rows. -/

namespace Sys2Proof.Machine

/-- `(1<<CCEMPTY) | (1<<CDFULL)` = 0x30 (R172). -/
def phaseFlags (chip : Chip) : RegWord := bit chip.bitCCEMPTY ||| bit chip.bitCDFULL

/-- `Phase(word, flag)` (R171). -/
def phase (chip : Chip) (w : Word) (flag : Nat) : SeqM Unit := do
  regWrite chip .CMDCODE (w.setWidth Config.regMax)
  waitFlag chip flag
  regWrite chip .DEVINTCLR (bit flag)

/-- `command(code)` (R172). -/
def command (chip : Chip) (c : Byte) : SeqM Unit := do
  regWrite chip .DEVINTCLR (phaseFlags chip)
  phase chip (cmdWord chip c) chip.bitCCEMPTY

/-- `commandWrite(code, data)` (R173). -/
def commandWrite (chip : Chip) (c : Byte) (d : Half) : SeqM Unit := do
  regWrite chip .DEVINTCLR (phaseFlags chip)
  phase chip (cmdWord chip c) chip.bitCCEMPTY
  phase chip (wrWord chip d) chip.bitCCEMPTY

/-- `commandRead(code) -> data` (R174). -/
def commandRead (chip : Chip) (c : Byte) : SeqM Half := do
  regWrite chip .DEVINTCLR (phaseFlags chip)
  phase chip (cmdWord chip c) chip.bitCCEMPTY
  phase chip (rdWord chip c) chip.bitCDFULL
  let v ← regRead chip .CMDDATA
  pure (v.extractLsb' 0 16)

/-! ## The rows -/

/-- `command(code)`, called by APP or in a pass (R172, R176). -/
def execCommand (c : Byte) (s : State) : Out := runCall (command s.cfg.toChip c) s

/-- `commandWrite(code, data)` (R173). -/
def execCommandWrite (c : Byte) (d : Half) (s : State) : Out := runCall (commandWrite s.cfg.toChip c d) s

/-- `commandRead(code) -> data` (R174). -/
def execCommandRead (c : Byte) (s : State) : Out :=
  runCall (do let v ← commandRead s.cfg.toChip c; setRet (.data v)) s

end Sys2Proof.Machine
end

