-- ==== Sys2Proof/Machine/Endpoint.lean ====
section
/-! DEFINITION. The Endpoint Manager (41_endpoint_manager.md): realising, stalling, status, handler registration, and the
buffer operations EpRead and EpWrite as the register sequences of R217 and R221. -/

namespace Sys2Proof.Machine

/-- `configureEndpoint(a, m)` (R203), in the order of the document's steps. -/
def configureEndpoint (chip : Chip) (a : Byte) (m : Half) : SeqM Unit := do
  let i := epIdx a
  regOr chip .REALIZE (bit i.toNat)
  commandWrite chip (codeWithIdx chip.codeSetMaxpkt i) ((sizeIn chip m).setWidth 16)
  waitFlag chip chip.bitEPRLZD
  regWrite chip .DEVINTCLR (bit chip.bitEPRLZD)
  regOr chip .EPINTEN (bit i.toNat)
  regOr chip .DEVINTEN (bit chip.bitEP)

/-- `stall(address)` (R208). -/
def stall (chip : Chip) (a : Byte) : SeqM Unit := commandWrite chip (codeWithIdx chip.codeSetEpStatus (epIdx a)) (flagAt chip.bitHALT true)

/-- `unstall(address)` (R209). -/
def unstall (chip : Chip) (a : Byte) : SeqM Unit := commandWrite chip (codeWithIdx chip.codeSetEpStatus (epIdx a)) (flagAt chip.bitHALT false)

/-- The raw status of an index, "select endpoint, read status" (R189, R240). -/
def readRawStatus (chip : Chip) (i : Idx) : SeqM (BitVec 5) := do
  let v ← commandRead chip (codeWithIdx chip.codeSelectEp i)
  pure (v.extractLsb' 0 5)

/-- `getStatus(address) -> status` (R212). An unrealised endpoint reads 0x00 as reset leaves it (R65); one that `stall` reached
(R190: "an unrealised index takes the bit all the same") reads 0x02, as in V-EPM4 and P5 of 95_test_vectors.md. -/
def getStatus (chip : Chip) (a : Byte) : SeqM (BitVec 5) := do
  let raw ← readRawStatus chip (epIdx a)
  pure (normEp chip raw)

/-- `registerHandler(address, h)`: `HND[EpIdx(address)] <- h` "and nothing else" (R214). -/
def registerHandler (a : Byte) (h : Option Handler) : SeqM Unit :=
  modify (fun s => { s with hnd := s.hnd.set (epIdx a).toNat h (by have := (epIdx a).isLt; omega) })

/-- The value of DPCTL that opens a port for an endpoint number: `(1 << en) | (address[3:0] << 2)` (R217, R221). -/
def portOpen (chip : Chip) (en : Nat) (a : Byte) : RegWord := bit en ||| ((portNumber a).setWidth Config.regMax <<< chip.lsbLOGEP)

/-- `w` reads of RXDATA, their bytes in order (R217). -/
def drainPort (chip : Chip) : Nat → SeqM (List Byte)
  | 0 => pure []
  | w + 1 => do
    let v ← regRead chip .RXDATA
    let rest ← drainPort chip w
    pure (wordBytes (v.setWidth Config.wordW) ++ rest)

/-- `EpRead(address, maxlen) -> (n, bytes)` (R217, refining R216); `n` is the length of the list. PKT_RDY is 1 at the first
read of RXPLEN, so the `repeat` is one read. -/
def epRead (chip : Chip) (a : Byte) (maxlen : Nat) : SeqM (List Byte) := do
  let i := epIdx a
  regWrite chip .DPCTL (portOpen chip chip.bitRDEN a)
  lockPort { idx := i, long := false }
  let v ← regRead chip .RXPLEN
  let plen := if v.getLsbD chip.bitDV then (v.extractLsb' 0 Config.lenW).toNat else 0
  let pkt ← drainPort chip (portWords plen)
  regWrite chip .DPCTL 0#Config.regMax
  command chip (codeWithIdx chip.codeSelectEp i)
  command chip chip.codeClearBuffer
  unlockPort
  pure ((pkt.take plen).take maxlen)

/-- `while RegRead(DPCTL)[WR_EN] = 1: RegWrite(TXDATA, ...)` from word `w` on (R221). The port closes after `ceil(L/4)` words;
`fuel` is that number plus one and never runs out (log 27). -/
def fillPort (chip : Chip) (bytes : List Byte) : Nat → Nat → SeqM Unit
  | 0, _ => pure ()
  | fuel + 1, w => do
    let v ← regRead chip .DPCTL
    if wrEn chip v then
      regWrite chip .TXDATA ((portWord bytes (4 * w)).setWidth Config.regMax)
      fillPort chip bytes fuel (w + 1)
    else pure ()

/-- `EpWrite(address, bytes)` (R221, refining R220). -/
def epWrite (chip : Chip) (a : Byte) (bytes : List Byte) : SeqM Unit := do
  let i := epIdx a
  regWrite chip .DPCTL (portOpen chip chip.bitWREN a)
  lockPort { idx := i, long := decide (2 ^ Config.lenW ≤ bytes.length) }
  regWrite chip .TXPLEN (BitVec.ofNat Config.regMax bytes.length)
  fillPort chip bytes (portWords bytes.length + 1) 0
  regWrite chip .DPCTL 0#Config.regMax
  command chip (codeWithIdx chip.codeSelectEp i)
  command chip chip.codeValidateBuffer
  unlockPort

/-! ## The rows -/

/-- `registerHandler(address, h)` (R214). -/
def execRegisterHandler (a : Byte) (h : Option Handler) (s : State) : Out := runCall (registerHandler a h) s

/-- `configureEndpoint(address, maxPacketSize)` (R202, R203). -/
def execConfigureEndpoint (a : Byte) (m : Half) (s : State) : Out := runCall (configureEndpoint s.cfg.toChip a m) s

/-- `stall(address)` (R208). -/
def execStall (a : Byte) (s : State) : Out := runCall (stall s.cfg.toChip a) s

/-- `unstall(address)` (R209). -/
def execUnstall (a : Byte) (s : State) : Out := runCall (unstall s.cfg.toChip a) s

/-- `getStatus(address) -> status` (R212). An unrealised endpoint reads 0x00 as reset leaves it (R65); one that `stall` reached
(R190: "an unrealised index takes the bit all the same") reads 0x02, as in V-EPM4 and P5 of 95_test_vectors.md. -/
def execGetStatus (a : Byte) (s : State) : Out :=
  runCall (do let st ← getStatus s.cfg.toChip a; setRet (.status st)) s

/-- `EpRead(address, maxlen)` (R216, R217). -/
def execEpRead (a : Byte) (maxlen : Nat) (s : State) : Out :=
  runCall (do let bs ← epRead s.cfg.toChip a maxlen; setRet (.bytes bs)) s

/-- `EpWrite(address, bytes)` (R220, R221). -/
def execEpWrite (a : Byte) (bytes : List Byte) (s : State) : Out := runCall (epWrite s.cfg.toChip a bytes) s

end Sys2Proof.Machine
end

