-- ==== Sys2Proof/Machine/Descriptor.lean ====
section
/-! DEFINITION. The Descriptor Parser (45_descriptor_parser.md): the two walks of the table, byte for byte. A walk moves its
cursor by at least 1 at each step and faults when it leaves the table, so `len(DESC) + 1` steps suffice (R353, log 27). -/

namespace Sys2Proof.Machine

/-- `DESC[p]`, one byte (R84, R350). -/
def descByte (d : List Byte) (p : Nat) : Except Fault Byte :=
  match d[p]? with
  | some b => .ok b
  | none => .error .tableOverrun

/-- The result of a match at offset `p`: a configuration reports its 2-byte total length, every other type its 1-byte
length (R351, R352). -/
def descResult (d : List Byte) (ty l : Byte) (p : Nat) : Except Fault (Option (Nat × Nat)) := do
  if ty = Config.descConfiguration then
    let lo ← descByte d (p + 2)
    let hi ← descByte d (p + 3)
    pure (some (p, (le16 lo hi).toNat))
  else pure (some (p, l.toNat))

/-- The loop of `findDescriptor` from cursor `p` with `k` matches seen (R351). -/
def findFrom (d : List Byte) (ty ix : Byte) : Nat → Nat → Nat → Except Fault (Option (Nat × Nat))
  | 0, _, _ => .error .tableOverrun
  | fuel + 1, p, k => do
    let l ← descByte d p
    if l = 0#8 then pure none
    else
      let t ← descByte d (p + 1)
      if t = ty then
        if k = ix.toNat then descResult d ty l p else findFrom d ty ix fuel (p + l.toNat) (k + 1)
      else findFrom d ty ix fuel (p + l.toNat) k

/-- `findDescriptor(typeIndex, langId)`; `langId` is accepted and ignored (R351). -/
def findDescriptor (d : List Byte) (typeIndex _langId : Half) : Except Fault (Option (Nat × Nat)) :=
  findFrom d (typeIndex.extractLsb' 8 8) (typeIndex.extractLsb' 0 8) (d.length + 1) 0 0

/-- A walk's fault, if any, is the computation's. -/
def liftWalk {α : Type} (x : Except Fault α) : SeqM α :=
  match x with
  | .ok v => pure v
  | .error f => raise f

/-- The operands `configureForSetting` takes from an endpoint descriptor at `p` (R155, R356). -/
def descEndpointOperands (d : List Byte) (p : Nat) : Except Fault (Byte × Half) := do
  let a ← descByte d (p + 2)
  let lo ← descByte d (p + 4)
  let hi ← descByte d (p + 5)
  pure (a, le16 lo hi)

/-- The loop of `configureForSetting` (R356). -/
def settingFrom (chip : Chip) (d : List Byte) (c a : Byte) : Nat → Nat → Option Byte → Option Byte → SeqM Unit
  | 0, _, _, _ => raise .tableOverrun
  | fuel + 1, p, curC, curA => do
    let l ← liftWalk (descByte d p)
    if l = 0#8 then pure ()
    else
      let t ← liftWalk (descByte d (p + 1))
      if t = Config.descConfiguration then
        let v ← liftWalk (descByte d (p + 5))
        settingFrom chip d c a fuel (p + l.toNat) (some v) curA
      else if t = Config.descInterface then
        let v ← liftWalk (descByte d (p + 3))
        settingFrom chip d c a fuel (p + l.toNat) curC (some v)
      else if t = Config.descEndpoint ∧ curC = some c ∧ curA = some a then
        let r ← liftWalk (descEndpointOperands d p)
        configureEndpoint chip r.1 r.2
        settingFrom chip d c a fuel (p + l.toNat) curC curA
      else settingFrom chip d c a fuel (p + l.toNat) curC curA

/-- `configureForSetting(0, a)`: the device is unconfigured, nothing is read (R355). -/
def unconfigure (chip : Chip) : SeqM Unit := commandWrite chip chip.codeConfigureDevice (flagAt chip.bitCONF false)

/-- `configureForSetting(c, a)` for `c != 0` (R356). -/
def configureWalk (chip : Chip) (c a : Byte) : SeqM Unit := do
  let s ← get
  settingFrom chip s.desc c a (s.desc.length + 1) 0 none none
  commandWrite chip chip.codeConfigureDevice (flagAt chip.bitCONF true)

/-- `configureForSetting(c, a)` (R355, R356). -/
def configureForSetting (chip : Chip) (c a : Byte) : SeqM Unit := if c = 0#8 then unconfigure chip else configureWalk chip c a

/-! ## The rows -/

/-- `findDescriptor(typeIndex, langId)` (R351). -/
def execFindDescriptor (typeIndex langId : Half) (s : State) : Out :=
  runCall (do let s' ← get; let r ← liftWalk (findDescriptor s'.desc typeIndex langId); setRet (.descriptor r)) s

/-- `configureForSetting(0, altSetting)` (R355). -/
def execConfigureForSettingZero (_altSetting : Byte) (s : State) : Out := runCall (unconfigure s.cfg.toChip) s

/-- `configureForSetting(configIndex != 0, altSetting)` (R356). -/
def execConfigureForSettingNonzero (configIndex altSetting : Byte) (s : State) : Out :=
  runCall (configureForSetting s.cfg.toChip configIndex altSetting) s

end Sys2Proof.Machine
end

