-- ==== Sys2Proof/Machine/App.lean ====
section
/-! DEFINITION. What APP does beside the operations of format CALL (60_exceptions.md R430 to R433): the mask, the tables, one
register access, reads and writes of SEQ state; and the boot sequence of R446 as turns. -/

namespace Sys2Proof.Machine

/-- An APP access to SEQ state or to REG needs the mask closed (R432). -/
def guarded (m : SeqM Unit) (s : State) : Out := if s.irqMask then runSeq m s else .fault .contextViolation

/-- "a hook is installed by storing it in its slot" (R415). -/
def installHook (slot : HookSlot) (h : Option Nat) (s : State) : State :=
  match slot with
  | .sof => { s with hSof := h }
  | .devst => { s with hDevst := h }
  | .req1 => { s with hReq1 := h }
  | .req2 => { s with hReq2 := h }
  | .req3 => { s with hReq3 := h }
  | .custom => { s with hCustom := h }

/-- The hook in a slot (R33). -/
def State.hookIn (s : State) : HookSlot → Option Nat
  | .sof => s.hSof
  | .devst => s.hDevst
  | .req1 => s.hReq1
  | .req2 => s.hReq2
  | .req3 => s.hReq3
  | .custom => s.hCustom

/-- A register access of APP; outside the map it is refused (R85, U2, log 23). -/
def regAt (chip : Chip) (addr size : Nat) : SeqM Reg := do
  let s ← get
  match regOfAddr chip s.cfg.base addr size with
  | some r => pure r
  | none => throw (.refuse .badRegAccess)

/-- The meaning of an act of APP. Writing IRQ_MASK is always allowed (R432); SEQ state is read and written under the mask only
(R67, R432). -/
def execApp (a : AppAct) (s : State) : Out :=
  match a with
  | .setMask v => .next { s with irqMask := v }
  | .setDesc d => guarded (modify (fun s => { s with desc := d })) s
  | .installHook slot h => guarded (modify (installHook slot h)) s
  | .regRead addr size => guarded (do let r ← regAt s.cfg.toChip addr size; let v ← regRead s.cfg.toChip r; setRet (.word v)) s
  | .regWrite addr size v => guarded (do let r ← regAt s.cfg.toChip addr size; regWrite s.cfg.toChip r v) s
  | .regOr addr v => guarded (do let r ← regAt s.cfg.toChip addr (regBytes s.cfg.toChip); regOr s.cfg.toChip r v) s
  | .readConfig => guarded (do let s' ← get; setRet (.byte s'.config)) s
  | .readDevflags => guarded (do let s' ← get; setRet (.flags s'.devflags)) s
  | .readSu => guarded (do let s' ← get; setRet (.bytes s'.su.toList)) s
  | .readCt => guarded (do let s' ← get; setRet (.ct s'.ct)) s
  | .readStage off n => guarded (do let bs ← memRead { space := .stage, off := off } n; setRet (.bytes bs)) s
  | .readHandler i => guarded (do let s' ← get; setRet (.handler (s'.hndAt i))) s
  | .readHook slot => guarded (do let s' ← get; setRet (.hook (s'.hookIn slot))) s
  | .writeConfig b => guarded (modify (fun s => { s with config := b })) s
  | .writeDevflags f => guarded (modify (fun s => { s with devflags := f })) s
  | .writeSu b => guarded (modify (fun s => { s with su := b })) s
  | .writeCt c => guarded (modify (fun s => { s with ct := c })) s
  | .writeStage off bytes => guarded (stageWrite off bytes) s

/-- `Boot(DESC, hooks)` (R446) as APP's turns, no move of ENG or WIRE in between; `hooks` is what the application installs. -/
def bootTurns (c : Cfg) (desc : List Byte) (hooks : List (HookSlot × Nat)) : List Turn :=
  let m0 : Half := BitVec.ofNat 16 c.m0
  [.app (.setDesc desc) []] ++ hooks.map (fun h => .app (.installHook h.1 (some h.2)) []) ++
  [.call (.registerHandler 0x00#8 (some .ctl)) [], .call (.registerHandler 0x80#8 (some .ctl)) [],
   .call (.configureEndpoint 0x00#8 m0) [], .call (.configureEndpoint 0x80#8 m0) []] ++
  [.app (.regOr (c.base.toNat + c.offDEVINTEN) (bit c.bitFRAME ||| bit c.bitDEVSTAT)) [],
   .call (.commandWrite c.codeSetAddress (flagAt c.bitDEVEN true)) [], .app (.setMask false) []]

end Sys2Proof.Machine
end

