-- ==== Sys2Proof/Machine/Transfer.lean ====
section
/-! DEFINITION. The Control Transfer Engine (43_control_transfer.md): format EPEVT, and the operations DispatchNow, DataIn and
StallControl. `Dispatch()` itself is the frame `dispatch`; the two ways its result is used are `replyNow` and `replyOut`. -/

namespace Sys2Proof.Machine

/-- The write of CT. -/
def modifyCt (f : Ct → Ct) : SeqM Unit := modify (fun s => { s with ct := f s.ct })

/-- The start of STAGE, where `CT.ptr` stands at SETUP capture and before each dispatch (R23). -/
def stageStart : Ptr := { space := .stage, off := 0 }

/-- `CT.ptr.off <- CT.ptr.off + n; CT.resid <- CT.resid - n` (R268, R269). -/
def Ct.moved (n : Nat) (c : Ct) : Ct :=
  { c with ptr := { c.ptr with off := c.ptr.off + n }, resid := c.resid - BitVec.ofNat 16 n }

/-- `DataIn()` (R268). -/
def dataIn (chip : Chip) : SeqM Unit := do
  let s ← get
  let n := min s.cfg.m0 s.ct.resid.toNat
  let bytes ← memRead s.ct.ptr n
  epWrite chip 0x80#8 bytes
  modifyCt (Ct.moved n)

/-- `StallControl()` (R270). -/
def stallControl (chip : Chip) : SeqM Unit := do
  stall chip 0x80#8
  modifyCt (fun c => { c with resid := 0#16, len := 0, phase := .idle })

/-- `CT.ptr <- (STAGE, 0); CT.len <- SU.length; r <- Dispatch()` and then what `k` does with `r` (R264, R269). -/
def startDispatch (k : Frame) : SeqM Unit := do
  let s ← get
  setReply stageStart (suLength s.su).toNat
  pushFrames [.dispatch, k]

/-- `DispatchNow()` up to the dispatch (R264). -/
def dispatchNow : SeqM Unit := startDispatch .replyNow

/-- `CT.resid <- min(CT.len, SU.length)` and the phase (R264, R266). -/
def Ct.clamped (len : Half) (c : Ct) : Ct :=
  { c with
    resid := BitVec.ofNat 16 (min c.len len.toNat)
    phase := if len = 0#16 then .statusStage else .dataD2H }

/-- `DispatchNow()` after the dispatch (R264). -/
def replyNow (chip : Chip) : SeqM Unit := do
  let s ← get
  match s.result with
  | .fail => stallControl chip
  | .ok =>
    modifyCt (Ct.clamped (suLength s.su))
    dataIn chip

/-- `OnOutData()` after the dispatch (R269). -/
def replyOut (chip : Chip) : SeqM Unit := do
  let s ← get
  match s.result with
  | .fail => stallControl chip
  | .ok =>
    modifyCt (fun c => { c with phase := .statusStage })
    dataIn chip

/-- "reset to idle at the start of every new SETUP phase" (R27, R262). -/
def Ct.toIdle (c : Ct) : Ct := { c with phase := .idle, resid := 0#16, len := 0, ptr := stageStart }

/-- The capture of R262: SU, CT.dir, CT.resid, CT.phase. -/
def captureSetup (bs : List Byte) : SeqM Unit :=
  modify (fun s =>
    let su := suCapture s.su bs
    { s with su := su, ct := { s.ct with dir := suDir su, resid := suLength su, phase := .setupCaptured } })

/-- `OnSetup()` (R262, R263). -/
def onSetup (chip : Chip) : SeqM Unit := do
  modifyCt Ct.toIdle
  let bs ← epRead chip 0x00#8 8
  captureSetup bs
  let s ← get
  if suLength s.su = 0#16 ∨ suDir s.su = true then dispatchNow
  else modifyCt (fun c => { c with phase := .dataH2D })

/-- `OnOutData()` up to the dispatch (R269). -/
def onOutData (chip : Chip) : SeqM Unit := do
  let s ← get
  let bs ← epRead chip 0x00#8 s.ct.resid.toNat
  memWrite s.ct.ptr bs
  modifyCt (Ct.moved bs.length)
  let s' ← get
  if s'.ct.resid = 0#16 then startDispatch .replyOut else pure ()

/-- `OnOutStatus()` (R271). -/
def onOutStatus (chip : Chip) : SeqM Unit := do
  let _ ← epRead chip 0x00#8 0
  modifyCt (fun c => { c with phase := .idle })

/-- The bookkeeping of CT.phase at an IN event (R272, R280). -/
def Ct.inPhase (len : Half) (c : Ct) : Ct :=
  if c.resid = 0#16 then
    match c.phase with
    | .dataD2H => { c with phase := .statusStage }
    | .statusStage => if c.dir = false ∨ len = 0#16 then { c with phase := .idle } else c
    | .idle | .setupCaptured | .dataH2D => c
  else c

/-- `OnIn()` (R272). -/
def onIn (chip : Chip) : SeqM Unit := do
  let s ← get
  modifyCt (Ct.inPhase (suLength s.su))
  dataIn chip

/-! ## The rows -/

/-- SETUP_EVENT (R262, R263). The status has done its work in the decode (R261). -/
def execSetupEvent (_st : BitVec 5) (s : State) : Out := runSeq (onSetup s.cfg.toChip) s

/-- OUT_DATA_EVENT (R269). -/
def execOutDataEvent (_st : BitVec 5) (s : State) : Out := runSeq (onOutData s.cfg.toChip) s

/-- OUT_STATUS_EVENT (R271). -/
def execOutStatusEvent (_st : BitVec 5) (s : State) : Out := runSeq (onOutStatus s.cfg.toChip) s

/-- IN_EVENT (R272). -/
def execInEvent (_st : BitVec 5) (s : State) : Out := runSeq (onIn s.cfg.toChip) s

/-- `DispatchNow()` (R264). -/
def execDispatchNow (s : State) : Out := runCall dispatchNow s

/-- `DataIn()` (R268). -/
def execDataIn (s : State) : Out := runCall (dataIn s.cfg.toChip) s

/-- `StallControl()` (R270). -/
def execStallControl (s : State) : Out := runCall (stallControl s.cfg.toChip) s

end Sys2Proof.Machine
end

