-- ==== Sys2Proof/Machine/Dispatcher.lean ====
section
/-! DEFINITION. The Interrupt Dispatcher (42_dispatcher.md): format DEVINT, the three arms of a pass and the service of one
endpoint event. Entry, scan and exit are in Fetch.lean and Ops.lean. -/

namespace Sys2Proof.Machine

/-- `FrameArm()` (R233, R234). -/
def frameArm (chip : Chip) : SeqM Unit := do
  regWrite chip .DEVINTCLR (bit chip.bitFRAME)
  let s ← get
  match s.hSof with
  | some id => logHook (.sof id)
  | none => pure ()

/-- `DevStatArm()` (R235, R236): clear first, then read; DEVFLAGS before the hook. -/
def devStatArm (chip : Chip) : SeqM Unit := do
  regWrite chip .DEVINTCLR (bit chip.bitDEVSTAT)
  let v ← commandRead chip chip.codeGetDevStatus
  let raw := v.extractLsb' 0 5
  if devChanged chip raw then
    let st := normDev chip raw
    modify (fun s => { s with devflags := st })
    let s ← get
    match s.hDevst with
    | some id => logHook (.devst id st)
    | none => pure ()
  else pure ()

/-- `EndpointArm()` up to the scan (R237, R238). -/
def endpointArm (chip : Chip) : SeqM Unit := do
  regWrite chip .DEVINTCLR (bit chip.bitEP)
  pushFrames [.scan 0]

/-- The operations a handler may perform: those of the Endpoint Manager on its own endpoint (R246). -/
def handlerMay (i : Idx) : Instr → Bool
  | .epRead a _ | .epWrite a _ | .stall a | .unstall a | .getStatus a | .configureEndpoint a _ => epIdx a == i
  | _ => false

/-- The next handler script, none listed meaning the base model's handler, which "changes no state" (R246, log 14). -/
def nextScript : SeqM (List Instr) := fun s =>
  match s.handlerScripts with
  | l :: rest => .ok l { s with handlerScripts := rest }
  | [] => .ok [] s

/-- `call HND[i](EpAddr(i), st)` (R241). -/
def callHandler (i : Idx) (st : BitVec 5) : SeqM Unit := do
  let s ← get
  match s.hndAt i with
  | none => pure ()
  | some .ctl => pushFrames [.handler (epAddr i) st]
  | some (.ext id) =>
    logHook (.handler id (epAddr i) st)
    let ops ← nextScript
    pushFrames [.hookOps (ops.filter (handlerMay i))]

/-- One set bit of the scan: clear, fetch the status, normalise, call (R240, R241). -/
def endpointEvent (chip : Chip) (i : Idx) : SeqM Unit := do
  regWrite chip .EPINTCLR (bit i.toNat)
  let raw ← readRawStatus chip i
  callHandler i (normEp chip raw)

/-! ## The rows -/

/-- FRAME_ARM (R233). -/
def execFrameArm (s : State) : Out := runSeq (frameArm s.cfg.toChip) s

/-- DEVSTAT_ARM (R235, R236). -/
def execDevstatArm (s : State) : Out := runSeq (devStatArm s.cfg.toChip) s

/-- ENDPOINT_ARM (R237, R238). -/
def execEndpointArm (s : State) : Out := runSeq (endpointArm s.cfg.toChip) s

/-- ENDPOINT_EVENT i (R239 to R241). -/
def execEndpointEvent (i : Idx) (s : State) : Out := runSeq (endpointEvent s.cfg.toChip i) s

end Sys2Proof.Machine
end

