-- ==== Sys2Proof/Machine/Requests.lean ====
section
/-! DEFINITION. The Standard Request Handler (44_standard_requests.md): format SETUP. A cell writes `result`, what `Dispatch()`
returns, and for a reply `CT.ptr`, `CT.len` and the bytes in STAGE (R294). -/

namespace Sys2Proof.Machine

/-! ## Shapes of a cell (R294) -/

/-- Data built by SRH: the bytes to STAGE from offset 0, `CT.ptr = (STAGE, 0)`, `CT.len` their number, `ok` (R158, R294). -/
def replyBytes (bs : List Byte) : SeqM Unit := do
  stageWrite 0 bs
  setReply stageStart bs.length
  setResult .ok

/-- "the arm returns `ok` leaving CT.ptr = (STAGE, 0) and CT.len = SU.length". -/
def passCell : SeqM Unit := setResult .ok

/-- "the arm returns `fail` having changed nothing". -/
def failCell : SeqM Unit := setResult .fail

/-- A one-bit status as the first byte of a reply. -/
def statusByte (b : Bool) : Byte := if b then 0x01#8 else 0x00#8

/-- "only recognizes wake-up/test-mode codes as no-ops; otherwise fails" (R303, R306). -/
def deviceFeature (f : SetupFields) : SeqM Unit :=
  if f.value = Config.featRemoteWakeup ∨ f.value = Config.featTestMode then passCell else failCell

/-! ## Hooks (R33, R292) -/

/-- The hook's answer: the next listed one, else an unconstrained one (log 14). -/
def hookAnswer : SeqM HookAnswer := fun s =>
  match s.hookAnswers with
  | a :: rest => .ok a { s with hookAnswers := rest }
  | [] => .ok (Config.freeHook s.fresh) { s with fresh := s.fresh + 1 }

/-- `CallHook(h)` (R292). -/
def callHook (id : Nat) : SeqM ReqResult := do
  let s ← get
  logHook (.request id s.su s.ct.len s.ct.ptr s.stage)
  let a ← hookAnswer
  match a with
  | .fail => pure .fail
  | .ok len ptr stored hookmem =>
    modify (fun s => { s with
      stage := Memory.writeCells s.cfg.stageCap s.stage stored
      hookmem := hookmem
      ct := { s.ct with len := len, ptr := ptr } })
    pure .ok

/-- A request of non-zero type (R290, R291). -/
def typeHook (h : Option Nat) : SeqM Unit :=
  match h with
  | none => setResult .fail
  | some id => do
    let r ← callHook id
    setResult r

/-! ## GET_STATUS -/

/-- GET_STATUS.dev (R300). -/
def execGetStatusDev (_f : SetupFields) (s : State) : Out :=
  runSeq (do let s' ← get; replyBytes [statusByte s'.cfg.selfPowered, 0x00#8]) s

/-- GET_STATUS.if (R301). -/
def execGetStatusIf (_f : SetupFields) (s : State) : Out := runSeq (replyBytes [0x00#8, 0x00#8]) s

/-- GET_STATUS.ep (R302). -/
def execGetStatusEp (f : SetupFields) (s : State) : Out :=
  runSeq (do let st ← getStatus s.cfg.toChip (indexAddress f); replyBytes [statusByte (statusStalled s.cfg.toChip st), 0x00#8]) s

/-! ## CLEAR_FEATURE, SET_FEATURE -/

/-- CLEAR_FEATURE.dev (R303). -/
def execClearFeatureDev (f : SetupFields) (s : State) : Out := runSeq (deviceFeature f) s

/-- CLEAR_FEATURE.if (R304). -/
def execClearFeatureIf (_f : SetupFields) (s : State) : Out := runSeq failCell s

/-- CLEAR_FEATURE.ep (R305). -/
def execClearFeatureEp (f : SetupFields) (s : State) : Out :=
  runSeq (do
    if f.value = Config.featEndpointHalt then
      unstall s.cfg.toChip (indexAddress f)
      passCell
    else failCell) s

/-- SET_FEATURE.dev (R306). -/
def execSetFeatureDev (f : SetupFields) (s : State) : Out := runSeq (deviceFeature f) s

/-- SET_FEATURE.if (R307). -/
def execSetFeatureIf (_f : SetupFields) (s : State) : Out := runSeq failCell s

/-- SET_FEATURE.ep (R308). -/
def execSetFeatureEp (f : SetupFields) (s : State) : Out :=
  runSeq (do
    if f.value = Config.featEndpointHalt then
      stall s.cfg.toChip (indexAddress f)
      passCell
    else failCell) s

/-! ## SET_ADDRESS -/

/-- `0x0080 | SU.value[6:0]` (R309). -/
def addressOperand (chip : Chip) (value : Half) : Half := flagAt chip.bitDEVEN true ||| (value.extractLsb' 0 7).setWidth 16

/-- SET_ADDRESS.dev (R309). -/
def execSetAddressDev (f : SetupFields) (s : State) : Out :=
  runSeq (do commandWrite s.cfg.toChip s.cfg.codeSetAddress (addressOperand s.cfg.toChip f.value); passCell) s

/-- SET_ADDRESS.if (R310). -/
def execSetAddressIf (_f : SetupFields) (s : State) : Out := runSeq failCell s

/-- SET_ADDRESS.ep (R311). -/
def execSetAddressEp (_f : SetupFields) (s : State) : Out := runSeq failCell s

/-! ## GET_DESCRIPTOR -/

/-- GET_DESCRIPTOR.dev (R312). -/
def execGetDescriptorDev (f : SetupFields) (s : State) : Out :=
  runSeq (do
    let s' ← get
    let r ← liftWalk (findDescriptor s'.desc f.value f.index)
    match r with
    | none => failCell
    | some (p, len) =>
      setReply { space := .desc, off := p } len
      setResult .ok) s

/-- GET_DESCRIPTOR.if (R313). -/
def execGetDescriptorIf (_f : SetupFields) (s : State) : Out := runSeq failCell s

/-- GET_DESCRIPTOR.ep (R314). -/
def execGetDescriptorEp (_f : SetupFields) (s : State) : Out := runSeq failCell s

/-! ## GET_CONFIGURATION, SET_CONFIGURATION -/

/-- GET_CONFIGURATION.dev (R315). -/
def execGetConfigurationDev (_f : SetupFields) (s : State) : Out :=
  runSeq (do let s' ← get; replyBytes [s'.config]) s

/-- GET_CONFIGURATION.if (R316). -/
def execGetConfigurationIf (_f : SetupFields) (s : State) : Out := runSeq failCell s

/-- GET_CONFIGURATION.ep (R317). -/
def execGetConfigurationEp (_f : SetupFields) (s : State) : Out := runSeq failCell s

/-- SET_CONFIGURATION.dev (R318). -/
def execSetConfigurationDev (f : SetupFields) (s : State) : Out :=
  runSeq (do
    let c := f.value.extractLsb' 0 8
    configureForSetting s.cfg.toChip c 0x00#8
    modify (fun s => { s with config := c })
    passCell) s

/-- SET_CONFIGURATION.if (R319). -/
def execSetConfigurationIf (_f : SetupFields) (s : State) : Out := runSeq failCell s

/-- SET_CONFIGURATION.ep (R320). -/
def execSetConfigurationEp (_f : SetupFields) (s : State) : Out := runSeq failCell s

/-! ## GET_INTERFACE, SET_INTERFACE -/

/-- GET_INTERFACE.dev (R321). -/
def execGetInterfaceDev (_f : SetupFields) (s : State) : Out := runSeq failCell s

/-- GET_INTERFACE.if (R322). -/
def execGetInterfaceIf (_f : SetupFields) (s : State) : Out := runSeq (replyBytes [0x00#8]) s

/-- GET_INTERFACE.ep (R323). -/
def execGetInterfaceEp (_f : SetupFields) (s : State) : Out := runSeq failCell s

/-- SET_INTERFACE.dev (R324). -/
def execSetInterfaceDev (_f : SetupFields) (s : State) : Out := runSeq failCell s

/-- SET_INTERFACE.if (R325). -/
def execSetInterfaceIf (f : SetupFields) (s : State) : Out :=
  runSeq (if f.value = 0#16 then passCell else failCell) s

/-- SET_INTERFACE.ep (R326). -/
def execSetInterfaceEp (_f : SetupFields) (s : State) : Out := runSeq failCell s

/-! ## SET_DESCRIPTOR, SYNCH_FRAME -/

/-- SET_DESCRIPTOR.dev (R327). -/
def execSetDescriptorDev (_f : SetupFields) (s : State) : Out := runSeq failCell s

/-- SET_DESCRIPTOR.if (R328). -/
def execSetDescriptorIf (_f : SetupFields) (s : State) : Out := runSeq failCell s

/-- SET_DESCRIPTOR.ep (R329). -/
def execSetDescriptorEp (_f : SetupFields) (s : State) : Out := runSeq failCell s

/-- SYNCH_FRAME.dev (R330). -/
def execSynchFrameDev (_f : SetupFields) (s : State) : Out := runSeq failCell s

/-- SYNCH_FRAME.if (R331). -/
def execSynchFrameIf (_f : SetupFields) (s : State) : Out := runSeq failCell s

/-- SYNCH_FRAME.ep (R332). -/
def execSynchFrameEp (_f : SetupFields) (s : State) : Out := runSeq failCell s

/-! ## Outside the table -/

/-- An unknown request code (R333). -/
def execUnknownRequest (_f : SetupFields) (_req : Byte) (_recip : BitVec 2) (s : State) : Out := runSeq failCell s

/-- Recipient 3 (R334). -/
def execRecipientOther (_f : SetupFields) (_req : Byte) (s : State) : Out := runSeq failCell s

/-- H_REQ[1], the class hook (R335). -/
def execHReqClass (_f : SetupFields) (_req : Byte) (_recip : BitVec 2) (s : State) : Out :=
  runSeq (typeHook s.hReq1) s

/-- H_REQ[2], the vendor hook (R336). -/
def execHReqVendor (_f : SetupFields) (_req : Byte) (_recip : BitVec 2) (s : State) : Out :=
  runSeq (typeHook s.hReq2) s

/-- H_REQ[3], the reserved-type hook (R337). -/
def execHReqReserved (_f : SetupFields) (_req : Byte) (_recip : BitVec 2) (s : State) : Out :=
  runSeq (typeHook s.hReq3) s

/-- H_CUSTOM: "If it returns `ok` the standard cell does not run at all ...; if it returns `fail` the standard cell runs as if
the hook did not exist" (R290, R338): the standard cell is what the frame `request` runs next. -/
def customHook (h : Option Nat) : SeqM Unit :=
  match h with
  | none => pushFrames [.request]
  | some id => do
    let r ← callHook id
    match r with
    | .ok => setResult .ok
    | .fail => pushFrames [.request]

/-- H_CUSTOM (R338). -/
def execHCustom (_f : SetupFields) (_req : Byte) (_recip : BitVec 2) (s : State) : Out := runSeq (customHook s.hCustom) s

end Sys2Proof.Machine
end

