-- ==== Sys2Proof/Machine/Dispatch.lean ====
section
/-! DEFINITION. Every instruction has its meaning: one direct call per constructor of `Instr`. -/

namespace Sys2Proof.Machine

def exec (i : Instr) (s : State) : Host.Outcome State Fault Refusal :=
  match i with
  -- format CMDW (R124, R182, R193)
  | .selectEp idx => Sys2Proof.Machine.execSelectEp idx s
  | .selectEpRd idx => Sys2Proof.Machine.execSelectEpRd idx s
  | .setEpStatus idx => Sys2Proof.Machine.execSetEpStatus idx s
  | .setMaxpkt idx => Sys2Proof.Machine.execSetMaxpkt idx s
  | .setAddress => Sys2Proof.Machine.execSetAddress s
  | .configureDevice => Sys2Proof.Machine.execConfigureDevice s
  | .clearBuffer => Sys2Proof.Machine.execClearBuffer s
  | .validateBuffer => Sys2Proof.Machine.execValidateBuffer s
  | .getDevStatus => Sys2Proof.Machine.execGetDevStatus s
  | .getDevStatusRd => Sys2Proof.Machine.execGetDevStatusRd s
  | .wrdata data => Sys2Proof.Machine.execWrdata data s
  | .reservedCmdw word => Sys2Proof.Machine.execReservedCmdw word s
  -- format SETUP: the cells of the request table (R300 to R332)
  | .getStatusDev f => Sys2Proof.Machine.execGetStatusDev f s
  | .getStatusIf f => Sys2Proof.Machine.execGetStatusIf f s
  | .getStatusEp f => Sys2Proof.Machine.execGetStatusEp f s
  | .clearFeatureDev f => Sys2Proof.Machine.execClearFeatureDev f s
  | .clearFeatureIf f => Sys2Proof.Machine.execClearFeatureIf f s
  | .clearFeatureEp f => Sys2Proof.Machine.execClearFeatureEp f s
  | .setFeatureDev f => Sys2Proof.Machine.execSetFeatureDev f s
  | .setFeatureIf f => Sys2Proof.Machine.execSetFeatureIf f s
  | .setFeatureEp f => Sys2Proof.Machine.execSetFeatureEp f s
  | .setAddressDev f => Sys2Proof.Machine.execSetAddressDev f s
  | .setAddressIf f => Sys2Proof.Machine.execSetAddressIf f s
  | .setAddressEp f => Sys2Proof.Machine.execSetAddressEp f s
  | .getDescriptorDev f => Sys2Proof.Machine.execGetDescriptorDev f s
  | .getDescriptorIf f => Sys2Proof.Machine.execGetDescriptorIf f s
  | .getDescriptorEp f => Sys2Proof.Machine.execGetDescriptorEp f s
  | .getConfigurationDev f => Sys2Proof.Machine.execGetConfigurationDev f s
  | .getConfigurationIf f => Sys2Proof.Machine.execGetConfigurationIf f s
  | .getConfigurationEp f => Sys2Proof.Machine.execGetConfigurationEp f s
  | .setConfigurationDev f => Sys2Proof.Machine.execSetConfigurationDev f s
  | .setConfigurationIf f => Sys2Proof.Machine.execSetConfigurationIf f s
  | .setConfigurationEp f => Sys2Proof.Machine.execSetConfigurationEp f s
  | .getInterfaceDev f => Sys2Proof.Machine.execGetInterfaceDev f s
  | .getInterfaceIf f => Sys2Proof.Machine.execGetInterfaceIf f s
  | .getInterfaceEp f => Sys2Proof.Machine.execGetInterfaceEp f s
  | .setInterfaceDev f => Sys2Proof.Machine.execSetInterfaceDev f s
  | .setInterfaceIf f => Sys2Proof.Machine.execSetInterfaceIf f s
  | .setInterfaceEp f => Sys2Proof.Machine.execSetInterfaceEp f s
  | .setDescriptorDev f => Sys2Proof.Machine.execSetDescriptorDev f s
  | .setDescriptorIf f => Sys2Proof.Machine.execSetDescriptorIf f s
  | .setDescriptorEp f => Sys2Proof.Machine.execSetDescriptorEp f s
  | .synchFrameDev f => Sys2Proof.Machine.execSynchFrameDev f s
  | .synchFrameIf f => Sys2Proof.Machine.execSynchFrameIf f s
  | .synchFrameEp f => Sys2Proof.Machine.execSynchFrameEp f s
  -- format SETUP: outside the table (R333 to R338)
  | .unknownRequest f req recip => Sys2Proof.Machine.execUnknownRequest f req recip s
  | .recipientOther f req => Sys2Proof.Machine.execRecipientOther f req s
  | .hReqClass f req recip => Sys2Proof.Machine.execHReqClass f req recip s
  | .hReqVendor f req recip => Sys2Proof.Machine.execHReqVendor f req recip s
  | .hReqReserved f req recip => Sys2Proof.Machine.execHReqReserved f req recip s
  | .hCustom f req recip => Sys2Proof.Machine.execHCustom f req recip s
  -- format DEVINT (R140, R141)
  | .frameArm => Sys2Proof.Machine.execFrameArm s
  | .devstatArm => Sys2Proof.Machine.execDevstatArm s
  | .endpointArm => Sys2Proof.Machine.execEndpointArm s
  | .endpointEvent idx => Sys2Proof.Machine.execEndpointEvent idx s
  -- format EPEVT (R144, R261); the operand is the normalised status handed to the handler
  | .setupEvent status => Sys2Proof.Machine.execSetupEvent status s
  | .outDataEvent status => Sys2Proof.Machine.execOutDataEvent status s
  | .outStatusEvent status => Sys2Proof.Machine.execOutStatusEvent status s
  | .inEvent status => Sys2Proof.Machine.execInEvent status s
  -- format CALL: the operations software calls (R160, R161)
  | .command code => Sys2Proof.Machine.execCommand code s
  | .commandWrite code data => Sys2Proof.Machine.execCommandWrite code data s
  | .commandRead code => Sys2Proof.Machine.execCommandRead code s
  | .registerHandler address h => Sys2Proof.Machine.execRegisterHandler address h s
  | .configureEndpoint address maxPacketSize => Sys2Proof.Machine.execConfigureEndpoint address maxPacketSize s
  | .stall address => Sys2Proof.Machine.execStall address s
  | .unstall address => Sys2Proof.Machine.execUnstall address s
  | .getStatus address => Sys2Proof.Machine.execGetStatus address s
  | .epRead address maxlen => Sys2Proof.Machine.execEpRead address maxlen s
  | .epWrite address bytes => Sys2Proof.Machine.execEpWrite address bytes s
  | .dispatchNow => Sys2Proof.Machine.execDispatchNow s
  | .dataIn => Sys2Proof.Machine.execDataIn s
  | .stallControl => Sys2Proof.Machine.execStallControl s
  | .findDescriptor typeIndex langId => Sys2Proof.Machine.execFindDescriptor typeIndex langId s
  | .configureForSettingZero altSetting => Sys2Proof.Machine.execConfigureForSettingZero altSetting s
  | .configureForSettingNonzero configIndex altSetting => Sys2Proof.Machine.execConfigureForSettingNonzero configIndex altSetting s
  -- format WIRE: the host's events (R372 to R378)
  | .wireSetup b => Sys2Proof.Machine.execWireSetup b s
  | .wireOut num bytes => Sys2Proof.Machine.execWireOut num bytes s
  | .wireIn num => Sys2Proof.Machine.execWireIn num s
  | .wireSof => Sys2Proof.Machine.execWireSof s
  | .wireBusReset => Sys2Proof.Machine.execWireBusReset s
  | .wireConnect v => Sys2Proof.Machine.execWireConnect v s
  | .wireSuspend v => Sys2Proof.Machine.execWireSuspend v s

end Sys2Proof.Machine
end

