-- ==== Sys2Proof/Machine/Fetch.lean ====
section
/-! DEFINITION. What the next step runs (log 4, 5, 18): whose turn it is, and for SEQ what stands at its position: the
snapshot, the endpoint bits, the setup packet, the endpoint event. -/

namespace Sys2Proof.Machine

/-- The next step runs an instruction from a state, or is already done. -/
inductive Fetched where
  | run (i : Instr) (s : State)
  | done (o : Out)

/-- The bit of the snapshot an arm belongs to (R140). -/
def armBit (chip : Chip) : Instr → RegWord
  | .frameArm => bit chip.bitFRAME
  | .devstatArm => bit chip.bitDEVSTAT
  | .endpointArm => bit chip.bitEP
  | _ => 0#Config.regMax

/-- The pass at its arms: the first arm SNAP selects among those not yet tested, else the return (R231, R232, R242). -/
def fetchArm (tested : RegWord) (s : State) : Fetched :=
  match decodeDevint s.cfg.toChip (s.snap.getD 0#Config.regMax &&& ~~~tested) with
  | some i => .run i { s with frames := .arms (tested ||| armBit s.cfg.toChip i) :: s.frames }
  | none => .done (.next (exitPass s))

/-- A scan step: EPINTST is read afresh (R238, R239). -/
def scanStep (chip : Chip) (i : Nat) : SeqM Unit := do
  let v ← regRead chip .EPINTST
  if v.getLsbD i then pushFrames [.epEvent (BitVec.ofNat 5 i), .scan (i + 1)] else pushFrames [.scan (i + 1)]

/-- The frame SEQ stands at, taken off. -/
def fetchFrame (f : Frame) (s : State) : Fetched :=
  match f with
  | .arms tested => fetchArm tested s
  | .scan i => if i < Config.nIdx then .done (runSeq (scanStep s.cfg.toChip i) s) else .done (.next s)
  | .epEvent i => .run (.endpointEvent i) s
  | .handler a st =>
    match decodeEpevt s.cfg.toChip (decide (0 < s.ct.resid.toNat)) a st with
    | some i => .run i s
    | none => .done (.next s)
  | .hookOps [] => .done (.next s)
  | .hookOps (op :: ops) => .run op { s with frames := .hookOps ops :: s.frames }
  | .dispatch => .run (decodeDispatch s.hCustom.isSome (suWord s.su)) s
  | .request => .run (decodeSetup (suWord s.su)) s
  | .replyNow => .done (runSeq (replyNow s.cfg.toChip) s)
  | .replyOut => .done (runSeq (replyOut s.cfg.toChip) s)

/-- SEQ's turn: nothing once it hangs (R403); with nothing to do, entry to a pass if it is enabled (R230). -/
def fetchSeq (s : State) : Fetched :=
  if s.hung.isSome then .done (.next s)
  else
    match s.frames with
    | [] => if s.entryEnabled then .done (.next (enterPass s)) else .done (.next s)
    | f :: rest => fetchFrame f { s with frames := rest }

/-- ENG's turn. -/
def fetchEng (s : State) : Fetched :=
  match s.eng.ready s.cfg.toChip s.cfg.engResponsive with
  | some p => .run p.toInstr s
  | none => .done (.next s)

/-- SEQ and APP are one thread (R437): APP waits while SEQ is inside something. -/
def State.seqBusy (s : State) : Bool := s.inIsr || !s.frames.isEmpty

/-- APP waits too while entry to a pass is enabled: entry is not optional (R230), so that with IRQ never dropping "no APP step ever
runs" (R462, log 16). -/
def State.appWaits (s : State) : Bool := s.seqBusy || s.entryEnabled

/-- What the next step runs. With no turn listed ENG moves if it can, else SEQ. -/
def fetch (s : State) : Fetched :=
  match s.turns with
  | [] =>
    match s.eng.ready s.cfg.toChip s.cfg.engResponsive with
    | some p => .run p.toInstr s
    | none => fetchSeq s
  | .wire ev :: ts => .run ev.toInstr { s with turns := ts }
  | .eng :: ts => fetchEng { s with turns := ts }
  | .seq inter :: ts => fetchSeq { s with turns := ts, slots := inter }
  | .call i inter :: ts =>
    if s.hung.isSome then .done (.next { s with turns := ts })
    else if s.appWaits then fetchSeq s
    else if i.isCall then .run i { s with turns := ts, slots := inter }
    else .done (.refused .badInput)
  | .app a inter :: ts =>
    if s.hung.isSome then .done (.next { s with turns := ts })
    else if s.appWaits then fetchSeq s
    else .done (execApp a { s with turns := ts, slots := inter })

/-- A table word placed where the next step fetches (log 4): a setup packet in SU with the request next; a snapshot in SNAP
with its arms next; any other 32-bit word in PEND with ENG's turn next. -/
def placeWord (s : State) (nbits w : Nat) : State :=
  if nbits = 64 then
    { s with
      su := suCapture s.su (leBytes 8 w)
      frames := [.request], hung := none, turns := .seq [] :: s.turns }
  else
    match decodeCmdw s.cfg.toChip (BitVec.ofNat Config.wordW w), decodeDevint s.cfg.toChip ((BitVec.ofNat Config.wordW w).setWidth Config.regMax) with
    | .reserved _, some _ =>
      { s with
        snap := some ((BitVec.ofNat Config.wordW w).setWidth Config.regMax), inIsr := true
        frames := [.arms 0#Config.regMax], hung := none, turns := .seq [] :: s.turns }
    | _, _ =>
      { s with
        eng := { s.eng with pend := some (BitVec.ofNat Config.wordW w) }
        cfg := { s.cfg with engResponsive := true }
        turns := .eng :: s.turns }

end Sys2Proof.Machine
end

