-- ==== Sys2Proof/Machine/Step.lean ====
section
/-! DEFINITION. One step of the machine: fetch what stands next, run it. -/

namespace Sys2Proof.Machine

/-- One step: of ENG, of WIRE, of SEQ or of APP (R91). -/
def step (s : State) : Host.Outcome State Fault Refusal :=
  match fetch s with
  | .run i s' => exec i s'
  | .done o => o

/-- A table word stored where `step` fetches its next instruction (log 4). -/
def State.withFetchWord (s : State) (nbits w : Nat) : State := placeWord s nbits w

end Sys2Proof.Machine
end

