-- ==== Sys2Proof/Safety.lean ====
section
/-! DEFINITION. The terms claims use: the invariant of the block, the states from which an operation runs undisturbed, and
what the rules say an operation leaves, written once from the abstract forms of the spec. -/

namespace Sys2Proof.Machine

/-! ## The invariant -/

/-- Every listed offset of STAGE lies below a bound (R26). -/
def Memory.below (cap : Nat) (m : Memory) : Prop := ∀ c ∈ m, c.1 < cap

/-- What holds of ENG in every reachable state. -/
structure EngInv (chip : Chip) (e : Eng) : Prop where
  /-- reserved bits of DEVINTST read 0 (R40, R41) -/
  devintst_reserved : e.devintst &&& ~~~(devintMask chip) = 0#Config.regMax
  /-- reserved bits of DEVINTEN read 0 (R40, R42) -/
  devinten_reserved : e.devinten &&& ~~~(devintMask chip) = 0#Config.regMax
  /-- DPCTL keeps bits 5:0 (R50) -/
  dpctl_reserved : e.dpctl &&& ~~~(dpctlMask chip) = 0#Config.regMax
  /-- a realised index is a marked one (R206) -/
  realised_marked : e.rlzd &&& ~~~e.realize = 0#Config.wordW
  /-- "an endpoint must be realized before its handler fires" (R35) -/
  event_realised : e.epintst &&& ~~~e.rlzd = 0#Config.wordW
  /-- no buffer holds more than a 10-bit length can say (R58, U8) -/
  packets_short : ∀ i, (e.epAt i).buf.packet.length ≤ 1023
  /-- "a buffered setup packet is always 8 bytes" and stands in endpoint 0 OUT (R58, R262, R372) -/
  setup_packets : ∀ i b, (e.epAt i).buf = .full b true → i = 0#5 ∧ b.length = 8
  /-- only a connected device is suspended (R377, R378) -/
  suspended_connected : e.suspended chip = true → e.connected chip = true
  /-- the read port stands at an OUT index (R59) -/
  rxidx_out : e.rxidx.getLsbD 0 = false

/-- What holds of the whole state between two steps. -/
structure Inv (s : State) : Prop where
  eng : EngInv s.cfg.toChip s.eng
  /-- the exclusion of R379 ends with the operation it belongs to -/
  unlocked : s.eng.portLock = none
  /-- STAGE is in canonical form and inside its capacity (R26) -/
  stage_wf : Memory.wf s.stage = true
  stage_below : Memory.below s.cfg.stageCap s.stage
  /-- "remaining length is always >= 0 and <= the SetupPacket's declared length" (R24, R281) -/
  resid_le : s.ct.resid.toNat ≤ (suLength s.su).toNat
  /-- "CT.phase = DATA_STAGE(H2D) implies SU.type[7] = 0" (R281) -/
  h2d_dir : s.ct.phase = .dataH2D → suDir s.su = false
  /-- the snapshot exists exactly during a pass (R29) -/
  snap_isr : s.snap.isSome = s.inIsr

/-- Does an act of APP keep the clauses of R24 and R281 that tie CT to SU? Each is one write (R67), and software that writes one
of them alone may break what CTE keeps. -/
def AppAct.keepsTransfer (s : State) : AppAct → Prop
  | .writeSu b => s.ct.resid.toNat ≤ (suLength b).toNat ∧ (s.ct.phase = .dataH2D → suDir b = false)
  | .writeCt c => c.resid.toNat ≤ (suLength s.su).toNat ∧ (c.phase = .dataH2D → suDir s.su = false)
  | _ => True

/-! ## Undisturbed states -/

/-- The machine is the chip the spec describes: every number the spec decides has its default value (R7). -/
def State.specChip (s : State) : Prop := s.cfg.toChip = Config.chip

/-- No move of ENG or WIRE is listed between the accesses of the next instruction, ENG answers, no phase is pending. -/
def State.calm (s : State) : Prop := s.slots = [] ∧ s.cfg.engResponsive = true ∧ s.eng.pend = none

/-- Only ENG, the moves consumed and what WIRE observed may differ. -/
def SameSeq (s t : State) : Prop := { s with eng := t.eng, slots := t.slots, wireLog := t.wireLog } = t

/-- Is the turn one of APP's, which waits while SEQ is inside something (R437)? -/
def Turn.ofApp : Turn → Bool
  | .call _ _ | .app _ _ => true
  | .wire _ | .eng | .seq _ => false

/-- SEQ has the turn and stands at `s'`: a listed turn of its own was taken, a turn of APP waits for it, or no turn is listed
and ENG has nothing to complete (log 5). -/
def seqTurn (s s' : State) : Prop :=
  (∃ inter ts, s.turns = .seq inter :: ts ∧ s' = { s with turns := ts, slots := inter }) ∨
  (∃ t ts, s.turns = t :: ts ∧ t.ofApp = true ∧ s.appWaits = true ∧ s' = s) ∨
  (s.turns = [] ∧ s.eng.ready s.cfg.toChip s.cfg.engResponsive = none ∧ s' = s)

/-- Only what a packet event may touch differs: buffers and their flags, the pending bits and the umbrella flag. -/
def samePort (e e' : Eng) : Prop := { e' with ep := e.ep, epintst := e.epintst, devintst := e.devintst } = e

/-- The host can reach an index of endpoint `num` (R371), and SEQ is not working on it (R379). -/
def reachable (chip : Chip) (num : BitVec 4) (i : Idx) (e : Eng) : Prop :=
  e.devstat.getLsbD chip.bitCON = true ∧ e.devstat.getLsbD chip.bitSUS = false ∧ e.devaddr.getLsbD chip.bitDEVEN = true ∧
  e.rlzd.getLsbD i.toNat = true ∧ (num = 0#4 ∨ e.conf = true) ∧ e.lockedIdx ≠ some i

/-- The state after WIRE observed an outcome and ENG became `e`. -/
def State.observed (ev : WireEvent) (o : WireOutcome) (e : Eng) (s : State) : State :=
  { s with eng := e, wireLog := (ev, o) :: s.wireLog }

/-- The state after a request hook was called and answered (R292). -/
def State.hooked (id : Nat) (a : HookAnswer) (s : State) : State :=
  let s' := { s with hookLog := .request id s.su s.ct.len s.ct.ptr s.stage :: s.hookLog }
  match a with
  | .fail => s'
  | .ok len ptr stored hookmem =>
    { s' with
      stage := Memory.writeCells s.cfg.stageCap s.stage stored
      hookmem := hookmem
      ct := { s.ct with len := len, ptr := ptr } }

/-- Did the hook take the request? -/
def HookAnswer.accepts : HookAnswer → Bool
  | .fail => false
  | .ok _ _ _ _ => true

/-- The hook's answer and the state with it used up: the next listed one, else an unconstrained one (log 14). -/
def State.answer (s : State) : HookAnswer × State :=
  match s.hookAnswers with
  | a :: rest => (a, { s with hookAnswers := rest })
  | [] => (Config.freeHook s.fresh, { s with fresh := s.fresh + 1 })

/-- The cells and rows that fail whatever their operands (R295, R304, R307, R310, R311, R313, R314, R316, R317, R319 to R321,
R323, R324, R326 to R334). -/
def Instr.alwaysFails : Instr → Bool
  | .clearFeatureIf _ | .setFeatureIf _ | .setAddressIf _ | .setAddressEp _ | .getDescriptorIf _ | .getDescriptorEp _
  | .getConfigurationIf _ | .getConfigurationEp _ | .setConfigurationIf _ | .setConfigurationEp _ | .getInterfaceDev _
  | .getInterfaceEp _ | .setInterfaceDev _ | .setInterfaceEp _ | .setDescriptorDev _ | .setDescriptorIf _
  | .setDescriptorEp _ | .synchFrameDev _ | .synchFrameIf _ | .synchFrameEp _ | .unknownRequest _ _ _
  | .recipientOther _ _ => true
  | _ => false

/-- Packet number `j` of a reply cut into chunks of `m` bytes; empty from the end on (R273). -/
def packetAt (m : Nat) (reply : List Byte) (j : Nat) : List Byte := (reply.drop (j * m)).take m

/-- One round of a device-to-host data stage: the host takes a packet from endpoint 0 IN, and the IN event it raised is
served (R272, R374). -/
def inRound (s : State) : Option (List Byte × State) :=
  match exec (.wireIn 0#4) s with
  | .next t =>
    match t.wireLog, exec (.inEvent 0#5) t with
    | (_, .data b) :: _, .next u => some (b, u)
    | _, _ => none
  | _ => none

/-- Several rounds, the packets in order. -/
def inRounds : Nat → State → Option (List (List Byte) × State)
  | 0, s => some ([], s)
  | k + 1, s =>
    match inRound s with
    | some (b, t) => (inRounds k t).map (fun r => (b :: r.1, r.2))
    | none => none

/-! ## What an operation leaves of ENG -/

/-- After a command with a data phase: both phase-complete flags 0 (R172 to R174), CUR consumed (R182, R183), CMDDATA no
longer valid (R45). -/
def Eng.quiet (chip : Chip) (e : Eng) : Eng :=
  { e with devintst := e.devintst &&& ~~~(phaseFlags chip), cmddataValid := false, cur := none }

/-- After `commandRead`: the value is in CMDDATA and stays valid (R174). -/
def Eng.answered (chip : Chip) (v : Half) (e : Eng) : Eng := { e.quiet chip with cmddata := v, cmddataValid := true }

/-- After `EpRead` on index `i` (R216): the buffer is released, `err` cleared; the data port was used and is closed. -/
def Eng.released (chip : Chip) (i : Idx) (e : Eng) : Eng :=
  { (e.quiet chip).setEp i { e.epAt i with buf := .empty, err := false } with
    cur := some chip.codeClearBuffer, sel := i, dpctl := 0#Config.regMax, rxidx := i
    rxpos := 4 * portWords (e.epAt i).buf.packet.length, rxOpened := true, portLock := none }

/-- A packet as the accumulator holds it (R52, R83, R221): whole words, zeros past its end, as many as the length TXPLEN keeps,
the packet's low 10 bits of it. -/
def padded (bs : List Byte) : List Byte :=
  (bs ++ List.replicate 3 0#8).take (4 * portWords (bs.length % 2 ^ Config.lenW))

/-- After `EpWrite` on index `i` (R220): the buffer is full with the bytes; the data port was used and is closed. -/
def Eng.armed (chip : Chip) (i : Idx) (bs : List Byte) (e : Eng) : Eng :=
  { (e.quiet chip).setEp i { e.epAt i with buf := .full bs false } with
    cur := some chip.codeValidateBuffer, sel := i, dpctl := 0#Config.regMax, txidx := i
    txlen := BitVec.ofNat Config.lenW bs.length, txacc := padded bs, portLock := none }

/-- The record of an index after SET_MAXPKT reached it marked (R184, R206). -/
def Eng.sized (i : Idx) (m : Mps) (e : Eng) : EpRec :=
  if e.rlzd.getLsbD i.toNat then { e.epAt i with mps := m }
  else { mps := m, stalled := false, nak := false, err := false, buf := .empty }

/-- After `configureEndpoint` on index `i` (R203, R204, R206): marked, sized, realised, both sources enabled, the confirmation
cleared, the umbrella flag raised if an event was pending on an index not yet enabled (R41). -/
def Eng.configured (chip : Chip) (i : Idx) (m : Half) (e : Eng) : Eng :=
  { (e.quiet chip).setEp i (e.sized i (sizeIn chip m)) with
    realize := setBit e.realize i.toNat
    rlzd := setBit e.rlzd i.toNat
    epinten := setBit e.epinten i.toNat
    devinten := setBit e.devinten chip.bitEP &&& devintMask chip
    devintst :=
      if !e.epinten.getLsbD i.toNat && e.epintst.getLsbD i.toNat then
        setBit (e.devintst &&& ~~~(phaseFlags chip ||| bit chip.bitEPRLZD)) chip.bitEP
      else e.devintst &&& ~~~(phaseFlags chip ||| bit chip.bitEPRLZD) }

/-! ## The bytes a chunk is made of -/

/-- The bytes `MemRead(p, n)` names and SEQ's free-value counter afterwards; `none` where it faults (R81, R84, R404). -/
def State.bytesAt (s : State) (p : Ptr) (n : Nat) : Option (List Byte × Nat) :=
  if n = 0 then some ([], s.fresh)
  else
    match p.space with
    | .desc => if p.off + n ≤ s.desc.length then some ((s.desc.drop p.off).take n, s.fresh) else none
    | .hookmem => if p.off + n ≤ s.hookmem.length then some ((s.hookmem.drop p.off).take n, s.fresh) else none
    | .stage => if p.off + n ≤ s.cfg.stageCap then some (Memory.readList s.stage p.off n s.fresh) else none

/-- The length of the next chunk, `min(M0, CT.resid)` (R268). -/
def State.chunkLen (s : State) : Nat := min s.cfg.m0 s.ct.resid.toNat

/-- The state after `DataIn()` sent these bytes (R268). -/
def State.sent (bs : List Byte) (fresh n : Nat) (s : State) : State :=
  { s with
    eng := s.eng.armed s.cfg.toChip 1#5 bs
    ct := { s.ct with ptr := { s.ct.ptr with off := s.ct.ptr.off + n }, resid := s.ct.resid - BitVec.ofNat 16 n }
    fresh := fresh }

/-- The state after `StallControl()` (R270). -/
def State.aborted (s : State) : State :=
  { s with
    eng := (s.eng.setStalled 1#5 true).quiet s.cfg.toChip
    ct := { s.ct with resid := 0#16, len := 0, phase := .idle } }

/-! ## The descriptor table as a list of descriptors (R150, R151) -/

/-- The offsets at which descriptors stand, up to the sentinel; `none` where the walk leaves the table. -/
def tableOffsets (d : List Byte) : Nat → Nat → Option (List Nat)
  | 0, _ => none
  | fuel + 1, p =>
    match d[p]? with
    | none => none
    | some l => if l = 0#8 then some [] else (tableOffsets d fuel (p + l.toNat)).map (fun t => p :: t)

/-- A byte of a descriptor, 0 where there is none. -/
def descField (d : List Byte) (p k : Nat) : Byte := (d[p + k]?).getD 0#8

/-- The length a descriptor is reported with (R351, R352). -/
def reportedLength (d : List Byte) (p : Nat) : Nat :=
  if descField d p 1 = Config.descConfiguration then (le16 (descField d p 2) (descField d p 3)).toNat
  else (descField d p 0).toNat

/-- R151: a sentinel inside the table, lengths of at least 2, total lengths that do not reach past the end; the total-length
bytes of a configuration descriptor lie inside the table. -/
def wellFormedTable (d : List Byte) (offs : List Nat) : Prop :=
  tableOffsets d (d.length + 1) 0 = some offs ∧
  ∀ p ∈ offs, 2 ≤ (descField d p 0).toNat ∧
    (descField d p 1 = Config.descConfiguration → p + 3 < d.length ∧ p + reportedLength d p ≤ d.length)

/-- The fields `configureForSetting` reads lie inside the table (R153 to R155, R359). -/
def fieldsInside (d : List Byte) (offs : List Nat) : Prop :=
  ∀ p ∈ offs,
    (descField d p 1 = Config.descConfiguration → p + 5 < d.length) ∧
    (descField d p 1 = Config.descInterface → p + 3 < d.length) ∧
    (descField d p 1 = Config.descEndpoint → p + 5 < d.length)

/-- Field `k` of the most recent descriptor of type `ty` before offset `p` (R356). -/
def latestField (d : List Byte) (offs : List Nat) (p : Nat) (ty : Byte) (k : Nat) : Option Byte :=
  (((offs.takeWhile (fun q => decide (q < p))).filter (fun q => descField d q 1 == ty)).getLast?).map
    (fun q => descField d q k)

/-- The endpoint descriptors whose enclosing configuration has value `c` and whose enclosing interface has alternate setting
`a`, as operands of `configureEndpoint` (R357). -/
def enclosedEndpoints (d : List Byte) (offs : List Nat) (c a : Byte) : List (Byte × Half) :=
  (offs.filter (fun p => descField d p 1 == Config.descEndpoint &&
      latestField d offs p Config.descConfiguration 5 == some c &&
      latestField d offs p Config.descInterface 3 == some a)).map
    (fun p => (descField d p 2, le16 (descField d p 4) (descField d p 5)))

/-- ENG after `configureForSetting(c, a)`, `c != 0` (R356): the endpoints in order, then CONF <- 1. -/
def Eng.setting (chip : Chip) (es : List (Byte × Half)) (e : Eng) : Eng :=
  { (es.foldl (fun e r => Eng.configured chip (epIdx r.1) r.2 e) e).quiet chip with conf := true }

end Sys2Proof.Machine
end

