-- ==== Sys2Proof/Certificates/Slice0/Obligations.lean ====
section
/-! DEFINITION. The statements for the provers, from the numbered rules of spec/: one section per file of the spec. -/

open Sys2Proof Sys2Proof.Machine

/-! ## Encoding (30_encoding.md) -/

/-- Words written out from the encodings of R121 to R126, R130 to R134 and R140 decode to the instructions they stand for. That the
three words with only snapshot bits read as arms and not as reserved command words is `decodeTableWord`'s choice (log 17). -/
def Obligations.WrittenWordsDecode : Prop :=
  decodeTableWord 32 0b00000000000001100000010100000000 = some (.selectEp 6#5) ∧
  decodeTableWord 32 0b00000000000001100000001000000000 = some (.selectEpRd 6#5) ∧
  decodeTableWord 32 0b00000000010000110000010100000000 = some (.setEpStatus 3#5) ∧
  decodeTableWord 32 0b00000000100000110000010100000000 = some (.setMaxpkt 3#5) ∧
  decodeTableWord 32 0x00D00500 = some .setAddress ∧
  decodeTableWord 32 0x00FE0200 = some .getDevStatusRd ∧
  decodeTableWord 32 0x00850100 = some (.wrdata 0x0085#16) ∧
  decodeTableWord 32 0x00D00200 = some (.reservedCmdw 0x00D00200#32) ∧
  decodeTableWord 64 0x0012000001000680 =
    some (.getDescriptorDev { dir := true, rsv := 0#3, value := 0x0100#16, index := 0#16, length := 18#16 }) ∧
  decodeTableWord 64 0x0000008100000302 =
    some (.setFeatureEp { dir := false, rsv := 0#3, value := 0#16, index := 0x0081#16, length := 0#16 }) ∧
  decodeTableWord 32 0x00000005 = some .frameArm ∧
  decodeTableWord 32 0x0000000C = some .devstatArm ∧
  decodeTableWord 32 0x00000004 = some .endpointArm ∧
  decodeEpevt Config.chip false 0x00#8 0b00101#5 = some (.setupEvent 0b00101#5)

/-- Format CMDW: decoding the bytes of an encoded instruction gives it back, and every word is the code of what it decodes to;
a command or read-data word with PAYLOAD[15:8] not 0 is a reserved word by log 31 (DESIGN CHOICE). -/
def Obligations.CmdwRoundTrip : Prop :=
  (∀ (p : Bool) (i : Instr) (w : Word), i.wf Config.chip = true → encode Config.chip i = some (.cmdw w) →
    decodeBytes Config.chip .cmdw p (bytesOfCode Config.chip (.cmdw w)).2 = .ok i) ∧
  (∀ w : Word, (decodeCmdw Config.chip w).toInstr.wf Config.chip = true ∧ encode Config.chip (decodeCmdw Config.chip w).toInstr = some (.cmdw w))

/-- Format SETUP: the same; a packet offered to the custom hook is told from its cell by the hook being there (R290). -/
def Obligations.SetupRoundTrip : Prop :=
  (∀ (p : Bool) (i : Instr) (w : BitVec 64), i.wf Config.chip = true → encode Config.chip i = some (.setup w) →
    (∀ f req recip, i ≠ .hCustom f req recip) → decodeBytes Config.chip .setup p (bytesOfCode Config.chip (.setup w)).2 = .ok i) ∧
  (∀ (f : SetupFields) (req : Byte) (recip : BitVec 2) (w : BitVec 64), encode Config.chip (.hCustom f req recip) = some (.setup w) →
    decodeDispatch true w = .hCustom f req recip) ∧
  (∀ (hook : Bool) (w : BitVec 64), (decodeDispatch hook w).wf Config.chip = true ∧
    encode Config.chip (decodeDispatch hook w) = some (.setup w))

/-- Formats DEVINT and EPEVT: the same; OUT data and OUT status events are told apart by CT.resid (R144, R261). A snapshot
selects its first arm in the order FRAME, DEV_STAT, EP, whatever its other bits (R140, R232). The byte form of an EPEVT pair is the
model's (log 33, DESIGN CHOICE). -/
def Obligations.EventRoundTrip : Prop :=
  (∀ (p : Bool) (i : Instr) (w : RegWord), encode Config.chip i = some (.devint w) →
    decodeBytes Config.chip .devint p (bytesOfCode Config.chip (.devint w)).2 = .ok i) ∧
  (∀ (i : Instr) (a : Byte) (st : BitVec 5), i.wf Config.chip = true → encode Config.chip i = some (.epevt a st) →
    (∀ x, i = .outDataEvent x → decodeBytes Config.chip .epevt true (bytesOfCode Config.chip (.epevt a st)).2 = .ok i) ∧
    (∀ x, i = .outStatusEvent x → decodeBytes Config.chip .epevt false (bytesOfCode Config.chip (.epevt a st)).2 = .ok i) ∧
    ((∀ x, i ≠ .outDataEvent x ∧ i ≠ .outStatusEvent x) →
      ∀ p, decodeBytes Config.chip .epevt p (bytesOfCode Config.chip (.epevt a st)).2 = .ok i)) ∧
  (∀ w : RegWord, decodeDevint Config.chip w =
    if w.getLsbD 0 then some .frameArm else if w.getLsbD 3 then some .devstatArm
    else if w.getLsbD 2 then some .endpointArm else none)

/-- R128, R129: the mapping between endpoint addresses and indices. -/
def Obligations.EndpointIndexBijection : Prop :=
  (∀ i : Idx, epIdx (epAddr i) = i) ∧
  (∀ a : Byte, a &&& 0x70#8 = 0#8 → epAddr (epIdx a) = a) ∧
  (∀ a : Byte, (epIdx a).toNat = 2 * (a.toNat % 16) + a.toNat / 128) ∧
  (∀ i : Idx, (epAddr i).toNat = 128 * (i.toNat % 2) + i.toNat / 2)

/-! ## A step runs the decoded instruction (log 4, 5, 18) -/

/-- ENG, WIRE and APP: a pending phase word, a WIRE event, an operation of APP and an act of APP run as what they are; while entry
to a pass is enabled the pass is entered first, and APP's turn waits (R230, R462, log 16). -/
def Obligations.StepRunsTurn : Prop :=
  (∀ (s : State) (w : Word), s.eng.pend = some w → s.cfg.engResponsive = true →
    (s.turns = [] → step s = exec (decodeCmdw s.cfg.toChip w).toInstr s) ∧
    (∀ ts, s.turns = .eng :: ts → step s = exec (decodeCmdw s.cfg.toChip w).toInstr { s with turns := ts })) ∧
  (∀ (s : State) (ev : WireEvent) (ts : List Turn), s.turns = .wire ev :: ts →
    step s = exec ev.toInstr { s with turns := ts }) ∧
  (∀ (s : State) (inter : List (List Move)) (ts : List Turn), s.hung = none → s.inIsr = false → s.frames = [] →
    (s.eng.devintst &&& s.eng.devinten = 0#64 ∨ s.irqMask = true →
      (∀ i : Instr, s.turns = .call i inter :: ts → i.isCall = true →
        step s = exec i { s with turns := ts, slots := inter }) ∧
      (∀ a : AppAct, s.turns = .app a inter :: ts → step s = execApp a { s with turns := ts, slots := inter })) ∧
    (s.eng.devintst &&& s.eng.devinten ≠ 0#64 → s.irqMask = false →
      (∃ i, s.turns = .call i inter :: ts) ∨ (∃ a, s.turns = .app a inter :: ts) →
      step s = .next { s with inIsr := true, snap := some s.eng.devintst, frames := [.arms 0#64] }))

/-- SEQ: the snapshot, an endpoint bit, a handler's arguments, the setup packet and a handler's operation run as the
instructions they decode to. -/
def Obligations.StepRunsSeqInstruction : Prop :=
  ∀ (s s' : State) (f : Frame) (rest : List Frame), seqTurn s s' → s.hung = none → s.frames = f :: rest →
    (∀ tested i, f = .arms tested → decodeDevint s.cfg.toChip (s.snap.getD 0#64 &&& ~~~tested) = some i →
      step s = exec i { s' with frames := .arms (tested ||| armBit s.cfg.toChip i) :: rest }) ∧
    (∀ i, f = .epEvent i → step s = exec (.endpointEvent i) { s' with frames := rest }) ∧
    (∀ a st, f = .handler a st →
      (∀ i, decodeEpevt s.cfg.toChip (decide (0 < s.ct.resid.toNat)) a st = some i → step s = exec i { s' with frames := rest }) ∧
      (decodeEpevt s.cfg.toChip (decide (0 < s.ct.resid.toNat)) a st = none → step s = .next { s' with frames := rest })) ∧
    (∀ op ops, f = .hookOps (op :: ops) → step s = exec op { s' with frames := .hookOps ops :: rest }) ∧
    (f = .dispatch → step s = exec (decodeDispatch s.hCustom.isSome (suWord s.su)) { s' with frames := rest }) ∧
    (f = .request → step s = exec (decodeSetup (suWord s.su)) { s' with frames := rest })

/-- R230, R231, R60: entry to a pass. -/
def Obligations.PassEntry : Prop :=
  ∀ s s' : State, seqTurn s s' → s.hung = none → s.frames = [] →
    (s.eng.devintst &&& s.eng.devinten ≠ 0#64 → s.irqMask = false → s.inIsr = false →
      step s = .next { s' with inIsr := true, snap := some s.eng.devintst, frames := [.arms 0#64] }) ∧
    (s.eng.devintst &&& s.eng.devinten = 0#64 ∨ s.irqMask = true ∨ s.inIsr = true → step s = .next s')

/-- R238, R239, R242: a scan step reads EPINTST afresh, after what ENG and WIRE did before that access; the scan ends at 32;
the pass ends when the snapshot selects no arm that was not tested. -/
def Obligations.ScanAndExit : Prop :=
  ∀ (s s' : State) (f : Frame) (rest : List Frame), seqTurn s s' → s.hung = none → s.frames = f :: rest →
    (∀ i, f = .scan i → i < 32 → ∀ t, t = beforeAccess s.cfg.toChip { s' with frames := rest } →
      step s = .next { t with frames :=
        if t.eng.epintst.getLsbD i then .epEvent (BitVec.ofNat 5 i) :: .scan (i + 1) :: rest else .scan (i + 1) :: rest }) ∧
    (∀ i, f = .scan i → 32 ≤ i → step s = .next { s' with frames := rest }) ∧
    (∀ tested w, f = .arms tested → s.snap = some w →
      (w &&& ~~~tested).getLsbD s.cfg.bitFRAME = false → (w &&& ~~~tested).getLsbD s.cfg.bitEP = false →
      (w &&& ~~~tested).getLsbD s.cfg.bitDEVSTAT = false →
      step s = .next { s' with inIsr := false, snap := none, frames := [] })

/-! ## ENG's commands (40_hci.md): format CMDW -/

/-- R181, R188: a command phase latches its code in CUR and raises CCEMPTY; SELECT_EP also sets SEL; the codes with a data phase
and GET_DEV_STATUS do nothing else. -/
def Obligations.CommandPhases : Prop :=
  ∀ s : State,
    (∀ i : Idx, exec (.selectEp i) s = .next { s with eng := { s.eng with
      sel := i, cur := some (codeWithIdx s.cfg.codeSelectEp i), pend := none
      devintst := setBit s.eng.devintst s.cfg.bitCCEMPTY } }) ∧
    (∀ (i : Instr) (c : Byte), (i, c) ∈ [(Instr.setAddress, s.cfg.codeSetAddress),
        (Instr.configureDevice, s.cfg.codeConfigureDevice), (Instr.getDevStatus, s.cfg.codeGetDevStatus)] ∨
        (∃ x, (i = .setEpStatus x ∧ c = codeWithIdx s.cfg.codeSetEpStatus x) ∨
          (i = .setMaxpkt x ∧ c = codeWithIdx s.cfg.codeSetMaxpkt x)) →
      exec i s = .next { s with eng := { s.eng with
        cur := some c, pend := none, devintst := setBit s.eng.devintst s.cfg.bitCCEMPTY } })

/-- R189, R58, R142: the read-data phase of SELECT_EP gives the five raw status bits of the index, as they are at that moment,
and raises CDFULL. -/
def Obligations.SelectEpReadsStatus : Prop :=
  ∀ (i : Idx) (s : State), s.specChip → s.eng.cur = some (codeWithIdx s.cfg.codeSelectEp i) →
    ∃ v : Half, exec (.selectEpRd i) s = .next { s with eng := { s.eng with
        cmddata := v, cmddataValid := true, cur := none, pend := none
        devintst := setBit s.eng.devintst s.cfg.bitCDFULL } } ∧
      v.getLsbD 0 = (s.eng.epAt i).buf.isFull ∧ v.getLsbD 1 = (s.eng.epAt i).stalled ∧
      v.getLsbD 2 = (s.eng.epAt i).buf.isSetup ∧ v.getLsbD 3 = (s.eng.epAt i).err ∧
      v.getLsbD 4 = (s.eng.epAt i).nak ∧ v.extractLsb' 5 11 = 0#11

/-- R182, R185, R186, R190: the write-data phase does the effect of the code in CUR, on that index or register only, and ends
the command. -/
def Obligations.WriteDataPhase : Prop :=
  ∀ (d : Half) (s : State), s.specChip →
    (∀ i : Idx, s.eng.cur = some (codeWithIdx s.cfg.codeSetEpStatus i) →
      exec (.wrdata d) s = .next { s with eng := { s.eng.setEp i { s.eng.epAt i with stalled := d.getLsbD 0 } with
        cur := none, pend := none, devintst := setBit s.eng.devintst s.cfg.bitCCEMPTY } }) ∧
    (s.eng.cur = some s.cfg.codeSetAddress →
      exec (.wrdata d) s = .next { s with eng := { s.eng with
        devaddr := d.extractLsb' 0 8
        cur := none, pend := none, devintst := setBit s.eng.devintst s.cfg.bitCCEMPTY } }) ∧
    (s.eng.cur = some s.cfg.codeConfigureDevice →
      exec (.wrdata d) s = .next { s with eng := { s.eng with
        conf := d.getLsbD 0
        cur := none, pend := none, devintst := setBit s.eng.devintst s.cfg.bitCCEMPTY } })

/-- R184, R206: SET_MAXPKT stores the size; for a marked index it confirms with EP_RLZD, and at the first realisation empties
the endpoint; at later ones only the size changes. -/
def Obligations.SetMaxPacket : Prop :=
  ∀ (i : Idx) (d : Half) (s : State), s.specChip → s.eng.cur = some (codeWithIdx s.cfg.codeSetMaxpkt i) →
    (s.eng.realize.getLsbD i.toNat = false →
      exec (.wrdata d) s = .next { s with eng := { s.eng.setEp i { s.eng.epAt i with mps := d.extractLsb' 0 10 } with
        cur := none, pend := none, devintst := setBit s.eng.devintst s.cfg.bitCCEMPTY } }) ∧
    (s.eng.realize.getLsbD i.toNat = true →
      exec (.wrdata d) s = .next { s with eng := { s.eng.setEp i
          (if s.eng.rlzd.getLsbD i.toNat then { s.eng.epAt i with mps := d.extractLsb' 0 10 }
            else { mps := d.extractLsb' 0 10, stalled := false, nak := false, err := false, buf := .empty }) with
        rlzd := setBit s.eng.rlzd i.toNat
        cur := none, pend := none
        devintst := setBit (setBit s.eng.devintst s.cfg.bitEPRLZD) s.cfg.bitCCEMPTY } })

/-- R191: CLEAR_BUFFER empties the selected endpoint's buffer and clears its error bit. -/
def Obligations.ClearBuffer : Prop :=
  ∀ s : State, exec .clearBuffer s =
    .next { s with eng := { s.eng.setEp s.eng.sel { s.eng.epAt s.eng.sel with buf := .empty, err := false } with
      cur := some s.cfg.codeClearBuffer, pend := none, devintst := setBit s.eng.devintst s.cfg.bitCCEMPTY } }

/-- R192, U8: VALIDATE_BUFFER hands over the accumulated packet; outside its preconditions, or in an EpWrite of more bytes than
TXPLEN can say (R220, log 20), the packet is any list of at most 1023 bytes.
That the bytes of an index that is sized and not realised are exact too is the model's choice (log 11, DESIGN CHOICE): R454 speaks of
capacity 0 there. -/
def Obligations.ValidateBuffer : Prop :=
  ∀ s : State,
    (s.eng.sel = s.eng.txidx → s.eng.sel.getLsbD 0 = true → s.eng.dpctl.getLsbD s.cfg.bitWREN = false →
      s.eng.txlen.toNat ≤ s.eng.txacc.length → s.eng.txlen.toNat ≤ (s.eng.epAt s.eng.sel).mps.toNat →
      s.eng.overLong = false →
      exec .validateBuffer s = .next { s with eng := { s.eng.setEp s.eng.sel
          { s.eng.epAt s.eng.sel with buf := .full (s.eng.txacc.take s.eng.txlen.toNat) false } with
        cur := some s.cfg.codeValidateBuffer, pend := none, devintst := setBit s.eng.devintst s.cfg.bitCCEMPTY } }) ∧
    ((s.eng.sel ≠ s.eng.txidx ∨ s.eng.sel.getLsbD 0 = false ∨ s.eng.dpctl.getLsbD s.cfg.bitWREN = true ∨
        s.eng.txacc.length < s.eng.txlen.toNat ∨ (s.eng.epAt s.eng.sel).mps.toNat < s.eng.txlen.toNat ∨
        s.eng.overLong = true) →
      ∃ bs : List Byte, bs.length ≤ 1023 ∧
        exec .validateBuffer s = .next { s with eng := { s.eng.setEp s.eng.sel
            { s.eng.epAt s.eng.sel with buf := .full bs false } with
          fresh := s.eng.fresh + 1
          cur := some s.cfg.codeValidateBuffer, pend := none, devintst := setBit s.eng.devintst s.cfg.bitCCEMPTY } })

/-- R187, R55: the read-data phase of GET_DEV_STATUS returns the five bits, then clears the three event bits and DS_ACK; a
read before the clear poisons; once poisoned the value is any 5 bits. -/
def Obligations.GetDevStatusRead : Prop :=
  ∀ s : State, s.specChip → s.eng.cur = some s.cfg.codeGetDevStatus →
    ∃ v : BitVec 5, (s.eng.devstatPoison = false → v = s.eng.devstat) ∧
      exec .getDevStatusRd s = .next { s with eng := { s.eng with
        cmddata := v.setWidth 16, cmddataValid := true, cur := none, pend := none
        devintst := setBit s.eng.devintst s.cfg.bitCDFULL
        devstat := s.eng.devstat &&& 0b00101#5
        dsAck := false
        devstatPoison := s.eng.devstatPoison || (s.eng.devintst.getLsbD 3 && !s.eng.dsAck)
        fresh := s.eng.fresh + s.eng.devstatPoison.toNat } }

/-- R193, R126: a reserved word ends its phase, consumes CUR and changes no other state; a reserved read-data phase leaves any
value in CMDDATA. A word whose PHASE is none of the three ends as one of these two ways, which one is open (log 10); that a
command or read-data word with PAYLOAD[15:8] not 0 is such a word is log 31 (DESIGN CHOICE). -/
def Obligations.ReservedWords : Prop :=
  ∀ s : State, s.specChip →
    (∀ w : Word, w.extractLsb' 8 8 = s.cfg.phCmd ∨ w.extractLsb' 8 8 = s.cfg.phWrite →
      exec (.reservedCmdw w) s = .next { s with eng := { s.eng with
        cur := none, pend := none, devintst := setBit s.eng.devintst s.cfg.bitCCEMPTY } }) ∧
    (∀ (i : Instr), ((∃ w : Word, i = .reservedCmdw w ∧ w.extractLsb' 8 8 = s.cfg.phRead) ∨
        (∃ x : Idx, i = .selectEpRd x ∧ s.eng.cur ≠ some (codeWithIdx s.cfg.codeSelectEp x)) ∨
        (i = .getDevStatusRd ∧ s.eng.cur ≠ some s.cfg.codeGetDevStatus)) →
      ∃ v : Half, exec i s = .next { s with eng := { s.eng with
        cmddata := v, cmddataValid := true, cur := none, pend := none, fresh := s.eng.fresh + 1
        devintst := setBit s.eng.devintst s.cfg.bitCDFULL } }) ∧
    (∀ w : Word, w.extractLsb' 8 8 ≠ s.cfg.phCmd → w.extractLsb' 8 8 ≠ s.cfg.phWrite → w.extractLsb' 8 8 ≠ s.cfg.phRead →
      exec (.reservedCmdw w) s = .next { s with eng := { s.eng with
        cur := none, pend := none, fresh := s.eng.fresh + 1, devintst := setBit s.eng.devintst s.cfg.bitCCEMPTY } } ∨
      ∃ v : Half, exec (.reservedCmdw w) s = .next { s with eng := { s.eng with
        cmddata := v, cmddataValid := true, cur := none, pend := none, fresh := s.eng.fresh + 2
        devintst := setBit s.eng.devintst s.cfg.bitCDFULL } }) ∧
    (∀ d : Half, s.eng.cur = none ∨ (∃ c, s.eng.cur = some c ∧ c.extractLsb' 5 3 ≠ 2#3 ∧ c.extractLsb' 5 3 ≠ 4#3 ∧
        c ≠ s.cfg.codeSetAddress ∧ c ≠ s.cfg.codeConfigureDevice) →
      exec (.wrdata d) s = .next { s with eng := { s.eng with
        cur := none, pend := none, devintst := setBit s.eng.devintst s.cfg.bitCCEMPTY } })

/-! ## WIRE (46_engine_wire_events.md) -/

/-- R372, R381: WireSetup is never refused; it fills endpoint 0 OUT, empties endpoint 0 IN, clears both stall bits, notes an
overwritten packet, and raises the event. -/
def Obligations.WireSetup : Prop :=
  ∀ (b : Vector Byte 8) (s : State), reachable s.cfg.toChip 0#4 0#5 s.eng → s.eng.lockedIdx ≠ some 1#5 →
    ∃ e : Eng, exec (.wireSetup b) s = .next (s.observed (.setup b) .ack e) ∧ samePort s.eng e ∧
      e.epAt 0#5 = { s.eng.epAt 0#5 with
        buf := .full b.toList true, stalled := false, nak := false
        err := (s.eng.epAt 0#5).err || (s.eng.epAt 0#5).buf.isFull } ∧
      e.epAt 1#5 = { s.eng.epAt 1#5 with buf := .empty, stalled := false } ∧
      (∀ j : Idx, j ≠ 0#5 → j ≠ 1#5 → e.epAt j = s.eng.epAt j) ∧
      e.epintst = setBit s.eng.epintst 0 ∧
      e.devintst = if s.eng.epinten.getLsbD 0 then setBit s.eng.devintst s.cfg.bitEP else s.eng.devintst

/-- R373, R381, R88: WireOut: STALL, NAK with its trace, or the packet is buffered and the event raised. -/
def Obligations.WireOut : Prop :=
  ∀ (num : BitVec 4) (bytes : List Byte) (s : State) (i : Idx), i = outIdx num → reachable s.cfg.toChip num i s.eng →
    ((s.eng.epAt i).stalled = true →
      exec (.wireOut num bytes) s = .next (s.observed (.out num bytes) .stall s.eng)) ∧
    ((s.eng.epAt i).stalled = false →
      (s.eng.epAt i).buf.isFull = true ∨ (s.eng.epAt i).mps.toNat < bytes.length →
      exec (.wireOut num bytes) s =
        .next (s.observed (.out num bytes) .nak (s.eng.setEp i { s.eng.epAt i with nak := true }))) ∧
    ((s.eng.epAt i).stalled = false → (s.eng.epAt i).buf = .empty → bytes.length ≤ (s.eng.epAt i).mps.toNat →
      exec (.wireOut num bytes) s = .next (s.observed (.out num bytes) .ack
        { s.eng.setEp i { s.eng.epAt i with buf := .full bytes false, nak := false } with
          epintst := setBit s.eng.epintst i.toNat
          devintst := if s.eng.epinten.getLsbD i.toNat then setBit s.eng.devintst s.cfg.bitEP else s.eng.devintst }))

/-- R374, R381: WireIn: STALL, NAK with its trace, or the host takes the packet and the event is raised. -/
def Obligations.WireIn : Prop :=
  ∀ (num : BitVec 4) (s : State) (i : Idx), i = inIdx num → reachable s.cfg.toChip num i s.eng →
    ((s.eng.epAt i).stalled = true → exec (.wireIn num) s = .next (s.observed (.inn num) .stall s.eng)) ∧
    ((s.eng.epAt i).stalled = false → (s.eng.epAt i).buf = .empty →
      exec (.wireIn num) s = .next (s.observed (.inn num) .nak (s.eng.setEp i { s.eng.epAt i with nak := true }))) ∧
    (∀ bytes setup, (s.eng.epAt i).stalled = false → (s.eng.epAt i).buf = .full bytes setup →
      exec (.wireIn num) s = .next (s.observed (.inn num) (.data bytes)
        { s.eng.setEp i { s.eng.epAt i with buf := .empty, nak := false } with
          epintst := setBit s.eng.epintst i.toNat
          devintst := if s.eng.epinten.getLsbD i.toNat then setBit s.eng.devintst s.cfg.bitEP else s.eng.devintst }))

/-- R375 to R378: start of frame, bus reset, connect and suspend. -/
def Obligations.BusStateEvents : Prop :=
  ∀ s : State, s.specChip →
    (s.eng.devstat.getLsbD 0 = true → s.eng.devstat.getLsbD 2 = false →
      exec .wireSof s = .next (s.observed .sof .done
        { s.eng with devintst := setBit s.eng.devintst s.cfg.bitFRAME })) ∧
    (s.eng.devstat.getLsbD 0 = true →
      ∃ e : Eng, exec .wireBusReset s = .next (s.observed .busReset .done e) ∧
        { e with devaddr := s.eng.devaddr, conf := s.eng.conf, ep := s.eng.ep, devstat := s.eng.devstat
                 devintst := s.eng.devintst } = s.eng ∧
        e.devaddr = 0x80#8 ∧ e.conf = false ∧ e.devintst = setBit s.eng.devintst s.cfg.bitDEVSTAT ∧
        (∀ i : Idx, e.epAt i =
          { mps := (s.eng.epAt i).mps, stalled := false, nak := false, err := false, buf := .empty }) ∧
        (∀ k, k < 5 → e.devstat.getLsbD k = if k = 4 then true else if k = 2 then false else s.eng.devstat.getLsbD k)) ∧
    (∀ v : Bool, s.eng.devstat.getLsbD 0 ≠ v →
      ∃ d : BitVec 5, exec (.wireConnect v) s = .next (s.observed (.connect v) .done
          { s.eng with devstat := d, devintst := setBit s.eng.devintst s.cfg.bitDEVSTAT }) ∧
        (∀ k, k < 5 → d.getLsbD k =
          if k = 0 then v else if k = 1 then true else if k = 2 then (v && s.eng.devstat.getLsbD 2)
          else s.eng.devstat.getLsbD k)) ∧
    (∀ v : Bool, s.eng.devstat.getLsbD 0 = true → s.eng.devstat.getLsbD 2 ≠ v →
      ∃ d : BitVec 5, exec (.wireSuspend v) s = .next (s.observed (.suspend v) .done
          { s.eng with devstat := d, devintst := setBit s.eng.devintst s.cfg.bitDEVSTAT }) ∧
        (∀ k, k < 5 → d.getLsbD k = if k = 2 then v else if k = 3 then true else s.eng.devstat.getLsbD k))

/-- R371, R375 to R378, R379: an event that is not enabled does not happen: no state changes. That its row is then a step to the
same state, for the bus-state events too, is log 21 (DEDUCED). -/
def Obligations.DisabledEventsDoNothing : Prop :=
  ∀ s : State,
    (∀ b, ¬ reachable s.cfg.toChip 0#4 0#5 s.eng ∨ s.eng.lockedIdx = some 1#5 → exec (.wireSetup b) s = .next s) ∧
    (∀ num bytes, ¬ reachable s.cfg.toChip num (outIdx num) s.eng → exec (.wireOut num bytes) s = .next s) ∧
    (∀ num, ¬ reachable s.cfg.toChip num (inIdx num) s.eng → exec (.wireIn num) s = .next s) ∧
    (s.eng.devstat.getLsbD s.cfg.bitCON = false ∨ s.eng.devstat.getLsbD s.cfg.bitSUS = true → exec .wireSof s = .next s) ∧
    (s.eng.devstat.getLsbD s.cfg.bitCON = false → exec .wireBusReset s = .next s) ∧
    (∀ v, s.eng.devstat.getLsbD s.cfg.bitCON = v → exec (.wireConnect v) s = .next s) ∧
    (∀ v, s.eng.devstat.getLsbD s.cfg.bitCON = false ∨ s.eng.devstat.getLsbD s.cfg.bitSUS = v → exec (.wireSuspend v) s = .next s)

/-! ## The command interface (40_hci.md R170 to R176): format CALL -/

/-- R172, R181, R188, R191, R193: `command(code)` run undisturbed, by the class of its code; both phase-complete flags are 0 on
return.
That VALIDATE_BUFFER hands over the exact bytes for an IN index that is sized and not realised too is the model's choice (log 11,
DESIGN CHOICE): R454 speaks of capacity 0 there. -/
def Obligations.CommandCall : Prop :=
  ∀ (c : Byte) (s : State), s.mayOperate = true → s.specChip → s.calm →
    (∀ i : Idx, c = codeWithIdx s.cfg.codeSelectEp i →
      exec (.command c) s = .next { s with eng := { s.eng.quiet s.cfg.toChip with sel := i, cur := some c } }) ∧
    (c = s.cfg.codeClearBuffer →
      exec (.command c) s = .next { s with eng := { (s.eng.quiet s.cfg.toChip).setEp s.eng.sel
        { s.eng.epAt s.eng.sel with buf := .empty, err := false } with cur := some c } }) ∧
    (c = s.cfg.codeValidateBuffer → s.eng.sel = s.eng.txidx → s.eng.sel.getLsbD 0 = true →
      s.eng.dpctl.getLsbD 1 = false → s.eng.txlen.toNat ≤ s.eng.txacc.length →
      s.eng.txlen.toNat ≤ (s.eng.epAt s.eng.sel).mps.toNat → s.eng.overLong = false →
      exec (.command c) s = .next { s with eng := { (s.eng.quiet s.cfg.toChip).setEp s.eng.sel
        { s.eng.epAt s.eng.sel with buf := .full (s.eng.txacc.take s.eng.txlen.toNat) false } with cur := some c } }) ∧
    (isCommandCode s.cfg.toChip c = true → c.extractLsb' 5 3 ≠ 0#3 → c ≠ s.cfg.codeClearBuffer → c ≠ s.cfg.codeValidateBuffer →
      exec (.command c) s = .next { s with eng := { s.eng.quiet s.cfg.toChip with cur := some c } }) ∧
    (isCommandCode s.cfg.toChip c = false → exec (.command c) s = .next { s with eng := s.eng.quiet s.cfg.toChip })

/-- R173, R182, R184 to R186, R190: `commandWrite(code, data)` run undisturbed, for the four codes with write data: the effect
has taken place on return. -/
def Obligations.CommandWriteCall : Prop :=
  ∀ (d : Half) (s : State), s.mayOperate = true → s.specChip → s.calm →
    (∀ i : Idx, exec (.commandWrite (codeWithIdx s.cfg.codeSetEpStatus i) d) s =
      .next { s with eng := (s.eng.quiet s.cfg.toChip).setEp i { s.eng.epAt i with stalled := d.getLsbD 0 } }) ∧
    (∀ i : Idx, s.eng.realize.getLsbD i.toNat = false →
      exec (.commandWrite (codeWithIdx s.cfg.codeSetMaxpkt i) d) s =
        .next { s with eng := (s.eng.quiet s.cfg.toChip).setEp i { s.eng.epAt i with mps := d.extractLsb' 0 10 } }) ∧
    (∀ i : Idx, s.eng.realize.getLsbD i.toNat = true →
      exec (.commandWrite (codeWithIdx s.cfg.codeSetMaxpkt i) d) s =
        .next { s with eng := { (s.eng.quiet s.cfg.toChip).setEp i (s.eng.sized i (d.extractLsb' 0 10)) with
          rlzd := setBit s.eng.rlzd i.toNat
          devintst := setBit (s.eng.quiet s.cfg.toChip).devintst s.cfg.bitEPRLZD } }) ∧
    exec (.commandWrite s.cfg.codeSetAddress d) s =
      .next { s with eng := { s.eng.quiet s.cfg.toChip with devaddr := d.extractLsb' 0 8 } } ∧
    exec (.commandWrite s.cfg.codeConfigureDevice d) s =
      .next { s with eng := { s.eng.quiet s.cfg.toChip with conf := d.getLsbD 0 } }

/-- R174, R183, R187, R189: `commandRead(code)` run undisturbed, for the two kinds of code with read data. -/
def Obligations.CommandReadCall : Prop :=
  ∀ s : State, s.mayOperate = true → s.specChip → s.calm →
    (∀ i : Idx, ∀ v : Half, v = ((s.eng.epAt i).raw s.cfg.toChip).setWidth 16 →
      exec (.commandRead (codeWithIdx s.cfg.codeSelectEp i)) s =
        .next { s with eng := { s.eng.answered s.cfg.toChip v with sel := i }, ret := .data v }) ∧
    (∃ v : BitVec 5, (s.eng.devstatPoison = false → v = s.eng.devstat) ∧
      exec (.commandRead s.cfg.codeGetDevStatus) s =
        .next { s with
          eng := { s.eng.answered s.cfg.toChip (v.setWidth 16) with
            devstat := s.eng.devstat &&& 0b00101#5
            dsAck := false
            devstatPoison := s.eng.devstatPoison || (s.eng.devintst.getLsbD 3 && !s.eng.dsAck)
            fresh := s.eng.fresh + s.eng.devstatPoison.toNat }
          ret := .data (v.setWidth 16) })

/-! ## The register interface (10_state.md R40 to R52; 20_memory.md R85 to R87), through APP's single accesses (log 28) -/

/-- R40 to R52, R85, R86: what one read of each register gives and changes; an access that is not a whole word at a listed offset
is refused (U2, log 23), also a write or an OR. A value is held in 64 bits, of which the chip's registers have 32 (log 22). Where no value is defined any value is read; RXPLEN once the port has been opened
keeps saying what the buffer holds (log 7). That RXDATA with RD_EN = 0 moves no cursor is log 30 (DESIGN CHOICE). -/
def Obligations.RegisterReads : Prop :=
  ∀ s : State, s.specChip → s.irqMask = true → s.slots = [] →
    (∀ (r : Reg) (off : Nat), (r, off) ∈ [(Reg.DEVINTST, 0x00), (.DEVINTEN, 0x04), (.DEVINTCLR, 0x08), (.CMDCODE, 0x10),
        (.CMDDATA, 0x14), (.RXDATA, 0x18), (.TXDATA, 0x1C), (.RXPLEN, 0x20), (.TXPLEN, 0x24), (.DPCTL, 0x28),
        (.EPINTST, 0x30), (.EPINTEN, 0x34), (.EPINTCLR, 0x38), (.REALIZE, 0x44)] →
      ∃ (v : RegWord) (e : Eng),
        execApp (.regRead (s.cfg.base.toNat + off) 4) s = .next { s with eng := e, ret := .word v } ∧
        match r with
        | .DEVINTST => v = s.eng.devintst ∧ e = s.eng
        | .DEVINTEN => v = s.eng.devinten ∧ e = s.eng
        | .DPCTL => v = s.eng.dpctl ∧ e = s.eng
        | .EPINTST => v = s.eng.epintst.setWidth 64 ∧ e = s.eng
        | .EPINTEN => v = s.eng.epinten.setWidth 64 ∧ e = s.eng
        | .REALIZE => v = s.eng.realize.setWidth 64 ∧ e = s.eng
        | .CMDDATA => v.extractLsb' 16 48 = 0#48 ∧
          if s.eng.cmddataValid then v.extractLsb' 0 16 = s.eng.cmddata ∧ e = s.eng
          else e = { s.eng with fresh := s.eng.fresh + 1 }
        | .RXDATA => v.toNat < 2 ^ 32 ∧
          if s.eng.dpctl.getLsbD 0 then
            (∀ k, k < 4 → v.extractLsb' (8 * k) 8 = ((s.eng.epAt s.eng.rxidx).buf.packet[s.eng.rxpos + k]?).getD 0#8) ∧
            e = { s.eng with
              rxpos := s.eng.rxpos + 4
              dpctl := if (s.eng.epAt s.eng.rxidx).buf.packet.length ≤ s.eng.rxpos + 4 then s.eng.dpctl &&& ~~~1#64
                else s.eng.dpctl }
          else e = { s.eng with fresh := s.eng.fresh + 1 }
        | .RXPLEN => e = s.eng ∧
          if s.eng.rxOpened || s.eng.dpctl.getLsbD 0 then
            v.getLsbD 11 = true ∧ v.getLsbD 10 = (s.eng.epAt s.eng.rxidx).buf.isFull ∧
            v.extractLsb' 0 10 = BitVec.ofNat 10 (s.eng.epAt s.eng.rxidx).buf.packet.length ∧ v.extractLsb' 12 52 = 0#52
          else v = 0#64
        | .DEVINTCLR | .CMDCODE | .TXDATA | .TXPLEN | .EPINTCLR => v.toNat < 2 ^ 32 ∧ e = { s.eng with fresh := s.eng.fresh + 1 }) ∧
    (∀ (addr size : Nat) (v : RegWord),
      size ≠ 4 ∨ (∀ off ∈ [0x00, 0x04, 0x08, 0x10, 0x14, 0x18, 0x1C, 0x20, 0x24, 0x28, 0x30, 0x34, 0x38, 0x44],
        addr ≠ s.cfg.base.toNat + off) →
      execApp (.regRead addr size) s = .refused .badRegAccess ∧ execApp (.regWrite addr size v) s = .refused .badRegAccess ∧
      (size = 4 → execApp (.regOr addr v) s = .refused .badRegAccess))

/-- R41 to R52, R59, R87, R180, R461: what one write of each register changes: reserved bits ignore it, and the model's choice is
that read-only registers (log 9, PRESUMED) and TXPLEN with WR_EN = 0 (log 8, PRESUMED) ignore it too;
the write-one-to-clear registers clear; a word for CMDCODE is accepted, or, with one pending, is the reentrancy fault; enabling an
endpoint over a pending event raises EP; the ports open, fill and close. A write that takes a mark back (U6) or opens both ports
(U7) is refused (log 23). That opening the port on an empty packet leaves RD_EN = 1 is log 29 (DESIGN CHOICE). The
read-modify-write OR is a write of the OR. -/
def Obligations.RegisterWrites : Prop :=
  ∀ (v : RegWord) (s : State) (at_ : Nat → Nat), s.specChip → s.irqMask = true → s.slots = [] → (∀ off, at_ off = s.cfg.base.toNat + off) →
    (∀ off ∈ [0x00, 0x14, 0x18, 0x20, 0x30], execApp (.regWrite (at_ off) 4 v) s = .next s) ∧
    execApp (.regWrite (at_ 0x04) 4 v) s = .next { s with eng := { s.eng with devinten := v &&& 0x0000013D#64 } } ∧
    execApp (.regWrite (at_ 0x08) 4 v) s = .next { s with eng := { s.eng with
      devintst := s.eng.devintst &&& ~~~v, dsAck := s.eng.dsAck || v.getLsbD 3 } } ∧
    (s.eng.pend = none → execApp (.regWrite (at_ 0x10) 4 v) s =
      .next { s with eng := { s.eng with pend := some (v.setWidth 32), cmddataValid := false } }) ∧
    (s.eng.pend ≠ none → execApp (.regWrite (at_ 0x10) 4 v) s = .fault .reentrancy) ∧
    (s.eng.dpctl.getLsbD 1 = true →
      execApp (.regWrite (at_ 0x1C) 4 v) s = .next { s with eng := { s.eng with
        txacc := s.eng.txacc ++ [v.extractLsb' 0 8, v.extractLsb' 8 8, v.extractLsb' 16 8, v.extractLsb' 24 8]
        dpctl := if s.eng.txlen.toNat ≤ s.eng.txacc.length + 4 then s.eng.dpctl &&& ~~~2#64 else s.eng.dpctl } } ∧
      execApp (.regWrite (at_ 0x24) 4 v) s = .next { s with eng := { s.eng with
        txlen := v.extractLsb' 0 10, txacc := []
        dpctl := if v.extractLsb' 0 10 = 0#10 then s.eng.dpctl &&& ~~~2#64 else s.eng.dpctl } }) ∧
    (s.eng.dpctl.getLsbD 1 = false →
      execApp (.regWrite (at_ 0x1C) 4 v) s = .next s ∧ execApp (.regWrite (at_ 0x24) 4 v) s = .next s) ∧
    (v.getLsbD 0 = true ∧ v.getLsbD 1 = true → execApp (.regWrite (at_ 0x28) 4 v) s = .refused .bothPorts) ∧
    (v.getLsbD 0 = false ∨ v.getLsbD 1 = false → ∀ rx tx : Idx,
      rx.toNat = 2 * (v.toNat / 4 % 16) → tx.toNat = 2 * (v.toNat / 4 % 16) + 1 →
      execApp (.regWrite (at_ 0x28) 4 v) s = .next { s with eng := { s.eng with
        dpctl := v &&& 0x0000003F#64
        rxidx := if v.getLsbD 0 then rx else s.eng.rxidx
        rxpos := if v.getLsbD 0 then 0 else s.eng.rxpos
        rxOpened := s.eng.rxOpened || v.getLsbD 0
        txidx := if v.getLsbD 1 then tx else s.eng.txidx } }) ∧
    ((∃ k, v.getLsbD k = true ∧ s.eng.epinten.getLsbD k = false ∧ s.eng.epintst.getLsbD k = true) →
      execApp (.regWrite (at_ 0x34) 4 v) s = .next { s with eng := { s.eng with
        epinten := v.setWidth 32, devintst := setBit s.eng.devintst s.cfg.bitEP } }) ∧
    ((∀ k, v.getLsbD k = true → s.eng.epintst.getLsbD k = true → s.eng.epinten.getLsbD k = true) →
      execApp (.regWrite (at_ 0x34) 4 v) s = .next { s with eng := { s.eng with epinten := v.setWidth 32 } }) ∧
    execApp (.regWrite (at_ 0x38) 4 v) s = .next { s with eng := { s.eng with epintst := s.eng.epintst &&& ~~~(v.setWidth 32) } } ∧
    ((∃ k, s.eng.realize.getLsbD k = true ∧ v.getLsbD k = false) →
      execApp (.regWrite (at_ 0x44) 4 v) s = .refused .unrealise) ∧
    ((∀ k, s.eng.realize.getLsbD k = true → v.getLsbD k = true) →
      execApp (.regWrite (at_ 0x44) 4 v) s = .next { s with eng := { s.eng with realize := v.setWidth 32 } }) ∧
    (∀ (off : Nat) (x : RegWord), (off, x) ∈ [(0x04, s.eng.devinten), (0x34, s.eng.epinten.setWidth 64), (0x44, s.eng.realize.setWidth 64)] →
      execApp (.regOr (at_ off) v) s = execApp (.regWrite (at_ off) 4 (x ||| v)) s)

/-- R432, R176, R430, R431, R67: APP writes the mask at any time; while the mask is open every operation of APP and every other act
is a ContextViolation; while it is closed the acts read and write SEQ state, each that piece only. Which acts there are is the
model's choice (log 28). -/
def Obligations.ContextRule : Prop :=
  ∀ s : State,
    (∀ v, execApp (.setMask v) s = .next { s with irqMask := v }) ∧
    (s.irqMask = false →
      (s.inIsr = false → ∀ i : Instr, i.isCall = true → exec i s = .fault .contextViolation) ∧
      (∀ a : AppAct, (∀ v, a ≠ .setMask v) → execApp a s = .fault .contextViolation)) ∧
    (s.irqMask = true →
      (∀ d, execApp (.setDesc d) s = .next { s with desc := d }) ∧
      (∀ b, execApp (.writeConfig b) s = .next { s with config := b }) ∧
      (∀ f, execApp (.writeDevflags f) s = .next { s with devflags := f }) ∧
      (∀ b, execApp (.writeSu b) s = .next { s with su := b }) ∧
      (∀ c, execApp (.writeCt c) s = .next { s with ct := c }) ∧
      (∀ slot h, ∃ u, execApp (.installHook slot h) s = .next u ∧
        (∀ k, u.hookIn k = if k = slot then h else s.hookIn k) ∧
        { u with hSof := s.hSof, hDevst := s.hDevst, hReq1 := s.hReq1, hReq2 := s.hReq2, hReq3 := s.hReq3
                 hCustom := s.hCustom } = s) ∧
      execApp .readConfig s = .next { s with ret := .byte s.config } ∧
      execApp .readDevflags s = .next { s with ret := .flags s.devflags } ∧
      execApp .readSu s = .next { s with ret := .bytes s.su.toList } ∧
      execApp .readCt s = .next { s with ret := .ct s.ct } ∧
      (∀ i, execApp (.readHandler i) s = .next { s with ret := .handler (s.hndAt i) }) ∧
      (∀ slot, execApp (.readHook slot) s = .next { s with ret := .hook (s.hookIn slot) }) ∧
      (∀ off n bs fresh, s.bytesAt { space := .stage, off := off } n = some (bs, fresh) →
        execApp (.readStage off n) s = .next { s with fresh := fresh, ret := .bytes bs }) ∧
      (∀ off n, s.bytesAt { space := .stage, off := off } n = none → s.cfg.overrunDrops = false →
        execApp (.readStage off n) s = .fault .bufferOverrun) ∧
      (∀ off bytes, Memory.wf s.stage = true →
        (bytes = [] ∨ off + bytes.length ≤ s.cfg.stageCap →
          ∃ m : Memory, (∀ a, Memory.read m a =
              if off ≤ a ∧ a < off + bytes.length then bytes[a - off]? else Memory.read s.stage a) ∧
            execApp (.writeStage off bytes) s = .next { s with stage := m }) ∧
        (bytes ≠ [] → s.cfg.stageCap < off + bytes.length → s.cfg.overrunDrops = false →
          execApp (.writeStage off bytes) s = .fault .bufferOverrun)))

/-! ## The Endpoint Manager (41_endpoint_manager.md) -/

/-- R203, R204, R206, R41: configureEndpoint marks, sizes, realises and enables its index, and nothing else; a second call with
the same size changes nothing more. -/
def Obligations.ConfigureEndpointCall : Prop :=
  ∀ (a : Byte) (m : Half) (s : State), s.mayOperate = true → s.specChip → s.calm →
    exec (.configureEndpoint a m) s = .next { s with eng := s.eng.configured s.cfg.toChip (epIdx a) m } ∧
    (s.eng.configured s.cfg.toChip (epIdx a) m).configured s.cfg.toChip (epIdx a) m = s.eng.configured s.cfg.toChip (epIdx a) m

/-- R208, R209, R210: stall and unstall change the halt bit of their endpoint and no other endpoint state. -/
def Obligations.StallUnstall : Prop :=
  ∀ (a : Byte) (s : State), s.mayOperate = true → s.specChip → s.calm →
    exec (.stall a) s =
      .next { s with eng := (s.eng.quiet s.cfg.toChip).setEp (epIdx a) { s.eng.epAt (epIdx a) with stalled := true } } ∧
    exec (.unstall a) s =
      .next { s with eng := (s.eng.quiet s.cfg.toChip).setEp (epIdx a) { s.eng.epAt (epIdx a) with stalled := false } }

/-- R212, R61: getStatus returns the normalised bitmap of its endpoint and changes SEL. -/
def Obligations.GetStatusCall : Prop :=
  ∀ (a : Byte) (s : State) (r : EpRec), s.mayOperate = true → s.specChip → s.calm → r = s.eng.epAt (epIdx a) →
    ∃ st : BitVec 5, exec (.getStatus a) s =
        .next { s with eng := { s.eng.answered s.cfg.toChip ((r.raw s.cfg.toChip).setWidth 16) with sel := epIdx a }, ret := .status st } ∧
      st.getLsbD 0 = r.buf.isFull ∧ st.getLsbD 1 = r.stalled ∧ st.getLsbD 2 = r.buf.isSetup ∧
      st.getLsbD 3 = r.nak ∧ st.getLsbD 4 = r.err

/-- R214: registerHandler writes one slot of the handler table and nothing else. -/
def Obligations.RegisterHandler : Prop :=
  ∀ (a : Byte) (h : Option Handler) (s : State), s.mayOperate = true →
    ∃ v : Vector (Option Handler) 32, exec (.registerHandler a h) s = .next { s with hnd := v } ∧
      ∀ j : Idx, State.hndAt { s with hnd := v } j = if j = epIdx a then h else s.hndAt j

/-- R216, R217: EpRead of an OUT endpoint returns the packet's first bytes and releases the buffer; no other endpoint changes. -/
def Obligations.EpReadCall : Prop :=
  ∀ (a : Byte) (maxlen : Nat) (s : State), s.mayOperate = true → s.specChip → s.calm → a.getLsbD 7 = false →
    (s.eng.epAt (epIdx a)).buf.packet.length ≤ 1023 →
    exec (.epRead a maxlen) s = .next { s with
      eng := s.eng.released s.cfg.toChip (epIdx a), ret := .bytes ((s.eng.epAt (epIdx a)).buf.packet.take maxlen) }

/-- R220, R221, R192: EpWrite of an IN endpoint arms it with the bytes, whatever it held; a packet longer than the endpoint's
size, however long, leaves any packet of at most 1023 bytes (U8, log 20).
That an IN index that is sized and not realised is armed with the exact bytes too is the model's choice (log 11, DESIGN CHOICE): by
R454 such an EpWrite of a packet that is not empty is outside R220. -/
def Obligations.EpWriteCall : Prop :=
  ∀ (a : Byte) (bytes : List Byte) (s : State), s.mayOperate = true → s.specChip → s.calm → a.getLsbD 7 = true →
    (bytes.length ≤ (s.eng.epAt (epIdx a)).mps.toNat →
      exec (.epWrite a bytes) s = .next { s with eng := s.eng.armed s.cfg.toChip (epIdx a) bytes }) ∧
    ((s.eng.epAt (epIdx a)).mps.toNat < bytes.length →
      ∃ bs : List Byte, bs.length ≤ 1023 ∧
        exec (.epWrite a bytes) s = .next { s with eng :=
          { (s.eng.armed s.cfg.toChip (epIdx a) bytes).setEp (epIdx a) { s.eng.epAt (epIdx a) with buf := .full bs false } with
            fresh := s.eng.fresh + 1 } })

/-! ## The Descriptor Parser (45_descriptor_parser.md) -/

/-- R351 to R353, R84: over a well-formed table findDescriptor returns the K-th descriptor of the type with the length its type
reports, or NotFound; on any table it ends, with a result or the TableOverrun fault, and writes no state but the result. -/
def Obligations.FindDescriptorCall : Prop :=
  ∀ (typeIndex langId : Half) (s : State), s.mayOperate = true →
    (∀ offs matching : List Nat, wellFormedTable s.desc offs →
      matching = offs.filter (fun p => descField s.desc p 1 == typeIndex.extractLsb' 8 8) →
      exec (.findDescriptor typeIndex langId) s = .next { s with
        ret := .descriptor (matching[(typeIndex.extractLsb' 0 8).toNat]?.map (fun p => (p, reportedLength s.desc p))) }) ∧
    (exec (.findDescriptor typeIndex langId) s = .fault .tableOverrun ∨
      ∃ r, exec (.findDescriptor typeIndex langId) s = .next { s with ret := .descriptor r })

/-- R355 to R357, R186: configureForSetting(c, a) with `c` not 0 configures, in table order, exactly the endpoints whose enclosing
configuration and interface have value `c` and alternate setting `a`, then sets CONF; with `c` = 0 it unconfigures and touches
nothing else. -/
def Obligations.ConfigureForSetting : Prop :=
  ∀ (a : Byte) (s : State), s.mayOperate = true → s.specChip → s.calm →
    exec (.configureForSettingZero a) s = .next { s with eng := { s.eng.quiet s.cfg.toChip with conf := false } } ∧
    (∀ (c : Byte) (offs : List Nat), c ≠ 0#8 → wellFormedTable s.desc offs → fieldsInside s.desc offs →
      exec (.configureForSettingNonzero c a) s = .next { s with eng := s.eng.setting s.cfg.toChip (enclosedEndpoints s.desc offs c a) })

/-! ## The Control Transfer Engine (43_control_transfer.md) -/

/-- R264: DispatchNow resets CT.ptr and CT.len and dispatches; what it does with the result is `DispatchReply`. -/
def Obligations.DispatchNow : Prop :=
  ∀ s : State, s.mayOperate = true →
    exec .dispatchNow s = .next { s with
      ct := { s.ct with ptr := { space := .stage, off := 0 }, len := (suLength s.su).toNat }
      frames := .dispatch :: .replyNow :: s.frames }

/-- R268, R84, R404: DataIn sends the next chunk, as long as the smaller of M0 and the remainder, and advances by it; with nothing
left it sends a zero-length packet; a chunk outside its space is a fault and nothing of the step is done, or, with
`overrunDrops`, the alternative treatment of R404, only the bytes that fit are sent and CT moves by the whole chunk (log 19,
DEDUCED).
That an index 1 that is sized and not realised takes the bytes of a non-empty chunk too is the model's choice (log 11, DESIGN CHOICE):
R454 speaks of capacity 0 there. -/
def Obligations.DataInCall : Prop :=
  ∀ s : State, s.mayOperate = true → s.specChip → s.calm → s.chunkLen ≤ (s.eng.epAt 1#5).mps.toNat →
    (∀ bs fresh, s.bytesAt s.ct.ptr s.chunkLen = some (bs, fresh) →
      exec .dataIn s = .next (s.sent bs fresh s.chunkLen)) ∧
    (s.bytesAt s.ct.ptr s.chunkLen = none → s.ct.ptr.space ≠ .stage → exec .dataIn s = .fault .tableOverrun) ∧
    (s.bytesAt s.ct.ptr s.chunkLen = none → s.ct.ptr.space = .stage →
      (s.cfg.overrunDrops = false → exec .dataIn s = .fault .bufferOverrun) ∧
      (s.cfg.overrunDrops = true →
        exec .dataIn s = .next (s.sent (Memory.readList s.stage s.ct.ptr.off (s.cfg.stageCap - s.ct.ptr.off) s.fresh).1
          (Memory.readList s.stage s.ct.ptr.off (s.cfg.stageCap - s.ct.ptr.off) s.fresh).2 s.chunkLen)))

/-- R270: StallControl stalls endpoint 0 IN and discards the transfer; address, configuration and the other endpoints stay. -/
def Obligations.StallControlCall : Prop :=
  ∀ s : State, s.mayOperate = true → s.specChip → s.calm →
    exec .stallControl s = .next { s with
      eng := (s.eng.quiet s.cfg.toChip).setEp 1#5 { s.eng.epAt 1#5 with stalled := true }
      ct := { s.ct with resid := 0#16, len := 0, phase := .idle } }

/-- R264, R266, R270: what DispatchNow does with the result: on success the remainder is the smaller of the reported and the
requested length and the first chunk is sent (R268); where the chunk lies outside its space that is a fault (R84, R404), or, with
`overrunDrops`, the alternative treatment of R404, only the bytes that fit are sent and CT moves by the whole chunk (log 19,
DEDUCED); on failure the transfer is aborted.
That an index 1 that is sized and not realised takes the bytes of a non-empty chunk too is the model's choice (log 11, DESIGN CHOICE):
R454 speaks of capacity 0 there. -/
def Obligations.DispatchReply : Prop :=
  ∀ (s s' : State) (rest : List Frame), seqTurn s s' → s.hung = none → s.frames = .replyNow :: rest → s.specChip → s'.calm →
    (s.result = .fail → step s = .next ({ s' with frames := rest } : State).aborted) ∧
    (s.result = .ok → ∀ t : State,
      t = { s' with
        frames := rest
        ct := { s.ct with
          resid := BitVec.ofNat 16 (min s.ct.len (suLength s.su).toNat)
          phase := if suLength s.su = 0#16 then .statusStage else .dataD2H } } →
      t.chunkLen ≤ (s.eng.epAt 1#5).mps.toNat →
      (∀ bs fresh, t.bytesAt t.ct.ptr t.chunkLen = some (bs, fresh) → step s = .next (t.sent bs fresh t.chunkLen)) ∧
      (t.bytesAt t.ct.ptr t.chunkLen = none → t.ct.ptr.space ≠ .stage → step s = .fault .tableOverrun) ∧
      (t.bytesAt t.ct.ptr t.chunkLen = none → t.ct.ptr.space = .stage →
        (t.cfg.overrunDrops = false → step s = .fault .bufferOverrun) ∧
        (t.cfg.overrunDrops = true →
          step s = .next (t.sent (Memory.readList t.stage t.ct.ptr.off (t.cfg.stageCap - t.ct.ptr.off) t.fresh).1
            (Memory.readList t.stage t.ct.ptr.off (t.cfg.stageCap - t.ct.ptr.off) t.fresh).2 t.chunkLen))))

/-- R269, R270: what OnOutData does with the result: on success a zero-length status response, on failure the abort. -/
def Obligations.StatusReply : Prop :=
  ∀ (s s' : State) (rest : List Frame), seqTurn s s' → s.hung = none → s.frames = .replyOut :: rest → s.specChip → s'.calm →
    (s.result = .fail → step s = .next ({ s' with frames := rest } : State).aborted) ∧
    (s.result = .ok → s.ct.resid = 0#16 → step s = .next { s' with
      frames := rest
      eng := s.eng.armed s.cfg.toChip 1#5 []
      ct := { s.ct with phase := .statusStage } })

/-- R262, R263, R27: the SETUP event captures the packet, resets the transfer, releases the buffer, and dispatches at once if the
request has no data or is device-to-host; else it waits for OUT data. -/
def Obligations.SetupEvent : Prop :=
  ∀ (st : BitVec 5) (b : Vector Byte 8) (setup : Bool) (s : State), s.specChip → s.calm →
    (s.eng.epAt 0#5).buf = .full b.toList setup →
    (suLength b = 0#16 ∨ suDir b = true →
      exec (.setupEvent st) s = .next { s with
        eng := s.eng.released s.cfg.toChip 0#5, su := b
        ct := { phase := .setupCaptured, dir := suDir b, ptr := { space := .stage, off := 0 }
                resid := suLength b, len := (suLength b).toNat }
        frames := .dispatch :: .replyNow :: s.frames }) ∧
    (suLength b ≠ 0#16 → suDir b = false →
      exec (.setupEvent st) s = .next { s with
        eng := s.eng.released s.cfg.toChip 0#5, su := b
        ct := { phase := .dataH2D, dir := false, ptr := { space := .stage, off := 0 }
                resid := suLength b, len := 0 } })

/-- R269, R404: the OUT data event stores at most the remaining bytes at the pointer, advances by them, releases the buffer, and
when nothing remains dispatches; no other byte of STAGE changes; a store past STAGE_CAP is the BufferOverrun fault (by default). -/
def Obligations.OutDataEvent : Prop :=
  ∀ (st : BitVec 5) (s : State) (bs : List Byte), s.specChip → s.calm → s.ct.ptr.space = .stage → Memory.wf s.stage = true →
    (s.eng.epAt 0#5).buf.packet.length ≤ 1023 → bs = (s.eng.epAt 0#5).buf.packet.take s.ct.resid.toNat →
    (bs = [] ∨ s.ct.ptr.off + bs.length ≤ s.cfg.stageCap →
      ∃ m : Memory,
        (∀ a, Memory.read m a =
          if s.ct.ptr.off ≤ a ∧ a < s.ct.ptr.off + bs.length then bs[a - s.ct.ptr.off]? else Memory.read s.stage a) ∧
        exec (.outDataEvent st) s = .next (if s.ct.resid - BitVec.ofNat 16 bs.length = 0#16 then
            { s with
              eng := s.eng.released s.cfg.toChip 0#5, stage := m
              ct := { s.ct with ptr := { space := .stage, off := 0 }, resid := 0#16, len := (suLength s.su).toNat }
              frames := .dispatch :: .replyOut :: s.frames }
          else
            { s with
              eng := s.eng.released s.cfg.toChip 0#5, stage := m
              ct := { s.ct with
                ptr := { s.ct.ptr with off := s.ct.ptr.off + bs.length }
                resid := s.ct.resid - BitVec.ofNat 16 bs.length } })) ∧
    (bs ≠ [] → s.cfg.stageCap < s.ct.ptr.off + bs.length → s.cfg.overrunDrops = false →
      exec (.outDataEvent st) s = .fault .bufferOverrun)

/-- R271: the OUT status event releases the buffer, whatever it holds, and nothing else of the transfer changes but the phase. -/
def Obligations.OutStatusEvent : Prop :=
  ∀ (st : BitVec 5) (s : State), s.specChip → s.calm → (s.eng.epAt 0#5).buf.packet.length ≤ 1023 →
    exec (.outStatusEvent st) s = .next { s with eng := s.eng.released s.cfg.toChip 0#5, ct := { s.ct with phase := .idle } }

/-- R272, R280, R268: the IN event sends the next chunk whatever the phase; the phase moves only when nothing remains. A chunk outside
its space is a fault (R84, R404), or, with `overrunDrops`, the alternative treatment of R404, only the bytes that fit are sent
and CT moves by the whole chunk (log 19, DEDUCED).
That an index 1 that is sized and not realised takes the bytes of a non-empty chunk too is the model's choice (log 11, DESIGN CHOICE):
R454 speaks of capacity 0 there. -/
def Obligations.InEvent : Prop :=
  ∀ (st : BitVec 5) (s t : State), s.specChip → s.calm →
    t = { s with ct := { s.ct with phase :=
      if s.ct.resid ≠ 0#16 then s.ct.phase
      else if s.ct.phase = .dataD2H then .statusStage
      else if s.ct.phase = .statusStage ∧ (s.ct.dir = false ∨ suLength s.su = 0#16) then .idle
      else s.ct.phase } } →
    s.chunkLen ≤ (s.eng.epAt 1#5).mps.toNat →
    (∀ bs fresh, s.bytesAt s.ct.ptr s.chunkLen = some (bs, fresh) →
      exec (.inEvent st) s = .next (t.sent bs fresh s.chunkLen)) ∧
    (s.bytesAt s.ct.ptr s.chunkLen = none → s.ct.ptr.space ≠ .stage → exec (.inEvent st) s = .fault .tableOverrun) ∧
    (s.bytesAt s.ct.ptr s.chunkLen = none → s.ct.ptr.space = .stage →
      (s.cfg.overrunDrops = false → exec (.inEvent st) s = .fault .bufferOverrun) ∧
      (s.cfg.overrunDrops = true →
        exec (.inEvent st) s = .next (t.sent (Memory.readList s.stage s.ct.ptr.off (s.cfg.stageCap - s.ct.ptr.off) s.fresh).1
          (Memory.readList s.stage s.ct.ptr.off (s.cfg.stageCap - s.ct.ptr.off) s.fresh).2 s.chunkLen)))

/-! ## The Standard Request Handler (44_standard_requests.md) -/

/-- R295, R303 to R308, R310, R311, R313, R314, R316, R317, R319 to R321, R323 to R334: a failing cell writes nothing but the
result; the device feature cells pass on selectors 1 and 2, SET_INTERFACE.if on value 0, with no effect. -/
def Obligations.DecidedCells : Prop :=
  ∀ s : State,
    (∀ i : Instr, Instr.alwaysFails i = true → exec i s = .next { s with result := .fail }) ∧
    (∀ (i : Instr) (f : SetupFields), i = .clearFeatureDev f ∨ i = .setFeatureDev f →
      exec i s = .next { s with result := if f.value = 1#16 ∨ f.value = 2#16 then .ok else .fail }) ∧
    (∀ f : SetupFields, exec (.setInterfaceIf f) s =
      .next { s with result := if f.value = 0#16 then .ok else .fail })

/-- R294, R300 to R302, R315, R322, R158: the replies SRH builds: their bytes in STAGE from offset 0, every other byte as before,
CT.ptr and CT.len; a second byte with M0 = 1 is the BufferOverrun fault, or, under the alternative treatment of R404 (log 19), is
not stored. -/
def Obligations.ReplyCells : Prop :=
  ∀ (f : SetupFields) (s : State), Memory.wf s.stage = true →
    (∀ (i : Instr) (bs : List Byte), (i, bs) ∈ [
        (Instr.getStatusDev f, [if s.cfg.selfPowered then 1#8 else 0#8, 0#8]), (.getStatusIf f, [0#8, 0#8]),
        (.getConfigurationDev f, [s.config]), (.getInterfaceIf f, [0#8])] →
      (bs.length ≤ s.cfg.m0 ∨ s.cfg.overrunDrops = true →
        ∃ m : Memory,
          (∀ k, Memory.read m k = if k < bs.length ∧ k < s.cfg.m0 then bs[k]? else Memory.read s.stage k) ∧
          exec i s = .next { s with
            stage := m, result := .ok
            ct := { s.ct with ptr := { space := .stage, off := 0 }, len := bs.length } }) ∧
      (s.cfg.m0 < bs.length → s.cfg.overrunDrops = false → exec i s = .fault .bufferOverrun)) ∧
    (s.specChip → s.calm → ∀ (i : Idx) (r : EpRec), i = epIdx (f.index.extractLsb' 0 8) → r = s.eng.epAt i →
      (2 ≤ s.cfg.m0 ∨ s.cfg.overrunDrops = true →
        ∃ m : Memory,
          (∀ k, Memory.read m k = if k < 2 ∧ k < s.cfg.m0 then [if r.stalled then 1#8 else 0#8, 0#8][k]?
            else Memory.read s.stage k) ∧
          exec (.getStatusEp f) s = .next { s with
            eng := { s.eng.answered s.cfg.toChip ((r.raw s.cfg.toChip).setWidth 16) with sel := i }
            stage := m, result := .ok
            ct := { s.ct with ptr := { space := .stage, off := 0 }, len := 2 } }) ∧
      (s.cfg.m0 < 2 → s.cfg.overrunDrops = false → exec (.getStatusEp f) s = .fault .bufferOverrun))

/-- R305, R308, R309: ENDPOINT_HALT clears or sets the halt bit of the addressed endpoint and no other endpoint state, another
selector fails and changes nothing; SET_ADDRESS writes DEVADDR at once, with DEV_EN = 1. -/
def Obligations.CommandingCells : Prop :=
  ∀ (f : SetupFields) (s : State) (i : Idx), i = epIdx (f.index.extractLsb' 0 8) → s.specChip → s.calm →
    (f.value = 0#16 →
      exec (.clearFeatureEp f) s = .next { s with
        eng := (s.eng.quiet s.cfg.toChip).setEp i { s.eng.epAt i with stalled := false }, result := .ok } ∧
      exec (.setFeatureEp f) s = .next { s with
        eng := (s.eng.quiet s.cfg.toChip).setEp i { s.eng.epAt i with stalled := true }, result := .ok }) ∧
    (f.value ≠ 0#16 →
      exec (.clearFeatureEp f) s = .next { s with result := .fail } ∧
      exec (.setFeatureEp f) s = .next { s with result := .fail }) ∧
    (∃ d : Byte, d.toNat = 128 + f.value.toNat % 128 ∧
      exec (.setAddressDev f) s = .next { s with eng := { s.eng.quiet s.cfg.toChip with devaddr := d }, result := .ok })

/-- R312, R351, R352: GET_DESCRIPTOR.dev answers with the descriptor itself, in place, at the length its type reports, or fails;
on any table it ends, with a result or the TableOverrun fault. -/
def Obligations.GetDescriptorCell : Prop :=
  ∀ (f : SetupFields) (s : State),
    (∀ offs matching : List Nat, wellFormedTable s.desc offs →
      matching = offs.filter (fun p => descField s.desc p 1 == f.value.extractLsb' 8 8) →
      exec (.getDescriptorDev f) s = .next (match matching[(f.value.extractLsb' 0 8).toNat]? with
        | some p => { s with
          result := .ok
          ct := { s.ct with ptr := { space := .desc, off := p }, len := reportedLength s.desc p } }
        | none => { s with result := .fail })) ∧
    (exec (.getDescriptorDev f) s = .fault .tableOverrun ∨
      exec (.getDescriptorDev f) s = .next { s with result := .fail } ∨
      ∃ p len, exec (.getDescriptorDev f) s = .next { s with
        result := .ok, ct := { s.ct with ptr := { space := .desc, off := p }, len := len } })

/-- R318, R355, R356, R31: SET_CONFIGURATION.dev configures the endpoints of the configuration for alternate setting 0, or
unconfigures, and then sets CONFIG. -/
def Obligations.SetConfigurationCell : Prop :=
  ∀ (f : SetupFields) (s : State) (c : Byte), c = f.value.extractLsb' 0 8 → s.specChip → s.calm →
    (c = 0#8 → exec (.setConfigurationDev f) s = .next { s with
      eng := { s.eng.quiet s.cfg.toChip with conf := false }, config := 0#8, result := .ok }) ∧
    (∀ offs, c ≠ 0#8 → wellFormedTable s.desc offs → fieldsInside s.desc offs →
      exec (.setConfigurationDev f) s = .next { s with
        eng := s.eng.setting s.cfg.toChip (enclosedEndpoints s.desc offs c 0#8), config := c, result := .ok })

/-- R290 to R292, R335 to R338: a request of another type goes to its hook, and fails without one; a standard request is
offered to the custom hook first, and its cell runs next where there is none or it declines. What a hook answers is the next
listed answer or an unconstrained one (log 14). -/
def Obligations.HookRequests : Prop :=
  ∀ (f : SetupFields) (req : Byte) (recip : BitVec 2) (s s' : State) (a : HookAnswer), s.answer = (a, s') →
    (∀ (i : Instr) (h : Option Nat), (i, h) ∈ [(Instr.hReqClass f req recip, s.hReq1), (.hReqVendor f req recip, s.hReq2),
        (.hReqReserved f req recip, s.hReq3)] →
      (h = none → exec i s = .next { s with result := .fail }) ∧
      (∀ id, h = some id → exec i s = .next { s'.hooked id a with result := if HookAnswer.accepts a then .ok else .fail })) ∧
    (s.hCustom = none → exec (.hCustom f req recip) s = .next { s with frames := .request :: s.frames }) ∧
    (∀ id, s.hCustom = some id → exec (.hCustom f req recip) s =
      .next (if HookAnswer.accepts a then { s'.hooked id a with result := .ok }
        else { s'.hooked id a with frames := .request :: s.frames }))

/-! ## The Interrupt Dispatcher (42_dispatcher.md): format DEVINT -/

/-- R233, R234, R237, R238: the frame arm clears its flag and calls the start-of-frame hook, if there is one; the endpoint arm
clears the umbrella flag and starts the scan at index 0. -/
def Obligations.FrameAndEndpointArms : Prop :=
  ∀ s : State, s.specChip → s.slots = [] →
    exec .frameArm s = .next { s with
      eng := { s.eng with devintst := s.eng.devintst &&& ~~~0x00000001#64 }
      hookLog := match s.hSof with
        | some id => .sof id :: s.hookLog
        | none => s.hookLog } ∧
    exec .endpointArm s = .next { s with
      eng := { s.eng with devintst := s.eng.devintst &&& ~~~0x00000004#64 }
      frames := .scan 0 :: s.frames }

/-- R235, R236, R62, R187, R32: the device-status arm clears the flag and then reads the status, so that the read does not
poison; if something changed, DEVFLAGS and the hook get the normalised bitmap. -/
def Obligations.DevstatArm : Prop :=
  ∀ s : State, s.specChip → s.calm →
    ∃ (v : BitVec 5) (st : BitVec 3) (t : State), (s.eng.devstatPoison = false → v = s.eng.devstat) ∧
      st.getLsbD 0 = v.getLsbD 0 ∧ st.getLsbD 1 = v.getLsbD 2 ∧ st.getLsbD 2 = v.getLsbD 4 ∧
      t = { s with eng := { s.eng.answered s.cfg.toChip (v.setWidth 16) with
        devintst := s.eng.devintst &&& ~~~0x00000038#64
        devstat := s.eng.devstat &&& 0b00101#5
        dsAck := false
        fresh := s.eng.fresh + s.eng.devstatPoison.toNat } } ∧
      exec .devstatArm s = .next (if v.getLsbD 1 = true ∨ v.getLsbD 3 = true ∨ v.getLsbD 4 = true then
          { t with
            devflags := st
            hookLog := match s.hDevst with
              | some id => .devst id st :: s.hookLog
              | none => s.hookLog }
        else t)

/-- R240, R241, R61, R128: an endpoint bit is cleared, the status is fetched, and the registered handler is called with the
address and the normalised status; an index without a handler is skipped. What an external handler does is listed in State
(log 14), only operations on its own endpoint being performed (R246). -/
def Obligations.EndpointEventService : Prop :=
  ∀ (i : Idx) (s t : State) (r : EpRec), s.specChip → s.calm → r = s.eng.epAt i →
    t = { s with eng := { s.eng.answered s.cfg.toChip ((r.raw s.cfg.toChip).setWidth 16) with
      epintst := s.eng.epintst &&& ~~~(1#32 <<< i.toNat), sel := i } } →
    ∃ st : BitVec 5,
      st.getLsbD 0 = r.buf.isFull ∧ st.getLsbD 1 = r.stalled ∧ st.getLsbD 2 = r.buf.isSetup ∧
      st.getLsbD 3 = r.nak ∧ st.getLsbD 4 = r.err ∧
      (s.hndAt i = none → exec (.endpointEvent i) s = .next t) ∧
      (s.hndAt i = some .ctl →
        exec (.endpointEvent i) s = .next { t with frames := .handler (epAddr i) st :: s.frames }) ∧
      (∀ id, s.hndAt i = some (.ext id) →
        exec (.endpointEvent i) s = .next { t with
          hookLog := .handler id (epAddr i) st :: s.hookLog
          handlerScripts := s.handlerScripts.tail
          frames := .hookOps ((s.handlerScripts.head?.getD []).filter (handlerMay i)) :: s.frames })

/-! ## The whole machine -/

/-- R65, R66: the reset values the spec gives. What it leaves unspecified (SU, STAGE, CMDDATA) is not stated, but that no byte of
STAGE and no CMDDATA has a value. -/
def Obligations.ResetState : Prop :=
  (∃ e : Eng, State.reset.eng = e ∧ e.devintst = 0#64 ∧ e.devinten = 0#64 ∧ e.epintst = 0#32 ∧ e.epinten = 0#32 ∧
    e.realize = 0#32 ∧ e.dpctl = 0#64 ∧ (e.readReg Config.chip .RXPLEN).1 = 0#64 ∧ e.devaddr = 0#8 ∧ e.conf = false ∧
    e.devstat = 0#5 ∧ e.dsAck = false ∧ e.devstatPoison = false ∧ e.sel = 0#5 ∧ e.cur = none ∧ e.pend = none ∧
    e.rlzd = 0#32 ∧ e.irq = false ∧ e.cmddataValid = false ∧
    e.rxidx = 0#5 ∧ e.rxpos = 0 ∧ e.txidx = 0#5 ∧ e.txlen = 0#10 ∧ e.txacc = [] ∧
    ∀ i : Idx, e.epAt i = { mps := 0#10, stalled := false, nak := false, err := false, buf := .empty }) ∧
  State.reset.ct = { phase := .idle, dir := false, ptr := { space := .stage, off := 0 }, resid := 0#16, len := 0 } ∧
  (∀ a, Memory.read State.reset.stage a = none) ∧
  State.reset.config = 0#8 ∧ State.reset.devflags = 0#3 ∧ (∀ i, State.reset.hndAt i = none) ∧
  State.reset.hSof = none ∧ State.reset.hDevst = none ∧ State.reset.hReq1 = none ∧ State.reset.hReq2 = none ∧
  State.reset.hReq3 = none ∧ State.reset.hCustom = none ∧ State.reset.inIsr = false ∧ State.reset.irqMask = true

/-- The invariant holds after reset and is kept by every step, whoever takes it and whatever ENG and WIRE do between the accesses of
an operation. Software may write SU or CT alone (R67) and so break the two clauses that tie CT to SU (R24, R281), which CTE keeps:
after such a write all the others still hold. A step never makes another chip of it (R7). -/
def Obligations.InvKept : Prop :=
  Inv State.reset ∧
  (∀ s t : State, s.specChip → Inv s → step s = .next t →
    (∀ a inter ts, s.turns = .app a inter :: ts → AppAct.keepsTransfer s a) → Inv t ∧ t.specChip) ∧
  (∀ s t : State, s.specChip → Inv s → step s = .next t →
    t.specChip ∧ EngInv t.cfg.toChip t.eng ∧ t.eng.portLock = none ∧ Memory.wf t.stage = true ∧ Memory.below t.cfg.stageCap t.stage ∧
      t.snap.isSome = t.inIsr)

/-- R273: the packets of a device-to-host reply are its successive chunks of M0 bytes, the last one shorter, and a zero-length
packet for every further IN event. -/
def Obligations.ReplyChunks : Prop :=
  ∀ (m : Nat) (reply : List Byte) (s s' : State) (rest : List Frame),
    seqTurn s s' → s.hung = none → s.frames = .replyNow :: rest → s.result = .ok → s.specChip → s'.calm →
    s.cfg.m0 = m → m ≤ (s.eng.epAt 1#5).mps.toNat → (s.eng.epAt 1#5).stalled = false →
    reachable s.cfg.toChip 0#4 1#5 s.eng →
    reply.length = min s.ct.len (suLength s.su).toNat →
    (∀ k n, 0 < n → k + n ≤ reply.length →
      s.bytesAt { s.ct.ptr with off := s.ct.ptr.off + k } n = some ((reply.drop k).take n, s.fresh)) →
    ∃ t : State, step s = .next t ∧
      ∀ k, ∃ u, inRounds k t = some ((List.range k).map (packetAt m reply), u)

/-- R7, R21, R31 to R34, R80, R206, R455: which instructions write which state of SEQ, over all of them; and that REALIZE, the
confirmations and the poisoning of the device status are never taken back. -/
def Obligations.OnlyTheseWrite : Prop :=
  ∀ (i : Instr) (s t : State), exec i s = .next t →
    (t.cfg = s.cfg ∧ t.desc = s.desc ∧ t.irqMask = s.irqMask ∧ t.inIsr = s.inIsr ∧ t.snap = s.snap ∧
      t.hSof = s.hSof ∧ t.hDevst = s.hDevst ∧ t.hReq1 = s.hReq1 ∧ t.hReq2 = s.hReq2 ∧ t.hReq3 = s.hReq3 ∧
      t.hCustom = s.hCustom ∧ t.turns = s.turns) ∧
    ((∀ f, i ≠ .setConfigurationDev f) → t.config = s.config) ∧
    ((∀ st, i ≠ .setupEvent st) → t.su = s.su) ∧
    ((∀ a h, i ≠ .registerHandler a h) → t.hnd = s.hnd) ∧
    (i ≠ .devstatArm → t.devflags = s.devflags) ∧
    (∀ k, s.eng.realize.getLsbD k = true → t.eng.realize.getLsbD k = true) ∧
    (∀ k, s.eng.rlzd.getLsbD k = true → t.eng.rlzd.getLsbD k = true) ∧
    (s.eng.devstatPoison = true → t.eng.devstatPoison = true)

/-- R175, R176, R461: with a responsive ENG and nothing pending, every operation of the command interface and the Endpoint Manager
returns, whatever ENG and WIRE do in between, and leaves nothing pending: no wait is for ever and no reentrancy arises. That a wait
takes ENG's enabled step itself is log 6 (DEDUCED). -/
def Obligations.OperationsReturn : Prop :=
  ∀ (i : Instr) (s : State), s.specChip → s.mayOperate = true → s.cfg.engResponsive = true → s.eng.pend = none →
    ((∃ c d, i = .command c ∨ i = .commandWrite c d ∨ i = .commandRead c) ∨
      (∃ a m, i = .configureEndpoint a m ∨ i = .stall a ∨ i = .unstall a ∨ i = .getStatus a) ∨
      (∃ a n bs, i = .epRead a n ∨ i = .epWrite a bs)) →
    ∃ t, exec i s = .next t ∧ t.hung = s.hung ∧ t.eng.pend = none

/-- R175, R403: with an ENG that never answers, a command hangs with its word pending; once SEQ hangs it hangs for ever, and only
ENG and WIRE still move. That the hang is one step to a state with `hung` set, and that APP, one thread with SEQ, then never moves
again, not even to write the mask, is log 6 (DEDUCED); that the port's exclusion ends there is log 13. -/
def Obligations.HangForEver : Prop :=
  (∀ (c : Byte) (d : Half) (i : Instr) (s : State), i = .command c ∨ i = .commandWrite c d ∨ i = .commandRead c →
    s.specChip → s.mayOperate = true → s.slots = [] → s.cfg.engResponsive = false → s.eng.pend = none →
    exec i s = .next { s with
      hung := some s.cfg.bitCCEMPTY
      eng := { s.eng with
        devintst := s.eng.devintst &&& ~~~0x00000030#64
        pend := some (cmdWord s.cfg.toChip c), cmddataValid := false, portLock := none } }) ∧
  (∀ (b : Nat) (s : State), s.hung = some b →
    ∃ t, step s = .next t ∧
      { s with eng := t.eng, turns := t.turns, slots := t.slots, wireLog := t.wireLog } = t)
end

