-- ==== Sys2Proof/Laws/State.lean ====
section
/-! SUPPORT. The small lemmas of the named updates: one per field an update writes or keeps, so that no later proof unfolds
a record update. -/

-- one declaration at a time: kernel evaluations that wait for each other would hold a thread each
set_option Elab.async false

namespace Sys2Proof.Machine

/-! ## Endpoint records -/

@[simp] theorem epAt_setEp_same (e : Eng) (i : Idx) (r : EpRec) : (e.setEp i r).epAt i = r := by
  simp [Eng.epAt, Eng.setEp]

theorem epAt_setEp_ne (e : Eng) {i j : Idx} (r : EpRec) (h : j ≠ i) : (e.setEp i r).epAt j = e.epAt j := by
  have h' : i.toNat ≠ j.toNat := fun hc => h (BitVec.eq_of_toNat_eq hc.symm)
  simp [Eng.epAt, Eng.setEp, h']

theorem epAt_setEp (e : Eng) (i j : Idx) (r : EpRec) : (e.setEp i r).epAt j = if j = i then r else e.epAt j := by
  by_cases h : j = i
  · subst h; simp
  · simp [h, epAt_setEp_ne]

@[simp] theorem setEp_devintst (e : Eng) (i : Idx) (r : EpRec) : (e.setEp i r).devintst = e.devintst := rfl
@[simp] theorem setEp_devinten (e : Eng) (i : Idx) (r : EpRec) : (e.setEp i r).devinten = e.devinten := rfl
@[simp] theorem setEp_epintst (e : Eng) (i : Idx) (r : EpRec) : (e.setEp i r).epintst = e.epintst := rfl
@[simp] theorem setEp_epinten (e : Eng) (i : Idx) (r : EpRec) : (e.setEp i r).epinten = e.epinten := rfl
@[simp] theorem setEp_realize (e : Eng) (i : Idx) (r : EpRec) : (e.setEp i r).realize = e.realize := rfl
@[simp] theorem setEp_rlzd (e : Eng) (i : Idx) (r : EpRec) : (e.setEp i r).rlzd = e.rlzd := rfl
@[simp] theorem setEp_dpctl (e : Eng) (i : Idx) (r : EpRec) : (e.setEp i r).dpctl = e.dpctl := rfl
@[simp] theorem setEp_cmddata (e : Eng) (i : Idx) (r : EpRec) : (e.setEp i r).cmddata = e.cmddata := rfl
@[simp] theorem setEp_cmddataValid (e : Eng) (i : Idx) (r : EpRec) : (e.setEp i r).cmddataValid = e.cmddataValid := rfl
@[simp] theorem setEp_devaddr (e : Eng) (i : Idx) (r : EpRec) : (e.setEp i r).devaddr = e.devaddr := rfl
@[simp] theorem setEp_conf (e : Eng) (i : Idx) (r : EpRec) : (e.setEp i r).conf = e.conf := rfl
@[simp] theorem setEp_devstat (e : Eng) (i : Idx) (r : EpRec) : (e.setEp i r).devstat = e.devstat := rfl
@[simp] theorem setEp_dsAck (e : Eng) (i : Idx) (r : EpRec) : (e.setEp i r).dsAck = e.dsAck := rfl
@[simp] theorem setEp_devstatPoison (e : Eng) (i : Idx) (r : EpRec) : (e.setEp i r).devstatPoison = e.devstatPoison := rfl
@[simp] theorem setEp_sel (e : Eng) (i : Idx) (r : EpRec) : (e.setEp i r).sel = e.sel := rfl
@[simp] theorem setEp_cur (e : Eng) (i : Idx) (r : EpRec) : (e.setEp i r).cur = e.cur := rfl
@[simp] theorem setEp_pend (e : Eng) (i : Idx) (r : EpRec) : (e.setEp i r).pend = e.pend := rfl
@[simp] theorem setEp_rxidx (e : Eng) (i : Idx) (r : EpRec) : (e.setEp i r).rxidx = e.rxidx := rfl
@[simp] theorem setEp_rxpos (e : Eng) (i : Idx) (r : EpRec) : (e.setEp i r).rxpos = e.rxpos := rfl
@[simp] theorem setEp_rxOpened (e : Eng) (i : Idx) (r : EpRec) : (e.setEp i r).rxOpened = e.rxOpened := rfl
@[simp] theorem setEp_txidx (e : Eng) (i : Idx) (r : EpRec) : (e.setEp i r).txidx = e.txidx := rfl
@[simp] theorem setEp_txlen (e : Eng) (i : Idx) (r : EpRec) : (e.setEp i r).txlen = e.txlen := rfl
@[simp] theorem setEp_txacc (e : Eng) (i : Idx) (r : EpRec) : (e.setEp i r).txacc = e.txacc := rfl
@[simp] theorem setEp_portLock (e : Eng) (i : Idx) (r : EpRec) : (e.setEp i r).portLock = e.portLock := rfl
@[simp] theorem setEp_fresh (e : Eng) (i : Idx) (r : EpRec) : (e.setEp i r).fresh = e.fresh := rfl

/-! ## The pending bit of an endpoint (R381) -/

@[simp] theorem setEpInt_ep (i : Idx) (e : Eng) : (setEpInt chip i e).ep = e.ep := rfl
@[simp] theorem setEpInt_epintst (i : Idx) (e : Eng) : (setEpInt chip i e).epintst = setBit e.epintst i.toNat := rfl
@[simp] theorem setEpInt_epinten (i : Idx) (e : Eng) : (setEpInt chip i e).epinten = e.epinten := rfl
@[simp] theorem setEpInt_rlzd (i : Idx) (e : Eng) : (setEpInt chip i e).rlzd = e.rlzd := rfl
@[simp] theorem setEpInt_realize (i : Idx) (e : Eng) : (setEpInt chip i e).realize = e.realize := rfl
@[simp] theorem setEpInt_epAt (i j : Idx) (e : Eng) : (setEpInt chip i e).epAt j = e.epAt j := rfl

/-! ## Free values -/

@[simp] theorem tick_fresh (e : Eng) : e.tick.fresh = e.fresh + 1 := rfl
@[simp] theorem tick_devintst (e : Eng) : e.tick.devintst = e.devintst := rfl
@[simp] theorem tick_pend (e : Eng) : e.tick.pend = e.pend := rfl
@[simp] theorem tick_ep (e : Eng) : e.tick.ep = e.ep := rfl

/-! ## A hang, entry and return of a pass -/

@[simp] theorem hangState_hung (b : Nat) (s : State) : (hangState b s).hung = some b := rfl
@[simp] theorem hangState_frames (b : Nat) (s : State) : (hangState b s).frames = s.frames := rfl
@[simp] theorem hangState_inIsr (b : Nat) (s : State) : (hangState b s).inIsr = s.inIsr := rfl
@[simp] theorem enterPass_inIsr (s : State) : (enterPass s).inIsr = true := rfl
@[simp] theorem enterPass_snap (s : State) : (enterPass s).snap = some s.eng.devintst := rfl
@[simp] theorem enterPass_eng (s : State) : (enterPass s).eng = s.eng := rfl
@[simp] theorem enterPass_frames (s : State) : (enterPass s).frames = [.arms 0#64] := rfl
@[simp] theorem exitPass_inIsr (s : State) : (exitPass s).inIsr = false := rfl
@[simp] theorem exitPass_snap (s : State) : (exitPass s).snap = none := rfl
@[simp] theorem exitPass_eng (s : State) : (exitPass s).eng = s.eng := rfl
@[simp] theorem exitPass_frames (s : State) : (exitPass s).frames = [] := rfl

/-! ## Handlers -/

theorem hndAt_set (s : State) (i j : Idx) (h : Option Handler) :
    State.hndAt { s with hnd := s.hnd.set i.toNat h (by have := i.isLt; omega) } j =
      if j = i then h else s.hndAt j := by
  by_cases hj : j = i
  · subst hj; simp [State.hndAt]
  · have h' : i.toNat ≠ j.toNat := fun hc => hj (BitVec.eq_of_toNat_eq hc.symm)
    simp [State.hndAt, h', hj]

end Sys2Proof.Machine
end

