-- ==== Sys2Proof/Laws/Seq.lean ====
section
/-! SUPPORT. How a sequencer computation runs, one lemma per construct; and each access when no other agent moves before it. -/

-- one declaration at a time: kernel evaluations that wait for each other would hold a thread each
set_option Elab.async false

namespace Sys2Proof.Machine

variable {chip : Chip} {α β : Type}

/-! ## Constructs -/

@[simp] theorem run_pure (a : α) (s : State) : (pure a : SeqM α) s = .ok a s := rfl
@[simp] theorem run_get (s : State) : (get : SeqM State) s = .ok s s := rfl
@[simp] theorem run_modify (f : State → State) (s : State) : (modify f : SeqM Unit) s = .ok () (f s) := rfl
@[simp] theorem run_throw (x : Stop) (s : State) : (throw x : SeqM α) s = .error x s := rfl
@[simp] theorem run_raise (f : Fault) (s : State) : (raise f : SeqM α) s = .error (.fault f) s := rfl

/-- A sequence: the first part, then, if it ended well, the second on its result. -/
theorem run_bind (m : SeqM α) (f : α → SeqM β) (s : State) :
    (m >>= f) s = match m s with
      | .ok a s' => f a s'
      | .error x s' => .error x s' := by
  cases h : m s <;> simp [bind, EStateM.bind, h]

theorem run_bind_ok {m : SeqM α} {f : α → SeqM β} {s s' : State} {a : α} (h : m s = .ok a s') :
    (m >>= f) s = f a s' := by rw [run_bind, h]

theorem run_bind_error {m : SeqM α} {f : α → SeqM β} {s s' : State} {x : Stop} (h : m s = .error x s') :
    (m >>= f) s = .error x s' := by rw [run_bind, h]

@[simp] theorem run_get_bind (f : State → SeqM β) (s : State) : (get >>= f) s = f s s := rfl
@[simp] theorem run_modify_bind (g : State → State) (f : Unit → SeqM β) (s : State) :
    ((modify g : SeqM Unit) >>= f) s = f () (g s) := rfl
@[simp] theorem run_pure_bind (a : α) (f : α → SeqM β) (s : State) : ((pure a : SeqM α) >>= f) s = f a s := rfl

@[simp] theorem runSeq_ok {m : SeqM α} {s s' : State} {a : α} (h : m s = .ok a s') : runSeq m s = .next s' := by
  simp [runSeq, outcome, h]

theorem runSeq_fault {m : SeqM α} {s s' : State} {f : Fault} (h : m s = .error (.fault f) s') : runSeq m s = .fault f := by
  simp [runSeq, outcome, h]

theorem runSeq_hang {m : SeqM α} {s s' : State} {b : Nat} (h : m s = .error (.hang b) s') :
    runSeq m s = .next (hangState b s') := by simp [runSeq, outcome, h]

theorem runCall_ok {m : SeqM α} {s s' : State} {a : α} (hc : s.mayOperate = true) (h : m s = .ok a s') :
    runCall m s = .next s' := by simp [runCall, hc, runSeq_ok h]

/-! ## Accesses with no move of another agent before them -/

theorem beforeAccess_nil {s : State} (h : s.slots = []) : beforeAccess chip s = s := by simp [beforeAccess, h]

theorem regRead_calm (r : Reg) {s : State} (h : s.slots = []) :
    regRead chip r s = .ok (s.eng.readReg chip r).1 { s with eng := (s.eng.readReg chip r).2 } := by
  simp [regRead, beforeAccess_nil h]

theorem regWrite_calm {r : Reg} {v : RegWord} {s : State} {e : Eng} (h : s.slots = []) (hw : s.eng.writeReg chip r v = .ok e) :
    regWrite chip r v s = .ok () { s with eng := e } := by
  simp [regWrite, beforeAccess_nil h, hw]

theorem waitFlag_set {b : Nat} {s : State} (h : s.slots = []) (hb : s.eng.devintst.getLsbD b = true) :
    waitFlag chip b s = .ok () s := by
  simp [waitFlag, beforeAccess_nil h, hb]

theorem engMove_ready {s : State} {w : Word} (hr : s.cfg.engResponsive = true) (hp : s.eng.pend = some w) :
    engMove chip s = { s with eng := s.eng.complete chip (decodeCmdw chip w) } := by
  simp [engMove, Eng.advance, Eng.ready, hr, hp]

/-- A wait that begins with the phase pending ends with it completed, if the completion sets the flag. -/
theorem waitFlag_complete {b : Nat} {s : State} {w : Word} (h : s.slots = []) (hr : s.cfg.engResponsive = true)
    (hp : s.eng.pend = some w) (hb : s.eng.devintst.getLsbD b = false)
    (hc : (s.eng.complete chip (decodeCmdw chip w)).devintst.getLsbD b = true) :
    waitFlag chip b s = .ok () { s with eng := s.eng.complete chip (decodeCmdw chip w) } := by
  simp [waitFlag, beforeAccess_nil h, hb, engMove_ready hr hp, hc]

/-- With nothing pending and the flag clear, SEQ hangs (R403). -/
theorem waitFlag_hang {b : Nat} {s : State} (h : s.slots = []) (hp : s.eng.pend = none)
    (hb : s.eng.devintst.getLsbD b = false) : waitFlag chip b s = .error (.hang b) s := by
  have : engMove chip s = s := by simp [engMove, Eng.advance, Eng.ready, hp]
  simp [waitFlag, beforeAccess_nil h, hb, this]

/-! ## A 32-bit word in a register, and back -/

@[simp] theorem word_of_reg (x : Word) : (x.setWidth 64).setWidth 32 = x := by
  rw [BitVec.setWidth_setWidth_of_le _ (by decide), BitVec.setWidth_eq]

@[simp] theorem word_bit {i : Nat} : (bit i : RegWord).setWidth 32 = bit i := by
  apply BitVec.eq_of_getLsbD_eq
  intro j hj
  simp [bit, hj]

/-- A register that holds a 32-bit word has zeros above it (R40). -/
theorem reg_word_lt (x : Word) : (x.setWidth 64).toNat < 2 ^ 32 := by
  rw [BitVec.toNat_setWidth_of_le (by decide)]; exact x.isLt

/-- A bit of the 32-bit word is the same bit of the register. -/
@[simp] theorem reg_word_getLsbD (x : Word) (k : Nat) : (x.setWidth 64).getLsbD k = x.getLsbD k := by
  rw [BitVec.getLsbD_setWidth]
  by_cases h : k < 64
  · simp [h]
  · rw [BitVec.getLsbD_of_ge x k (by rw [Config.wordW_eq]; omega), Bool.and_false]

/-- A field of the 32-bit word is the same field of the register. -/
theorem reg_word_field (x : Word) {a n : Nat} (h : a + n ≤ 32) : (x.setWidth 64).extractLsb' a n = x.extractLsb' a n := by
  apply BitVec.eq_of_getLsbD_eq
  intro j hj
  simp [show a + j < 64 by omega]

/-- A field of a register below bit 32 is the same field of its 32-bit word. -/
theorem word_reg_field (v : RegWord) {a n : Nat} (h : a + n ≤ 32) : (v.setWidth 32).extractLsb' a n = v.extractLsb' a n := by
  apply BitVec.eq_of_getLsbD_eq
  intro j hj
  simp [show a + j < 32 by omega]

/-- Any value of a register is one of its `REG_W` bits (U3). -/
theorem anyWord_lt (chip : Chip) (n : Nat) : (anyWord chip n).toNat < 2 ^ chip.regW.val := by
  rw [anyWord, BitVec.toNat_setWidth_of_le chip.regW.property.2.1]; exact BitVec.isLt _

/-- One bit of a bitmap set through its register (R87). -/
@[simp] theorem word_or_bit (x : Word) (i : Nat) : (x.setWidth 64 ||| bit i).setWidth 32 = x ||| bit i := by
  rw [BitVec.setWidth_or, word_of_reg, word_bit]

/-! ## Bits of a register and of a bitmap -/

@[simp] theorem setBit_getLsbD {n : Nat} (w : BitVec n) (i j : Nat) :
    (setBit w i).getLsbD j = (w.getLsbD j || (decide (j < n) && decide (i = j))) := by
  by_cases hj : j < n
  · simp only [setBit, bit, BitVec.getLsbD_or, BitVec.getLsbD_shiftLeft, hj]
    by_cases h : j < i
    · simp [h]; intro; omega
    · simp [h]
      congr 1
      by_cases h2 : i = j
      · subst h2; simp; omega
      · simp [h2]; omega
  · simp [setBit, bit, hj]

theorem bit_getLsbD {n : Nat} (i j : Nat) : (bit i : BitVec n).getLsbD j = (decide (j < n) && decide (i = j)) := by
  simpa [setBit] using setBit_getLsbD 0#n i j

/-- A flag raised and cleared again leaves the register as it was with the flag clear. -/
theorem clear_setBit {n : Nat} (x m : BitVec n) (i : Nat) (h : bit i &&& m = bit i) :
    setBit (x &&& ~~~m) i &&& ~~~(bit i) = x &&& ~~~m := by
  apply BitVec.eq_of_getLsbD_eq
  intro j hj
  have h' := congrArg (fun w => BitVec.getLsbD w j) h
  simp only [BitVec.getLsbD_and, setBit_getLsbD, BitVec.getLsbD_not, bit_getLsbD, hj, decide_true, Bool.true_and] at h' ⊢
  revert h'
  cases x.getLsbD j <;> cases m.getLsbD j <;> cases decide (i = j) <;> simp

end Sys2Proof.Machine
end

