-- ==== Sys2Proof/Laws/Words.lean ====
section
/-! SUPPORT. Words built from fields, and the fields read back: phase words (R123), 16-bit fields (R82), data-port words (R83),
endpoint addresses and indices (R128). -/

-- one declaration at a time: kernel evaluations that wait for each other would hold a thread each
set_option Elab.async false

namespace Sys2Proof.Machine

/-! ## Phase words -/

/-- MPS_W = 10 takes the whole field (D10). -/
@[simp] theorem sizeIn_chip (d : Half) : sizeIn Config.chip d = d.extractLsb' 0 10 := by
  have h : BitVec.ofNat Config.lenW (2 ^ Config.chip.mpsW.val - 1) = BitVec.allOnes Config.lenW := by decide
  rw [sizeIn, h, BitVec.and_allOnes]

theorem hasBase_select (c : Byte) : hasBase Config.chip.codeSelectEp c = (c.extractLsb' 5 3 == 0#3) := by
  revert c; decide +kernel

theorem hasBase_status (c : Byte) : hasBase Config.chip.codeSetEpStatus c = (c.extractLsb' 5 3 == 2#3) := by
  revert c; decide +kernel

theorem hasBase_maxpkt (c : Byte) : hasBase Config.chip.codeSetMaxpkt c = (c.extractLsb' 5 3 == 4#3) := by
  revert c; decide +kernel

@[simp] theorem hasBase_status_withIdx (i : Idx) : hasBase Config.chip.codeSetEpStatus (codeWithIdx Config.chip.codeSetEpStatus i) = true := by
  revert i; decide +kernel

@[simp] theorem hasBase_maxpkt_withIdx (i : Idx) : hasBase Config.chip.codeSetMaxpkt (codeWithIdx Config.chip.codeSetMaxpkt i) = true := by
  revert i; decide +kernel

@[simp] theorem hasBase_status_maxpkt (i : Idx) : hasBase Config.chip.codeSetEpStatus (codeWithIdx Config.chip.codeSetMaxpkt i) = false := by
  revert i; decide +kernel

/-- The index comes back from the base it was added to (R125). -/
@[simp] theorem indexIn_withIdx (base : Byte) (i : Idx) : indexIn base (codeWithIdx base i) = i := by
  apply BitVec.eq_of_toNat_eq
  have := i.isLt
  simp only [indexIn, codeWithIdx, BitVec.toNat_setWidth, BitVec.toNat_sub, BitVec.toNat_add]
  omega

theorem decodeCmdw_cmdWord (c : Byte) : decodeCmdw Config.chip (cmdWord Config.chip c) = decodeCommandCode Config.chip c (cmdWord Config.chip c) := by
  revert c; decide +kernel

theorem decodeCmdw_rdWord (c : Byte) : decodeCmdw Config.chip (rdWord Config.chip c) = decodeReadCode Config.chip c (rdWord Config.chip c) := by
  revert c; decide +kernel

theorem wrWord_toNat (d : Half) : (wrWord Config.chip d).toNat = 65536 * d.toNat + 256 := by
  have h : (wrWord Config.chip d).toNat = BitVec.toNat (w := 16 + 8 + 8) (d ++ Config.chip.phWrite ++ 0#8) := rfl
  rw [h, BitVec.toNat_append, BitVec.toNat_append, ← Nat.shiftLeft_add_eq_or_of_lt (by decide),
    ← Nat.shiftLeft_add_eq_or_of_lt Config.chip.phWrite.isLt]
  simp [Config.chip_phWrite, Nat.shiftLeft_eq]; omega

theorem decodeCmdw_wrWord (d : Half) : decodeCmdw Config.chip (wrWord Config.chip d) = .wrdata d := by
  have h := wrWord_toNat d
  have hd := d.isLt
  have h0 : (wrWord Config.chip d).extractLsb' 0 8 = 0#8 := by
    apply BitVec.eq_of_toNat_eq; simp [BitVec.extractLsb'_toNat, h]; omega
  have h1 : (wrWord Config.chip d).extractLsb' 8 8 = Config.chip.phWrite := by
    apply BitVec.eq_of_toNat_eq
    simp [BitVec.extractLsb'_toNat, h, Nat.shiftRight_eq_div_pow, Config.chip_phWrite]; omega
  have h2 : (wrWord Config.chip d).extractLsb' 16 16 = d := by
    apply BitVec.eq_of_toNat_eq
    simp [BitVec.extractLsb'_toNat, h, Nat.shiftRight_eq_div_pow]; omega
  simp [decodeCmdw, h0, h1, h2]

/-! ## Bytes of a data-port word -/

theorem portWord_toNat (bs : List Byte) (p : Nat) :
    (portWord bs p).toNat = 16777216 * (byteOr0 bs (p + 3)).toNat + 65536 * (byteOr0 bs (p + 2)).toNat +
      256 * (byteOr0 bs (p + 1)).toNat + (byteOr0 bs p).toNat := by
  have h : (portWord bs p).toNat = BitVec.toNat (w := 8 + 8 + 8 + 8)
      (byteOr0 bs (p + 3) ++ byteOr0 bs (p + 2) ++ byteOr0 bs (p + 1) ++ byteOr0 bs p) := rfl
  rw [h, BitVec.toNat_append, BitVec.toNat_append, BitVec.toNat_append,
    ← Nat.shiftLeft_add_eq_or_of_lt (byteOr0 bs p).isLt, ← Nat.shiftLeft_add_eq_or_of_lt (byteOr0 bs (p + 1)).isLt,
    ← Nat.shiftLeft_add_eq_or_of_lt (byteOr0 bs (p + 2)).isLt]
  simp only [Nat.shiftLeft_eq]; omega

/-- Through the data port and back: the four bytes (R51, R52, R83). -/
theorem wordBytes_portWord (bs : List Byte) (p : Nat) :
    wordBytes (portWord bs p) = [byteOr0 bs p, byteOr0 bs (p + 1), byteOr0 bs (p + 2), byteOr0 bs (p + 3)] := by
  have h := portWord_toNat bs p
  have h0 := (byteOr0 bs p).isLt
  have h1 := (byteOr0 bs (p + 1)).isLt
  have h2 := (byteOr0 bs (p + 2)).isLt
  have h3 := (byteOr0 bs (p + 3)).isLt
  simp only [wordBytes, List.cons.injEq, and_true]
  refine ⟨?_, ?_, ?_, ?_⟩ <;>
  · apply BitVec.eq_of_toNat_eq
    simp only [BitVec.extractLsb'_toNat, h, Nat.shiftRight_eq_div_pow]
    omega

/-- Byte `j` of the word is the packet's byte at offset `p + j` (R51). -/
theorem portWord_bytes (bs : List Byte) (p j : Nat) (hj : j < 4) : (portWord bs p).extractLsb' (8 * j) 8 = byteOr0 bs (p + j) := by
  have h := wordBytes_portWord bs p
  simp only [wordBytes, List.cons.injEq, and_true] at h
  obtain ⟨h0, h1, h2, h3⟩ := h
  match j, hj with
  | 0, _ => exact h0
  | 1, _ => exact h1
  | 2, _ => exact h2
  | 3, _ => exact h3

/-! ## 16-bit fields, addresses and indices -/

theorem le16_toNat (lo hi : Byte) : (le16 lo hi).toNat = lo.toNat + 256 * hi.toNat := by
  have h : (le16 lo hi).toNat = BitVec.toNat (w := 8 + 8) (hi ++ lo) := rfl
  rw [h, BitVec.toNat_append, ← Nat.shiftLeft_add_eq_or_of_lt lo.isLt]
  simp [Nat.shiftLeft_eq]; omega

theorem epIdx_toNat (a : Byte) : (epIdx a).toNat = 2 * (a.toNat % 16) + a.toNat / 128 := by
  revert a; decide +kernel

theorem epAddr_toNat (i : Idx) : (epAddr i).toNat = 128 * (i.toNat % 2) + i.toNat / 2 := by
  revert i; decide +kernel

theorem outIdx_toNat (n : BitVec 4) : (outIdx n).toNat = 2 * n.toNat := by
  revert n; decide +kernel

theorem inIdx_toNat (n : BitVec 4) : (inIdx n).toNat = 2 * n.toNat + 1 := by
  revert n; decide +kernel

end Sys2Proof.Machine
end

