-- ==== Sys2Proof/Laws/Hci.lean ====
section
/-! SUPPORT. The command protocol run undisturbed: one phase, and what a whole primitive leaves of ENG. -/

-- one declaration at a time: kernel evaluations that wait for each other would hold a thread each
set_option Elab.async false

namespace Sys2Proof.Machine

/-- A command phase ends with PEND none and CCEMPTY raised, whatever the code (R181, R193). -/
theorem complete_cmdWord (c : Byte) (e : Eng) :
    (e.complete Config.chip (decodeCmdw Config.chip (cmdWord Config.chip c))).pend = none ∧
    (e.complete Config.chip (decodeCmdw Config.chip (cmdWord Config.chip c))).devintst = setBit e.devintst Config.chip.bitCCEMPTY := by
  have hp : (cmdWord Config.chip c).extractLsb' 8 8 = Config.chip.phCmd := by revert c; decide +kernel
  have hne : ¬ Config.chip.phCmd = Config.chip.phRead := by decide
  rw [decodeCmdw_cmdWord]
  simp only [decodeCommandCode]
  repeat' split
  all_goals
    simp [Eng.complete, Eng.completeSelectEp, Eng.completeSetEpStatus, Eng.completeSetMaxpkt, Eng.completeSetAddress,
      Eng.completeConfigureDevice, Eng.completeClearBuffer, Eng.completeValidateBuffer, Eng.completeGetDevStatus,
      Eng.completeReserved, Eng.endCommand, Eng.endWrite, Eng.clearBuffer, Eng.validateBuffer, hp, hne]
  split <;> simp

/-- One phase run undisturbed: the word is accepted, ENG completes it, the flag is cleared (R171). -/
theorem phase_calm {w : Word} {b : Nat} {s : State} (hc : s.calm) (hb : s.eng.devintst.getLsbD b = false)
    (hs : ((s.eng.accept w).complete Config.chip (decodeCmdw Config.chip w)).devintst.getLsbD b = true) :
    phase Config.chip w b s =
      .ok () { s with eng := ((s.eng.accept w).complete Config.chip (decodeCmdw Config.chip w)).writeDevintclr Config.chip (bit b) } := by
  obtain ⟨h1, h2, h3⟩ := hc
  have hw : s.eng.writeReg Config.chip .CMDCODE (w.setWidth Config.regMax) = .ok (s.eng.accept w) := by simp [Eng.writeReg, h3]
  unfold phase
  rw [run_bind_ok (regWrite_calm h1 hw)]
  rw [run_bind_ok (waitFlag_complete (s := { s with eng := s.eng.accept w }) h1 h2 rfl hb hs)]
  exact regWrite_calm (s := { s with eng := (s.eng.accept w).complete Config.chip (decodeCmdw Config.chip w) }) h1 rfl

/-- The start of every primitive: both phase-complete flags are cleared (R172). -/
theorem clearFlags_calm {s : State} (hc : s.calm) :
    regWrite Config.chip .DEVINTCLR (phaseFlags Config.chip) s = .ok () { s with eng := s.eng.writeDevintclr Config.chip (phaseFlags Config.chip) } :=
  regWrite_calm hc.1 rfl

theorem phaseFlags_clear (x : RegWord) :
    (x &&& ~~~(phaseFlags Config.chip)).getLsbD Config.chip.bitCCEMPTY = false ∧ (x &&& ~~~(phaseFlags Config.chip)).getLsbD Config.chip.bitCDFULL = false := by
  constructor <;>
    simp [phaseFlags, bit_getLsbD, Config.chip_bitCCEMPTY, Config.chip_bitCDFULL]

theorem writeDevintclr_phaseFlags (e : Eng) :
    e.writeDevintclr Config.chip (phaseFlags Config.chip) = { e with devintst := e.devintst &&& ~~~(phaseFlags Config.chip) } := by
  have : (phaseFlags Config.chip).getLsbD Config.chip.bitDEVSTAT = false := by decide
  simp [Eng.writeDevintclr, this]

theorem writeDevintclr_cc (e : Eng) :
    e.writeDevintclr Config.chip (bit Config.chip.bitCCEMPTY) = { e with devintst := e.devintst &&& ~~~(bit Config.chip.bitCCEMPTY) } := by
  have : (bit Config.chip.bitCCEMPTY : RegWord).getLsbD Config.chip.bitDEVSTAT = false := by decide
  simp [Eng.writeDevintclr, this]

theorem writeDevintclr_cd (e : Eng) :
    e.writeDevintclr Config.chip (bit Config.chip.bitCDFULL) = { e with devintst := e.devintst &&& ~~~(bit Config.chip.bitCDFULL) } := by
  have : (bit Config.chip.bitCDFULL : RegWord).getLsbD Config.chip.bitDEVSTAT = false := by decide
  simp [Eng.writeDevintclr, this]

theorem clear_cc (x : RegWord) :
    setBit (x &&& ~~~(phaseFlags Config.chip)) Config.chip.bitCCEMPTY &&& ~~~(bit Config.chip.bitCCEMPTY) = x &&& ~~~(phaseFlags Config.chip) :=
  clear_setBit x (phaseFlags Config.chip) _ (by decide)

theorem clear_cd (x : RegWord) :
    setBit (x &&& ~~~(phaseFlags Config.chip)) Config.chip.bitCDFULL &&& ~~~(bit Config.chip.bitCDFULL) = x &&& ~~~(phaseFlags Config.chip) :=
  clear_setBit x (phaseFlags Config.chip) _ (by decide)

/-- ENG with the flags clear and a phase word accepted: where every phase of a primitive stands before its completion. -/
def Eng.primed (w : Word) (e : Eng) : Eng :=
  { e with devintst := e.devintst &&& ~~~(phaseFlags Config.chip), pend := some w, cmddataValid := false }

/-- `command(code)` run undisturbed (R172). -/
theorem command_calm {c : Byte} {s : State} (hc : s.calm) :
    command Config.chip c s = .ok () { s with eng :=
      { (s.eng.primed (cmdWord Config.chip c)).complete Config.chip (decodeCmdw Config.chip (cmdWord Config.chip c)) with devintst := s.eng.devintst &&& ~~~(phaseFlags Config.chip) } } := by
  unfold command
  rw [run_bind_ok (clearFlags_calm hc), writeDevintclr_phaseFlags]
  rw [phase_calm (s := { s with eng := { s.eng with devintst := s.eng.devintst &&& ~~~(phaseFlags Config.chip) } })
    hc (phaseFlags_clear _).1 (by rw [(complete_cmdWord c _).2]; simp [Config.chip_bitCCEMPTY])]
  rw [writeDevintclr_cc, (complete_cmdWord c _).2]
  simp only [Eng.accept, clear_cc]
  rfl

/-- What a primitive leaves when its last completion left `e`: both flags clear (R172 to R174). -/
theorem primed_devintst (w : Word) (e : Eng) : (e.primed w).devintst = e.devintst &&& ~~~(phaseFlags Config.chip) := rfl

theorem codeWithIdx_select (i : Idx) :
    decodeCommandCode Config.chip (codeWithIdx Config.chip.codeSelectEp i) (cmdWord Config.chip (codeWithIdx Config.chip.codeSelectEp i)) = .selectEp i := by
  revert i; decide +kernel

theorem codeWithIdx_status (i : Idx) :
    decodeCommandCode Config.chip (codeWithIdx Config.chip.codeSetEpStatus i) (cmdWord Config.chip (codeWithIdx Config.chip.codeSetEpStatus i)) =
      .setEpStatus i := by
  revert i; decide +kernel

theorem codeWithIdx_maxpkt (i : Idx) :
    decodeCommandCode Config.chip (codeWithIdx Config.chip.codeSetMaxpkt i) (cmdWord Config.chip (codeWithIdx Config.chip.codeSetMaxpkt i)) =
      .setMaxpkt i := by
  revert i; decide +kernel

/-- `command(SELECT_EP + i)` (R172, R188). -/
theorem command_selectEp {i : Idx} {s : State} (hc : s.calm) :
    command Config.chip (codeWithIdx Config.chip.codeSelectEp i) s =
      .ok () { s with eng := { s.eng.quiet Config.chip with sel := i, cur := some (codeWithIdx Config.chip.codeSelectEp i) } } := by
  rw [command_calm hc, decodeCmdw_cmdWord, codeWithIdx_select]
  obtain ⟨_, _, h3⟩ := hc
  simp [Eng.complete, Eng.completeSelectEp, Eng.endCommand, Eng.primed, Eng.quiet, h3]

/-- `command(CLEAR_BUFFER)` (R172, R191). -/
theorem command_clearBuffer {s : State} (hc : s.calm) :
    command Config.chip Config.chip.codeClearBuffer s =
      .ok () { s with eng := { (s.eng.quiet Config.chip).clearBuffer with cur := some Config.chip.codeClearBuffer } } := by
  have hd : decodeCmdw Config.chip (cmdWord Config.chip Config.chip.codeClearBuffer) = .clearBuffer := by decide +kernel
  rw [command_calm hc, hd]
  obtain ⟨_, _, h3⟩ := hc
  simp [Eng.complete, Eng.completeClearBuffer, Eng.clearBuffer, Eng.endCommand, Eng.primed, Eng.quiet, Eng.setEp, Eng.epAt, h3]

/-- `command(VALIDATE_BUFFER)` (R172, R192). -/
theorem command_validateBuffer {s : State} (hc : s.calm) :
    command Config.chip Config.chip.codeValidateBuffer s =
      .ok () { s with eng := { (s.eng.quiet Config.chip).validateBuffer Config.chip with cur := some Config.chip.codeValidateBuffer } } := by
  have hd : decodeCmdw Config.chip (cmdWord Config.chip Config.chip.codeValidateBuffer) = .validateBuffer := by decide +kernel
  rw [command_calm hc, hd]
  obtain ⟨_, _, h3⟩ := hc
  simp only [Eng.complete, Eng.completeValidateBuffer, Eng.validateBuffer]
  have hm : (s.eng.primed (cmdWord Config.chip Config.chip.codeValidateBuffer)).mayValidate Config.chip = (s.eng.quiet Config.chip).mayValidate Config.chip := rfl
  rw [hm]
  split <;>
    simp [Eng.endCommand, Eng.primed, Eng.quiet, Eng.setEp, Eng.epAt, Eng.tick, h3]

/-! ## Commands with data -/

theorem clear_cc_rlzd (x : RegWord) :
    setBit (setBit (x &&& ~~~(phaseFlags Config.chip)) Config.chip.bitEPRLZD) Config.chip.bitCCEMPTY &&& ~~~(bit Config.chip.bitCCEMPTY) =
      setBit x Config.chip.bitEPRLZD &&& ~~~(phaseFlags Config.chip) := by
  have h1 : setBit (x &&& ~~~(phaseFlags Config.chip)) Config.chip.bitEPRLZD = setBit x Config.chip.bitEPRLZD &&& ~~~(phaseFlags Config.chip) := by
    apply BitVec.eq_of_getLsbD_eq
    intro j hj
    have hd : (decide (Config.chip.bitEPRLZD = j) && (phaseFlags Config.chip).getLsbD j) = false := by
      revert j; decide
    simp only [BitVec.getLsbD_and, setBit_getLsbD, BitVec.getLsbD_not, hj, decide_true, Bool.true_and]
    revert hd
    cases x.getLsbD j <;> cases (phaseFlags Config.chip).getLsbD j <;> cases decide (Config.chip.bitEPRLZD = j) <;> simp
  rw [h1, clear_cc]

/-- The end of a `commandWrite`: the effect of the code, both flags clear, CUR consumed. -/
theorem writeData_done (c : Byte) (d : Half) (e : Eng) (hp : e.pend = none) (w : Word) (k : Option Byte) :
    ((({ e with devintst := e.devintst &&& ~~~(phaseFlags Config.chip), cur := k, pend := some w, cmddataValid := false } : Eng).writeData
      Config.chip c d).endWrite Config.chip).writeDevintclr Config.chip (bit Config.chip.bitCCEMPTY) = (e.writeData Config.chip c d).quiet Config.chip := by
  rw [writeDevintclr_cc]
  simp only [Eng.writeData]
  repeat' split
  · simp [Eng.setStalled, Eng.setEp, Eng.epAt, Eng.endWrite, Eng.quiet, clear_cc, hp]
  · simp only [Eng.setMps]
    split
    · simp [Eng.setEp, Eng.epAt, Eng.endWrite, Eng.quiet, clear_cc_rlzd, hp]
    · simp [Eng.setEp, Eng.epAt, Eng.endWrite, Eng.quiet, clear_cc, hp]
  · simp [Eng.endWrite, Eng.quiet, clear_cc, hp]
  · simp [Eng.endWrite, Eng.quiet, clear_cc, hp]
  · simp [Eng.endWrite, Eng.quiet, clear_cc, hp]

/-- The two phases of `commandWrite` for a code whose command phase has no effect of its own (R181, R182). -/
theorem commandWrite_calm {c : Byte} {d : Half} {s : State} (hc : s.calm)
    (hd : ∀ e : Eng, e.complete Config.chip (decodeCmdw Config.chip (cmdWord Config.chip c)) = e.endCommand Config.chip c) :
    commandWrite Config.chip c d s = .ok () { s with eng := (s.eng.writeData Config.chip c d).quiet Config.chip } := by
  obtain ⟨h1, h2, h3⟩ := hc
  unfold commandWrite
  rw [run_bind_ok (clearFlags_calm ⟨h1, h2, h3⟩), writeDevintclr_phaseFlags]
  rw [run_bind_ok (phase_calm (s := { s with eng := { s.eng with devintst := s.eng.devintst &&& ~~~(phaseFlags Config.chip) } })
    ⟨h1, h2, h3⟩ (phaseFlags_clear _).1 (by rw [(complete_cmdWord c _).2]; simp [Config.chip_bitCCEMPTY]))]
  rw [writeDevintclr_cc, hd]
  simp only [Eng.endCommand, Eng.accept, clear_cc]
  rw [phase_calm]
  · rw [decodeCmdw_wrWord]
    simp only [Eng.complete, Eng.completeWrdata, Eng.accept]
    rw [writeData_done c d s.eng h3]
  · exact ⟨h1, h2, rfl⟩
  · exact (phaseFlags_clear _).1
  · rw [decodeCmdw_wrWord]
    simp [Eng.complete, Eng.completeWrdata, Eng.accept, Eng.endWrite, Config.chip_bitCCEMPTY]

theorem commandWrite_status {i : Idx} {d : Half} {s : State} (hc : s.calm) :
    commandWrite Config.chip (codeWithIdx Config.chip.codeSetEpStatus i) d s =
      .ok () { s with eng := (s.eng.setStalled i (d.getLsbD 0)).quiet Config.chip } := by
  rw [commandWrite_calm hc (by intro e; rw [decodeCmdw_cmdWord, codeWithIdx_status]; rfl)]
  simp [Eng.writeData]

theorem commandWrite_maxpkt {i : Idx} {d : Half} {s : State} (hc : s.calm) :
    commandWrite Config.chip (codeWithIdx Config.chip.codeSetMaxpkt i) d s =
      .ok () { s with eng := (s.eng.setMps Config.chip i (d.extractLsb' 0 10)).quiet Config.chip } := by
  rw [commandWrite_calm hc (by intro e; rw [decodeCmdw_cmdWord, codeWithIdx_maxpkt]; rfl)]
  simp [Eng.writeData]

theorem commandWrite_address {d : Half} {s : State} (hc : s.calm) :
    commandWrite Config.chip Config.chip.codeSetAddress d s =
      .ok () { s with eng := { s.eng.quiet Config.chip with devaddr := d.extractLsb' 0 8 } } := by
  have hd : decodeCmdw Config.chip (cmdWord Config.chip Config.chip.codeSetAddress) = .setAddress := by decide +kernel
  rw [commandWrite_calm hc (by intro e; rw [hd]; rfl)]
  rfl

theorem commandWrite_configure {d : Half} {s : State} (hc : s.calm) :
    commandWrite Config.chip Config.chip.codeConfigureDevice d s =
      .ok () { s with eng := { s.eng.quiet Config.chip with conf := d.getLsbD 0 } } := by
  have hd : decodeCmdw Config.chip (cmdWord Config.chip Config.chip.codeConfigureDevice) = .configureDevice := by decide +kernel
  rw [commandWrite_calm hc (by intro e; rw [hd]; rfl)]
  rfl

/-! ## Commands with a result -/

/-- The read-data phase and the read of CMDDATA, from where the command phase ended with `e` (R174, R183). -/
theorem readPhase_calm {c : Byte} {v : Half} {s : State} {e : Eng} (hc : s.calm)
    (hf : s.eng.devintst.getLsbD Config.chip.bitCDFULL = false)
    (hr : (s.eng.accept (rdWord Config.chip c)).complete Config.chip (decodeCmdw Config.chip (rdWord Config.chip c)) = Eng.endRead Config.chip v e) :
    (do phase Config.chip (rdWord Config.chip c) Config.chip.bitCDFULL
        let x ← regRead Config.chip .CMDDATA
        pure (x.extractLsb' 0 16)) s =
      .ok v { s with eng := (Eng.endRead Config.chip v e).writeDevintclr Config.chip (bit Config.chip.bitCDFULL) } := by
  rw [run_bind_ok (phase_calm hc hf (by rw [hr]; simp [Eng.endRead, Config.chip_bitCDFULL]))]
  rw [run_bind_ok (regRead_calm .CMDDATA (by exact hc.1)), hr]
  have hv : (v.setWidth 64).extractLsb' 0 16 = v := by
    apply BitVec.eq_of_toNat_eq
    have := v.isLt
    simp [BitVec.extractLsb'_toNat, BitVec.toNat_setWidth]; omega
  simp [Eng.readReg, Eng.endRead, Eng.writeDevintclr, hv]

/-- ENG between the two phases of a `commandRead` whose command phase left `e`. -/
def Eng.midRead (c : Byte) (e : Eng) : Eng :=
  { e with devintst := e.devintst &&& ~~~(phaseFlags Config.chip), cmddataValid := false, cur := some c, pend := none }

/-- `commandRead` from its two phases: the command phase leaves `f e` with CUR = c, the read-data phase answers `v` and leaves
`g`, both raise their flag (R174). -/
theorem commandRead_calm {c : Byte} {v : Half} {s : State} {g : Eng} {f : Eng → Eng} (hc : s.calm)
    (h1 : ∀ e : Eng, e.complete Config.chip (decodeCmdw Config.chip (cmdWord Config.chip c)) = (f e).endCommand Config.chip c)
    (hf : ∀ (e : Eng) (x : RegWord) (k : Bool) (q : Option Word),
      f { e with devintst := x, cmddataValid := k, pend := q } = { f e with devintst := x, cmddataValid := k, pend := q })
    (h2 : (((f s.eng).midRead c).accept (rdWord Config.chip c)).complete Config.chip (decodeCmdw Config.chip (rdWord Config.chip c)) = Eng.endRead Config.chip v g)
    (hg : g.devintst = s.eng.devintst &&& ~~~(phaseFlags Config.chip)) :
    commandRead Config.chip c s = .ok v { s with eng :=
      { g with cmddata := v, cmddataValid := true, cur := none, pend := none } } := by
  have hfd : (f s.eng).devintst = s.eng.devintst := by
    have h := congrArg Eng.devintst (hf s.eng s.eng.devintst s.eng.cmddataValid s.eng.pend)
    exact h
  unfold commandRead
  rw [run_bind_ok (clearFlags_calm hc), writeDevintclr_phaseFlags]
  rw [run_bind_ok (phase_calm (s := { s with eng := { s.eng with devintst := s.eng.devintst &&& ~~~(phaseFlags Config.chip) } })
    hc (phaseFlags_clear _).1 (by rw [(complete_cmdWord _ _).2]; simp [Config.chip_bitCCEMPTY]))]
  have e1 : ((({ s.eng with devintst := s.eng.devintst &&& ~~~(phaseFlags Config.chip) } : Eng).accept (cmdWord Config.chip c)).complete Config.chip
      (decodeCmdw Config.chip (cmdWord Config.chip c))).writeDevintclr Config.chip (bit Config.chip.bitCCEMPTY) = (f s.eng).midRead c := by
    rw [h1, writeDevintclr_cc]
    have e2 := hf s.eng (s.eng.devintst &&& ~~~(phaseFlags Config.chip)) false (some (cmdWord Config.chip c))
    simp only [Eng.accept] at e2 ⊢
    rw [e2]
    simp only [Eng.endCommand, Eng.midRead, clear_cc, hfd]
  simp only [e1]
  rw [readPhase_calm (s := { s with eng := (f s.eng).midRead c }) ⟨hc.1, hc.2.1, rfl⟩ (phaseFlags_clear _).2 h2]
  rw [writeDevintclr_cd]
  simp only [Eng.endRead, hg, clear_cd]

/-- `commandRead(SELECT_EP + i)` (R174, R188, R189): the raw status. -/
theorem commandRead_select {i : Idx} {s : State} (hc : s.calm) :
    commandRead Config.chip (codeWithIdx Config.chip.codeSelectEp i) s =
      .ok (((s.eng.epAt i).raw Config.chip).setWidth 16)
        { s with eng := { (s.eng.answered Config.chip (((s.eng.epAt i).raw Config.chip).setWidth 16)) with sel := i } } := by
  have hd : decodeCmdw Config.chip (rdWord Config.chip (codeWithIdx Config.chip.codeSelectEp i)) = .selectEpRd i := by revert i; decide +kernel
  have h := commandRead_calm (c := codeWithIdx Config.chip.codeSelectEp i) (v := ((s.eng.epAt i).raw Config.chip).setWidth 16)
    (f := fun e => { e with sel := i })
    (g := (({ s.eng with sel := i } : Eng).midRead (codeWithIdx Config.chip.codeSelectEp i)).accept
      (rdWord Config.chip (codeWithIdx Config.chip.codeSelectEp i))) hc
    (by intro e; rw [decodeCmdw_cmdWord, codeWithIdx_select]; rfl)
    (by intro e x k q; rfl)
    (by rw [hd]; simp only [Eng.complete, Eng.completeSelectEpRd, Eng.accept, Eng.midRead, if_true]; rfl)
    rfl
  rw [h]
  simp [Eng.accept, Eng.midRead, Eng.answered, Eng.quiet, hc.2.2]

/-- `commandRead(GET_DEV_STATUS)` (R174, R187). -/
theorem commandRead_devStatus {s : State} (hc : s.calm) :
    commandRead Config.chip Config.chip.codeGetDevStatus s =
      .ok s.eng.devStatusValue { s with eng := (s.eng.afterDevStatus Config.chip).answered Config.chip s.eng.devStatusValue } := by
  have hd0 : decodeCmdw Config.chip (cmdWord Config.chip Config.chip.codeGetDevStatus) = .getDevStatus := by decide +kernel
  have hd : decodeCmdw Config.chip (rdWord Config.chip Config.chip.codeGetDevStatus) = .getDevStatusRd := by decide +kernel
  have h8 : (s.eng.devintst &&& ~~~(phaseFlags Config.chip)).getLsbD Config.chip.bitDEVSTAT = s.eng.devintst.getLsbD Config.chip.bitDEVSTAT := by
    have : (phaseFlags Config.chip).getLsbD Config.chip.bitDEVSTAT = false := by decide
    rw [BitVec.getLsbD_and, BitVec.getLsbD_not, this]; simp [Config.chip_bitDEVSTAT]
  have h := commandRead_calm (c := Config.chip.codeGetDevStatus) (v := s.eng.devStatusValue) (f := id)
    (g := ((s.eng.midRead Config.chip.codeGetDevStatus).accept (rdWord Config.chip Config.chip.codeGetDevStatus)).afterDevStatus Config.chip) hc
    (by intro e; rw [hd0]; rfl)
    (by intro e x k q; rfl)
    (by rw [hd]
        simp only [id, Eng.complete, Eng.completeGetDevStatusRd, Eng.accept, Eng.midRead, if_true]
        rfl)
    rfl
  rw [h]
  simp only [Eng.accept, Eng.midRead, Eng.answered, Eng.quiet, Eng.afterDevStatus, h8]
  simp [hc.2.2]
  rfl

end Sys2Proof.Machine
end

