-- ==== Sys2Proof/Laws/Memory.lean ====
section
/-! SUPPORT. STAGE as memory: every operation keeps the canonical form, a read after a write gives what was written, other
offsets are left alone, and a list is read and written byte by byte. -/

-- one declaration at a time: kernel evaluations that wait for each other would hold a thread each
set_option Elab.async false

namespace Sys2Proof.Machine

theorem Memory.wf_cons {c : Host.Cell} {m : Memory} :
    Memory.wf (c :: m) = true ↔ (∀ d ∈ m.head?, c.1 < d.1) ∧ Memory.wf m = true := by
  cases m <;> simp [Memory.wf]

theorem Memory.head_write (m : Memory) (a : Nat) (b : Byte) :
    ∀ d ∈ (Memory.write m a b).head?, d.1 = a ∨ ∃ c ∈ m.head?, d.1 = c.1 ∧ c.1 < a := by
  cases m with
  | nil => simp [Memory.write]
  | cons c m =>
    obtain ⟨k, v⟩ := c
    simp only [Memory.write]
    split
    · simp
    · split
      · simp
      · rename_i h1 h2
        simp; omega

/-- A write keeps the canonical form. -/
theorem Memory.wf_write (m : Memory) (a : Nat) (b : Byte) (h : Memory.wf m = true) :
    Memory.wf (Memory.write m a b) = true := by
  induction m with
  | nil => rfl
  | cons c m ih =>
    obtain ⟨k, v⟩ := c
    have hm := Memory.wf_cons.mp h
    simp only [Memory.write]
    split
    · rename_i hk
      exact Memory.wf_cons.mpr ⟨by simpa using hk, h⟩
    · split
      · rename_i h1 h2
        subst h2
        exact Memory.wf_cons.mpr ⟨hm.1, hm.2⟩
      · rename_i h1 h2
        refine Memory.wf_cons.mpr ⟨?_, ih hm.2⟩
        intro d hd
        rcases Memory.head_write m a b d hd with h3 | ⟨c, hc, h3, h4⟩
        · simp only; omega
        · have := hm.1 c hc; simp only at this ⊢; omega

theorem Memory.wf_writeList (m : Memory) (a : Nat) (bs : List Byte) (h : Memory.wf m = true) :
    Memory.wf (Memory.writeList m a bs) = true := by
  induction bs generalizing m a with
  | nil => exact h
  | cons b bs ih => exact ih _ _ (Memory.wf_write m a b h)

theorem Memory.wf_writeCells (cap : Nat) (m : Memory) (cs : List (Nat × Byte)) (h : Memory.wf m = true) :
    Memory.wf (Memory.writeCells cap m cs) = true := by
  induction cs generalizing m with
  | nil => exact h
  | cons c cs ih =>
    obtain ⟨a, b⟩ := c
    simp only [Memory.writeCells]
    split
    · exact ih _ (Memory.wf_write m a b h)
    · exact ih _ h

theorem Memory.below_write (cap : Nat) (m : Memory) (a : Nat) (b : Byte) (h : Memory.below cap m) (ha : a < cap) :
    Memory.below cap (Memory.write m a b) := by
  induction m with
  | nil => simpa [Memory.write, Memory.below] using ha
  | cons c m ih =>
    obtain ⟨k, v⟩ := c
    have hk : k < cap := h (k, v) (by simp)
    have hm : Memory.below cap m := fun d hd => h d (by simp [hd])
    simp only [Memory.write]
    split
    · intro d hd; simp at hd; rcases hd with rfl | rfl | hd
      · exact ha
      · exact hk
      · exact hm d hd
    · split
      · intro d hd; simp at hd; rcases hd with rfl | hd
        · exact ha
        · exact hm d hd
      · intro d hd; simp at hd; rcases hd with rfl | hd
        · exact hk
        · exact ih hm d hd

theorem Memory.below_writeList (cap : Nat) (m : Memory) (a : Nat) (bs : List Byte) (h : Memory.below cap m)
    (ha : a + bs.length ≤ cap) : Memory.below cap (Memory.writeList m a bs) := by
  induction bs generalizing m a with
  | nil => exact h
  | cons b bs ih =>
    simp only [List.length_cons] at ha
    exact ih _ _ (Memory.below_write cap m a b h (by omega)) (by omega)

theorem Memory.below_writeCells (cap : Nat) (m : Memory) (cs : List (Nat × Byte)) (h : Memory.below cap m) :
    Memory.below cap (Memory.writeCells cap m cs) := by
  induction cs generalizing m with
  | nil => exact h
  | cons c cs ih =>
    obtain ⟨a, b⟩ := c
    simp only [Memory.writeCells]
    split
    · rename_i ha; exact ih _ (Memory.below_write cap m a b h ha)
    · exact ih _ h

theorem Memory.read_of_lt_head (m : Memory) (a : Nat) (h : Memory.wf m = true) (ha : ∀ d ∈ m.head?, a < d.1) :
    Memory.read m a = none := by
  induction m with
  | nil => rfl
  | cons c m ih =>
    obtain ⟨k, v⟩ := c
    have hk : a < k := by simpa using ha
    have hm := Memory.wf_cons.mp h
    simp only [Memory.read]
    rw [if_neg (by omega)]
    exact ih hm.2 (fun d hd => by have := hm.1 d hd; simp only at this; omega)

/-- Read after write. -/
theorem Memory.read_write (m : Memory) (a x : Nat) (b : Byte) (h : Memory.wf m = true) :
    Memory.read (Memory.write m a b) x = if x = a then some b else Memory.read m x := by
  induction m with
  | nil => simp [Memory.write, Memory.read, eq_comm]
  | cons c m ih =>
    obtain ⟨k, v⟩ := c
    have hm := Memory.wf_cons.mp h
    simp only [Memory.write]
    split
    · rename_i hk
      simp only [Memory.read]
      by_cases hx : x = a
      · subst hx; simp
      · simp [hx, Ne.symm hx]
    · split
      · rename_i h1 h2
        subst h2
        simp only [Memory.read]
        by_cases hx : x = a
        · subst hx; simp
        · simp [hx, Ne.symm hx]
      · rename_i h1 h2
        simp only [Memory.read, ih hm.2]
        by_cases hx : x = a
        · subst hx
          rw [if_neg (by omega)]; simp
        · simp [hx]

theorem Memory.read_writeList (m : Memory) (a x : Nat) (bs : List Byte) (h : Memory.wf m = true) :
    Memory.read (Memory.writeList m a bs) x =
      if a ≤ x ∧ x < a + bs.length then bs[x - a]? else Memory.read m x := by
  induction bs generalizing m a with
  | nil =>
    simp [Memory.writeList]
  | cons b bs ih =>
    simp only [Memory.writeList, List.length_cons]
    rw [ih _ _ (Memory.wf_write m a b h), Memory.read_write _ _ _ _ h]
    by_cases h1 : a + 1 ≤ x ∧ x < a + 1 + bs.length
    · rw [if_pos h1, if_pos (by omega)]
      obtain ⟨k, rfl⟩ : ∃ k, x = a + 1 + k := ⟨x - (a + 1), by omega⟩
      have e1 : a + 1 + k - (a + 1) = k := by omega
      have e2 : a + 1 + k - a = k + 1 := by omega
      rw [e1, e2]; simp
    · rw [if_neg h1]
      by_cases hx : x = a
      · subst hx; simp
      · rw [if_neg hx, if_neg (by omega)]

/-- A list read has the length asked for. -/
theorem Memory.readList_length (m : Memory) (a n fresh : Nat) : (Memory.readList m a n fresh).1.length = n := by
  induction n generalizing a fresh with
  | zero => rfl
  | succ n ih =>
    simp only [Memory.readList]
    split <;> simp [ih]

end Sys2Proof.Machine
end

