-- ==== Sys2Proof/Laws/Endpoint.lean ====
section
/-! SUPPORT. The data port and the Endpoint Manager run undisturbed: a packet drained through RXDATA, a packet filled through
TXDATA, and what EpRead, EpWrite and configureEndpoint leave of ENG. -/

-- one declaration at a time: kernel evaluations that wait for each other would hold a thread each
set_option Elab.async false

namespace Sys2Proof.Machine

/-! ## Opening a port (R217, R221) -/

theorem portOpen_read (a : Byte) : rdEn Config.chip (portOpen Config.chip Config.chip.bitRDEN a) = true ∧ wrEn Config.chip (portOpen Config.chip Config.chip.bitRDEN a) = false ∧
    logEp Config.chip (portOpen Config.chip Config.chip.bitRDEN a) = portNumber a := by
  revert a; decide +kernel

theorem portOpen_write (a : Byte) : rdEn Config.chip (portOpen Config.chip Config.chip.bitWREN a) = false ∧ wrEn Config.chip (portOpen Config.chip Config.chip.bitWREN a) = true ∧
    logEp Config.chip (portOpen Config.chip Config.chip.bitWREN a) = portNumber a := by
  revert a; decide +kernel

theorem rdEn_portOpen_masked (a : Byte) : rdEn Config.chip (portOpen Config.chip Config.chip.bitRDEN a &&& (dpctlMask Config.chip)) = true := by revert a; decide +kernel
theorem wrEn_portOpen_masked (a : Byte) : wrEn Config.chip (portOpen Config.chip Config.chip.bitWREN a &&& (dpctlMask Config.chip)) = true := by revert a; decide +kernel

theorem epIdx_out {a : Byte} (h : a.getLsbD 7 = false) : epIdx a = outIdx (portNumber a) := by
  revert a; decide +kernel

theorem epIdx_in {a : Byte} (h : a.getLsbD 7 = true) : epIdx a = inIdx (portNumber a) := by
  revert a; decide +kernel

theorem epIdx_bit0 {a : Byte} (h : a.getLsbD 7 = true) : (epIdx a).getLsbD 0 = true := by revert a; decide +kernel

/-! ## Draining a packet (R51, R217) -/

/-- Bytes read from offset `p` on, `w` words of them, 0 past the packet's end. -/
def drained (pkt : List Byte) (p : Nat) : Nat → List Byte
  | 0 => []
  | w + 1 => wordBytes (portWord pkt p) ++ drained pkt (p + 4) w

theorem drained_get (pkt : List Byte) (p w k : Nat) (h : k < 4 * w) : (drained pkt p w)[k]? = some (byteOr0 pkt (p + k)) := by
  induction w generalizing p k with
  | zero => omega
  | succ w ih =>
    simp only [drained, wordBytes_portWord]
    match k, h with
    | 0, _ => rfl
    | 1, _ => rfl
    | 2, _ => rfl
    | 3, _ => rfl
    | k + 4, h =>
      have := ih (p + 4) k (by omega)
      simpa [Nat.add_comm, Nat.add_left_comm, Nat.add_assoc] using this

theorem drained_length (pkt : List Byte) (p w : Nat) : (drained pkt p w).length = 4 * w := by
  induction w generalizing p with
  | zero => rfl
  | succ w ih => simp [drained, wordBytes, ih]; omega

/-- The whole packet comes out, then zeros. -/
theorem drained_take (pkt : List Byte) : (drained pkt 0 (portWords pkt.length)).take pkt.length = pkt := by
  apply List.ext_getElem?
  intro k
  by_cases hk : k < pkt.length
  · rw [List.getElem?_take_of_lt hk, drained_get _ _ _ _ (by unfold portWords; omega)]
    simp [byteOr0, hk]
  · rw [List.getElem?_eq_none (by rw [List.length_take, drained_length]; omega), List.getElem?_eq_none (by omega)]

/-- ENG after `w` words were read from offset `p` of the packet at RXIDX. -/
def Eng.drainedPort (w : Nat) (e : Eng) : Eng :=
  { e with
    rxpos := e.rxpos + 4 * w
    dpctl := if w ≠ 0 ∧ (e.epAt e.rxidx).buf.packet.length ≤ e.rxpos + 4 * w then e.dpctl &&& ~~~(bit Config.chip.bitRDEN) else e.dpctl }

theorem drainPort_calm (w : Nat) {s : State} (hs : s.slots = []) (hr : rdEn Config.chip s.eng.dpctl = true)
    (hw : w = 0 ∨ s.eng.rxpos + 4 * (w - 1) < (s.eng.epAt s.eng.rxidx).buf.packet.length) :
    drainPort Config.chip w s = .ok (drained (s.eng.epAt s.eng.rxidx).buf.packet s.eng.rxpos w) { s with eng := s.eng.drainedPort w } := by
  induction w generalizing s with
  | zero => simp [drainPort, drained, Eng.drainedPort]
  | succ w ih =>
    have hw' : s.eng.rxpos + 4 * w < (s.eng.epAt s.eng.rxidx).buf.packet.length := by
      rcases hw with h | h
      · omega
      · simpa using h
    unfold drainPort
    rw [run_bind_ok (regRead_calm .RXDATA hs)]
    simp only [Eng.readReg, hr, if_true, Eng.readRxdata]
    by_cases h0 : w = 0
    · subst h0
      simp [drainPort, drained, Eng.drainedPort]
    · have hle : ¬ (s.eng.epAt s.eng.rxidx).buf.packet.length ≤ s.eng.rxpos + 4 := by omega
      rw [run_bind_ok (ih (s := { s with eng := { s.eng with
          rxpos := s.eng.rxpos + 4
          dpctl := if (s.eng.epAt s.eng.rxidx).buf.packet.length ≤ s.eng.rxpos + 4 then s.eng.dpctl &&& ~~~(bit Config.chip.bitRDEN)
            else s.eng.dpctl } }) hs (by simpa [hle] using hr)
          (Or.inr (by show s.eng.rxpos + 4 + 4 * (w - 1) < (s.eng.epAt s.eng.rxidx).buf.packet.length; omega)))]
      simp only [Eng.epAt] at hle
      simp only [run_pure, Eng.drainedPort, hle, if_false, ne_eq, h0, not_false_eq_true, true_and, Eng.epAt,
        Nat.add_one_ne_zero, word_of_reg]
      have e1 : s.eng.rxpos + 4 + 4 * w = s.eng.rxpos + 4 * (w + 1) := by omega
      rw [e1]
      rfl

/-! ## EpRead (R216, R217) -/

/-- RXPLEN from its two fields. -/
def rxplenWord (full : Bool) (len : BitVec 10) : RegWord :=
  bit Config.chip.bitPKTRDY ||| flagAt Config.chip.bitDV full ||| len.setWidth 64

theorem rxplen_bit10 (b : Buf) : (rxplen Config.chip b).getLsbD Config.chip.bitDV = b.isFull := by
  have h : ∀ (x : Bool) (y : BitVec 10), (rxplenWord x y).getLsbD Config.chip.bitDV = x := by decide +kernel
  exact h _ _

theorem rxplen_len (b : Buf) : (rxplen Config.chip b).extractLsb' 0 Config.lenW = BitVec.ofNat 10 b.packet.length := by
  have h : ∀ (x : Bool) (y : BitVec 10), (rxplenWord x y).extractLsb' 0 10 = y := by decide +kernel
  exact h _ _

theorem packet_of_not_full {b : Buf} (h : b.isFull = false) : b.packet = [] := by cases b <;> simp_all [Buf.isFull, Buf.packet]

/-- The length `EpRead` takes from RXPLEN. -/
theorem rxplen_plen {b : Buf} (h : b.packet.length ≤ 1023) :
    (if (rxplen Config.chip b).getLsbD Config.chip.bitDV then ((rxplen Config.chip b).extractLsb' 0 Config.lenW).toNat else 0) = b.packet.length := by
  rw [rxplen_bit10, rxplen_len]
  split
  · simp; omega
  · rename_i hf
    rw [packet_of_not_full (by simpa using hf)]; rfl

/-- Flags cleared twice. -/
theorem and_not_idem (x m : RegWord) : x &&& ~~~m &&& ~~~m = x &&& ~~~m := by
  rw [BitVec.and_assoc, BitVec.and_self]

/-- Opening the read port of an OUT address. -/
theorem writeReg_openRead {a : Byte} (ha : a.getLsbD 7 = false) (e : Eng) :
    e.writeReg Config.chip .DPCTL (portOpen Config.chip Config.chip.bitRDEN a) = .ok { e with
      dpctl := portOpen Config.chip Config.chip.bitRDEN a &&& (dpctlMask Config.chip), rxidx := epIdx a, rxpos := 0, rxOpened := true } := by
  obtain ⟨o1, o2, o3⟩ := portOpen_read a
  simp [Eng.writeReg, Eng.writeDpctl, o1, o2, o3, epIdx_out ha]

/-- Closing the ports. -/
theorem writeReg_close (e : Eng) : e.writeReg Config.chip .DPCTL 0#64 = .ok { e with dpctl := 0#64 } := by
  have h1 : rdEn Config.chip 0#64 = false := by decide
  have h2 : wrEn Config.chip 0#64 = false := by decide
  simp [Eng.writeReg, Eng.writeDpctl, h1, h2]

/-- `EpRead` on an OUT address: the packet, and the buffer released. -/
theorem epRead_calm {a : Byte} {maxlen : Nat} {s : State} (hc : s.calm) (ha : a.getLsbD 7 = false)
    (hp : (s.eng.epAt (epIdx a)).buf.packet.length ≤ 1023) :
    epRead Config.chip a maxlen s = .ok ((s.eng.epAt (epIdx a)).buf.packet.take maxlen) { s with eng := s.eng.released Config.chip (epIdx a) } := by
  obtain ⟨h1, h2, h3⟩ := hc
  unfold epRead
  rw [run_bind_ok (regWrite_calm h1 (writeReg_openRead ha _))]
  simp only [lockPort]
  rw [run_modify_bind, run_bind_ok (regRead_calm .RXPLEN (by exact h1))]
  have hrx : ∀ e : Eng, rdEn Config.chip e.dpctl = true → e.readReg Config.chip .RXPLEN = (rxplen Config.chip (e.epAt e.rxidx).buf, e) := by
    intro e he; simp [Eng.readReg, he]
  rw [hrx _ (rdEn_portOpen_masked a)]
  rw [rxplen_plen (b := (Eng.epAt _ _).buf) (by exact hp)]
  have hport : portWords (s.eng.epAt (epIdx a)).buf.packet.length = 0 ∨
      0 + 4 * (portWords (s.eng.epAt (epIdx a)).buf.packet.length - 1) < (s.eng.epAt (epIdx a)).buf.packet.length := by
    unfold portWords; omega
  rw [run_bind_ok (drainPort_calm _ (by exact h1) (by exact rdEn_portOpen_masked a) (by exact hport))]
  rw [run_bind_ok (regWrite_calm (by exact h1) (writeReg_close _))]
  rw [run_bind_ok (command_selectEp (by exact ⟨h1, h2, h3⟩))]
  rw [run_bind_ok (command_clearBuffer (by exact ⟨h1, h2, h3⟩))]
  simp only [unlockPort, run_modify_bind, run_pure]
  have e0 : ((drained (s.eng.epAt (epIdx a)).buf.packet 0 (portWords (s.eng.epAt (epIdx a)).buf.packet.length)).take
      (s.eng.epAt (epIdx a)).buf.packet.length).take maxlen = (s.eng.epAt (epIdx a)).buf.packet.take maxlen := by
    rw [drained_take]
  refine congrArg₂ EStateM.Result.ok e0 ?_
  simp only [Eng.released, Eng.drainedPort, Eng.quiet, Eng.clearBuffer, Eng.setEp, Eng.epAt, Nat.zero_add, and_not_idem]

/-! ## Filling a packet (R52, R221) -/

theorem drained_snoc (pkt : List Byte) (p w : Nat) :
    drained pkt p (w + 1) = drained pkt p w ++ wordBytes (portWord pkt (p + 4 * w)) := by
  induction w generalizing p with
  | zero => simp [drained]
  | succ w ih =>
    have e : p + 4 + 4 * w = p + 4 * (w + 1) := by omega
    rw [drained, ih (p + 4), drained, List.append_assoc, e]

/-- The accumulator after EpWrite's words is the packet padded with zeros to whole words, cut to what TXPLEN keeps. -/
theorem drained_padded (bs : List Byte) : drained bs 0 (portWords (bs.length % 2 ^ Config.lenW)) = padded bs := by
  apply List.ext_getElem?
  intro k
  have hp : 4 * portWords (bs.length % 2 ^ Config.lenW) ≤ bs.length + 3 := by
    have := Nat.mod_le bs.length (2 ^ Config.lenW); unfold portWords; omega
  by_cases hk : k < 4 * portWords (bs.length % 2 ^ Config.lenW)
  · rw [drained_get _ _ _ _ hk, padded, List.getElem?_take_of_lt hk]
    by_cases h : k < bs.length
    · rw [List.getElem?_append_left h]
      simp [byteOr0, h]
    · rw [List.getElem?_append_right (by omega), List.getElem?_replicate_of_lt (by omega)]
      simp [byteOr0, h]
  · rw [List.getElem?_eq_none (by rw [drained_length]; omega),
      List.getElem?_eq_none (by rw [padded, List.length_take]; omega)]

theorem wrEn_close (d : RegWord) : wrEn Config.chip (d &&& ~~~(bit Config.chip.bitWREN)) = false := by
  simp [wrEn, bit_getLsbD]

theorem fillPort_calm (bs : List Byte) (n fuel w : Nat) {s : State} (hs : s.slots = [])
    (hl : s.eng.txlen.toNat = n) (ha : s.eng.txacc = drained bs 0 w) (hw : w ≤ portWords n)
    (hd : wrEn Config.chip s.eng.dpctl = decide (4 * w < n)) (hf : portWords n < w + fuel) :
    fillPort Config.chip bs fuel w s = .ok () { s with eng := { s.eng with
      txacc := drained bs 0 (portWords n)
      dpctl := if w < portWords n then s.eng.dpctl &&& ~~~(bit Config.chip.bitWREN) else s.eng.dpctl } } := by
  induction fuel generalizing w s with
  | zero => omega
  | succ fuel ih =>
    unfold fillPort
    rw [run_bind_ok (regRead_calm .DPCTL hs)]
    simp only [Eng.readReg, hd, decide_eq_true_eq]
    by_cases hlt : 4 * w < n
    · have hpw : w < portWords n := by unfold portWords; omega
      have hacc : (s.eng.txacc ++ wordBytes (portWord bs (4 * w))) = drained bs 0 (w + 1) := by
        rw [ha, drained_snoc, Nat.zero_add]
      have hwr : s.eng.writeReg Config.chip .TXDATA ((portWord bs (4 * w)).setWidth Config.regMax) = .ok { s.eng with
          txacc := drained bs 0 (w + 1)
          dpctl := if n ≤ 4 * (w + 1) then s.eng.dpctl &&& ~~~(bit Config.chip.bitWREN) else s.eng.dpctl } := by
        simp only [Eng.writeReg, hd, hlt, decide_true, if_true, Eng.writeTxdata, Eng.closeTx, hl, word_of_reg, hacc, drained_length]
      rw [if_pos hlt, run_bind_ok (regWrite_calm hs hwr)]
      rw [ih (w + 1) (s := { s with eng := { s.eng with
          txacc := drained bs 0 (w + 1)
          dpctl := if n ≤ 4 * (w + 1) then s.eng.dpctl &&& ~~~(bit Config.chip.bitWREN) else s.eng.dpctl } })
        hs hl rfl (by omega) ?_ (by omega)]
      · by_cases hend : n ≤ 4 * (w + 1)
        · have : ¬ w + 1 < portWords n := by unfold portWords; omega
          simp [hend, this, hpw]
        · have : w + 1 < portWords n := by unfold portWords; omega
          simp [hend, this, hpw]
      · simp only
        split
        · rw [wrEn_close]; simp; omega
        · rw [hd]; simp; omega
    · have hpw : w = portWords n := by unfold portWords at *; omega
      rw [if_neg hlt, run_pure, ← hpw, ← ha]
      simp

/-- Opening the write port of an IN address. -/
theorem writeReg_openWrite {a : Byte} (ha : a.getLsbD 7 = true) (e : Eng) :
    e.writeReg Config.chip .DPCTL (portOpen Config.chip Config.chip.bitWREN a) =
      .ok { e with dpctl := portOpen Config.chip Config.chip.bitWREN a &&& (dpctlMask Config.chip), txidx := epIdx a } := by
  obtain ⟨o1, o2, o3⟩ := portOpen_write a
  simp [Eng.writeReg, Eng.writeDpctl, o1, o2, o3, epIdx_in ha]

/-- ENG when EpWrite gives the packet to ENG: the data port was filled and closed, the index selected. -/
def Eng.filled (i : Idx) (bs : List Byte) (e : Eng) : Eng :=
  { e.quiet Config.chip with
    sel := i, dpctl := 0#64, txidx := i, txlen := BitVec.ofNat 10 bs.length, txacc := padded bs
    portLock := some { idx := i, long := decide (2 ^ Config.lenW ≤ bs.length) } }

/-- `EpWrite` on an IN address, up to what VALIDATE_BUFFER makes of it. -/
theorem epWrite_run {a : Byte} {bs : List Byte} {s : State} (hc : s.calm) (ha : a.getLsbD 7 = true) :
    epWrite Config.chip a bs s = .ok () { s with eng := { (s.eng.filled (epIdx a) bs).validateBuffer Config.chip with
      cur := some Config.chip.codeValidateBuffer, portLock := none } } := by
  obtain ⟨h1, h2, h3⟩ := hc
  have htl : (((BitVec.ofNat 64 bs.length).setWidth 32).extractLsb' 0 10) = BitVec.ofNat 10 bs.length := by
    apply BitVec.eq_of_toNat_eq; simp [BitVec.extractLsb'_toNat]
  have htn : (BitVec.ofNat 10 bs.length).toNat = bs.length % 2 ^ Config.lenW := by simp
  unfold epWrite
  rw [run_bind_ok (regWrite_calm h1 (writeReg_openWrite ha _))]
  simp only [lockPort]
  rw [run_modify_bind]
  have hwr : ∀ e : Eng, wrEn Config.chip e.dpctl = true → e.writeReg Config.chip .TXPLEN (BitVec.ofNat 64 bs.length) = .ok { e with
      txlen := BitVec.ofNat 10 bs.length, txacc := []
      dpctl := if bs.length % 2 ^ Config.lenW ≤ 0 then e.dpctl &&& ~~~(bit Config.chip.bitWREN) else e.dpctl } := by
    intro e he
    simp only [Eng.writeReg, he, if_true, Eng.writeTxplen, Eng.closeTx, htl, htn, List.length_nil]
  have hpw : portWords (bs.length % 2 ^ Config.lenW) < 0 + (portWords bs.length + 1) := by
    have := Nat.mod_le bs.length (2 ^ Config.lenW); unfold portWords; omega
  rw [run_bind_ok (regWrite_calm (by exact h1) (hwr _ (wrEn_portOpen_masked a)))]
  rw [run_bind_ok (fillPort_calm bs _ (portWords bs.length + 1) 0 (by exact h1) (by exact htn) rfl (Nat.zero_le _) (by
      simp only
      split
      · rw [wrEn_close]; exact (decide_eq_false (by omega)).symm
      · rw [wrEn_portOpen_masked]; exact (decide_eq_true (by omega)).symm) hpw)]
  rw [run_bind_ok (regWrite_calm (by exact h1) (writeReg_close _))]
  rw [run_bind_ok (command_selectEp (by exact ⟨h1, h2, h3⟩))]
  rw [run_bind_ok (command_validateBuffer (by exact ⟨h1, h2, h3⟩))]
  simp only [unlockPort, run_modify, drained_padded]
  simp only [Eng.quiet, and_not_idem, Eng.filled]

/-- The padded packet begins with the packet, where it is no longer than a packet can be. -/
theorem padded_take {bs : List Byte} (hl : bs.length ≤ 1023) : (padded bs).take bs.length = bs := by
  have hm : bs.length % 2 ^ Config.lenW = bs.length := Nat.mod_eq_of_lt (by simp; omega)
  have hp : bs.length ≤ 4 * portWords bs.length := by unfold portWords; omega
  rw [padded, hm, List.take_take, Nat.min_eq_left hp]
  simp

/-- `EpWrite` of a packet that fits. -/
theorem epWrite_calm {a : Byte} {bs : List Byte} {s : State} (hc : s.calm) (ha : a.getLsbD 7 = true)
    (hm : bs.length ≤ (s.eng.epAt (epIdx a)).mps.toNat) :
    epWrite Config.chip a bs s = .ok () { s with eng := s.eng.armed Config.chip (epIdx a) bs } := by
  have hl : bs.length ≤ 1023 := by have := (s.eng.epAt (epIdx a)).mps.isLt; simp at this; omega
  rw [epWrite_run hc ha]
  have htn : (BitVec.ofNat 10 bs.length).toNat = bs.length := by simp; omega
  have hi : (epIdx a).getLsbD 0 = true := epIdx_bit0 ha
  have htake := padded_take hl
  have hlen : bs.length ≤ (padded bs).length := by
    have := congrArg List.length htake
    rw [List.length_take] at this
    omega
  have ho : decide (2 ^ Config.lenW ≤ bs.length) = false := decide_eq_false (by simp; omega)
  have hw : wrEn Config.chip 0#64 = false := by decide
  have hm' : (s.eng.filled (epIdx a) bs).mayValidate Config.chip = true := by
    simp only [Eng.mayValidate, Eng.filled, Eng.quiet, htn, hi, hw, ho, Eng.epAt] at hm ⊢
    simp [hlen, hm, Eng.overLong]
  simp only [Eng.validateBuffer, hm', if_true]
  simp only [Eng.filled, Eng.quiet, Eng.armed, Eng.setEp, Eng.epAt, htn, htake]

/-- `EpWrite` of a packet that does not fit: any packet (R220, U8). -/
theorem epWrite_over {a : Byte} {bs : List Byte} {s : State} (hc : s.calm) (ha : a.getLsbD 7 = true)
    (hm : (s.eng.epAt (epIdx a)).mps.toNat < bs.length) :
    epWrite Config.chip a bs s = .ok () { s with eng :=
      { (s.eng.armed Config.chip (epIdx a) bs).setEp (epIdx a)
          { s.eng.epAt (epIdx a) with buf := .full (Config.freePacket s.eng.fresh) false } with
        fresh := s.eng.fresh + 1 } } := by
  rw [epWrite_run hc ha]
  have hm' : (s.eng.filled (epIdx a) bs).mayValidate Config.chip = false := by
    by_cases ho : 2 ^ Config.lenW ≤ bs.length
    · simp only [Eng.mayValidate, show (s.eng.filled (epIdx a) bs).overLong = true from decide_eq_true ho, Bool.not_true,
        Bool.and_false]
    · have htn : (BitVec.ofNat 10 bs.length).toNat = bs.length := by simp at ho ⊢; omega
      have hle : ¬ bs.length ≤ (s.eng.epAt (epIdx a)).mps.toNat := by omega
      have : ((s.eng.filled (epIdx a) bs).epAt (epIdx a)).mps = (s.eng.epAt (epIdx a)).mps := rfl
      simp only [Eng.mayValidate, show (s.eng.filled (epIdx a) bs).sel = epIdx a from rfl, this,
        show (s.eng.filled (epIdx a) bs).txlen = BitVec.ofNat 10 bs.length from rfl, htn, hle, decide_false,
        Bool.and_false, Bool.false_and]
  simp only [Eng.validateBuffer, hm', Bool.false_eq_true, if_false]
  simp only [Eng.filled, Eng.quiet, Eng.armed, Eng.setEp, Eng.epAt, Eng.tick, Vector.set_set]

/-! ## configureEndpoint (R203, R204) -/

/-- A read-modify-write OR of a plain register. -/
theorem regOr_calm {r : Reg} {v x : RegWord} {s : State} {e : Eng} (hs : s.slots = []) (hr : s.eng.readReg Config.chip r = (x, s.eng))
    (hw : s.eng.writeReg Config.chip r (x ||| v) = .ok e) : regOr Config.chip r v s = .ok () { s with eng := e } := by
  unfold regOr
  rw [run_bind_ok (regRead_calm r hs), hr]
  exact regWrite_calm (s := { s with eng := s.eng }) hs hw

theorem or_bit_clears_nothing {n : Nat} (x v : BitVec n) : (x &&& ~~~(x ||| v)) = 0#n := by
  apply BitVec.eq_of_getLsbD_eq
  intro j hj
  simp only [BitVec.getLsbD_and, BitVec.getLsbD_or, BitVec.getLsbD_not, hj, decide_true, Bool.true_and, BitVec.getLsbD_zero]
  cases x.getLsbD j <;> simp

/-- Setting one enable bit raises the umbrella flag exactly over a pending event not yet enabled (R41). -/
theorem newly_enabled (old pend : Word) (i : Idx) :
    (((old ||| bit i.toNat) &&& ~~~old &&& pend) != 0#32) = (!old.getLsbD i.toNat && pend.getLsbD i.toNat) := by
  have hi := i.isLt
  have hb : ∀ j, j < 32 → ((old ||| bit i.toNat) &&& ~~~old &&& pend).getLsbD j =
      (decide (i.toNat = j) && !old.getLsbD j && pend.getLsbD j) := by
    intro j hj
    simp only [BitVec.getLsbD_and, BitVec.getLsbD_or, BitVec.getLsbD_not, bit_getLsbD, hj, decide_true, Bool.true_and]
    cases old.getLsbD j <;> cases pend.getLsbD j <;> simp
  by_cases h : !old.getLsbD i.toNat && pend.getLsbD i.toNat
  · rw [h]
    rw [bne_iff_ne]
    intro h0
    have h1 := hb i.toNat (by omega)
    rw [h0] at h1
    simp only [BitVec.getLsbD_zero, decide_true, Bool.true_and] at h1
    rw [← h1] at h
    exact Bool.noConfusion h
  · rw [Bool.not_eq_true] at h
    rw [h, bne_eq_false_iff_eq]
    apply BitVec.eq_of_getLsbD_eq
    intro j hj
    rw [hb j hj, BitVec.getLsbD_zero]
    by_cases hij : i.toNat = j
    · subst hij; simpa using h
    · simp [hij]

theorem clear_rlzd (x : RegWord) :
    (setBit x Config.chip.bitEPRLZD &&& ~~~(phaseFlags Config.chip)) &&& ~~~(bit Config.chip.bitEPRLZD) =
      x &&& ~~~((phaseFlags Config.chip) ||| bit Config.chip.bitEPRLZD) := by
  apply BitVec.eq_of_getLsbD_eq
  intro j hj
  simp only [BitVec.getLsbD_and, BitVec.getLsbD_or, setBit_getLsbD, BitVec.getLsbD_not, bit_getLsbD, hj, decide_true,
    Bool.true_and]
  cases x.getLsbD j <;> cases (phaseFlags Config.chip).getLsbD j <;> cases decide (Config.chip.bitEPRLZD = j) <;> rfl

/-- `configureEndpoint` run undisturbed. -/
theorem configureEndpoint_calm {a : Byte} {m : Half} {s : State} (hc : s.calm) :
    configureEndpoint Config.chip a m s = .ok () { s with eng := s.eng.configured Config.chip (epIdx a) m } := by
  obtain ⟨h1, h2, h3⟩ := hc
  have hi := (epIdx a).isLt
  have hm : ((m.extractLsb' 0 10).setWidth 16).extractLsb' 0 10 = m.extractLsb' 0 10 := by
    apply BitVec.eq_of_toNat_eq
    simp [BitVec.extractLsb'_toNat, BitVec.toNat_setWidth]
  have hw1 : s.eng.writeReg Config.chip .REALIZE (s.eng.realize.setWidth Config.regMax ||| bit (epIdx a).toNat) =
      .ok { s.eng with realize := setBit s.eng.realize (epIdx a).toNat } := by
    simp only [Eng.writeReg, Eng.writeRealize, word_or_bit, or_bit_clears_nothing]
    rfl
  unfold configureEndpoint
  rw [run_bind_ok (regOr_calm h1 rfl hw1)]
  rw [run_bind_ok (commandWrite_maxpkt (by exact ⟨h1, h2, h3⟩)), sizeIn_chip, hm]
  have hset : ({ s.eng with realize := setBit s.eng.realize (epIdx a).toNat } : Eng).setMps Config.chip (epIdx a) (m.extractLsb' 0 10) =
      { s.eng.setEp (epIdx a) (s.eng.sized (epIdx a) (m.extractLsb' 0 10)) with
        realize := setBit s.eng.realize (epIdx a).toNat
        rlzd := setBit s.eng.rlzd (epIdx a).toNat
        devintst := setBit s.eng.devintst Config.chip.bitEPRLZD } := by
    have : (setBit s.eng.realize (epIdx a).toNat).getLsbD (epIdx a).toNat = true := by simp; omega
    simp only [Eng.setMps, this, if_true]
    rfl
  rw [hset]
  have hflag : (setBit s.eng.devintst Config.chip.bitEPRLZD &&& ~~~(phaseFlags Config.chip)).getLsbD Config.chip.bitEPRLZD = true := by
    have : (phaseFlags Config.chip).getLsbD Config.chip.bitEPRLZD = false := by decide
    rw [BitVec.getLsbD_and, BitVec.getLsbD_not, setBit_getLsbD, this]
    simp [Config.chip_bitEPRLZD]
  rw [run_bind_ok (waitFlag_set (by exact h1) (by exact hflag))]
  rw [run_bind_ok (regWrite_calm (by exact h1) rfl)]
  rw [run_bind_ok (regOr_calm (by exact h1) rfl rfl)]
  rw [regOr_calm (by exact h1) rfl rfl]
  have hds : (bit Config.chip.bitEPRLZD : RegWord).getLsbD Config.chip.bitDEVSTAT = false := by decide
  simp only [Eng.writeDevintclr, Eng.quiet, word_or_bit, Eng.writeEpinten, newly_enabled, hds, Bool.or_false, clear_rlzd, setEp_epinten,
    setEp_epintst, setEp_devinten, Eng.configured, sizeIn_chip]
  rfl

end Sys2Proof.Machine
end

