-- ==== Sys2Proof/Laws/Accesses.lean ====
section
/-! SUPPORT. What every operation of the block that only accesses registers respects: a relation that each single access
respects is respected by the command interface and the Endpoint Manager, whatever ENG and WIRE do in between. -/

-- one declaration at a time: kernel evaluations that wait for each other would hold a thread each
set_option Elab.async false

namespace Sys2Proof.Machine

/-- The state in which a computation ends. -/
def stateOf {α : Type} : EStateM.Result Stop State α → State
  | .ok _ s => s
  | .error _ s => s

/-- A computation takes every state to one related to it, however it ends. -/
def Keeps {α : Type} (R : State → State → Prop) (m : SeqM α) : Prop := ∀ s, R s (stateOf (m s))

/-- A relation that holds over nothing, and over two parts when it holds over each. -/
structure Composes (R : State → State → Prop) : Prop where
  refl : ∀ s, R s s
  trans : ∀ s t u, R s t → R t u → R s u

/-- A relation that every access of a chip respects. -/
structure AccessClosed (chip : Chip) (R : State → State → Prop) : Prop where
  order : Composes R
  before : ∀ s, R s (beforeAccess chip s)
  eng : ∀ s, R s (engMove chip s)
  read : ∀ r s, R s { s with eng := (s.eng.readReg chip r).2 }
  write : ∀ r v s e, s.eng.writeReg chip r v = .ok e → R s { s with eng := e }
  lock : ∀ o s, R s { s with eng := { s.eng with portLock := o } }

variable {chip : Chip} {R : State → State → Prop} {α β : Type}

theorem Keeps.bind (hR : Composes R) {m : SeqM α} {f : α → SeqM β} (hm : Keeps R m) (hf : ∀ a, Keeps R (f a)) :
    Keeps R (m >>= f) := by
  intro s
  have h1 := hm s
  rw [run_bind]
  cases h : m s with
  | ok a s' => rw [h] at h1; exact hR.trans _ _ _ h1 (hf a s')
  | error x s' => rw [h] at h1; exact h1

theorem Keeps.pure (hR : Composes R) (a : α) : Keeps R (Pure.pure a) := fun s => hR.refl s

theorem Keeps.get (hR : Composes R) : Keeps R (MonadState.get : SeqM State) := fun s => hR.refl s

theorem Keeps.raise (hR : Composes R) (f : Fault) : Keeps R (Machine.raise f : SeqM α) := fun s => hR.refl s

/-! ## Accesses -/

theorem keeps_regRead (hR : AccessClosed chip R) (r : Reg) : Keeps R (regRead chip r) := fun s =>
  hR.order.trans _ _ _ (hR.before s) (hR.read r _)

theorem keeps_regWrite (hR : AccessClosed chip R) (r : Reg) (v : RegWord) : Keeps R (regWrite chip r v) := by
  intro s
  simp only [regWrite]
  split
  · rename_i e he
    exact hR.order.trans _ _ _ (hR.before s) (hR.write r v _ e he)
  · exact hR.before s

theorem keeps_waitFlag (hR : AccessClosed chip R) (b : Nat) : Keeps R (waitFlag chip b) := by
  intro s
  have h2 := hR.order.trans _ _ _ (hR.before s) (hR.eng _)
  simp only [waitFlag]
  split
  · exact hR.before s
  · split <;> exact h2

theorem keeps_regOr (hR : AccessClosed chip R) (r : Reg) (v : RegWord) : Keeps R (regOr chip r v) :=
  Keeps.bind hR.order (keeps_regRead hR r) (fun _ => keeps_regWrite hR r _)

theorem keeps_lockPort (hR : AccessClosed chip R) (u : PortUse) : Keeps R (lockPort u) := fun s => hR.lock (some u) s

theorem keeps_unlockPort (hR : AccessClosed chip R) : Keeps R unlockPort := fun s => hR.lock none s

/-! ## The command interface -/

theorem keeps_phase (hR : AccessClosed chip R) (w : Word) (b : Nat) : Keeps R (phase chip w b) :=
  Keeps.bind hR.order (keeps_regWrite hR _ _) fun _ =>
    Keeps.bind hR.order (keeps_waitFlag hR _) fun _ => keeps_regWrite hR _ _

theorem keeps_command (hR : AccessClosed chip R) (c : Byte) : Keeps R (command chip c) :=
  Keeps.bind hR.order (keeps_regWrite hR _ _) fun _ => keeps_phase hR _ _

theorem keeps_commandWrite (hR : AccessClosed chip R) (c : Byte) (d : Half) : Keeps R (commandWrite chip c d) :=
  Keeps.bind hR.order (keeps_regWrite hR _ _) fun _ => Keeps.bind hR.order (keeps_phase hR _ _) fun _ => keeps_phase hR _ _

theorem keeps_commandRead (hR : AccessClosed chip R) (c : Byte) : Keeps R (commandRead chip c) :=
  Keeps.bind hR.order (keeps_regWrite hR _ _) fun _ => Keeps.bind hR.order (keeps_phase hR _ _) fun _ =>
    Keeps.bind hR.order (keeps_phase hR _ _) fun _ => Keeps.bind hR.order (keeps_regRead hR _) fun _ => Keeps.pure hR.order _

/-! ## The Endpoint Manager -/

theorem keeps_configureEndpoint (hR : AccessClosed chip R) (a : Byte) (m : Half) : Keeps R (configureEndpoint chip a m) :=
  Keeps.bind hR.order (keeps_regOr hR _ _) fun _ => Keeps.bind hR.order (keeps_commandWrite hR _ _) fun _ =>
    Keeps.bind hR.order (keeps_waitFlag hR _) fun _ => Keeps.bind hR.order (keeps_regWrite hR _ _) fun _ =>
      Keeps.bind hR.order (keeps_regOr hR _ _) fun _ => keeps_regOr hR _ _

theorem keeps_readRawStatus (hR : AccessClosed chip R) (i : Idx) : Keeps R (readRawStatus chip i) :=
  Keeps.bind hR.order (keeps_commandRead hR _) fun _ => Keeps.pure hR.order _

theorem keeps_getStatus (hR : AccessClosed chip R) (a : Byte) : Keeps R (getStatus chip a) :=
  Keeps.bind hR.order (keeps_readRawStatus hR _) fun _ => Keeps.pure hR.order _

theorem keeps_drainPort (hR : AccessClosed chip R) (w : Nat) : Keeps R (drainPort chip w) := by
  induction w with
  | zero => exact Keeps.pure hR.order _
  | succ w ih => exact Keeps.bind hR.order (keeps_regRead hR _) fun _ => Keeps.bind hR.order ih fun _ => Keeps.pure hR.order _

theorem keeps_epRead (hR : AccessClosed chip R) (a : Byte) (n : Nat) : Keeps R (epRead chip a n) :=
  Keeps.bind hR.order (keeps_regWrite hR _ _) fun _ => Keeps.bind hR.order (keeps_lockPort hR _) fun _ =>
    Keeps.bind hR.order (keeps_regRead hR _) fun _ => Keeps.bind hR.order (keeps_drainPort hR _) fun _ =>
      Keeps.bind hR.order (keeps_regWrite hR _ _) fun _ => Keeps.bind hR.order (keeps_command hR _) fun _ =>
        Keeps.bind hR.order (keeps_command hR _) fun _ => Keeps.bind hR.order (keeps_unlockPort hR) fun _ => Keeps.pure hR.order _

theorem keeps_fillPort (hR : AccessClosed chip R) (bs : List Byte) (fuel w : Nat) : Keeps R (fillPort chip bs fuel w) := by
  induction fuel generalizing w with
  | zero => exact Keeps.pure hR.order _
  | succ fuel ih =>
    refine Keeps.bind hR.order (keeps_regRead hR _) fun v => ?_
    cases h : wrEn chip v with
    | true => exact Keeps.bind hR.order (keeps_regWrite hR _ _) fun _ => ih _
    | false => exact Keeps.pure hR.order _

theorem keeps_epWrite (hR : AccessClosed chip R) (a : Byte) (bs : List Byte) : Keeps R (epWrite chip a bs) :=
  Keeps.bind hR.order (keeps_regWrite hR _ _) fun _ => Keeps.bind hR.order (keeps_lockPort hR _) fun _ =>
    Keeps.bind hR.order (keeps_regWrite hR _ _) fun _ => Keeps.bind hR.order (keeps_fillPort hR _ _ _) fun _ =>
      Keeps.bind hR.order (keeps_regWrite hR _ _) fun _ => Keeps.bind hR.order (keeps_command hR _) fun _ =>
        Keeps.bind hR.order (keeps_command hR _) fun _ => keeps_unlockPort hR

end Sys2Proof.Machine
end

