-- ==== Sys2Proof/Laws/Descriptor.lean ====
section
/-! SUPPORT. The two walks of the descriptor table, over the list of offsets at which descriptors stand. -/

-- one declaration at a time: kernel evaluations that wait for each other would hold a thread each
set_option Elab.async false

namespace Sys2Proof.Machine

/-- A table whose type bytes, and total lengths of configurations, lie inside it: what findDescriptor reads. -/
def readableAt (d : List Byte) (p : Nat) : Prop :=
  2 ≤ (descField d p 0).toNat ∧ (descField d p 1 = Config.descConfiguration → p + 3 < d.length)

theorem descByte_field {d : List Byte} {p k : Nat} (h : p + k < d.length) : descByte d (p + k) = .ok (descField d p k) := by
  simp [descByte, descField, h]

theorem tableOffsets_cons {d : List Byte} {fuel p : Nat} {offs : List Nat} (h : tableOffsets d (fuel + 1) p = some offs) :
    (d[p]? = some 0#8 ∧ offs = []) ∨
    ∃ l rest, d[p]? = some l ∧ l ≠ 0#8 ∧ tableOffsets d fuel (p + l.toNat) = some rest ∧ offs = p :: rest := by
  simp only [tableOffsets] at h
  split at h
  · exact absurd h (by simp)
  · rename_i l hl
    split at h
    · rename_i h0; subst h0; left; exact ⟨hl, by simpa using h.symm⟩
    · rename_i h0
      right
      obtain ⟨rest, hr, rfl⟩ := Option.map_eq_some_iff.mp h
      exact ⟨l, rest, hl, h0, hr, rfl⟩

/-- A walk that stops inside the table has its start inside it. -/
theorem tableOffsets_start {d : List Byte} {fuel p : Nat} {offs : List Nat} (h : tableOffsets d fuel p = some offs) :
    p < d.length := by
  cases fuel with
  | zero => simp [tableOffsets] at h
  | succ fuel =>
    rcases tableOffsets_cons h with ⟨h1, _⟩ | ⟨l, rest, h1, _⟩ <;>
      exact (List.getElem?_eq_some_iff.mp h1).1

/-! ## findDescriptor (R351, R353) -/

theorem descResult_reported {d : List Byte} {p : Nat} (hr : readableAt d p) :
    descResult d (descField d p 1) (descField d p 0) p = .ok (some (p, reportedLength d p)) := by
  unfold descResult reportedLength
  split
  · rename_i h
    have := hr.2 h
    rw [descByte_field (by omega), descByte_field (by omega)]; rfl
  · rfl

/-- The walk from offset `p` with `k` matches seen returns the match number `ix - k` of those still ahead. -/
theorem findFrom_spec {d : List Byte} {ty ix : Byte} (fuel p k : Nat) {offs : List Nat}
    (h : tableOffsets d fuel p = some offs) (hr : ∀ q ∈ offs, readableAt d q) (hk : k ≤ ix.toNat) :
    findFrom d ty ix fuel p k =
      .ok (((offs.filter (fun q => descField d q 1 == ty))[ix.toNat - k]?).map (fun q => (q, reportedLength d q))) := by
  induction fuel generalizing p k offs with
  | zero => simp [tableOffsets] at h
  | succ fuel ih =>
    have hp := tableOffsets_start h
    have hb : descByte d p = .ok (descField d p 0) := descByte_field (k := 0) hp
    rcases tableOffsets_cons h with ⟨h1, rfl⟩ | ⟨l, rest, h1, h0, hrest, rfl⟩
    · have : descField d p 0 = 0#8 := by simp [descField, h1]
      simp [findFrom, hb, this, bind, Except.bind, pure, Except.pure]
    · have hl : descField d p 0 = l := by simp [descField, h1]
      have hrp := hr p (by simp)
      have hnext := tableOffsets_start hrest
      have hb1 : descByte d (p + 1) = .ok (descField d p 1) := descByte_field (by have := hrp.1; rw [hl] at this; omega)
      simp only [findFrom, hb, hb1, bind, Except.bind, hl, h0, if_false]
      by_cases ht : descField d p 1 = ty
      · simp only [ht, if_true, List.filter_cons, beq_self_eq_true]
        by_cases hki : k = ix.toNat
        · simp only [hki, if_true, Nat.sub_self, List.getElem?_cons_zero, Option.map_some]
          have := descResult_reported hrp
          rw [ht, hl] at this
          exact this
        · rw [if_neg hki, ih _ _ hrest (fun q hq => hr q (by simp [hq])) (by omega)]
          have e : ix.toNat - k = (ix.toNat - (k + 1)) + 1 := by omega
          rw [e, List.getElem?_cons_succ]
      · have : (descField d p 1 == ty) = false := by simpa using ht
        simp only [ht, if_false, List.filter_cons, this, Bool.false_eq_true]
        exact ih _ _ hrest (fun q hq => hr q (by simp [hq])) hk

/-- The walk faults only by leaving the table. -/
theorem findFrom_fault {d : List Byte} {ty ix : Byte} (fuel p k : Nat) {f : Fault}
    (h : findFrom d ty ix fuel p k = .error f) : f = .tableOverrun := by
  have hb : ∀ q, descByte d q = .error f → f = .tableOverrun := by
    intro q hq; unfold descByte at hq; split at hq <;> cases hq; rfl
  induction fuel generalizing p k with
  | zero => cases h; rfl
  | succ fuel ih =>
    simp only [findFrom, bind, Except.bind] at h
    split at h
    · rename_i e he; cases h; exact hb _ he
    · split at h
      · cases h
      · split at h
        · rename_i e he; cases h; exact hb _ he
        · split at h
          · split at h
            · simp only [descResult, bind, Except.bind] at h
              split at h
              · split at h
                · rename_i e he; cases h; exact hb _ he
                · split at h
                  · rename_i e he; cases h; exact hb _ he
                  · cases h
              · cases h
            · exact ih _ _ h
          · exact ih _ _ h

/-! ## configureForSetting (R356, R357) -/

/-- Field `k` of the last descriptor of type `ty` among offsets passed. -/
def lastField (d : List Byte) (pre : List Nat) (ty : Byte) (k : Nat) : Option Byte :=
  ((pre.filter (fun q => descField d q 1 == ty)).getLast?).map (fun q => descField d q k)

/-- The endpoints the walk configures from here on, the offsets `pre` passed. -/
def walked (d : List Byte) (c a : Byte) : List Nat → List Nat → List (Byte × Half)
  | _, [] => []
  | pre, p :: rest =>
    (if descField d p 1 = Config.descEndpoint ∧ lastField d pre Config.descConfiguration 5 = some c ∧
        lastField d pre Config.descInterface 3 = some a then
      [(descField d p 2, le16 (descField d p 4) (descField d p 5))] else []) ++ walked d c a (pre ++ [p]) rest

theorem lastField_snoc (d : List Byte) (pre : List Nat) (p : Nat) (ty : Byte) (k : Nat) :
    lastField d (pre ++ [p]) ty k = if descField d p 1 = ty then some (descField d p k) else lastField d pre ty k := by
  unfold lastField
  rw [List.filter_append]
  by_cases h : descField d p 1 = ty
  · simp [h]
  · have : (descField d p 1 == ty) = false := by simpa using h
    simp [h]

/-- ENG after endpoints were configured in order. -/
def Eng.configuredAll (es : List (Byte × Half)) (e : Eng) : Eng :=
  es.foldl (fun e r => Eng.configured Config.chip (epIdx r.1) r.2 e) e

theorem Eng.configuredAll_pend (es : List (Byte × Half)) (e : Eng) : (e.configuredAll es).pend = e.pend := by
  induction es generalizing e with
  | nil => rfl
  | cons r es ih => exact ih _

theorem liftWalk_ok {α : Type} {x : Except Fault α} {v : α} {s : State} (h : x = .ok v) : liftWalk x s = .ok v s := by
  subst h; rfl

/-- The fields the walk reads at an offset. -/
def walkableAt (d : List Byte) (p : Nat) : Prop :=
  2 ≤ (descField d p 0).toNat ∧ (descField d p 1 = Config.descConfiguration → p + 5 < d.length) ∧
  (descField d p 1 = Config.descInterface → p + 3 < d.length) ∧
  (descField d p 1 = Config.descEndpoint → p + 5 < d.length)

/-- The walk from offset `p`, the offsets `pre` passed. -/
theorem settingFrom_spec {d : List Byte} {c a : Byte} (fuel p : Nat) (pre : List Nat) {offs : List Nat} {s : State}
    (hc : s.calm) (h : tableOffsets d fuel p = some offs) (hr : ∀ q ∈ offs, walkableAt d q) :
    settingFrom Config.chip d c a fuel p (lastField d pre Config.descConfiguration 5) (lastField d pre Config.descInterface 3) s =
      .ok () { s with eng := s.eng.configuredAll (walked d c a pre offs) } := by
  induction fuel generalizing p pre offs s with
  | zero => simp [tableOffsets] at h
  | succ fuel ih =>
    have hp := tableOffsets_start h
    have hb : descByte d p = .ok (descField d p 0) := descByte_field (k := 0) hp
    unfold settingFrom
    rw [run_bind_ok (liftWalk_ok hb)]
    rcases tableOffsets_cons h with ⟨h1, rfl⟩ | ⟨l, rest, h1, h0, hrest, rfl⟩
    · have : descField d p 0 = 0#8 := by simp [descField, h1]
      rw [if_pos this]; rfl
    · have hl : descField d p 0 = l := by simp [descField, h1]
      have hrp := hr p (by simp)
      have hnext := tableOffsets_start hrest
      have hb1 : descByte d (p + 1) = .ok (descField d p 1) := descByte_field (by have := hrp.1; rw [hl] at this; omega)
      have htail : ∀ q ∈ rest, walkableAt d q := fun q hq => hr q (by simp [hq])
      have n24 : ¬ Config.descConfiguration = Config.descInterface := by decide
      have n25 : ¬ Config.descConfiguration = Config.descEndpoint := by decide
      have n42 : ¬ Config.descInterface = Config.descConfiguration := by decide
      have n45 : ¬ Config.descInterface = Config.descEndpoint := by decide
      have n52 : ¬ Config.descEndpoint = Config.descConfiguration := by decide
      have n54 : ¬ Config.descEndpoint = Config.descInterface := by decide
      rw [hl, if_neg h0, run_bind_ok (liftWalk_ok hb1)]
      have step := fun (t : State) (ht : t.calm) => ih (p + l.toNat) (pre ++ [p]) (s := t) ht hrest htail
      simp only [lastField_snoc] at step
      by_cases t2 : descField d p 1 = Config.descConfiguration
      · rw [if_pos t2, run_bind_ok (liftWalk_ok (descByte_field (hrp.2.1 t2)))]
        simp only [t2, if_true, if_neg n24] at step
        rw [step s hc]
        simp [walked, t2, n25]
      · by_cases t4 : descField d p 1 = Config.descInterface
        · rw [if_neg t2, if_pos t4, run_bind_ok (liftWalk_ok (descByte_field (hrp.2.2.1 t4)))]
          simp only [t4, if_true, if_neg n42] at step
          rw [step s hc]
          simp [walked, t4, n45]
        · rw [if_neg t2, if_neg t4]
          simp only [if_neg t2, if_neg t4] at step
          split
          · rename_i hm
            have ho : descEndpointOperands d p = .ok (descField d p 2, le16 (descField d p 4) (descField d p 5)) := by
              have := hrp.2.2.2 hm.1
              unfold descEndpointOperands
              rw [descByte_field (by omega), descByte_field (by omega), descByte_field (by omega)]; rfl
            rw [run_bind_ok (liftWalk_ok ho), run_bind_ok (configureEndpoint_calm hc)]
            refine (step _ (by exact ⟨hc.1, hc.2.1, hc.2.2⟩)).trans ?_
            simp only [walked, hm.1, hm.2.1, hm.2.2, and_self, if_true]
            rfl
          · rename_i hm
            rw [step s hc]
            simp only [walked, if_neg hm, List.nil_append]

/-- Offsets of a walk rise. -/
theorem tableOffsets_sorted {d : List Byte} (fuel p : Nat) {offs : List Nat} (h : tableOffsets d fuel p = some offs) :
    offs.Pairwise (· < ·) ∧ ∀ q ∈ offs, p ≤ q := by
  induction fuel generalizing p offs with
  | zero => simp [tableOffsets] at h
  | succ fuel ih =>
    rcases tableOffsets_cons h with ⟨_, rfl⟩ | ⟨l, rest, _, h0, hrest, rfl⟩
    · simp
    · obtain ⟨h1, h2⟩ := ih _ hrest
      have hl : 0 < l.toNat := Nat.pos_of_ne_zero (fun hc => h0 (BitVec.eq_of_toNat_eq hc))
      refine ⟨List.pairwise_cons.mpr ⟨fun q hq => by have := h2 q hq; omega, h1⟩, ?_⟩
      intro q hq
      rcases List.mem_cons.mp hq with rfl | hq
      · exact Nat.le_refl _
      · have := h2 q hq; omega

/-- What the walk configures is what the enclosing descriptors say. -/
theorem walked_enclosed {d : List Byte} {c a : Byte} (offs : List Nat) (h : offs.Pairwise (· < ·)) (pre rest : List Nat)
    (he : offs = pre ++ rest) :
    walked d c a pre rest = (rest.filter (fun p => descField d p 1 == Config.descEndpoint &&
      latestField d offs p Config.descConfiguration 5 == some c &&
      latestField d offs p Config.descInterface 3 == some a)).map
        (fun p => (descField d p 2, le16 (descField d p 4) (descField d p 5))) := by
  induction rest generalizing pre with
  | nil => rfl
  | cons p rest ih =>
    have hlt : ∀ ty k, latestField d offs p ty k = lastField d pre ty k := by
      intro ty k
      have : offs.takeWhile (fun q => decide (q < p)) = pre := by
        subst he
        rw [List.takeWhile_append_of_pos]
        · simp
        · intro q hq
          have := (List.pairwise_append.mp h).2.2 q hq p (by simp)
          simpa using this
      simp only [latestField, lastField, this]
    rw [walked, ih (pre ++ [p]) (by simp [he]), List.filter_cons]
    simp only [hlt]
    by_cases hm : descField d p 1 = Config.descEndpoint ∧ lastField d pre Config.descConfiguration 5 = some c ∧
        lastField d pre Config.descInterface 3 = some a
    · simp [hm]
    · rw [if_neg hm, List.nil_append, if_neg]
      simpa [and_assoc] using hm

end Sys2Proof.Machine
end

