-- ==== Sys2Proof/Laws/Transfer.lean ====
section
/-! SUPPORT. The pieces of a control transfer run undisturbed: reading a chunk, sending it, storing received bytes, aborting. -/

-- one declaration at a time: kernel evaluations that wait for each other would hold a thread each
set_option Elab.async false

namespace Sys2Proof.Machine

theorem memRead_ok {p : Ptr} {n : Nat} {bs : List Byte} {fresh : Nat} {s : State} (h : s.bytesAt p n = some (bs, fresh)) :
    memRead p n s = .ok bs { s with fresh := fresh } := by
  unfold State.bytesAt at h
  unfold memRead
  split at h
  · rename_i h0; cases h; rw [if_pos h0]; rfl
  · rename_i h0
    rw [if_neg h0, run_get_bind]
    split at h <;> rename_i hs <;> simp only [hs]
    · split at h
      · rename_i hl; cases h; simp only [tableRead, hl, if_true]; rfl
      · cases h
    · split at h
      · rename_i hl; cases h; simp only [tableRead, hl, if_true]; rfl
      · cases h
    · split at h
      · rename_i hl
        have hn : ¬ s.cfg.stageCap < p.off + n := by omega
        have h' := Option.some.inj h
        simp only [stageRead, hn, false_and, if_false, h']
      · cases h

theorem bytesAt_length {p : Ptr} {n : Nat} {bs : List Byte} {fresh : Nat} {s : State}
    (h : s.bytesAt p n = some (bs, fresh)) : bs.length = n := by
  unfold State.bytesAt at h
  split at h
  · rename_i h0; cases h; simp [h0]
  · split at h
    · split at h
      · cases h; simp only [List.length_take, List.length_drop]; omega
      · cases h
    · split at h
      · cases h; simp only [List.length_take, List.length_drop]; omega
      · cases h
    · split at h
      · have h1 : (Memory.readList s.stage p.off n s.fresh).1 = bs := congrArg Prod.fst (Option.some.inj h)
        rw [← h1]; exact Memory.readList_length _ _ _ _
      · cases h

theorem memRead_table_fault {p : Ptr} {n : Nat} {s : State} (h : s.bytesAt p n = none) (hp : p.space ≠ .stage) :
    memRead p n s = .error (.fault .tableOverrun) s := by
  unfold State.bytesAt at h
  unfold memRead
  split at h
  · cases h
  · rename_i h0
    rw [if_neg h0, run_get_bind]
    split at h <;> rename_i hs <;> simp only [hs]
    · split at h
      · cases h
      · rename_i hl; simp only [tableRead, hl, if_false, run_raise]
    · split at h
      · cases h
      · rename_i hl; simp only [tableRead, hl, if_false, run_raise]
    · exact absurd hs hp

theorem memRead_stage_overrun {p : Ptr} {n : Nat} {s : State} (h : s.bytesAt p n = none) (hp : p.space = .stage) :
    memRead p n s =
      if s.cfg.overrunDrops then
        .ok (Memory.readList s.stage p.off (s.cfg.stageCap - p.off) s.fresh).1
          { s with fresh := (Memory.readList s.stage p.off (s.cfg.stageCap - p.off) s.fresh).2 }
      else .error (.fault .bufferOverrun) s := by
  unfold State.bytesAt at h
  unfold memRead
  split at h
  · cases h
  · rename_i h0
    rw [if_neg h0, run_get_bind]
    simp only [hp] at h ⊢
    split at h
    · cases h
    · rename_i hl
      have hn : s.cfg.stageCap < p.off + n := by omega
      cases hd : s.cfg.overrunDrops <;> simp [stageRead, hn, hd]

/-- `DataIn()`: the bytes read are the packet sent, and the pointer advances (R268). -/
theorem dataIn_of_bytes {bs : List Byte} {fresh : Nat} {s : State} (hk : s.specChip) (hc : s.calm)
    (hr : memRead s.ct.ptr (min s.cfg.m0 s.ct.resid.toNat) s = .ok bs { s with fresh := fresh })
    (hm : bs.length ≤ (s.eng.epAt 1#5).mps.toNat) :
    (dataIn Config.chip) s = .ok () (s.sent bs fresh s.chunkLen) := by
  have he : epIdx 0x80#8 = 1#5 := by decide
  unfold dataIn
  rw [run_get_bind, run_bind_ok hr]
  rw [run_bind_ok (epWrite_calm (a := 0x80#8) (by exact hc) (by decide) (by rw [he]; exact hm))]
  rw [he, State.sent, show s.cfg.toChip = Config.chip from hk]
  rfl

theorem dataIn_calm {bs : List Byte} {fresh : Nat} {s : State} (hk : s.specChip) (hc : s.calm)
    (hm : s.chunkLen ≤ (s.eng.epAt 1#5).mps.toNat) (hb : s.bytesAt s.ct.ptr s.chunkLen = some (bs, fresh)) :
    (dataIn Config.chip) s = .ok () (s.sent bs fresh s.chunkLen) := by
  have hl := bytesAt_length hb
  exact dataIn_of_bytes hk hc (memRead_ok hb) (by omega)

/-- A chunk outside DESC or HOOKMEM: nothing of the step is done (R84). -/
theorem dataIn_table_fault {s : State} (hb : s.bytesAt s.ct.ptr s.chunkLen = none) (hp : s.ct.ptr.space ≠ .stage) :
    (dataIn Config.chip) s = .error (.fault .tableOverrun) s := by
  unfold dataIn
  rw [run_get_bind]
  exact run_bind_error (memRead_table_fault hb hp)

/-- A chunk outside STAGE_CAP, by default (R404). -/
theorem dataIn_stage_fault {s : State} (hb : s.bytesAt s.ct.ptr s.chunkLen = none) (hp : s.ct.ptr.space = .stage)
    (hd : s.cfg.overrunDrops = false) : (dataIn Config.chip) s = .error (.fault .bufferOverrun) s := by
  unfold dataIn
  rw [run_get_bind]
  refine run_bind_error ((memRead_stage_overrun hb hp).trans ?_)
  rw [hd]; rfl

/-- A chunk outside STAGE_CAP, with the alternative treatment of R404: only the bytes that fit are sent. -/
theorem dataIn_stage_drop {s : State} (hk : s.specChip) (hc : s.calm) (hm : s.chunkLen ≤ (s.eng.epAt 1#5).mps.toNat)
    (hb : s.bytesAt s.ct.ptr s.chunkLen = none) (hp : s.ct.ptr.space = .stage) (hd : s.cfg.overrunDrops = true) :
    (dataIn Config.chip) s = .ok () (s.sent (Memory.readList s.stage s.ct.ptr.off (s.cfg.stageCap - s.ct.ptr.off) s.fresh).1
      (Memory.readList s.stage s.ct.ptr.off (s.cfg.stageCap - s.ct.ptr.off) s.fresh).2 s.chunkLen) := by
  refine dataIn_of_bytes hk hc ((memRead_stage_overrun hb hp).trans (by rw [hd]; rfl)) ?_
  have h := Memory.readList_length s.stage s.ct.ptr.off (s.cfg.stageCap - s.ct.ptr.off) s.fresh
  rw [h]
  unfold State.bytesAt at hb
  split at hb
  · cases hb
  · simp only [hp] at hb
    split at hb
    · cases hb
    · omega

/-- `StallControl()` (R270). -/
theorem stallControl_calm {s : State} (hk : s.specChip) (hc : s.calm) : (stallControl Config.chip) s = .ok () s.aborted := by
  have he : epIdx 0x80#8 = 1#5 := by decide
  unfold stallControl stall
  rw [run_bind_ok (commandWrite_status hc), he, State.aborted, show s.cfg.toChip = Config.chip from hk]
  rfl

/-- A store that fits (R269). -/
theorem stageWrite_fits {off : Nat} {bs : List Byte} {s : State} (h : bs = [] ∨ off + bs.length ≤ s.cfg.stageCap) :
    stageWrite off bs s = .ok () { s with stage := Memory.writeList s.stage off bs } := by
  unfold stageWrite
  by_cases h0 : bs.length = 0
  · rw [if_pos h0, List.length_eq_zero_iff.mp h0]; rfl
  · rcases h with h | h
    · subst h; exact absurd rfl h0
    · rw [if_neg h0, if_pos h]

end Sys2Proof.Machine
end

