-- ==== Sys2Proof/Laws/App.lean ====
section
/-! SUPPORT. What APP's single acts come to: the mask's rule once, the register an address names, and a hook slot written. -/

-- one declaration at a time: kernel evaluations that wait for each other would hold a thread each
set_option Elab.async false

namespace Sys2Proof.Machine

/-! ## The mask's rule (R432) -/

theorem guarded_open {m : SeqM Unit} {s : State} (h : s.irqMask = false) : guarded m s = .fault .contextViolation := by
  simp [guarded, h]

theorem guarded_ok {m : SeqM Unit} {s t : State} (h : s.irqMask = true) (hm : m s = .ok () t) : guarded m s = .next t := by
  simp [guarded, h, runSeq, hm, outcome]

theorem guarded_fault {m : SeqM Unit} {s t : State} {f : Fault} (h : s.irqMask = true)
    (hm : m s = .error (.fault f) t) : guarded m s = .fault f := by
  simp [guarded, h, runSeq, hm, outcome]

theorem guarded_refuse {m : SeqM Unit} {s t : State} {r : Refusal} (h : s.irqMask = true)
    (hm : m s = .error (.refuse r) t) : guarded m s = .refused r := by
  simp [guarded, h, runSeq, hm, outcome]

/-! ## The register at an address (R40, R85) -/

/-- REG_W = 32 (D2). -/
@[simp] theorem regBytes_chip : regBytes Config.chip = 4 := rfl

/-- "at byte address BASE + offset". -/
theorem regOfAddr_offset (base : Word) (hb : base.toNat % 4 = 0) (r : Reg) :
    regOfAddr Config.chip base (base.toNat + r.offset Config.chip) 4 = some r := by
  have key : ∀ r : Reg, Reg.all.find? (fun q => q.offset Config.chip == r.offset Config.chip) = some r := by
    intro r; cases r <;> decide
  have : (fun q : Reg => base.toNat + q.offset Config.chip == base.toNat + r.offset Config.chip) = (fun q => q.offset Config.chip == r.offset Config.chip) := by
    funext q; simp [Nat.add_left_cancel_iff]
  have ha : (base.toNat + r.offset Config.chip) % 4 = 0 := by
    have : r.offset Config.chip % 4 = 0 := by cases r <;> decide
    omega
  rw [regOfAddr, regBytes_chip, if_pos ⟨rfl, ha⟩, this, key r]

/-- Every other access names no register. -/
theorem regOfAddr_none (base : Word) (addr size : Nat) (h : size ≠ 4 ∨ ∀ r : Reg, addr ≠ base.toNat + r.offset Config.chip) :
    regOfAddr Config.chip base addr size = none := by
  unfold regOfAddr
  split
  · rename_i h4
    rw [List.find?_eq_none]
    intro r _ hr
    exact (h.resolve_left (fun hn => hn h4.1)) r (by simpa using hr : base.toNat + r.offset Config.chip = addr).symm
  · rfl

theorem regAt_ok {addr size : Nat} {s : State} {r : Reg} (h : regOfAddr Config.chip s.cfg.base addr size = some r) :
    regAt Config.chip addr size s = .ok r s := by
  unfold regAt; rw [run_get_bind, h]; rfl

theorem regAt_refused {addr size : Nat} {s : State} (h : regOfAddr Config.chip s.cfg.base addr size = none) :
    regAt Config.chip addr size s = .error (.refuse .badRegAccess) s := by
  unfold regAt; rw [run_get_bind, h]; rfl

/-- One undisturbed read under the mask. -/
theorem execApp_regRead {s : State} (hk : s.specChip) (hm : s.irqMask = true) (hs : s.slots = []) (r : Reg) :
    execApp (.regRead (s.cfg.base.toNat + r.offset Config.chip) 4) s =
      .next { s with eng := (s.eng.readReg Config.chip r).2, ret := .word (s.eng.readReg Config.chip r).1 } := by
  refine guarded_ok hm ?_
  rw [show s.cfg.toChip = Config.chip from hk]
  rw [run_bind_ok (regAt_ok (regOfAddr_offset _ s.cfg.base_aligned r)), run_bind_ok (regRead_calm r hs)]
  rfl

/-- One undisturbed write under the mask, where the register takes it. -/
theorem execApp_regWrite {s : State} (hk : s.specChip) (hm : s.irqMask = true) (hs : s.slots = []) (r : Reg) (v : RegWord) :
    execApp (.regWrite (s.cfg.base.toNat + r.offset Config.chip) 4 v) s =
      match s.eng.writeReg Config.chip r v with
      | .ok e => .next { s with eng := e }
      | .error (.hang b) => .next (hangState b s)
      | .error (.fault f) => .fault f
      | .error (.refuse x) => .refused x := by
  simp only [execApp, guarded, if_pos hm, runSeq, show s.cfg.toChip = Config.chip from hk]
  rw [run_bind_ok (regAt_ok (regOfAddr_offset _ s.cfg.base_aligned r))]
  simp only [regWrite, beforeAccess_nil hs]
  cases s.eng.writeReg Config.chip r v with
  | ok e => rfl
  | error x => cases x <;> rfl

/-- An undisturbed OR is a write of the OR, where reading the register changes nothing (R87). -/
theorem execApp_regOr {s : State} (hk : s.specChip) (hm : s.irqMask = true) (hs : s.slots = []) (r : Reg) (x v : RegWord)
    (hr : s.eng.readReg Config.chip r = (x, s.eng)) :
    execApp (.regOr (s.cfg.base.toNat + r.offset Config.chip) v) s =
      execApp (.regWrite (s.cfg.base.toNat + r.offset Config.chip) 4 (x ||| v)) s := by
  simp only [execApp, guarded, if_pos hm, runSeq, regBytes_chip, show s.cfg.toChip = Config.chip from hk]
  rw [run_bind_ok (regAt_ok (regOfAddr_offset _ s.cfg.base_aligned r)), run_bind_ok (regAt_ok (regOfAddr_offset _ s.cfg.base_aligned r))]
  unfold regOr
  rw [run_bind_ok (regRead_calm r hs), hr]

/-! ## Hook slots (R33, R415) -/

theorem installHook_hookIn (slot k : HookSlot) (h : Option Nat) (s : State) :
    (installHook slot h s).hookIn k = if k = slot then h else s.hookIn k := by
  cases slot <;> cases k <;> rfl

end Sys2Proof.Machine
end

