-- ==== Sys2Proof/Laws/Flags.lean ====
section
/-! SUPPORT. What each bit of a flag register and of a status bitmap is, so that no later proof unfolds the masks the names of
Config build. -/

-- one declaration at a time: kernel evaluations that wait for each other would hold a thread each
set_option Elab.async false

namespace Sys2Proof.Machine

/-! ## Every chip's flags lie inside their registers (R7, log 32) -/

/-- A flag of a register, raised, reads 1. -/
theorem setBit_reads {chip : Chip} {p : Nat} (h : p < chip.regW.val) (x : RegWord) : (setBit x p).getLsbD p = true := by
  have hm : chip.regW.val ≤ 64 := chip.regW.property.2.1
  rw [setBit_getLsbD, decide_eq_true (show p < Config.regMax by rw [Config.regMax_eq]; omega), decide_eq_true rfl]
  simp

/-- The interrupt flags of a chip. -/
theorem interrupts_fit (chip : Chip) {p : Nat}
    (h : p ∈ [chip.bitFRAME, chip.bitEP, chip.bitDEVSTAT, chip.bitCCEMPTY, chip.bitCDFULL, chip.bitEPRLZD]) : p < chip.regW.val := by
  have hf := chip.fits
  simp only [FlagBits.fit, Bool.and_eq_true] at hf
  exact of_decide_eq_true (List.all_eq_true.mp hf.1.1.1.1.1.1 p h)

/-- The flags and the field of DPCTL, and the flags of RXPLEN. -/
theorem ports_fit (chip : Chip) {p : Nat}
    (h : p ∈ [chip.bitRDEN, chip.bitWREN, chip.lsbLOGEP + 3, chip.bitDV, chip.bitPKTRDY]) : p < chip.regW.val := by
  have hf := chip.fits
  simp only [FlagBits.fit, Bool.and_eq_true] at hf
  exact of_decide_eq_true (List.all_eq_true.mp hf.1.1.1.1.1.2 p h)

/-! ## Masks and fields -/

theorem devintMask_eq : (devintMask Config.chip) = 0x0000013D#64 := by decide
theorem dpctlMask_eq : (dpctlMask Config.chip) = 0x0000003F#64 := by decide
theorem rdEn_eq (w : RegWord) : rdEn Config.chip w = w.getLsbD 0 := rfl
theorem wrEn_eq (w : RegWord) : wrEn Config.chip w = w.getLsbD 1 := rfl
theorem connected_eq (e : Eng) : e.connected Config.chip = e.devstat.getLsbD 0 := rfl
theorem suspended_eq (e : Eng) : e.suspended Config.chip = e.devstat.getLsbD 2 := rfl

theorem logEp_toNat (w : RegWord) : (logEp Config.chip w).toNat = w.toNat / 4 % 16 := by
  simp [logEp, BitVec.extractLsb'_toNat, Nat.shiftRight_eq_div_pow]

theorem rxplen_flags (f : Bool) (x : BitVec 10) :
    let v : BitVec 64 := bit Config.chip.bitPKTRDY ||| flagAt Config.chip.bitDV f ||| x.setWidth 64
    v.getLsbD 11 = true ∧ v.getLsbD 10 = f ∧ v.extractLsb' 0 10 = x ∧ v.extractLsb' 12 52 = 0#52 := by
  revert f x; decide +kernel

/-- RXPLEN, field by field (R51). -/
theorem rxplen_bits (b : Buf) : (rxplen Config.chip b).getLsbD 11 = true ∧ (rxplen Config.chip b).getLsbD 10 = b.isFull ∧
    (rxplen Config.chip b).extractLsb' 0 10 = BitVec.ofNat 10 b.packet.length ∧ (rxplen Config.chip b).extractLsb' 12 52 = 0#52 :=
  rxplen_flags _ _

/-! ## The raw and the normalised status of an endpoint (R58, R61) -/

theorem raw_flags (a b c d e : Bool) :
    let v : BitVec 5 := flagAt Config.chip.bitEPN e ||| flagAt Config.chip.bitPO d ||| flagAt Config.chip.bitSTP c |||
      flagAt Config.chip.bitST b ||| flagAt Config.chip.bitFE a
    v.getLsbD 0 = a ∧ v.getLsbD 1 = b ∧ v.getLsbD 2 = c ∧ v.getLsbD 3 = d ∧ v.getLsbD 4 = e := by
  revert a b c d e; decide +kernel

/-- A record's raw status, bit by bit. -/
theorem raw_bits (r : EpRec) : (r.raw Config.chip).getLsbD 0 = r.buf.isFull ∧ (r.raw Config.chip).getLsbD 1 = r.stalled ∧
    (r.raw Config.chip).getLsbD 2 = r.buf.isSetup ∧ (r.raw Config.chip).getLsbD 3 = r.err ∧ (r.raw Config.chip).getLsbD 4 = r.nak := raw_flags _ _ _ _ _

/-- As CMDDATA carries it. -/
theorem wide_bits (x : BitVec 5) : (∀ k, (x.setWidth 16).getLsbD k = x.getLsbD k) ∧ (x.setWidth 16).extractLsb' 5 11 = 0#11 := by
  refine ⟨fun k => ?_, by revert x; decide +kernel⟩
  rw [BitVec.getLsbD_setWidth]
  by_cases h : k < 16
  · simp [h]
  · rw [BitVec.getLsbD_of_ge x k (by omega)]; simp

/-- A normalised status, bit by bit. -/
theorem normEp_bits (x : BitVec 5) : (normEp Config.chip x).getLsbD 0 = x.getLsbD 0 ∧ (normEp Config.chip x).getLsbD 1 = x.getLsbD 1 ∧
    (normEp Config.chip x).getLsbD 2 = x.getLsbD 2 ∧ (normEp Config.chip x).getLsbD 3 = x.getLsbD 4 ∧ (normEp Config.chip x).getLsbD 4 = x.getLsbD 3 := by
  revert x; decide +kernel

/-- The status a handler gets, from the record. -/
theorem normRaw_bits (r : EpRec) : (normEp Config.chip (r.raw Config.chip)).getLsbD 0 = r.buf.isFull ∧ (normEp Config.chip (r.raw Config.chip)).getLsbD 1 = r.stalled ∧
    (normEp Config.chip (r.raw Config.chip)).getLsbD 2 = r.buf.isSetup ∧ (normEp Config.chip (r.raw Config.chip)).getLsbD 3 = r.nak ∧ (normEp Config.chip (r.raw Config.chip)).getLsbD 4 = r.err := by
  obtain ⟨h0, h1, h2, h3, h4⟩ := raw_bits r
  obtain ⟨n0, n1, n2, n3, n4⟩ := normEp_bits (r.raw Config.chip)
  exact ⟨n0.trans h0, n1.trans h1, n2.trans h2, n3.trans h4, n4.trans h3⟩

/-! ## The device status (R55, R62, R187) -/

theorem normDev_bits (x : BitVec 5) : (normDev Config.chip x).getLsbD 0 = x.getLsbD 0 ∧ (normDev Config.chip x).getLsbD 1 = x.getLsbD 2 ∧
    (normDev Config.chip x).getLsbD 2 = x.getLsbD 4 := by revert x; decide +kernel

theorem devChanged_iff (x : BitVec 5) : devChanged Config.chip x = true ↔
    x.getLsbD 1 = true ∨ x.getLsbD 3 = true ∨ x.getLsbD 4 = true := by revert x; decide +kernel

theorem devLevels_eq (x : BitVec 5) : devLevels Config.chip x = x &&& 0b00101#5 := by revert x; decide +kernel

/-- One bit of DEVSTAT written, the others kept. -/
theorem devPut_bit {i k : Nat} (v : Bool) (x : BitVec 5) (hi : i < 5) (hk : k < 5) :
    (devPut i v x).getLsbD k = if k = i then v else x.getLsbD k := by
  have key : ∀ i k : Fin 5, ∀ (v : Bool) (x : BitVec 5),
      (devPut i.val v x).getLsbD k.val = if k.val = i.val then v else x.getLsbD k.val := by decide +kernel
  exact key ⟨i, hi⟩ ⟨k, hk⟩ v x

/-! ## Packet events (R371, R379) -/

/-- The enabling conditions of a packet event are those of the spec. -/
theorem packetEnabled_iff {chip : Chip} (num : BitVec 4) (i : Idx) (e : Eng) :
    (e.packetEnabled chip num i && e.unlocked i) = true ↔ reachable chip num i e := by
  simp [Eng.packetEnabled, Eng.unlocked, reachable, Eng.connected, Eng.suspended, and_assoc]

end Sys2Proof.Machine
end

