-- ==== Sys2Proof/Laws/Invariant.lean ====
section
/-! SUPPORT. The invariant of ENG is kept by every completion of a phase, every event of the host and every register access. -/

-- one declaration at a time: kernel evaluations that wait for each other would hold a thread each
set_option Elab.async false

namespace Sys2Proof.Machine

/-! ## Bits confined to a mask -/

theorem confined_setBit {n : Nat} {x m : BitVec n} {k : Nat} (h : x &&& ~~~m = 0#n) (hk : bit k &&& ~~~m = 0#n) :
    setBit x k &&& ~~~m = 0#n := by
  have e : setBit x k &&& ~~~m = (x &&& ~~~m) ||| (bit k &&& ~~~m) := BitVec.and_or_distrib_right
  rw [e, h, hk]; exact BitVec.or_zero

theorem confined_and {n : Nat} {x m y : BitVec n} (h : x &&& ~~~m = 0#n) : (x &&& y) &&& ~~~m = 0#n := by
  have e : (x &&& y) &&& ~~~m = y &&& (x &&& ~~~m) := by rw [BitVec.and_comm x y, BitVec.and_assoc]
  rw [e, h]; exact BitVec.and_zero

theorem confined_masked {n : Nat} (v m : BitVec n) : (v &&& m) &&& ~~~m = 0#n := by
  rw [BitVec.and_assoc, BitVec.and_not_self]; exact BitVec.and_zero

/-- A mask may grow. -/
theorem confined_mono {w : Nat} {x m n : BitVec w} (h : x &&& ~~~m = 0#w) (hm : m &&& ~~~n = 0#w) : x &&& ~~~n = 0#w := by
  apply BitVec.eq_of_getLsbD_eq
  intro j hj
  have h1 := congrArg (fun w => BitVec.getLsbD w j) h
  have h2 := congrArg (fun w => BitVec.getLsbD w j) hm
  simp only [BitVec.getLsbD_and, BitVec.getLsbD_not, hj, decide_true, Bool.true_and, BitVec.getLsbD_zero] at h1 h2 ⊢
  revert h1 h2
  cases x.getLsbD j <;> cases m.getLsbD j <;> cases n.getLsbD j <;> simp

theorem confined_bit {n : Nat} {m : BitVec n} {k : Nat} (h : m.getLsbD k = true) : bit k &&& ~~~m = 0#n := by
  apply BitVec.eq_of_getLsbD_eq
  intro j hj
  simp only [BitVec.getLsbD_and, BitVec.getLsbD_not, hj, decide_true, Bool.true_and, BitVec.getLsbD_zero, bit_getLsbD]
  by_cases hk : k = j
  · subst hk; simp [h]
  · simp [hk]

theorem confined_self {n : Nat} (x : BitVec n) : x &&& ~~~x = 0#n := BitVec.and_not_self x

theorem confined_into_setBit {n : Nat} {x m : BitVec n} (k : Nat) (h : x &&& ~~~m = 0#n) : x &&& ~~~(setBit m k) = 0#n := by
  refine confined_mono h ?_
  simpa [setBit] using or_bit_clears_nothing m (bit k)

/-! ## Changes of one endpoint record -/

/-- A record that an index may hold. -/
def EpRec.fits (i : Idx) (r : EpRec) : Prop :=
  r.buf.packet.length ≤ 1023 ∧ ∀ b, r.buf = .full b true → i = 0#5 ∧ b.length = 8

theorem EngInv.fits {e : Eng} (h : EngInv Config.chip e) (i : Idx) : (e.epAt i).fits i := ⟨h.packets_short i, h.setup_packets i⟩

theorem EpRec.fits_buf {i : Idx} {r r' : EpRec} (h : r.fits i) (hb : r'.buf = r.buf) : r'.fits i := by
  unfold EpRec.fits at *; rw [hb]; exact h

theorem EpRec.fits_empty {i : Idx} {r : EpRec} (hb : r.buf = .empty) : r.fits i := by
  unfold EpRec.fits; rw [hb]
  exact ⟨Nat.zero_le _, fun b hc => by cases hc⟩

theorem EpRec.fits_data {i : Idx} {r : EpRec} {b : List Byte} (hb : r.buf = .full b false) (hl : b.length ≤ 1023) :
    r.fits i := by
  unfold EpRec.fits; rw [hb]
  exact ⟨hl, fun b hc => by cases hc⟩

theorem EngInv.setEp {e : Eng} {i : Idx} {r : EpRec} (h : EngInv Config.chip e) (hr : r.fits i) : EngInv Config.chip (e.setEp i r) :=
  { h with
    packets_short := fun j => by
      rw [epAt_setEp]; split
      · exact hr.1
      · exact h.packets_short j
    setup_packets := fun j b hb => by
      rw [epAt_setEp] at hb; split at hb
      · rename_i hj; subst hj; exact hr.2 b hb
      · exact h.setup_packets j b hb }

theorem EngInv.tick {e : Eng} (h : EngInv Config.chip e) : EngInv Config.chip e.tick := { h with }

/-! ## Completions (R181 to R193) -/

theorem confined_flag {x : RegWord} (h : x &&& ~~~(devintMask Config.chip) = 0#64) (k : Nat) (hk : (devintMask Config.chip).getLsbD k = true) :
    setBit x k &&& ~~~(devintMask Config.chip) = 0#64 := confined_setBit h (confined_bit hk)

theorem EngInv.endCommand {e : Eng} (h : EngInv Config.chip e) (c : Byte) : EngInv Config.chip (e.endCommand Config.chip c) :=
  { h with devintst_reserved := confined_flag h.devintst_reserved _ (by decide) }

theorem EngInv.endWrite {e : Eng} (h : EngInv Config.chip e) : EngInv Config.chip (e.endWrite Config.chip) :=
  { h with devintst_reserved := confined_flag h.devintst_reserved _ (by decide) }

theorem EngInv.endRead {e : Eng} (h : EngInv Config.chip e) (v : Half) : EngInv Config.chip (e.endRead Config.chip v) :=
  { h with devintst_reserved := confined_flag h.devintst_reserved _ (by decide) }

theorem EngInv.setMps {e : Eng} (h : EngInv Config.chip e) (i : Idx) (m : BitVec 10) : EngInv Config.chip (e.setMps Config.chip i m) := by
  unfold Eng.setMps
  split
  · rename_i hm
    have h' : EngInv Config.chip (e.setEp i (if e.rlzd.getLsbD i.toNat then { e.epAt i with mps := m }
        else { mps := m, stalled := false, nak := false, err := false, buf := .empty })) := by
      refine h.setEp ?_
      split
      · exact EpRec.fits_buf (h.fits i) rfl
      · exact EpRec.fits_empty rfl
    exact { h' with
      devintst_reserved := confined_flag h'.devintst_reserved _ (by decide)
      realised_marked := confined_setBit h.realised_marked (confined_bit hm)
      event_realised := confined_into_setBit _ h.event_realised }
  · exact h.setEp (EpRec.fits_buf (h.fits i) rfl)

theorem freePacket_short (n : Nat) : (Config.freePacket n).length ≤ 1023 := by
  simp only [Config.freePacket, List.length_take]; omega

theorem EngInv.validateBuffer {e : Eng} (h : EngInv Config.chip e) : EngInv Config.chip (e.validateBuffer Config.chip) := by
  unfold Eng.validateBuffer
  split
  · refine h.setEp (EpRec.fits_data rfl ?_)
    have : e.txlen.toNat < 1024 := e.txlen.isLt
    simp only [List.length_take]; omega
  · exact (h.setEp (EpRec.fits_data rfl (freePacket_short _))).tick

theorem EngInv.afterDevStatus {e : Eng} (h : EngInv Config.chip e) : EngInv Config.chip (e.afterDevStatus Config.chip) :=
  { h with
    suspended_connected := by
      have key : ∀ d : BitVec 5, (d.getLsbD 2 = true → d.getLsbD 0 = true) →
        (devLevels Config.chip d).getLsbD 2 = true → (devLevels Config.chip d).getLsbD 0 = true := by decide
      exact key _ h.suspended_connected }

theorem EngInv.writeData {e : Eng} (h : EngInv Config.chip e) (c : Byte) (d : Half) : EngInv Config.chip (e.writeData Config.chip c d) := by
  unfold Eng.writeData
  split
  · exact h.setEp (EpRec.fits_buf (h.fits _) rfl)
  · split
    · exact h.setMps _ _
    · split
      · exact { h with }
      · split
        · exact { h with }
        · exact h

theorem EngInv.complete {e : Eng} (h : EngInv Config.chip e) (p : PhaseWord) : EngInv Config.chip (e.complete Config.chip p) := by
  cases p with
  | selectEp i => exact EngInv.endCommand (e := { e with sel := i }) { h with } _
  | selectEpRd i =>
    simp only [Eng.complete, Eng.completeSelectEpRd]
    split
    · exact h.endRead _
    · exact (h.endRead _).tick
  | setEpStatus i => exact h.endCommand _
  | setMaxpkt i => exact h.endCommand _
  | setAddress => exact h.endCommand _
  | configureDevice => exact h.endCommand _
  | clearBuffer => exact (h.setEp (EpRec.fits_empty rfl)).endCommand _
  | validateBuffer => exact h.validateBuffer.endCommand _
  | getDevStatus => exact h.endCommand _
  | getDevStatusRd =>
    simp only [Eng.complete, Eng.completeGetDevStatusRd]
    split
    · exact h.afterDevStatus.endRead _
    · exact (h.endRead _).tick
  | wrdata d =>
    simp only [Eng.complete, Eng.completeWrdata]
    split
    · exact (h.writeData _ d).endWrite
    · exact h.endWrite
  | reserved w =>
    simp only [Eng.complete, Eng.completeReserved, Eng.reservedPhase]
    split
    · exact (h.endRead _).tick
    · split
      · exact h.endWrite
      · split
        · exact h.endWrite.tick
        · exact (h.endRead _).tick.tick

theorem EngInv.advance {e e' : Eng} (h : EngInv Config.chip e) {r : Bool} (ha : e.advance Config.chip r = some e') : EngInv Config.chip e' := by
  simp only [Eng.advance, Option.map_eq_some_iff] at ha
  obtain ⟨p, -, rfl⟩ := ha
  exact h.complete p

/-! ## Events of the host (R370 to R381) -/

theorem EngInv.setEpInt {e : Eng} {i : Idx} (h : EngInv Config.chip e) (hr : e.rlzd.getLsbD i.toNat = true) : EngInv Config.chip (setEpInt Config.chip i e) :=
  { h with
    devintst_reserved := by
      simp only [Machine.setEpInt]
      split
      · exact confined_flag h.devintst_reserved _ (by decide)
      · exact h.devintst_reserved
    event_realised := confined_setBit h.event_realised (confined_bit hr) }

theorem packetEnabled_realised {e : Eng} {num : BitVec 4} {i : Idx} (h : e.packetEnabled Config.chip num i = true) :
    e.rlzd.getLsbD i.toNat = true := by
  simp only [Eng.packetEnabled, Bool.and_eq_true] at h
  exact h.1.2

theorem EngInv.wire {e e' : Eng} {ev : WireEvent} {o : WireOutcome} (h : EngInv Config.chip e) (hw : e.wire Config.chip ev = some (e', o)) :
    EngInv Config.chip e' := by
  cases ev with
  | setup b =>
    simp only [Eng.wire, Eng.wireSetup] at hw
    split at hw
    · rename_i hen
      cases hw
      simp only [Bool.and_eq_true] at hen
      refine EngInv.setEpInt ?_ (packetEnabled_realised hen.1.1)
      refine EngInv.setEp (EngInv.setEp h ?_) (EpRec.fits_empty rfl)
      exact ⟨by show b.toList.length ≤ 1023; simp, fun b' hb' => by cases hb'; exact ⟨rfl, by simp⟩⟩
    · cases hw
  | out num bytes =>
    simp only [Eng.wire, Eng.wireOut] at hw
    split at hw
    · rename_i hen
      simp only [Bool.and_eq_true] at hen
      have hw' := congrArg Prod.fst (Option.some.inj hw)
      simp only [Eng.offerOut] at hw'
      split at hw'
      · rw [← hw']; exact h
      · split at hw'
        · rw [← hw']; exact h.setEp (EpRec.fits_buf (h.fits _) rfl)
        · rename_i hfit
          rw [← hw']
          refine EngInv.setEpInt (h.setEp (EpRec.fits_data rfl ?_)) (packetEnabled_realised hen.1)
          have : (e.epAt (outIdx num)).mps.toNat < 1024 := (e.epAt (outIdx num)).mps.isLt
          simp only [Bool.or_eq_true, decide_eq_true_eq, not_or] at hfit
          omega
    · cases hw
  | inn num =>
    simp only [Eng.wire, Eng.wireIn] at hw
    split at hw
    · rename_i hen
      simp only [Bool.and_eq_true] at hen
      have hw' := congrArg Prod.fst (Option.some.inj hw)
      simp only [Eng.askIn] at hw'
      split at hw'
      · rw [← hw']; exact h
      · split at hw'
        · rw [← hw']; exact h.setEp (EpRec.fits_buf (h.fits _) rfl)
        · rw [← hw']; exact EngInv.setEpInt (h.setEp (EpRec.fits_empty rfl)) (packetEnabled_realised hen.1)
    · cases hw
  | sof =>
    simp only [Eng.wire, Eng.wireSof] at hw
    split at hw
    · cases hw; exact { h with devintst_reserved := confined_flag h.devintst_reserved _ (by decide) }
    · cases hw
  | busReset =>
    simp only [Eng.wire, Eng.wireBusReset] at hw
    split at hw
    · cases hw
      have key : ∀ d : BitVec 5, (devPut Config.chip.bitRST true (devPut Config.chip.bitSUS false d)).getLsbD Config.chip.bitSUS = false := by decide
      have hb : ∀ i : Idx, ∀ e' : Eng, e'.ep = e.ep.map EpRec.busReset → (e'.epAt i).buf = .empty := by
        intro i e' he
        simp only [Eng.epAt, he, Vector.getElem_map, EpRec.busReset]
      exact { h with
        devintst_reserved := confined_flag h.devintst_reserved _ (by decide)
        packets_short := fun i => by rw [hb i _ rfl]; exact Nat.zero_le _
        setup_packets := fun i b hc => by rw [hb i _ rfl] at hc; cases hc
        suspended_connected := fun hs => by
          simp only [Eng.suspended, key] at hs; cases hs }
    · cases hw
  | connect v =>
    simp only [Eng.wire, Eng.wireConnect] at hw
    split at hw
    · cases hw
      have key : ∀ (v : Bool) (d : BitVec 5),
        (devPut Config.chip.bitCON v (devPut Config.chip.bitCONCH true (if v then d else devPut Config.chip.bitSUS false d))).getLsbD
          Config.chip.bitSUS = true →
        (devPut Config.chip.bitCON v (devPut Config.chip.bitCONCH true (if v then d else devPut Config.chip.bitSUS false d))).getLsbD
          Config.chip.bitCON = true := by decide
      exact { h with
        devintst_reserved := confined_flag h.devintst_reserved _ (by decide)
        suspended_connected := key v _ }
    · cases hw
  | suspend v =>
    simp only [Eng.wire, Eng.wireSuspend] at hw
    split at hw
    · rename_i hen
      cases hw
      have key : ∀ (v : Bool) (d : BitVec 5), d.getLsbD Config.chip.bitCON = true →
        (devPut Config.chip.bitSUS v (devPut Config.chip.bitSUSCH true d)).getLsbD Config.chip.bitCON = true := by decide
      simp only [Bool.and_eq_true] at hen
      exact { h with
        devintst_reserved := confined_flag h.devintst_reserved _ (by decide)
        suspended_connected := fun _ => key v _ hen.1 }
    · cases hw

/-! ## Register accesses (R41 to R52) -/

theorem EngInv.readReg {e : Eng} (h : EngInv Config.chip e) (r : Reg) : EngInv Config.chip (e.readReg Config.chip r).2 := by
  cases r <;> simp only [Eng.readReg] <;> first | exact h | exact h.tick | skip
  · split
    · exact h
    · exact h.tick
  · split
    · simp only [Eng.readRxdata]
      exact { h with
        dpctl_reserved := by
          dsimp only
          split
          · exact confined_and h.dpctl_reserved
          · exact h.dpctl_reserved }
    · exact h.tick
  · split
    · exact h
    · exact h

theorem EngInv.closeTx {e : Eng} (h : EngInv Config.chip e) : EngInv Config.chip (e.closeTx Config.chip) :=
  { h with
    dpctl_reserved := by
      simp only [Eng.closeTx]
      split
      · exact confined_and h.dpctl_reserved
      · exact h.dpctl_reserved }

theorem EngInv.writeReg {e e' : Eng} (h : EngInv Config.chip e) {r : Reg} {v : RegWord} (hw : e.writeReg Config.chip r v = .ok e') : EngInv Config.chip e' := by
  cases r <;> simp only [Eng.writeReg, Eng.writeRealize] at hw <;> (try (split at hw)) <;> cases hw
  · exact h
  · exact { h with devinten_reserved := confined_masked v (devintMask Config.chip) }
  · exact { h with devintst_reserved := confined_and h.devintst_reserved }
  · exact { h with }
  · exact h
  · exact h
  · exact EngInv.closeTx (e := { e with txacc := _ }) { h with }
  · exact h
  · exact h
  · exact EngInv.closeTx (e := { e with txlen := _, txacc := [] }) { h with }
  · exact h
  · have key : ∀ n : BitVec 4, (outIdx n).getLsbD 0 = false := by decide
    exact { h with
      dpctl_reserved := confined_masked v (dpctlMask Config.chip)
      rxidx_out := by
        simp only [Eng.writeDpctl]
        split
        · exact key _
        · exact h.rxidx_out }
  · exact h
  · exact { h with
      devintst_reserved := by
        simp only [Eng.writeEpinten]
        split
        · exact confined_flag h.devintst_reserved _ (by decide)
        · exact h.devintst_reserved }
  · exact { h with event_realised := confined_and h.event_realised }
  · rename_i hz
    have hz' : e.realize &&& ~~~(v.setWidth Config.wordW) = 0#32 := by simpa using hz
    exact { h with realised_marked := confined_mono h.realised_marked hz' }

end Sys2Proof.Machine
end

