-- ==== Sys2Proof/Laws/Kept.lean ====
section
/-! SUPPORT. What every access of SEQ keeps, whatever ENG and WIRE do before it: SEQ's own state, the invariant of ENG, and what
is never taken back (the marks, the confirmations, the poisoning); and hence what every register operation keeps. -/

-- one declaration at a time: kernel evaluations that wait for each other would hold a thread each
set_option Elab.async false

namespace Sys2Proof.Machine

/-! ## SEQ's own state -/

theorem sameSeq_iff {s t : State} :
    SameSeq s t ↔ ∃ e sl wl, t = { s with eng := e, slots := sl, wireLog := wl } := by
  constructor
  · intro h; exact ⟨_, _, _, h.symm⟩
  · rintro ⟨e, sl, wl, rfl⟩; rfl

theorem SameSeq.refl (s : State) : SameSeq s s := rfl

theorem SameSeq.trans {s t u : State} (h1 : SameSeq s t) (h2 : SameSeq t u) : SameSeq s u := by
  obtain ⟨e1, sl1, wl1, rfl⟩ := sameSeq_iff.mp h1
  obtain ⟨e2, sl2, wl2, rfl⟩ := sameSeq_iff.mp h2
  exact sameSeq_iff.mpr ⟨_, _, _, rfl⟩

theorem sameSeq_eng (s : State) (e : Eng) : SameSeq s { s with eng := e } := rfl

variable {chip : Chip}

/-! ## What ENG never takes back -/

/-- The marks (R49), the confirmations (R206) and the poisoning (R455) only grow. -/
structure EngGrows (e e' : Eng) : Prop where
  realize : e.realize &&& ~~~e'.realize = 0#32
  rlzd : e.rlzd &&& ~~~e'.rlzd = 0#32
  poison : e.devstatPoison = true → e'.devstatPoison = true

theorem EngGrows.refl (e : Eng) : EngGrows e e := ⟨confined_self _, confined_self _, id⟩

theorem EngGrows.trans {e f g : Eng} (h1 : EngGrows e f) (h2 : EngGrows f g) : EngGrows e g :=
  ⟨confined_mono h1.realize h2.realize, confined_mono h1.rlzd h2.rlzd, h2.poison ∘ h1.poison⟩

/-- A change of none of the three. -/
theorem EngGrows.of_eq {e f : Eng} (h1 : f.realize = e.realize) (h2 : f.rlzd = e.rlzd)
    (h3 : f.devstatPoison = e.devstatPoison) : EngGrows e f :=
  ⟨by rw [h1]; exact confined_self _, by rw [h2]; exact confined_self _, by rw [h3]; exact id⟩

theorem EngGrows.setMps (i : Idx) (m : BitVec 10) (e : Eng) : EngGrows e (e.setMps chip i m) := by
  unfold Eng.setMps
  split
  · exact ⟨confined_self _, confined_into_setBit _ (confined_self _), id⟩
  · exact EngGrows.of_eq rfl rfl rfl

theorem EngGrows.writeData (c : Byte) (d : Half) (e : Eng) : EngGrows e (e.writeData chip c d) := by
  unfold Eng.writeData
  split
  · exact EngGrows.of_eq rfl rfl rfl
  · split
    · exact EngGrows.setMps _ _ _
    · split
      · exact EngGrows.of_eq rfl rfl rfl
      · split <;> exact EngGrows.of_eq rfl rfl rfl

theorem EngGrows.complete (p : PhaseWord) (e : Eng) : EngGrows e (e.complete chip p) := by
  cases p <;> simp only [Eng.complete]
  case selectEpRd i => simp only [Eng.completeSelectEpRd]; split <;> exact EngGrows.of_eq rfl rfl rfl
  case validateBuffer =>
    simp only [Eng.completeValidateBuffer, Eng.validateBuffer]
    split <;> exact EngGrows.of_eq rfl rfl rfl
  case getDevStatusRd =>
    simp only [Eng.completeGetDevStatusRd]
    split
    · refine ⟨confined_self _, confined_self _, fun h => ?_⟩
      show (e.devstatPoison || _) = true
      rw [h]; rfl
    · exact EngGrows.of_eq rfl rfl rfl
  case wrdata d =>
    simp only [Eng.completeWrdata]
    split
    · exact (EngGrows.writeData _ d e).trans (EngGrows.of_eq rfl rfl rfl)
    · exact EngGrows.of_eq rfl rfl rfl
  case reserved w =>
    simp only [Eng.completeReserved, Eng.reservedPhase]
    split
    · exact EngGrows.of_eq rfl rfl rfl
    · split
      · exact EngGrows.of_eq rfl rfl rfl
      · split <;> exact EngGrows.of_eq rfl rfl rfl
  all_goals exact EngGrows.of_eq rfl rfl rfl

theorem EngGrows.wire {e e' : Eng} {ev : WireEvent} {o : WireOutcome} (hw : e.wire chip ev = some (e', o)) : EngGrows e e' := by
  cases ev <;> simp only [Eng.wire, Eng.wireSetup, Eng.wireOut, Eng.wireIn, Eng.wireSof, Eng.wireBusReset, Eng.wireConnect,
    Eng.wireSuspend] at hw <;> split at hw <;> try cases hw
  case setup.isTrue => exact EngGrows.of_eq rfl rfl rfl
  case out.isTrue num bytes _ =>
    have hw' := congrArg Prod.fst (Option.some.inj hw)
    simp only [Eng.offerOut] at hw'
    split at hw'
    · rw [← hw']; exact EngGrows.refl _
    · split at hw' <;> rw [← hw'] <;> exact EngGrows.of_eq rfl rfl rfl
  case inn.isTrue num _ =>
    have hw' := congrArg Prod.fst (Option.some.inj hw)
    simp only [Eng.askIn] at hw'
    split at hw'
    · rw [← hw']; exact EngGrows.refl _
    · split at hw' <;> rw [← hw'] <;> exact EngGrows.of_eq rfl rfl rfl
  all_goals exact EngGrows.of_eq rfl rfl rfl

theorem EngGrows.readReg (r : Reg) (e : Eng) : EngGrows e (e.readReg chip r).2 := by
  cases r <;> simp only [Eng.readReg] <;> repeat' split
  all_goals exact EngGrows.of_eq rfl rfl rfl

theorem EngGrows.writeReg {e e' : Eng} {r : Reg} {v : RegWord} (hw : e.writeReg chip r v = .ok e') : EngGrows e e' := by
  cases r <;> simp only [Eng.writeReg, Eng.writeRealize] at hw <;> (try (split at hw)) <;> cases hw
  case REALIZE.isFalse.refl hz =>
    refine ⟨?_, confined_self _, id⟩
    show e.realize &&& ~~~(v.setWidth Config.wordW) = 0#32
    simpa using hz
  all_goals exact EngGrows.of_eq rfl rfl rfl

/-! ## One access, one register operation -/

/-- What every access keeps; the invariant on the chip the spec describes. -/
structure Kept (chip : Chip) (s t : State) : Prop where
  seq : SameSeq s t
  inv : chip = Config.chip → EngInv chip s.eng → EngInv chip t.eng
  grows : EngGrows s.eng t.eng

theorem Kept.refl (s : State) : Kept chip s s := ⟨SameSeq.refl s, fun _ => id, EngGrows.refl _⟩

theorem Kept.trans {s t u : State} (h1 : Kept chip s t) (h2 : Kept chip t u) : Kept chip s u :=
  ⟨h1.seq.trans h2.seq, fun hk => h2.inv hk ∘ h1.inv hk, h1.grows.trans h2.grows⟩

theorem kept_engMove (s : State) : Kept chip s (engMove chip s) := by
  unfold engMove
  split
  · rename_i e he
    refine ⟨rfl, fun hk h => by subst hk; exact h.advance he, ?_⟩
    simp only [Eng.advance, Option.map_eq_some_iff] at he
    obtain ⟨p, -, rfl⟩ := he
    exact EngGrows.complete p _
  · exact Kept.refl s

theorem kept_wireState (ev : WireEvent) (s : State) : Kept chip s (wireState ev (s.eng.wire chip ev) s) := by
  cases hw : s.eng.wire chip ev with
  | none => exact Kept.refl s
  | some r =>
    obtain ⟨e, o⟩ := r
    exact ⟨rfl, fun hk h => by subst hk; exact h.wire hw, EngGrows.wire hw⟩

theorem kept_applyMoves (ms : List Move) (s : State) : Kept chip s (applyMoves chip ms s) := by
  induction ms generalizing s with
  | nil => exact Kept.refl s
  | cons m ms ih =>
    refine Kept.trans ?_ (ih _)
    cases m with
    | eng => exact kept_engMove s
    | wire ev => exact kept_wireState ev s

theorem kept_beforeAccess (s : State) : Kept chip s (beforeAccess chip s) := by
  unfold beforeAccess
  split
  · exact Kept.refl s
  · rename_i ms rest _
    have h : Kept chip s { s with slots := rest } := ⟨rfl, fun _ => id, EngGrows.refl _⟩
    exact h.trans (kept_applyMoves ms _)

theorem kept_closed : AccessClosed chip (Kept chip) where
  order := ⟨Kept.refl, fun _ _ _ => Kept.trans⟩
  before := kept_beforeAccess
  eng := kept_engMove
  read := fun r _ => ⟨rfl, fun hk h => by subst hk; exact h.readReg r, EngGrows.readReg r _⟩
  write := fun _ _ _ _ h => ⟨rfl, fun hk hi => by subst hk; exact hi.writeReg h, EngGrows.writeReg h⟩
  lock := fun _ _ => ⟨rfl, fun _ h => { h with }, EngGrows.of_eq rfl rfl rfl⟩

end Sys2Proof.Machine
end

