-- ==== Sys2Proof/Laws/Only.lean ====
section
/-! SUPPORT. Which state of SEQ an operation writes: a relation that names what may change, and every operation of SEQ in it. -/

-- one declaration at a time: kernel evaluations that wait for each other would hold a thread each
set_option Elab.async false

namespace Sys2Proof.Machine

/-- What may change over an instruction: never the configuration, the descriptor table, the mask, the pass's own bits, the
hooks or the turns; CONFIG, SU, HND and DEVFLAGS only where the flag is set. -/
structure Writes (config su hnd devflags : Bool) (s t : State) : Prop where
  cfg : t.cfg = s.cfg
  desc : t.desc = s.desc
  irqMask : t.irqMask = s.irqMask
  inIsr : t.inIsr = s.inIsr
  snap : t.snap = s.snap
  hooks : t.hSof = s.hSof ∧ t.hDevst = s.hDevst ∧ t.hReq1 = s.hReq1 ∧ t.hReq2 = s.hReq2 ∧ t.hReq3 = s.hReq3 ∧
    t.hCustom = s.hCustom
  turns : t.turns = s.turns
  keptConfig : config = false → t.config = s.config
  keptSu : su = false → t.su = s.su
  keptHnd : hnd = false → t.hnd = s.hnd
  keptDevflags : devflags = false → t.devflags = s.devflags
  grows : EngGrows s.eng t.eng

variable {chip : Chip} {c u h d : Bool} {α β : Type}

theorem Writes.refl (s : State) : Writes c u h d s s :=
  { cfg := rfl, desc := rfl, irqMask := rfl, inIsr := rfl, snap := rfl, hooks := ⟨rfl, rfl, rfl, rfl, rfl, rfl⟩, turns := rfl
    keptConfig := fun _ => rfl, keptSu := fun _ => rfl, keptHnd := fun _ => rfl, keptDevflags := fun _ => rfl
    grows := EngGrows.refl _ }

theorem Writes.trans {s t v : State} (a : Writes c u h d s t) (b : Writes c u h d t v) : Writes c u h d s v where
  cfg := b.cfg.trans a.cfg
  desc := b.desc.trans a.desc
  irqMask := b.irqMask.trans a.irqMask
  inIsr := b.inIsr.trans a.inIsr
  snap := b.snap.trans a.snap
  hooks := by
    obtain ⟨a1, a2, a3, a4, a5, a6⟩ := a.hooks
    obtain ⟨b1, b2, b3, b4, b5, b6⟩ := b.hooks
    exact ⟨b1.trans a1, b2.trans a2, b3.trans a3, b4.trans a4, b5.trans a5, b6.trans a6⟩
  turns := b.turns.trans a.turns
  keptConfig := fun x => (b.keptConfig x).trans (a.keptConfig x)
  keptSu := fun x => (b.keptSu x).trans (a.keptSu x)
  keptHnd := fun x => (b.keptHnd x).trans (a.keptHnd x)
  keptDevflags := fun x => (b.keptDevflags x).trans (a.keptDevflags x)
  grows := a.grows.trans b.grows

theorem Kept.writes {s t : State} (k : Kept chip s t) : Writes c u h d s t := by
  obtain ⟨e, sl, wl, rfl⟩ := sameSeq_iff.mp k.seq
  exact { (Writes.refl s : Writes c u h d s s) with grows := k.grows }

theorem writes_order : Composes (Writes c u h d) := ⟨Writes.refl, fun _ _ _ => Writes.trans⟩

theorem writes_closed : AccessClosed chip (Writes c u h d) where
  order := writes_order
  before := fun s => (kept_beforeAccess s).writes
  eng := fun s => (kept_engMove s).writes
  read := fun r s => ((kept_closed (chip := chip)).read r s).writes
  write := fun r v s e he => ((kept_closed (chip := chip)).write r v s e he).writes
  lock := fun o s => ((kept_closed (chip := chip)).lock o s).writes

/-- An update of fields that are none of those the relation guards. -/
theorem keeps_modify {R : State → State → Prop} {f : State → State} (hf : ∀ s, R s (f s)) :
    Keeps R (modify f : SeqM Unit) := fun s => hf s

/-- Closes goals that an update of other fields keeps the guarded ones. -/
theorem Writes.same {s t : State} (hs : ∃ ct stage hm fr r lg ha hs fs ret,
    t = { s with ct := ct, stage := stage, hookmem := hm, frames := fr, result := r, hookLog := lg, hookAnswers := ha,
                 handlerScripts := hs, fresh := fs, ret := ret }) : Writes c u h d s t := by
  obtain ⟨ct, stage, hm, fr, r, lg, ha, hs, fs, ret, rfl⟩ := hs
  exact { (Writes.refl s : Writes c u h d s s) with }

theorem writes_modify {f : State → State} (hf : ∀ s, ∃ ct stage hm fr r lg ha hs fs ret,
    f s = { s with ct := ct, stage := stage, hookmem := hm, frames := fr, result := r, hookLog := lg, hookAnswers := ha,
                   handlerScripts := hs, fresh := fs, ret := ret }) : Keeps (Writes c u h d) (modify f : SeqM Unit) :=
  keeps_modify fun s => Writes.same (hf s)

theorem writes_setResult (r : ReqResult) : Keeps (Writes c u h d) (setResult r) :=
  writes_modify fun _ => ⟨_, _, _, _, _, _, _, _, _, _, rfl⟩
theorem writes_setRet (r : Ret) : Keeps (Writes c u h d) (setRet r) :=
  writes_modify fun _ => ⟨_, _, _, _, _, _, _, _, _, _, rfl⟩
theorem writes_setReply (p : Ptr) (n : Nat) : Keeps (Writes c u h d) (setReply p n) :=
  writes_modify fun _ => ⟨_, _, _, _, _, _, _, _, _, _, rfl⟩
theorem writes_pushFrames (fs : List Frame) : Keeps (Writes c u h d) (pushFrames fs) :=
  writes_modify fun _ => ⟨_, _, _, _, _, _, _, _, _, _, rfl⟩
theorem writes_logHook (k : HookCall) : Keeps (Writes c u h d) (logHook k) :=
  writes_modify fun _ => ⟨_, _, _, _, _, _, _, _, _, _, rfl⟩
theorem writes_modifyCt (f : Ct → Ct) : Keeps (Writes c u h d) (modifyCt f) :=
  writes_modify fun _ => ⟨_, _, _, _, _, _, _, _, _, _, rfl⟩

/-! ## Data spaces -/

theorem writes_tableRead (t : List Byte) (off n : Nat) : Keeps (Writes c u h d) (tableRead t off n) := by
  unfold tableRead
  split
  · exact Keeps.pure writes_order _
  · exact Keeps.raise writes_order _

theorem writes_stageRead (off n : Nat) : Keeps (Writes c u h d) (stageRead off n) := by
  intro s
  simp only [stageRead]
  split
  · exact Writes.refl s
  · exact Writes.same ⟨_, _, _, _, _, _, _, _, _, _, rfl⟩

theorem writes_memRead (p : Ptr) (n : Nat) : Keeps (Writes c u h d) (memRead p n) := by
  unfold memRead
  split
  · exact Keeps.pure writes_order _
  · refine Keeps.bind writes_order (Keeps.get writes_order) fun s => ?_
    split
    · exact writes_stageRead _ _
    · exact writes_tableRead _ _ _
    · exact writes_tableRead _ _ _

theorem writes_stageWrite (off : Nat) (bs : List Byte) : Keeps (Writes c u h d) (stageWrite off bs) := by
  intro s
  simp only [stageWrite]
  repeat' split
  · exact Writes.refl s
  · exact Writes.same ⟨_, _, _, _, _, _, _, _, _, _, rfl⟩
  · exact Writes.same ⟨_, _, _, _, _, _, _, _, _, _, rfl⟩
  · exact Writes.refl s

theorem writes_memWrite (p : Ptr) (bs : List Byte) : Keeps (Writes c u h d) (memWrite p bs) := by
  unfold memWrite
  split
  · exact Keeps.pure writes_order _
  · split
    · exact writes_stageWrite _ _
    · exact Keeps.raise writes_order _
    · exact Keeps.raise writes_order _

theorem writes_liftWalk (x : Except Fault α) : Keeps (Writes c u h d) (liftWalk x) := by
  unfold liftWalk
  split
  · exact Keeps.pure writes_order _
  · exact Keeps.raise writes_order _

/-! ## The Descriptor Parser -/

theorem keeps_settingFrom {R : State → State → Prop} (hR : AccessClosed chip R) (t : List Byte) (x y : Byte) (fuel p : Nat)
    (k l : Option Byte) : Keeps R (settingFrom chip t x y fuel p k l) := by
  have hw : ∀ {γ : Type} (z : Except Fault γ), Keeps R (liftWalk z) := by
    intro γ z; unfold liftWalk; split
    · exact Keeps.pure hR.order _
    · exact Keeps.raise hR.order _
  induction fuel generalizing p k l with
  | zero => exact Keeps.raise hR.order _
  | succ fuel ih =>
    unfold settingFrom
    refine Keeps.bind hR.order (hw _) fun _ => ?_
    split
    · exact Keeps.pure hR.order _
    · refine Keeps.bind hR.order (hw _) fun _ => ?_
      split
      · exact Keeps.bind hR.order (hw _) fun _ => ih _ _ _
      · split
        · exact Keeps.bind hR.order (hw _) fun _ => ih _ _ _
        · split
          · exact Keeps.bind hR.order (hw _) fun _ => Keeps.bind hR.order (keeps_configureEndpoint hR _ _) fun _ => ih _ _ _
          · exact ih _ _ _

theorem keeps_configureForSetting {R : State → State → Prop} (hR : AccessClosed chip R) (x y : Byte) :
    Keeps R (configureForSetting chip x y) := by
  unfold configureForSetting
  split
  · exact keeps_commandWrite hR _ _
  · exact Keeps.bind hR.order (Keeps.get hR.order) fun s => Keeps.bind hR.order (keeps_settingFrom hR _ _ _ _ _ _ _) fun _ =>
      keeps_commandWrite hR _ _

/-! ## The Control Transfer Engine -/

theorem writes_dataIn : Keeps (Writes c u h d) (dataIn chip) := by
  unfold dataIn
  exact Keeps.bind writes_order (Keeps.get writes_order) fun s =>
    Keeps.bind writes_order (writes_memRead _ _) fun _ =>
      Keeps.bind writes_order (keeps_epWrite writes_closed _ _) fun _ => writes_modifyCt _

theorem writes_stallControl : Keeps (Writes c u h d) (stallControl chip) :=
  Keeps.bind writes_order (keeps_commandWrite writes_closed _ _) fun _ => writes_modifyCt _

theorem writes_startDispatch (k : Frame) : Keeps (Writes c u h d) (startDispatch k) :=
  Keeps.bind writes_order (Keeps.get writes_order) fun _ =>
    Keeps.bind writes_order (writes_setReply _ _) fun _ => writes_pushFrames _

theorem writes_captureSetup (bs : List Byte) : Keeps (Writes c true h d) (captureSetup bs) :=
  keeps_modify fun s => { (Writes.refl s : Writes c true h d s s) with keptSu := fun hf => by cases hf }

theorem writes_onSetup : Keeps (Writes c true h d) (onSetup chip) := by
  unfold onSetup
  refine Keeps.bind writes_order (writes_modifyCt _) fun _ => Keeps.bind writes_order (keeps_epRead writes_closed _ _) fun _ =>
    Keeps.bind writes_order (writes_captureSetup _) fun _ => Keeps.bind writes_order (Keeps.get writes_order) fun s => ?_
  split
  · exact writes_startDispatch _
  · exact writes_modifyCt _

theorem writes_onOutData : Keeps (Writes c u h d) (onOutData chip) := by
  unfold onOutData
  refine Keeps.bind writes_order (Keeps.get writes_order) fun _ =>
    Keeps.bind writes_order (keeps_epRead writes_closed _ _) fun _ => Keeps.bind writes_order (writes_memWrite _ _) fun _ =>
    Keeps.bind writes_order (writes_modifyCt _) fun _ => Keeps.bind writes_order (Keeps.get writes_order) fun s => ?_
  split
  · exact writes_startDispatch _
  · exact Keeps.pure writes_order _

theorem writes_onOutStatus : Keeps (Writes c u h d) (onOutStatus chip) :=
  Keeps.bind writes_order (keeps_epRead writes_closed _ _) fun _ => writes_modifyCt _

theorem writes_onIn : Keeps (Writes c u h d) (onIn chip) :=
  Keeps.bind writes_order (Keeps.get writes_order) fun _ => Keeps.bind writes_order (writes_modifyCt _) fun _ => writes_dataIn

/-! ## The Standard Request Handler -/

theorem writes_replyBytes (bs : List Byte) : Keeps (Writes c u h d) (replyBytes bs) :=
  Keeps.bind writes_order (writes_stageWrite _ _) fun _ =>
    Keeps.bind writes_order (writes_setReply _ _) fun _ => writes_setResult _

theorem writes_hookAnswer : Keeps (Writes c u h d) hookAnswer := by
  intro s
  simp only [hookAnswer]
  split <;> exact Writes.same ⟨_, _, _, _, _, _, _, _, _, _, rfl⟩

theorem writes_callHook (id : Nat) : Keeps (Writes c u h d) (callHook id) := by
  unfold callHook
  refine Keeps.bind writes_order (Keeps.get writes_order) fun _ => Keeps.bind writes_order (writes_logHook _) fun _ =>
    Keeps.bind writes_order writes_hookAnswer fun a => ?_
  split
  · exact Keeps.pure writes_order _
  · exact Keeps.bind writes_order (writes_modify fun _ => ⟨_, _, _, _, _, _, _, _, _, _, rfl⟩) fun _ =>
      Keeps.pure writes_order _

theorem writes_typeHook (k : Option Nat) : Keeps (Writes c u h d) (typeHook k) := by
  unfold typeHook
  split
  · exact writes_setResult _
  · exact Keeps.bind writes_order (writes_callHook _) fun _ => writes_setResult _

theorem writes_customHook (k : Option Nat) : Keeps (Writes c u h d) (customHook k) := by
  unfold customHook
  split
  · exact writes_pushFrames _
  · refine Keeps.bind writes_order (writes_callHook _) fun r => ?_
    split
    · exact writes_setResult _
    · exact writes_pushFrames _

theorem writes_deviceFeature (f : SetupFields) : Keeps (Writes c u h d) (deviceFeature f) := by
  unfold deviceFeature
  split <;> exact writes_setResult _

/-! ## The Interrupt Dispatcher -/

theorem writes_frameArm : Keeps (Writes c u h d) (frameArm chip) := by
  unfold frameArm
  refine Keeps.bind writes_order (keeps_regWrite writes_closed _ _) fun _ =>
    Keeps.bind writes_order (Keeps.get writes_order) fun s => ?_
  split
  · exact writes_logHook _
  · exact Keeps.pure writes_order _

theorem writes_devStatArm : Keeps (Writes c u h true) (devStatArm chip) := by
  unfold devStatArm
  refine Keeps.bind writes_order (keeps_regWrite writes_closed _ _) fun _ =>
    Keeps.bind writes_order (keeps_commandRead writes_closed _) fun v => ?_
  dsimp only
  split
  · refine Keeps.bind writes_order (keeps_modify fun s =>
      { (Writes.refl s : Writes c u h true s s) with keptDevflags := fun hf => by cases hf }) fun _ =>
      Keeps.bind writes_order (Keeps.get writes_order) fun s => ?_
    split
    · exact writes_logHook _
    · exact Keeps.pure writes_order _
  · exact Keeps.pure writes_order _

theorem writes_nextScript : Keeps (Writes c u h d) nextScript := by
  intro s
  simp only [nextScript]
  split
  · exact Writes.same ⟨_, _, _, _, _, _, _, _, _, _, rfl⟩
  · exact Writes.refl s

theorem writes_endpointEvent (i : Idx) : Keeps (Writes c u h d) (endpointEvent chip i) := by
  unfold endpointEvent callHandler
  refine Keeps.bind writes_order (keeps_regWrite writes_closed _ _) fun _ =>
    Keeps.bind writes_order (keeps_readRawStatus writes_closed _) fun _ =>
      Keeps.bind writes_order (Keeps.get writes_order) fun s => ?_
  split
  · exact Keeps.pure writes_order _
  · exact writes_pushFrames _
  · exact Keeps.bind writes_order (writes_logHook _) fun _ => Keeps.bind writes_order writes_nextScript fun _ =>
      writes_pushFrames _

/-! ## From a computation to a step's next state -/

/-- The next state of a computation is where it ended, or that state hung. -/
theorem runSeq_next {m : SeqM α} {s t : State} (hn : runSeq m s = .next t) :
    t = stateOf (m s) ∨ ∃ b, t = hangState b (stateOf (m s)) := by
  unfold runSeq outcome at hn
  split at hn
  · rename_i a s' he; left; cases hn; rw [he]; rfl
  · rename_i b s' he; right; cases hn; exact ⟨b, by rw [he]; rfl⟩
  · cases hn
  · cases hn

theorem runCall_next {m : SeqM α} {s t : State} (hn : runCall m s = .next t) : runSeq m s = .next t := by
  unfold runCall at hn
  split at hn
  · exact hn
  · cases hn

theorem Writes.next {m : SeqM α} {s t : State} (hm : Keeps (Writes c u h d) m) (hn : runSeq m s = .next t) :
    Writes c u h d s t := by
  rcases runSeq_next hn with rfl | ⟨b, rfl⟩
  · exact hm s
  · refine (hm s).trans ?_
    exact { (Writes.refl _ : Writes c u h d _ _) with grows := EngGrows.of_eq rfl rfl rfl }

end Sys2Proof.Machine
end

