-- ==== Sys2Proof/Laws/PerInstr.lean ====
section
/-! SUPPORT. The per-instruction family `Codes`: the code of a row is of the format the opcode table gives the row, and has as
many bytes as that format (R120); rows of the formats CALL and WIRE, and ENDPOINT_EVENT, have none. -/

-- one declaration at a time: kernel evaluations that wait for each other would hold a thread each
set_option Elab.async false

namespace Sys2Proof

/-- The binary format the opcode table gives a row. -/
def rowFormat : Instr → Option Format
  | .selectEp _ | .selectEpRd _ | .setEpStatus _ | .setMaxpkt _ | .setAddress | .configureDevice | .clearBuffer
  | .validateBuffer | .getDevStatus | .getDevStatusRd | .wrdata _ | .reservedCmdw _ => some .cmdw
  | .getStatusDev _ | .getStatusIf _ | .getStatusEp _ | .clearFeatureDev _ | .clearFeatureIf _ | .clearFeatureEp _
  | .setFeatureDev _ | .setFeatureIf _ | .setFeatureEp _ | .setAddressDev _ | .setAddressIf _ | .setAddressEp _
  | .getDescriptorDev _ | .getDescriptorIf _ | .getDescriptorEp _ | .getConfigurationDev _ | .getConfigurationIf _
  | .getConfigurationEp _ | .setConfigurationDev _ | .setConfigurationIf _ | .setConfigurationEp _
  | .getInterfaceDev _ | .getInterfaceIf _ | .getInterfaceEp _ | .setInterfaceDev _ | .setInterfaceIf _
  | .setInterfaceEp _ | .setDescriptorDev _ | .setDescriptorIf _ | .setDescriptorEp _ | .synchFrameDev _
  | .synchFrameIf _ | .synchFrameEp _ | .unknownRequest _ _ _ | .recipientOther _ _ | .hReqClass _ _ _
  | .hReqVendor _ _ _ | .hReqReserved _ _ _ | .hCustom _ _ _ => some .setup
  | .frameArm | .devstatArm | .endpointArm => some .devint
  | .setupEvent _ | .outDataEvent _ | .outStatusEvent _ | .inEvent _ => some .epevt
  | .endpointEvent _ | .command _ | .commandWrite _ _ | .commandRead _ | .registerHandler _ _
  | .configureEndpoint _ _ | .stall _ | .unstall _ | .getStatus _ | .epRead _ _ | .epWrite _ _ | .dispatchNow
  | .dataIn | .stallControl | .findDescriptor _ _ | .configureForSettingZero _ | .configureForSettingNonzero _ _
  | .wireSetup _ | .wireOut _ _ | .wireIn _ | .wireSof | .wireBusReset | .wireConnect _ | .wireSuspend _ => none

theorem leBytes_length (n w : Nat) : (leBytes n w).length = n := by
  induction n generalizing w with
  | zero => rfl
  | succ n ih => rw [leBytes, List.length_cons, ih]

/-- A code has as many bytes as its format. -/
theorem bytesOfCode_length (chip : Chip) (c : Code) : (bytesOfCode chip c).2.length = (bytesOfCode chip c).1.bytes chip := by
  cases c <;> exact leBytes_length _ _

namespace Laws.Codes

/-- The row's code, where it has one, is of the row's format, in as many bytes as the format has. -/
def Statement (i : Instr) : Prop :=
  (encode Config.chip i).map (fun c => (bytesOfCode Config.chip c).1) = rowFormat i ∧
  ∀ c, encode Config.chip i = some c → (bytesOfCode Config.chip c).2.length = (bytesOfCode Config.chip c).1.bytes Config.chip

theorem selectEp (idx : Idx) : Statement (.selectEp idx) := ⟨rfl, fun c _ => bytesOfCode_length _ c⟩
theorem selectEpRd (idx : Idx) : Statement (.selectEpRd idx) := ⟨rfl, fun c _ => bytesOfCode_length _ c⟩
theorem setEpStatus (idx : Idx) : Statement (.setEpStatus idx) := ⟨rfl, fun c _ => bytesOfCode_length _ c⟩
theorem setMaxpkt (idx : Idx) : Statement (.setMaxpkt idx) := ⟨rfl, fun c _ => bytesOfCode_length _ c⟩
theorem setAddress : Statement (.setAddress) := ⟨rfl, fun c _ => bytesOfCode_length _ c⟩
theorem configureDevice : Statement (.configureDevice) := ⟨rfl, fun c _ => bytesOfCode_length _ c⟩
theorem clearBuffer : Statement (.clearBuffer) := ⟨rfl, fun c _ => bytesOfCode_length _ c⟩
theorem validateBuffer : Statement (.validateBuffer) := ⟨rfl, fun c _ => bytesOfCode_length _ c⟩
theorem getDevStatus : Statement (.getDevStatus) := ⟨rfl, fun c _ => bytesOfCode_length _ c⟩
theorem getDevStatusRd : Statement (.getDevStatusRd) := ⟨rfl, fun c _ => bytesOfCode_length _ c⟩
theorem wrdata (data : Half) : Statement (.wrdata data) := ⟨rfl, fun c _ => bytesOfCode_length _ c⟩
theorem reservedCmdw (word : Word) : Statement (.reservedCmdw word) := ⟨rfl, fun c _ => bytesOfCode_length _ c⟩
theorem getStatusDev (f : SetupFields) : Statement (.getStatusDev f) := ⟨rfl, fun c _ => bytesOfCode_length _ c⟩
theorem getStatusIf (f : SetupFields) : Statement (.getStatusIf f) := ⟨rfl, fun c _ => bytesOfCode_length _ c⟩
theorem getStatusEp (f : SetupFields) : Statement (.getStatusEp f) := ⟨rfl, fun c _ => bytesOfCode_length _ c⟩
theorem clearFeatureDev (f : SetupFields) : Statement (.clearFeatureDev f) := ⟨rfl, fun c _ => bytesOfCode_length _ c⟩
theorem clearFeatureIf (f : SetupFields) : Statement (.clearFeatureIf f) := ⟨rfl, fun c _ => bytesOfCode_length _ c⟩
theorem clearFeatureEp (f : SetupFields) : Statement (.clearFeatureEp f) := ⟨rfl, fun c _ => bytesOfCode_length _ c⟩
theorem setFeatureDev (f : SetupFields) : Statement (.setFeatureDev f) := ⟨rfl, fun c _ => bytesOfCode_length _ c⟩
theorem setFeatureIf (f : SetupFields) : Statement (.setFeatureIf f) := ⟨rfl, fun c _ => bytesOfCode_length _ c⟩
theorem setFeatureEp (f : SetupFields) : Statement (.setFeatureEp f) := ⟨rfl, fun c _ => bytesOfCode_length _ c⟩
theorem setAddressDev (f : SetupFields) : Statement (.setAddressDev f) := ⟨rfl, fun c _ => bytesOfCode_length _ c⟩
theorem setAddressIf (f : SetupFields) : Statement (.setAddressIf f) := ⟨rfl, fun c _ => bytesOfCode_length _ c⟩
theorem setAddressEp (f : SetupFields) : Statement (.setAddressEp f) := ⟨rfl, fun c _ => bytesOfCode_length _ c⟩
theorem getDescriptorDev (f : SetupFields) : Statement (.getDescriptorDev f) := ⟨rfl, fun c _ => bytesOfCode_length _ c⟩
theorem getDescriptorIf (f : SetupFields) : Statement (.getDescriptorIf f) := ⟨rfl, fun c _ => bytesOfCode_length _ c⟩
theorem getDescriptorEp (f : SetupFields) : Statement (.getDescriptorEp f) := ⟨rfl, fun c _ => bytesOfCode_length _ c⟩
theorem getConfigurationDev (f : SetupFields) : Statement (.getConfigurationDev f) := ⟨rfl, fun c _ => bytesOfCode_length _ c⟩
theorem getConfigurationIf (f : SetupFields) : Statement (.getConfigurationIf f) := ⟨rfl, fun c _ => bytesOfCode_length _ c⟩
theorem getConfigurationEp (f : SetupFields) : Statement (.getConfigurationEp f) := ⟨rfl, fun c _ => bytesOfCode_length _ c⟩
theorem setConfigurationDev (f : SetupFields) : Statement (.setConfigurationDev f) := ⟨rfl, fun c _ => bytesOfCode_length _ c⟩
theorem setConfigurationIf (f : SetupFields) : Statement (.setConfigurationIf f) := ⟨rfl, fun c _ => bytesOfCode_length _ c⟩
theorem setConfigurationEp (f : SetupFields) : Statement (.setConfigurationEp f) := ⟨rfl, fun c _ => bytesOfCode_length _ c⟩
theorem getInterfaceDev (f : SetupFields) : Statement (.getInterfaceDev f) := ⟨rfl, fun c _ => bytesOfCode_length _ c⟩
theorem getInterfaceIf (f : SetupFields) : Statement (.getInterfaceIf f) := ⟨rfl, fun c _ => bytesOfCode_length _ c⟩
theorem getInterfaceEp (f : SetupFields) : Statement (.getInterfaceEp f) := ⟨rfl, fun c _ => bytesOfCode_length _ c⟩
theorem setInterfaceDev (f : SetupFields) : Statement (.setInterfaceDev f) := ⟨rfl, fun c _ => bytesOfCode_length _ c⟩
theorem setInterfaceIf (f : SetupFields) : Statement (.setInterfaceIf f) := ⟨rfl, fun c _ => bytesOfCode_length _ c⟩
theorem setInterfaceEp (f : SetupFields) : Statement (.setInterfaceEp f) := ⟨rfl, fun c _ => bytesOfCode_length _ c⟩
theorem setDescriptorDev (f : SetupFields) : Statement (.setDescriptorDev f) := ⟨rfl, fun c _ => bytesOfCode_length _ c⟩
theorem setDescriptorIf (f : SetupFields) : Statement (.setDescriptorIf f) := ⟨rfl, fun c _ => bytesOfCode_length _ c⟩
theorem setDescriptorEp (f : SetupFields) : Statement (.setDescriptorEp f) := ⟨rfl, fun c _ => bytesOfCode_length _ c⟩
theorem synchFrameDev (f : SetupFields) : Statement (.synchFrameDev f) := ⟨rfl, fun c _ => bytesOfCode_length _ c⟩
theorem synchFrameIf (f : SetupFields) : Statement (.synchFrameIf f) := ⟨rfl, fun c _ => bytesOfCode_length _ c⟩
theorem synchFrameEp (f : SetupFields) : Statement (.synchFrameEp f) := ⟨rfl, fun c _ => bytesOfCode_length _ c⟩
theorem unknownRequest (f : SetupFields) (req : Byte) (recip : BitVec 2) : Statement (.unknownRequest f req recip) := ⟨rfl, fun c _ => bytesOfCode_length _ c⟩
theorem recipientOther (f : SetupFields) (req : Byte) : Statement (.recipientOther f req) := ⟨rfl, fun c _ => bytesOfCode_length _ c⟩
theorem hReqClass (f : SetupFields) (req : Byte) (recip : BitVec 2) : Statement (.hReqClass f req recip) := ⟨rfl, fun c _ => bytesOfCode_length _ c⟩
theorem hReqVendor (f : SetupFields) (req : Byte) (recip : BitVec 2) : Statement (.hReqVendor f req recip) := ⟨rfl, fun c _ => bytesOfCode_length _ c⟩
theorem hReqReserved (f : SetupFields) (req : Byte) (recip : BitVec 2) : Statement (.hReqReserved f req recip) := ⟨rfl, fun c _ => bytesOfCode_length _ c⟩
theorem hCustom (f : SetupFields) (req : Byte) (recip : BitVec 2) : Statement (.hCustom f req recip) := ⟨rfl, fun c _ => bytesOfCode_length _ c⟩
theorem frameArm : Statement (.frameArm) := ⟨rfl, fun c _ => bytesOfCode_length _ c⟩
theorem devstatArm : Statement (.devstatArm) := ⟨rfl, fun c _ => bytesOfCode_length _ c⟩
theorem endpointArm : Statement (.endpointArm) := ⟨rfl, fun c _ => bytesOfCode_length _ c⟩
theorem endpointEvent (i : Idx) : Statement (.endpointEvent i) := ⟨rfl, fun c _ => bytesOfCode_length _ c⟩
theorem setupEvent (status : BitVec 5) : Statement (.setupEvent status) := ⟨rfl, fun c _ => bytesOfCode_length _ c⟩
theorem outDataEvent (status : BitVec 5) : Statement (.outDataEvent status) := ⟨rfl, fun c _ => bytesOfCode_length _ c⟩
theorem outStatusEvent (status : BitVec 5) : Statement (.outStatusEvent status) := ⟨rfl, fun c _ => bytesOfCode_length _ c⟩
theorem inEvent (status : BitVec 5) : Statement (.inEvent status) := ⟨rfl, fun c _ => bytesOfCode_length _ c⟩
theorem command (code : Byte) : Statement (.command code) := ⟨rfl, fun c _ => bytesOfCode_length _ c⟩
theorem commandWrite (code : Byte) (data : Half) : Statement (.commandWrite code data) := ⟨rfl, fun c _ => bytesOfCode_length _ c⟩
theorem commandRead (code : Byte) : Statement (.commandRead code) := ⟨rfl, fun c _ => bytesOfCode_length _ c⟩
theorem registerHandler (address : Byte) (h : Option Handler) : Statement (.registerHandler address h) := ⟨rfl, fun c _ => bytesOfCode_length _ c⟩
theorem configureEndpoint (address : Byte) (maxPacketSize : Half) : Statement (.configureEndpoint address maxPacketSize) := ⟨rfl, fun c _ => bytesOfCode_length _ c⟩
theorem stall (address : Byte) : Statement (.stall address) := ⟨rfl, fun c _ => bytesOfCode_length _ c⟩
theorem unstall (address : Byte) : Statement (.unstall address) := ⟨rfl, fun c _ => bytesOfCode_length _ c⟩
theorem getStatus (address : Byte) : Statement (.getStatus address) := ⟨rfl, fun c _ => bytesOfCode_length _ c⟩
theorem epRead (address : Byte) (maxlen : Nat) : Statement (.epRead address maxlen) := ⟨rfl, fun c _ => bytesOfCode_length _ c⟩
theorem epWrite (address : Byte) (bytes : List Byte) : Statement (.epWrite address bytes) := ⟨rfl, fun c _ => bytesOfCode_length _ c⟩
theorem dispatchNow : Statement (.dispatchNow) := ⟨rfl, fun c _ => bytesOfCode_length _ c⟩
theorem dataIn : Statement (.dataIn) := ⟨rfl, fun c _ => bytesOfCode_length _ c⟩
theorem stallControl : Statement (.stallControl) := ⟨rfl, fun c _ => bytesOfCode_length _ c⟩
theorem findDescriptor (typeIndex : Half) (langId : Half) : Statement (.findDescriptor typeIndex langId) := ⟨rfl, fun c _ => bytesOfCode_length _ c⟩
theorem configureForSettingZero (altSetting : Byte) : Statement (.configureForSettingZero altSetting) := ⟨rfl, fun c _ => bytesOfCode_length _ c⟩
theorem configureForSettingNonzero (configIndex : Byte) (altSetting : Byte) : Statement (.configureForSettingNonzero configIndex altSetting) := ⟨rfl, fun c _ => bytesOfCode_length _ c⟩
theorem wireSetup (b : Vector Byte 8) : Statement (.wireSetup b) := ⟨rfl, fun c _ => bytesOfCode_length _ c⟩
theorem wireOut (num : BitVec 4) (bytes : List Byte) : Statement (.wireOut num bytes) := ⟨rfl, fun c _ => bytesOfCode_length _ c⟩
theorem wireIn (num : BitVec 4) : Statement (.wireIn num) := ⟨rfl, fun c _ => bytesOfCode_length _ c⟩
theorem wireSof : Statement (.wireSof) := ⟨rfl, fun c _ => bytesOfCode_length _ c⟩
theorem wireBusReset : Statement (.wireBusReset) := ⟨rfl, fun c _ => bytesOfCode_length _ c⟩
theorem wireConnect (v : Bool) : Statement (.wireConnect v) := ⟨rfl, fun c _ => bytesOfCode_length _ c⟩
theorem wireSuspend (v : Bool) : Statement (.wireSuspend v) := ⟨rfl, fun c _ => bytesOfCode_length _ c⟩

end Laws.Codes

end Sys2Proof
end

