-- ==== Sys2Proof/Laws/Requests.lean ====
section
/-! SUPPORT. What the pieces of a request and of an endpoint event leave, run undisturbed: the status fetch, a reply built in
STAGE, a hook call; and the step that takes SEQ's next frame. -/

-- one declaration at a time: kernel evaluations that wait for each other would hold a thread each
set_option Elab.async false

namespace Sys2Proof.Machine

/-- The status fetch of R240: the raw bits of the index, SEL moved. -/
theorem readRawStatus_calm {i : Idx} {s : State} (hc : s.calm) :
    readRawStatus Config.chip i s = .ok ((s.eng.epAt i).raw Config.chip)
      { s with eng := { s.eng.answered Config.chip (((s.eng.epAt i).raw Config.chip).setWidth 16) with sel := i } } := by
  have hw : ∀ x : BitVec 5, (x.setWidth 16).extractLsb' 0 5 = x := by decide +kernel
  unfold readRawStatus
  refine (run_bind_ok (commandRead_select hc)).trans ?_
  rw [hw]; rfl

/-- `getStatus` (R212). -/
theorem getStatus_calm {a : Byte} {s : State} (hc : s.calm) :
    getStatus Config.chip a s = .ok (normEp Config.chip ((s.eng.epAt (epIdx a)).raw Config.chip))
      { s with eng := { s.eng.answered Config.chip (((s.eng.epAt (epIdx a)).raw Config.chip).setWidth 16) with sel := epIdx a } } := by
  unfold getStatus
  exact run_bind_ok (readRawStatus_calm hc)

/-- A reply built in STAGE (R294, R158). -/
theorem replyBytes_run {bs : List Byte} {s : State} (hw : Memory.wf s.stage = true) (h0 : bs ≠ []) :
    (bs.length ≤ s.cfg.m0 ∨ s.cfg.overrunDrops = true →
      ∃ m : Memory, (∀ k, Memory.read m k = if k < bs.length ∧ k < s.cfg.m0 then bs[k]? else Memory.read s.stage k) ∧
        replyBytes bs s = .ok () { s with stage := m, result := .ok, ct := { s.ct with ptr := { space := .stage, off := 0 }, len := bs.length } }) ∧
    (s.cfg.m0 < bs.length → s.cfg.overrunDrops = false → replyBytes bs s = .error (.fault .bufferOverrun) s) := by
  have hl : ¬ bs.length = 0 := by simpa using h0
  refine ⟨?_, ?_⟩
  · intro h
    refine ⟨Memory.writeList s.stage 0 (bs.take s.cfg.m0), ?_, ?_⟩
    · intro k
      rw [Memory.read_writeList _ _ _ _ hw]
      simp only [List.length_take, Nat.zero_le, true_and, Nat.zero_add, Nat.sub_zero]
      by_cases hk : k < bs.length ∧ k < s.cfg.m0
      · rw [if_pos hk, if_pos (by omega), List.getElem?_take_of_lt hk.2]
      · rw [if_neg hk, if_neg (by omega)]
    · unfold replyBytes
      have : stageWrite 0 bs s = .ok () { s with stage := Memory.writeList s.stage 0 (bs.take s.cfg.m0) } := by
        simp only [stageWrite, hl, if_false, Nat.zero_add, Cfg.stageCap, Nat.sub_zero]
        by_cases h1 : bs.length ≤ s.cfg.m0
        · rw [if_pos h1, List.take_of_length_le h1]
        · rw [if_neg h1, h.resolve_left h1, if_pos rfl]
      rw [run_bind_ok this]
      rfl
  · intro h1 h2
    unfold replyBytes
    refine run_bind_error ?_
    simp only [stageWrite, hl, if_false, Nat.zero_add, Cfg.stageCap]
    rw [if_neg (by omega), h2]
    rfl

/-- A hook call and its answer (R292). -/
theorem callHook_run {id : Nat} {s s' : State} {a : HookAnswer} (h : s.answer = (a, s')) :
    callHook id s = .ok (if HookAnswer.accepts a then .ok else .fail) (s'.hooked id a) := by
  unfold callHook
  rw [run_get_bind]
  unfold State.answer at h
  unfold logHook
  split at h
  · rename_i x rest hs
    cases h
    have : hookAnswer { s with hookLog := .request id s.su s.ct.len s.ct.ptr s.stage :: s.hookLog } = .ok a { s with hookLog := .request id s.su s.ct.len s.ct.ptr s.stage :: s.hookLog, hookAnswers := rest } := by
      simp only [hookAnswer, hs]
    rw [run_modify_bind, run_bind_ok this]
    cases a <;> rfl
  · rename_i hs
    cases h
    have : hookAnswer { s with hookLog := .request id s.su s.ct.len s.ct.ptr s.stage :: s.hookLog } = .ok (Config.freeHook s.fresh) { s with hookLog := .request id s.su s.ct.len s.ct.ptr s.stage :: s.hookLog, fresh := s.fresh + 1 } := by
      simp only [hookAnswer]; split
      · rename_i h; rw [hs] at h; cases h
      · rfl
    rw [run_modify_bind, run_bind_ok this]
    cases Config.freeHook s.fresh <;> rfl

/-- A phase word's row is its completion. -/
theorem exec_phase (p : PhaseWord) (s : State) : exec p.toInstr s = .next { s with eng := s.eng.complete s.cfg.toChip p } := by
  cases p <;> rfl

/-! ## SEQ's turn -/

/-- What a fetched instruction comes to. -/
def Fetched.out : Fetched → Out
  | .run i s => exec i s
  | .done o => o

theorem step_eq (s : State) : step s = (fetch s).out := by
  unfold step Fetched.out; rfl

/-- A step in SEQ's turn. -/
theorem step_seqTurn {s s' : State} (h : seqTurn s s') (hh : s.hung = none) : step s = (fetchSeq s').out := by
  rcases h with ⟨inter, ts, h1, rfl⟩ | ⟨t, ts, h1, h2, h3, rfl⟩ | ⟨h1, h2, rfl⟩
  · simp only [step_eq, fetch, h1]
  · cases t <;> simp [Turn.ofApp] at h2 <;> simp [step_eq, fetch, h1, hh, h3]
  · simp only [step_eq, fetch, h1, h2]

/-- Taking a turn changes the inputs only. -/
theorem seqTurn_inputs {s s' : State} (h : seqTurn s s') : ∃ ts sl, s' = { s with turns := ts, slots := sl } := by
  rcases h with ⟨inter, ts, _, rfl⟩ | ⟨_, _, _, _, _, rfl⟩ | ⟨_, _, rfl⟩
  · exact ⟨_, _, rfl⟩
  · exact ⟨s'.turns, s'.slots, rfl⟩
  · exact ⟨s'.turns, s'.slots, rfl⟩

/-- A step takes the frame SEQ stands at. -/
theorem step_frame {s s' : State} {f : Frame} {rest : List Frame} (h : seqTurn s s') (hh : s.hung = none)
    (hf : s.frames = f :: rest) : step s = (fetchFrame f { s' with frames := rest }).out := by
  rw [step_seqTurn h hh]
  obtain ⟨ts, sl, rfl⟩ := seqTurn_inputs h
  simp [fetchSeq, hh, hf]

/-! ## Chunks of a reply (R268, R273) -/

/-- The chunk that starts after `j` whole packets. -/
theorem chunk_eq {m : Nat} {reply : List Byte} (j k : Nat) (hk : k = min (j * m) reply.length) :
    (reply.drop k).take (min m (reply.length - k)) = packetAt m reply j := by
  unfold packetAt
  subst hk
  by_cases h : j * m ≤ reply.length
  · rw [Nat.min_eq_left h]
    by_cases h2 : m ≤ reply.length - j * m
    · rw [Nat.min_eq_left h2]
    · rw [Nat.min_eq_right (by omega), List.take_of_length_le (by simp), List.take_of_length_le (by simp; omega)]
  · rw [Nat.min_eq_right (by omega)]
    rw [List.drop_eq_nil_of_le (by omega), List.drop_eq_nil_of_le (by omega)]; simp

/-- `DataIn()` with `k` bytes of a readable reply sent. -/
theorem send_chunk {m : Nat} {reply : List Byte} {p : Ptr} {k : Nat} (s : State) (hsp : s.specChip) (hc : s.calm) (h0 : s.cfg.m0 = m)
    (hm : m ≤ (s.eng.epAt 1#5).mps.toNat)
    (hb : ∀ k n, 0 < n → k + n ≤ reply.length → s.bytesAt { p with off := p.off + k } n = some ((reply.drop k).take n, s.fresh))
    (hk : k ≤ reply.length) (hp : s.ct.ptr = { p with off := p.off + k }) (hr : s.ct.resid.toNat = reply.length - k) :
    (dataIn Config.chip) s = .ok () (s.sent ((reply.drop k).take (min m (reply.length - k))) s.fresh (min m (reply.length - k))) := by
  have hch : s.chunkLen = min m (reply.length - k) := by unfold State.chunkLen; rw [h0, hr]
  have hbs : s.bytesAt s.ct.ptr s.chunkLen = some ((reply.drop k).take (min m (reply.length - k)), s.fresh) := by
    rw [hch, hp]
    by_cases hz : min m (reply.length - k) = 0
    · rw [hz]; simp [State.bytesAt]
    · exact hb k _ (by omega) (by omega)
  have := dataIn_calm hsp hc (by rw [hch]; omega) hbs
  rw [hch] at this
  exact this

end Sys2Proof.Machine
end

