-- ==== Sys2Proof/Laws/Sound.lean ====
section
/-! SUPPORT. The invariant of the block is kept by every computation of SEQ: at its end the whole of it, where it hangs or
faults in the middle all but the end of the port's exclusion (R379). -/

-- one declaration at a time: kernel evaluations that wait for each other would hold a thread each
set_option Elab.async false

namespace Sys2Proof.Machine

variable {α β : Type}

/-- The invariant but for the port's exclusion, which holds at every access; the chip is the one the spec describes. -/
structure InvBody (s : State) : Prop where
  spec : s.cfg.toChip = Config.chip
  eng : EngInv Config.chip s.eng
  stage_wf : Memory.wf s.stage = true
  stage_below : Memory.below s.cfg.stageCap s.stage
  resid_le : s.ct.resid.toNat ≤ (suLength s.su).toNat
  h2d_dir : s.ct.phase = .dataH2D → suDir s.su = false
  snap_isr : s.snap.isSome = s.inIsr

/-- The invariant on that chip. -/
structure SpecInv (s : State) : Prop extends InvBody s where
  unlocked : s.eng.portLock = none

theorem Inv.spec {s : State} (h : Inv s) (hk : s.specChip) : SpecInv s := by
  have he := h.eng
  rw [show s.cfg.toChip = Config.chip from hk] at he
  exact { h with spec := hk, eng := he }

theorem SpecInv.inv {s : State} (h : SpecInv s) : Inv s := by
  have he := h.eng
  rw [← h.spec] at he
  exact { h with eng := he }

theorem SpecInv.body {s : State} (h : SpecInv s) : InvBody s := h.toInvBody

theorem InvBody.inv {s : State} (h : InvBody s) (hl : s.eng.portLock = none) : SpecInv s := ⟨h, hl⟩

theorem Kept.body {s t : State} (k : Kept Config.chip s t) (h : InvBody s) : InvBody t := by
  obtain ⟨e, sl, wl, rfl⟩ := sameSeq_iff.mp k.seq
  exact { h with eng := k.inv rfl h.eng }

theorem InvBody.hang {s : State} (h : InvBody s) (b : Nat) : SpecInv (hangState b s) :=
  { h with eng := { h.eng with }, unlocked := rfl }

/-! ## The exclusion ends with the operation -/

/-- A computation that ends well with the port free, if it began so. -/
def Unlocks (m : SeqM α) : Prop := ∀ s a t, m s = .ok a t → s.eng.portLock = none → t.eng.portLock = none

/-- A computation that ends well with the port free, however it began. -/
def Frees (m : SeqM α) : Prop := ∀ s a t, m s = .ok a t → t.eng.portLock = none

/-- A computation whose result, if it ends well, has a property. -/
def Returns (Q : α → Prop) (m : SeqM α) : Prop := ∀ s a t, m s = .ok a t → Q a

theorem bind_eq_ok {m : SeqM α} {f : α → SeqM β} {s t : State} {b : β} (h : (m >>= f) s = .ok b t) :
    ∃ a s', m s = .ok a s' ∧ f a s' = .ok b t := by
  rw [run_bind] at h
  cases hm : m s with
  | ok a s' => rw [hm] at h; exact ⟨a, s', rfl, h⟩
  | error x s' => rw [hm] at h; cases h

theorem Unlocks.bind {m : SeqM α} {f : α → SeqM β} (hm : Unlocks m) (hf : ∀ a, Unlocks (f a)) : Unlocks (m >>= f) := by
  intro s b t h hs
  obtain ⟨a, s', h1, h2⟩ := bind_eq_ok h
  exact hf a s' b t h2 (hm s a s' h1 hs)

theorem Frees.right {m : SeqM α} {f : α → SeqM β} (hf : ∀ a, Frees (f a)) : Frees (m >>= f) := by
  intro s b t h
  obtain ⟨a, s', -, h2⟩ := bind_eq_ok h
  exact hf a s' b t h2

theorem Frees.unlocks {m : SeqM α} (h : Frees m) : Unlocks m := fun s a t ht _ => h s a t ht

theorem Returns.right {Q : β → Prop} {m : SeqM α} {f : α → SeqM β} (hf : ∀ a, Returns Q (f a)) : Returns Q (m >>= f) := by
  intro s b t h
  obtain ⟨a, s', -, h2⟩ := bind_eq_ok h
  exact hf a s' b t h2

theorem returns_pure {Q : α → Prop} {a : α} (h : Q a) : Returns Q (pure a : SeqM α) := by
  intro s b t hb; cases hb; exact h

theorem unlocks_pure (a : α) : Unlocks (pure a : SeqM α) := by intro s b t h hs; cases h; exact hs

theorem complete_portLock (p : PhaseWord) (e : Eng) : (e.complete Config.chip p).portLock = e.portLock := by
  cases p <;> simp only [Eng.complete, Eng.completeSelectEpRd, Eng.completeGetDevStatusRd, Eng.completeWrdata,
    Eng.completeReserved, Eng.reservedPhase, Eng.completeValidateBuffer, Eng.validateBuffer, Eng.writeData, Eng.setMps] <;>
    repeat' split
  all_goals rfl

theorem wire_portLock {e e' : Eng} {ev : WireEvent} {o : WireOutcome} (hw : e.wire Config.chip ev = some (e', o)) :
    e'.portLock = e.portLock := by
  cases ev <;> simp only [Eng.wire, Eng.wireSetup, Eng.wireOut, Eng.wireIn, Eng.wireSof, Eng.wireBusReset, Eng.wireConnect,
    Eng.wireSuspend] at hw <;> split at hw <;> try cases hw
  case out.isTrue num bytes _ =>
    have hw' := congrArg Prod.fst (Option.some.inj hw)
    simp only [Eng.offerOut] at hw'
    split at hw'
    · rw [← hw']
    · split at hw' <;> rw [← hw'] <;> rfl
  case inn.isTrue num _ =>
    have hw' := congrArg Prod.fst (Option.some.inj hw)
    simp only [Eng.askIn] at hw'
    split at hw'
    · rw [← hw']
    · split at hw' <;> rw [← hw'] <;> rfl
  all_goals rfl

theorem engMove_portLock (s : State) : (engMove Config.chip s).eng.portLock = s.eng.portLock := by
  unfold engMove
  split
  · rename_i e he
    simp only [Eng.advance, Option.map_eq_some_iff] at he
    obtain ⟨p, -, rfl⟩ := he
    exact complete_portLock p _
  · rfl

theorem wireState_portLock (ev : WireEvent) (s : State) : (wireState ev (s.eng.wire Config.chip ev) s).eng.portLock = s.eng.portLock := by
  cases hw : s.eng.wire Config.chip ev with
  | none => rfl
  | some r => exact wire_portLock (o := r.2) hw

theorem applyMoves_portLock (ms : List Move) (s : State) : (applyMoves Config.chip ms s).eng.portLock = s.eng.portLock := by
  induction ms generalizing s with
  | nil => rfl
  | cons m ms ih =>
    refine (ih _).trans ?_
    cases m with
    | eng => exact engMove_portLock s
    | wire ev => exact wireState_portLock ev s

theorem beforeAccess_portLock (s : State) : (beforeAccess Config.chip s).eng.portLock = s.eng.portLock := by
  unfold beforeAccess
  split
  · rfl
  · exact applyMoves_portLock _ _

theorem readReg_portLock (r : Reg) (e : Eng) : (e.readReg Config.chip r).2.portLock = e.portLock := by
  cases r <;> simp only [Eng.readReg] <;> repeat' split
  all_goals rfl

theorem writeReg_portLock {e e' : Eng} {r : Reg} {v : RegWord} (hw : e.writeReg Config.chip r v = .ok e') : e'.portLock = e.portLock := by
  cases r <;> simp only [Eng.writeReg, Eng.writeRealize] at hw <;> (try (split at hw)) <;> cases hw <;> rfl

theorem unlocks_regRead (r : Reg) : Unlocks (regRead Config.chip r) := by
  intro s a t h hs
  cases h
  exact (readReg_portLock r _).trans ((beforeAccess_portLock s).trans hs)

theorem unlocks_regWrite (r : Reg) (v : RegWord) : Unlocks (regWrite Config.chip r v) := by
  intro s a t h hs
  simp only [regWrite] at h
  split at h
  · rename_i e he
    cases h
    exact (writeReg_portLock he).trans ((beforeAccess_portLock s).trans hs)
  · cases h

theorem unlocks_waitFlag (b : Nat) : Unlocks (waitFlag Config.chip b) := by
  intro s a t h hs
  simp only [waitFlag] at h
  split at h
  · cases h; exact (beforeAccess_portLock s).trans hs
  · split at h
    · cases h; exact (engMove_portLock _).trans ((beforeAccess_portLock s).trans hs)
    · cases h

theorem unlocks_regOr (r : Reg) (v : RegWord) : Unlocks (regOr Config.chip r v) :=
  Unlocks.bind (unlocks_regRead r) fun _ => unlocks_regWrite r _

theorem unlocks_phase (w : Word) (b : Nat) : Unlocks (phase Config.chip w b) :=
  Unlocks.bind (unlocks_regWrite _ _) fun _ => Unlocks.bind (unlocks_waitFlag _) fun _ => unlocks_regWrite _ _

theorem unlocks_command (c : Byte) : Unlocks (command Config.chip c) :=
  Unlocks.bind (unlocks_regWrite _ _) fun _ => unlocks_phase _ _

theorem unlocks_commandWrite (c : Byte) (d : Half) : Unlocks (commandWrite Config.chip c d) :=
  Unlocks.bind (unlocks_regWrite _ _) fun _ => Unlocks.bind (unlocks_phase _ _) fun _ => unlocks_phase _ _

theorem unlocks_commandRead (c : Byte) : Unlocks (commandRead Config.chip c) :=
  Unlocks.bind (unlocks_regWrite _ _) fun _ => Unlocks.bind (unlocks_phase _ _) fun _ =>
    Unlocks.bind (unlocks_phase _ _) fun _ => Unlocks.bind (unlocks_regRead _) fun _ => unlocks_pure _

theorem unlocks_configureEndpoint (a : Byte) (m : Half) : Unlocks (configureEndpoint Config.chip a m) :=
  Unlocks.bind (unlocks_regOr _ _) fun _ => Unlocks.bind (unlocks_commandWrite _ _) fun _ =>
    Unlocks.bind (unlocks_waitFlag _) fun _ => Unlocks.bind (unlocks_regWrite _ _) fun _ =>
      Unlocks.bind (unlocks_regOr _ _) fun _ => unlocks_regOr _ _

theorem unlocks_readRawStatus (i : Idx) : Unlocks (readRawStatus Config.chip i) :=
  Unlocks.bind (unlocks_commandRead _) fun _ => unlocks_pure _

theorem unlocks_getStatus (a : Byte) : Unlocks (getStatus Config.chip a) :=
  Unlocks.bind (unlocks_readRawStatus _) fun _ => unlocks_pure _

theorem frees_unlockPort : Frees unlockPort := by intro s a t h; cases h; rfl

theorem frees_epRead (a : Byte) (n : Nat) : Frees (epRead Config.chip a n) := by
  unfold epRead
  refine Frees.right fun _ => Frees.right fun _ => Frees.right fun _ => Frees.right fun _ => Frees.right fun _ =>
    Frees.right fun _ => Frees.right fun _ => ?_
  intro s b t h; cases h; rfl

theorem frees_epWrite (a : Byte) (bs : List Byte) : Frees (epWrite Config.chip a bs) := by
  unfold epWrite
  exact Frees.right fun _ => Frees.right fun _ => Frees.right fun _ => Frees.right fun _ => Frees.right fun _ =>
    Frees.right fun _ => Frees.right fun _ => frees_unlockPort

/-- "returns the bytes ... at most maxlen" (R216). -/
theorem epRead_returns (a : Byte) (n : Nat) : Returns (fun bs => bs.length ≤ n) (epRead Config.chip a n) := by
  unfold epRead
  refine Returns.right fun _ => Returns.right fun _ => Returns.right fun _ => Returns.right fun _ => Returns.right fun _ =>
    Returns.right fun _ => Returns.right fun _ => Returns.right fun _ => returns_pure ?_
  simp only [List.length_take]; omega

/-! ## Soundness -/

/-- From a state: the invariant at a good end, its body at any other. -/
def SoundAt (m : SeqM α) (s : State) : Prop :=
  match m s with
  | .ok _ t => SpecInv t
  | .error _ t => InvBody t

def Sound (m : SeqM α) : Prop := ∀ s, SpecInv s → SoundAt m s

theorem soundAt_ok {m : SeqM α} {s t : State} {a : α} (h : m s = .ok a t) (ht : SpecInv t) : SoundAt m s := by
  unfold SoundAt; rw [h]; exact ht

theorem soundAt_error {m : SeqM α} {s t : State} {x : Stop} (h : m s = .error x t) (ht : InvBody t) : SoundAt m s := by
  unfold SoundAt; rw [h]; exact ht

/-- After a first part known to be sound, with what its run tells. -/
theorem SoundAt.bind {m : SeqM α} {f : α → SeqM β} {s : State} (hm : SoundAt m s)
    (hf : ∀ a t, m s = .ok a t → SpecInv t → SoundAt (f a) t) : SoundAt (m >>= f) s := by
  unfold SoundAt at hm ⊢
  rw [run_bind]
  cases h : m s with
  | ok a t => rw [h] at hm; exact hf a t h hm
  | error x t => rw [h] at hm; exact hm

theorem Sound.bind {m : SeqM α} {f : α → SeqM β} (hm : Sound m) (hf : ∀ a, Sound (f a)) : Sound (m >>= f) :=
  fun s hs => (hm s hs).bind fun a t _ ht => hf a t ht

theorem sound_pure (a : α) : Sound (pure a : SeqM α) := fun _ hs => hs
theorem sound_get : Sound (get : SeqM State) := fun _ hs => hs
theorem sound_raise (f : Fault) : Sound (raise f : SeqM α) := fun _ hs => hs.body
theorem sound_throw (x : Stop) : Sound (throw x : SeqM α) := fun _ hs => hs.body

theorem sound_modify {f : State → State} (hf : ∀ s, SpecInv s → SpecInv (f s)) : Sound (modify f : SeqM Unit) := hf

/-- A register operation. -/
theorem sound_of_kept {m : SeqM α} (hk : Keeps (Kept Config.chip) m) (hu : Unlocks m) : Sound m := by
  intro s hs
  have h1 := hk s
  unfold SoundAt
  cases h : m s with
  | ok a t => rw [h] at h1; exact (h1.body hs.body).inv (hu s a t h hs.unlocked)
  | error x t => rw [h] at h1; exact h1.body hs.body

theorem sound_regRead (r : Reg) : Sound (regRead Config.chip r) := sound_of_kept (keeps_regRead kept_closed r) (unlocks_regRead r)
theorem sound_regWrite (r : Reg) (v : RegWord) : Sound (regWrite Config.chip r v) :=
  sound_of_kept (keeps_regWrite kept_closed r v) (unlocks_regWrite r v)
theorem sound_regOr (r : Reg) (v : RegWord) : Sound (regOr Config.chip r v) :=
  sound_of_kept (keeps_regOr kept_closed r v) (unlocks_regOr r v)
theorem sound_command (c : Byte) : Sound (command Config.chip c) := sound_of_kept (keeps_command kept_closed c) (unlocks_command c)
theorem sound_commandWrite (c : Byte) (d : Half) : Sound (commandWrite Config.chip c d) :=
  sound_of_kept (keeps_commandWrite kept_closed c d) (unlocks_commandWrite c d)
theorem sound_commandRead (c : Byte) : Sound (commandRead Config.chip c) :=
  sound_of_kept (keeps_commandRead kept_closed c) (unlocks_commandRead c)
theorem sound_configureEndpoint (a : Byte) (m : Half) : Sound (configureEndpoint Config.chip a m) :=
  sound_of_kept (keeps_configureEndpoint kept_closed a m) (unlocks_configureEndpoint a m)
theorem sound_readRawStatus (i : Idx) : Sound (readRawStatus Config.chip i) :=
  sound_of_kept (keeps_readRawStatus kept_closed i) (unlocks_readRawStatus i)
theorem sound_getStatus (a : Byte) : Sound (getStatus Config.chip a) :=
  sound_of_kept (keeps_getStatus kept_closed a) (unlocks_getStatus a)
theorem sound_epRead (a : Byte) (n : Nat) : Sound (epRead Config.chip a n) :=
  sound_of_kept (keeps_epRead kept_closed a n) (frees_epRead a n).unlocks
theorem sound_epWrite (a : Byte) (bs : List Byte) : Sound (epWrite Config.chip a bs) :=
  sound_of_kept (keeps_epWrite kept_closed a bs) (frees_epWrite a bs).unlocks

/-! ## The pieces of SEQ -/

theorem sound_setResult (r : ReqResult) : Sound (setResult r) := sound_modify fun _ h => { h with }
theorem sound_setRet (r : Ret) : Sound (setRet r) := sound_modify fun _ h => { h with }
theorem sound_setReply (p : Ptr) (n : Nat) : Sound (setReply p n) := sound_modify fun _ h => { h with }
theorem sound_pushFrames (fs : List Frame) : Sound (pushFrames fs) := sound_modify fun _ h => { h with }
theorem sound_logHook (k : HookCall) : Sound (logHook k) := sound_modify fun _ h => { h with }

theorem sound_stageWrite (off : Nat) (bs : List Byte) : Sound (stageWrite off bs) := by
  intro s hs
  unfold SoundAt
  simp only [stageWrite]
  split
  · rename_i a t h
    split at h
    · cases h; exact hs
    · split at h
      · rename_i hf
        cases h
        exact { hs with
          stage_wf := Memory.wf_writeList _ _ _ hs.stage_wf
          stage_below := Memory.below_writeList _ _ _ _ hs.stage_below hf }
      · split at h
        · cases h
          by_cases ho : off ≤ s.cfg.stageCap
          · exact { hs with
              stage_wf := Memory.wf_writeList _ _ _ hs.stage_wf
              stage_below := Memory.below_writeList _ _ _ _ hs.stage_below (by simp only [List.length_take]; omega) }
          · have hz : s.cfg.stageCap - off = 0 := by omega
            rw [hz, List.take_zero]
            exact hs
        · cases h
  · rename_i x t h
    split at h
    · cases h
    · split at h
      · cases h
      · split at h
        · cases h
        · cases h; exact hs.body

theorem sound_stageRead (off n : Nat) : Sound (stageRead off n) := by
  intro s hs
  unfold SoundAt
  simp only [stageRead]
  split
  · rename_i a t h
    split at h
    · cases h
    · cases h; exact { hs with }
  · rename_i x t h
    split at h
    · cases h; exact hs.body
    · cases h

theorem sound_tableRead (t : List Byte) (off n : Nat) : Sound (tableRead t off n) := by
  unfold tableRead
  split
  · exact sound_pure _
  · exact sound_raise _

theorem sound_memRead (p : Ptr) (n : Nat) : Sound (memRead p n) := by
  unfold memRead
  split
  · exact sound_pure _
  · refine Sound.bind sound_get fun s => ?_
    split
    · exact sound_stageRead _ _
    · exact sound_tableRead _ _ _
    · exact sound_tableRead _ _ _

theorem sound_memWrite (p : Ptr) (bs : List Byte) : Sound (memWrite p bs) := by
  unfold memWrite
  split
  · exact sound_pure _
  · split
    · exact sound_stageWrite _ _
    · exact sound_raise _
    · exact sound_raise _

theorem sound_liftWalk (x : Except Fault α) : Sound (liftWalk x) := by
  unfold liftWalk
  split
  · exact sound_pure _
  · exact sound_raise _

theorem sound_settingFrom (t : List Byte) (x y : Byte) (fuel p : Nat) (k l : Option Byte) :
    Sound (settingFrom Config.chip t x y fuel p k l) := by
  induction fuel generalizing p k l with
  | zero => exact sound_raise _
  | succ fuel ih =>
    unfold settingFrom
    refine Sound.bind (sound_liftWalk _) fun _ => ?_
    split
    · exact sound_pure _
    · refine Sound.bind (sound_liftWalk _) fun _ => ?_
      split
      · exact Sound.bind (sound_liftWalk _) fun _ => ih _ _ _
      · split
        · exact Sound.bind (sound_liftWalk _) fun _ => ih _ _ _
        · split
          · exact Sound.bind (sound_liftWalk _) fun _ => Sound.bind (sound_configureEndpoint _ _) fun _ => ih _ _ _
          · exact ih _ _ _

theorem sound_configureForSetting (x y : Byte) : Sound (configureForSetting Config.chip x y) := by
  unfold configureForSetting
  split
  · exact sound_commandWrite _ _
  · exact Sound.bind sound_get fun _ => Sound.bind (sound_settingFrom _ _ _ _ _ _ _) fun _ => sound_commandWrite _ _

/-! ## The Control Transfer Engine -/

/-- A relation that says the transfer registers and SU are the same. -/
def SameTransfer (s t : State) : Prop := t.ct = s.ct ∧ t.su = s.su

theorem Kept.transfer {chip : Chip} {s t : State} (k : Kept chip s t) : SameTransfer s t := by
  obtain ⟨e, sl, wl, rfl⟩ := sameSeq_iff.mp k.seq
  exact ⟨rfl, rfl⟩

theorem sameTransfer_order : Composes SameTransfer :=
  ⟨fun _ => ⟨rfl, rfl⟩, fun _ _ _ a b => ⟨b.1.trans a.1, b.2.trans a.2⟩⟩

theorem sameTransfer_closed : AccessClosed Config.chip SameTransfer where
  order := sameTransfer_order
  before := fun s => (kept_beforeAccess s).transfer
  eng := fun s => (kept_engMove s).transfer
  read := fun r s => ((kept_closed (chip := Config.chip)).read r s).transfer
  write := fun r v s e he => ((kept_closed (chip := Config.chip)).write r v s e he).transfer
  lock := fun o s => ((kept_closed (chip := Config.chip)).lock o s).transfer

theorem transfer_memRead (p : Ptr) (n : Nat) : Keeps SameTransfer (memRead p n) := by
  have ht : ∀ (t : List Byte) (off n : Nat), Keeps SameTransfer (tableRead t off n) := by
    intro t off n; unfold tableRead; split
    · exact Keeps.pure sameTransfer_order _
    · exact Keeps.raise sameTransfer_order _
  unfold memRead
  split
  · exact Keeps.pure sameTransfer_order _
  · refine Keeps.bind sameTransfer_order (Keeps.get sameTransfer_order) fun s => ?_
    split
    · intro s; simp only [stageRead]; split <;> exact ⟨rfl, rfl⟩
    · exact ht _ _ _
    · exact ht _ _ _

theorem transfer_memWrite (p : Ptr) (bs : List Byte) : Keeps SameTransfer (memWrite p bs) := by
  unfold memWrite
  split
  · exact Keeps.pure sameTransfer_order _
  · split
    · intro s; simp only [stageWrite]; repeat' split
      all_goals exact ⟨rfl, rfl⟩
    · exact Keeps.raise sameTransfer_order _
    · exact Keeps.raise sameTransfer_order _

/-- What a good end tells of a relation the computation keeps. -/
theorem Keeps.ok {R : State → State → Prop} {m : SeqM α} (hm : Keeps R m) {s t : State} {a : α} (h : m s = .ok a t) :
    R s t := by
  have := hm s; rw [h] at this; exact this

theorem sub_ofNat_le {x : Half} {n : Nat} (h : n ≤ x.toNat) : (x - BitVec.ofNat 16 n).toNat ≤ x.toNat := by
  have hx := x.isLt
  have hn : (BitVec.ofNat 16 n).toNat = n := by rw [BitVec.toNat_ofNat]; omega
  rw [BitVec.toNat_sub_of_le (by rw [BitVec.le_def, hn]; exact h), hn]; omega

/-- The pointer moves over no more than what remains. -/
theorem inv_moved {s : State} {n : Nat} (hs : SpecInv s) (h : n ≤ s.ct.resid.toNat) :
    SpecInv { s with ct := Ct.moved n s.ct } :=
  { hs with
    resid_le := le_trans (sub_ofNat_le h) hs.resid_le
    h2d_dir := hs.h2d_dir }

theorem sound_dataIn : Sound (dataIn Config.chip) := by
  intro s hs
  unfold dataIn
  refine SoundAt.bind (m := get) (s := s) hs fun a t h0 _ => ?_
  cases h0
  refine SoundAt.bind (sound_memRead _ _ s hs) fun bs t h1 ht => ?_
  refine SoundAt.bind (sound_epWrite _ _ t ht) fun _ v h2 hv => ?_
  have e1 := (transfer_memRead _ _).ok h1
  have e2 := (keeps_epWrite sameTransfer_closed _ _).ok h2
  refine inv_moved hv ?_
  rw [e2.1, e1.1]
  exact Nat.min_le_right _ _

theorem sound_stallControl : Sound (stallControl Config.chip) :=
  Sound.bind (sound_commandWrite _ _) fun _ => sound_modify fun _ h =>
    { h with resid_le := Nat.zero_le _, h2d_dir := fun hc => by cases hc }

theorem sound_startDispatch (k : Frame) : Sound (startDispatch k) :=
  Sound.bind sound_get fun _ => Sound.bind (sound_setReply _ _) fun _ => sound_pushFrames _

theorem sound_captureSetup (bs : List Byte) : Sound (captureSetup bs) := sound_modify fun _ h =>
  { h with resid_le := le_refl _, h2d_dir := fun hc => by cases hc }

theorem sound_onSetup : Sound (onSetup Config.chip) := by
  unfold onSetup
  refine Sound.bind (sound_modify fun _ h => { h with resid_le := Nat.zero_le _, h2d_dir := fun hc => by cases hc }) fun _ =>
    Sound.bind (sound_epRead _ _) fun _ => Sound.bind (sound_captureSetup _) fun _ => ?_
  intro s hs
  refine SoundAt.bind (m := get) (s := s) hs fun a t h0 _ => ?_
  cases h0
  split
  · exact sound_startDispatch _ s hs
  · rename_i hc
    have hd : suDir s.su = false := by
      cases h : suDir s.su
      · rfl
      · exact absurd (Or.inr h) hc
    exact (show SpecInv _ from { hs with h2d_dir := fun _ => hd })

theorem sound_onOutData : Sound (onOutData Config.chip) := by
  intro s hs
  unfold onOutData
  refine SoundAt.bind (m := get) (s := s) hs fun a t h0 _ => ?_
  cases h0
  refine SoundAt.bind (sound_epRead _ _ s hs) fun bs t h1 ht => ?_
  refine SoundAt.bind (sound_memWrite _ _ t ht) fun _ v h2 hv => ?_
  have e0 := epRead_returns _ _ _ _ _ h1
  have e1 := (keeps_epRead sameTransfer_closed _ _).ok h1
  have e2 := (transfer_memWrite _ _).ok h2
  have hm : SpecInv { v with ct := Ct.moved bs.length v.ct } := inv_moved hv (by rw [e2.1, e1.1]; exact e0)
  refine SoundAt.bind (m := modifyCt _) (s := v) hm fun _ w h3 hw => ?_
  refine SoundAt.bind (m := get) (s := w) hw fun a x h4 hx => ?_
  split
  · exact sound_startDispatch _ x hx
  · exact hx

theorem sound_onOutStatus : Sound (onOutStatus Config.chip) :=
  Sound.bind (sound_epRead _ _) fun _ => sound_modify fun _ h => { h with resid_le := h.resid_le, h2d_dir := fun hc => by cases hc }

theorem inPhase_fields (len : Half) (c : Ct) :
    (Ct.inPhase len c).resid = c.resid ∧ ((Ct.inPhase len c).phase = .dataH2D → c.phase = .dataH2D) := by
  unfold Ct.inPhase
  split
  · split <;> rename_i hp
    · exact ⟨rfl, fun h => by cases h⟩
    · split
      · exact ⟨rfl, fun h => by cases h⟩
      · exact ⟨rfl, id⟩
    all_goals exact ⟨rfl, id⟩
  · exact ⟨rfl, id⟩

theorem sound_onIn : Sound (onIn Config.chip) := by
  unfold onIn
  refine Sound.bind sound_get fun s => Sound.bind (sound_modify fun t ht => ?_) fun _ => sound_dataIn
  obtain ⟨h1, h2⟩ := inPhase_fields (suLength s.su) t.ct
  exact { ht with
    resid_le := by show (Ct.inPhase _ _).resid.toNat ≤ _; rw [h1]; exact ht.resid_le
    h2d_dir := fun hc => ht.h2d_dir (h2 hc) }

theorem sound_replyNow : Sound (replyNow Config.chip) := by
  intro s hs
  unfold replyNow
  refine SoundAt.bind (m := get) (s := s) hs fun a t h0 _ => ?_
  cases h0
  split
  · exact sound_stallControl s hs
  · have hm : SpecInv { s with ct := Ct.clamped (suLength s.su) s.ct } :=
      { hs with
        resid_le := by
          show (BitVec.ofNat 16 (min s.ct.len (suLength s.su).toNat)).toNat ≤ _
          have := (suLength s.su).isLt
          rw [BitVec.toNat_ofNat, Nat.mod_eq_of_lt (by omega)]
          exact Nat.min_le_right _ _
        h2d_dir := fun hc => by
          simp only [Ct.clamped] at hc
          split at hc <;> cases hc }
    exact SoundAt.bind (m := modifyCt _) (s := s) hm fun _ w _ hw => sound_dataIn w hw

theorem sound_replyOut : Sound (replyOut Config.chip) := by
  unfold replyOut
  refine Sound.bind sound_get fun s => ?_
  split
  · exact sound_stallControl
  · exact Sound.bind (sound_modify fun _ h => { h with resid_le := h.resid_le, h2d_dir := fun hc => by cases hc }) fun _ =>
      sound_dataIn

/-! ## The Standard Request Handler -/

theorem sound_replyBytes (bs : List Byte) : Sound (replyBytes bs) :=
  Sound.bind (sound_stageWrite _ _) fun _ => Sound.bind (sound_setReply _ _) fun _ => sound_setResult _

theorem sound_hookAnswer : Sound hookAnswer := by
  intro s hs
  unfold SoundAt
  simp only [hookAnswer]
  split <;> rename_i h <;> split at h <;> cases h <;> exact { hs with }

theorem sound_callHook (id : Nat) : Sound (callHook id) := by
  unfold callHook
  refine Sound.bind sound_get fun _ => Sound.bind (sound_logHook _) fun _ => Sound.bind sound_hookAnswer fun a => ?_
  split
  · exact sound_pure _
  · exact Sound.bind (sound_modify fun _ h =>
      { h with
        stage_wf := Memory.wf_writeCells _ _ _ h.stage_wf
        stage_below := Memory.below_writeCells _ _ _ h.stage_below
        resid_le := h.resid_le
        h2d_dir := h.h2d_dir }) fun _ => sound_pure _

theorem sound_typeHook (k : Option Nat) : Sound (typeHook k) := by
  unfold typeHook
  split
  · exact sound_setResult _
  · exact Sound.bind (sound_callHook _) fun _ => sound_setResult _

theorem sound_customHook (k : Option Nat) : Sound (customHook k) := by
  unfold customHook
  split
  · exact sound_pushFrames _
  · refine Sound.bind (sound_callHook _) fun r => ?_
    split
    · exact sound_setResult _
    · exact sound_pushFrames _

theorem sound_deviceFeature (f : SetupFields) : Sound (deviceFeature f) := by
  unfold deviceFeature
  split <;> exact sound_setResult _

/-! ## The Interrupt Dispatcher -/

theorem sound_frameArm : Sound (frameArm Config.chip) := by
  unfold frameArm
  refine Sound.bind (sound_regWrite _ _) fun _ => Sound.bind sound_get fun s => ?_
  split
  · exact sound_logHook _
  · exact sound_pure _

theorem sound_devStatArm : Sound (devStatArm Config.chip) := by
  unfold devStatArm
  refine Sound.bind (sound_regWrite _ _) fun _ => Sound.bind (sound_commandRead _) fun v => ?_
  dsimp only
  split
  · refine Sound.bind (sound_modify fun _ h => { h with }) fun _ => Sound.bind sound_get fun s => ?_
    split
    · exact sound_logHook _
    · exact sound_pure _
  · exact sound_pure _

theorem sound_nextScript : Sound nextScript := by
  intro s hs
  unfold SoundAt
  simp only [nextScript]
  split <;> rename_i h <;> split at h <;> cases h
  · exact { hs with }
  · exact hs

theorem sound_endpointEvent (i : Idx) : Sound (endpointEvent Config.chip i) := by
  unfold endpointEvent callHandler
  refine Sound.bind (sound_regWrite _ _) fun _ => Sound.bind (sound_readRawStatus _) fun _ => Sound.bind sound_get fun s => ?_
  split
  · exact sound_pure _
  · exact sound_pushFrames _
  · exact Sound.bind (sound_logHook _) fun _ => Sound.bind sound_nextScript fun _ => sound_pushFrames _

/-! ## From a computation to a step -/

theorem Sound.next {m : SeqM α} (hm : Sound m) {s t : State} (hs : SpecInv s) (hn : runSeq m s = .next t) : SpecInv t := by
  have h := hm s hs
  unfold SoundAt at h
  unfold runSeq outcome at hn
  cases hr : m s with
  | ok a u => rw [hr] at h hn; cases hn; exact h
  | error x u =>
    rw [hr] at h hn
    cases x with
    | hang b => cases hn; exact h.hang b
    | fault f => cases hn
    | refuse r => cases hn

end Sys2Proof.Machine
end

