-- ==== Sys2Proof/Laws/Waits.lean ====
section
/-! SUPPORT. Every wait of SEQ ends when ENG answers, whatever ENG and WIRE do before each access (R175): a property of ENG that
the events of the host respect is followed through a phase, and every register operation runs to its end. -/

-- one declaration at a time: kernel evaluations that wait for each other would hold a thread each
set_option Elab.async false

namespace Sys2Proof.Machine

variable {α β : Type}

/-! ## Properties that the host's events respect -/

/-- A property of ENG that no event of the host or the cable breaks. -/
def Steady (Q : Eng → Prop) : Prop := ∀ ev e e' o, Q e → e.wire Config.chip ev = some (e', o) → Q e'

/-- What no event of the host changes, and that it raises flags only (R372 to R378). -/
theorem wire_fields {e e' : Eng} {ev : WireEvent} {o : WireOutcome} (hw : e.wire Config.chip ev = some (e', o)) :
    e'.pend = e.pend ∧ e'.cur = e.cur ∧ e'.realize = e.realize ∧ e'.dpctl = e.dpctl ∧
    (∀ k, e.devintst.getLsbD k = true → e'.devintst.getLsbD k = true) ∧
    (∀ k, k ≠ 0 → k ≠ 2 → k ≠ 3 → e'.devintst.getLsbD k = e.devintst.getLsbD k) := by
  have set : ∀ (w : RegWord) (j : Nat), (j = 0 ∨ j = 2 ∨ j = 3) →
      (∀ k, w.getLsbD k = true → (setBit w j).getLsbD k = true) ∧
      (∀ k, k ≠ 0 → k ≠ 2 → k ≠ 3 → (setBit w j).getLsbD k = w.getLsbD k) := by
    intro w j hj
    refine ⟨fun k hk => by rw [setBit_getLsbD, hk]; rfl, fun k h0 h2 h3 => ?_⟩
    have : ¬ j = k := by omega
    simp [this]
  have int : ∀ (f : Eng) (i : Idx), f.devintst = e.devintst →
      (∀ k, e.devintst.getLsbD k = true → (setEpInt Config.chip i f).devintst.getLsbD k = true) ∧
      (∀ k, k ≠ 0 → k ≠ 2 → k ≠ 3 → (setEpInt Config.chip i f).devintst.getLsbD k = e.devintst.getLsbD k) := by
    intro f i hf
    simp only [setEpInt]
    split
    · rw [hf]; exact set _ _ (Or.inr (Or.inl rfl))
    · rw [hf]; exact ⟨fun _ h => h, fun _ _ _ _ => rfl⟩
  cases ev <;> simp only [Eng.wire, Eng.wireSetup, Eng.wireOut, Eng.wireIn, Eng.wireSof, Eng.wireBusReset, Eng.wireConnect,
    Eng.wireSuspend] at hw <;> split at hw <;> try cases hw
  case setup.isTrue => exact ⟨rfl, rfl, rfl, rfl, int _ _ rfl⟩
  case out.isTrue num bytes _ =>
    have hw' := congrArg Prod.fst (Option.some.inj hw)
    simp only [Eng.offerOut] at hw'
    split at hw'
    · rw [← hw']; exact ⟨rfl, rfl, rfl, rfl, fun _ h => h, fun _ _ _ _ => rfl⟩
    · split at hw' <;> rw [← hw']
      · exact ⟨rfl, rfl, rfl, rfl, fun _ h => h, fun _ _ _ _ => rfl⟩
      · exact ⟨rfl, rfl, rfl, rfl, int _ _ rfl⟩
  case inn.isTrue num _ =>
    have hw' := congrArg Prod.fst (Option.some.inj hw)
    simp only [Eng.askIn] at hw'
    split at hw'
    · rw [← hw']; exact ⟨rfl, rfl, rfl, rfl, fun _ h => h, fun _ _ _ _ => rfl⟩
    · split at hw' <;> rw [← hw']
      · exact ⟨rfl, rfl, rfl, rfl, fun _ h => h, fun _ _ _ _ => rfl⟩
      · exact ⟨rfl, rfl, rfl, rfl, int _ _ rfl⟩
  case sof.isTrue => exact ⟨rfl, rfl, rfl, rfl, set _ _ (Or.inl rfl)⟩
  all_goals exact ⟨rfl, rfl, rfl, rfl, set _ _ (Or.inr (Or.inr rfl))⟩

theorem steady_and {P Q : Eng → Prop} (hP : Steady P) (hQ : Steady Q) : Steady (fun e => P e ∧ Q e) :=
  fun ev e e' o h hw => ⟨hP ev e e' o h.1 hw, hQ ev e e' o h.2 hw⟩

theorem steady_true : Steady (fun _ => True) := fun _ _ _ _ _ _ => trivial
theorem steady_pend (x : Option Word) : Steady (fun e => e.pend = x) :=
  fun _ _ _ _ h hw => (wire_fields hw).1.trans h
theorem steady_cur (x : Option Byte) : Steady (fun e => e.cur = x) :=
  fun _ _ _ _ h hw => (wire_fields hw).2.1.trans h
theorem steady_realize (P : Word → Prop) : Steady (fun e => P e.realize) := by
  intro _ e e' _ h hw
  have := (wire_fields hw).2.2.1
  show P e'.realize
  rw [this]; exact h
theorem steady_flag (k : Nat) : Steady (fun e => e.devintst.getLsbD k = true) :=
  fun _ _ _ _ h hw => (wire_fields hw).2.2.2.2.1 k h
theorem steady_flag_eq (k : Nat) (b : Bool) (h0 : k ≠ 0) (h2 : k ≠ 2) (h3 : k ≠ 3) :
    Steady (fun e => e.devintst.getLsbD k = b) :=
  fun _ _ _ _ h hw => ((wire_fields hw).2.2.2.2.2 k h0 h2 h3).trans h

/-! ## Before an access -/

theorem wireState_steady {Q : Eng → Prop} (hQ : Steady Q) (ev : WireEvent) {s : State} (h : Q s.eng) :
    Q (wireState ev (s.eng.wire Config.chip ev) s).eng := by
  cases hw : s.eng.wire Config.chip ev with
  | none => exact h
  | some r => exact hQ ev s.eng r.1 r.2 h hw

/-- With no phase pending, only events of the host happen before an access. -/
theorem before_idle {Q : Eng → Prop} (hQ : Steady Q) {s : State} (hp : s.eng.pend = none) (h : Q s.eng) :
    (beforeAccess Config.chip s).eng.pend = none ∧ Q (beforeAccess Config.chip s).eng := by
  have key : ∀ (ms : List Move) (s : State), s.eng.pend = none → Q s.eng →
      (applyMoves Config.chip ms s).eng.pend = none ∧ Q (applyMoves Config.chip ms s).eng := by
    intro ms
    induction ms with
    | nil => intro s h1 h2; exact ⟨h1, h2⟩
    | cons m ms ih =>
      intro s h1 h2
      cases m with
      | eng =>
        have : engMove Config.chip s = s := by simp [engMove, Eng.advance, Eng.ready, h1]
        simp only [applyMoves, applyMove, this]
        exact ih s h1 h2
      | wire ev => exact ih _ (wireState_steady (steady_pend none) ev h1) (wireState_steady hQ ev h2)
  unfold beforeAccess
  split
  · exact ⟨hp, h⟩
  · exact key _ _ hp h

/-- Where a phase stands between its start and its end: still pending with `Q`, or completed with `R`. -/
def Between (w : Word) (Q R : Eng → Prop) (e : Eng) : Prop := (e.pend = some w ∧ Q e) ∨ (e.pend = none ∧ R e)

/-- With a phase pending, ENG may complete it before an access. -/
theorem before_pending {w : Word} {Q R : Eng → Prop} (hQ : Steady Q) (hR : Steady R)
    (hc : ∀ e, Q e → (e.complete Config.chip (decodeCmdw Config.chip w)).pend = none ∧ R (e.complete Config.chip (decodeCmdw Config.chip w))) {s : State}
    (h : Between w Q R s.eng) : Between w Q R (beforeAccess Config.chip s).eng := by
  have eng : ∀ s : State, Between w Q R s.eng → Between w Q R (engMove Config.chip s).eng := by
    intro s h
    cases hr : s.cfg.engResponsive with
    | false =>
      have : engMove Config.chip s = s := by simp [engMove, Eng.advance, Eng.ready, hr]
      rw [this]; exact h
    | true =>
      rcases h with ⟨h1, h2⟩ | ⟨h1, h2⟩
      · rw [engMove_ready hr h1]; exact Or.inr (hc _ h2)
      · have : engMove Config.chip s = s := by simp [engMove, Eng.advance, Eng.ready, h1]
        rw [this]; exact Or.inr ⟨h1, h2⟩
  have wire : ∀ (ev : WireEvent) (s : State), Between w Q R s.eng → Between w Q R (wireState ev (s.eng.wire Config.chip ev) s).eng := by
    rintro ev s (⟨h1, h2⟩ | ⟨h1, h2⟩)
    · exact Or.inl ⟨wireState_steady (steady_pend _) ev h1, wireState_steady hQ ev h2⟩
    · exact Or.inr ⟨wireState_steady (steady_pend _) ev h1, wireState_steady hR ev h2⟩
  have key : ∀ (ms : List Move) (s : State), Between w Q R s.eng → Between w Q R (applyMoves Config.chip ms s).eng := by
    intro ms
    induction ms with
    | nil => intro s h; exact h
    | cons m ms ih =>
      intro s h
      cases m with
      | eng => exact ih _ (eng s h)
      | wire ev => exact ih _ (wire ev s h)
  unfold beforeAccess
  split
  · exact h
  · exact key _ _ h

/-! ## Operations that run to their end -/

/-- From every state with a responsive ENG, no phase pending and `P`, the computation ends well, with none pending and `Q`, and
SEQ's own state is the same. -/
def Runs (P Q : Eng → Prop) (m : SeqM α) : Prop :=
  ∀ s : State, s.cfg.engResponsive = true → s.eng.pend = none → P s.eng →
    ∃ a t, m s = .ok a t ∧ t.eng.pend = none ∧ Q t.eng ∧ SameSeq s t

theorem SameSeq.responsive {s t : State} (h : SameSeq s t) : t.cfg = s.cfg ∧ t.hung = s.hung := by
  obtain ⟨e, sl, wl, rfl⟩ := sameSeq_iff.mp h
  exact ⟨rfl, rfl⟩

theorem Runs.bind {P Q R : Eng → Prop} {m : SeqM α} {f : α → SeqM β} (hm : Runs P Q m) (hf : ∀ a, Runs Q R (f a)) :
    Runs P R (m >>= f) := by
  intro s h1 h2 h3
  obtain ⟨a, t, e1, e2, e3, e4⟩ := hm s h1 h2 h3
  obtain ⟨b, u, f1, f2, f3, f4⟩ := hf a t (by rw [e4.responsive.1]; exact h1) e2 e3
  exact ⟨b, u, (run_bind_ok e1).trans f1, f2, f3, e4.trans f4⟩

theorem runs_pure {P : Eng → Prop} (a : α) : Runs P P (pure a : SeqM α) := fun s _ h2 h3 => ⟨a, s, rfl, h2, h3, SameSeq.refl s⟩

theorem readReg_pend (r : Reg) (e : Eng) : (e.readReg Config.chip r).2.pend = e.pend := by
  cases r <;> simp only [Eng.readReg] <;> repeat' split
  all_goals rfl

/-- A read never fails. -/
theorem runs_regRead {P Q : Eng → Prop} (r : Reg) (hP : Steady P) (hr : ∀ e, P e → Q (e.readReg Config.chip r).2) :
    Runs P Q (regRead Config.chip r) := by
  intro s h1 h2 h3
  obtain ⟨k1, k2⟩ := before_idle hP h2 h3
  exact ⟨_, _, rfl, (readReg_pend r _).trans k1, hr _ k2, (kept_beforeAccess (chip := Config.chip) s).seq.trans (sameSeq_eng _ _)⟩

/-- A write that the register accepts. -/
theorem runs_regWrite {P Q : Eng → Prop} (r : Reg) (v : RegWord) (hP : Steady P)
    (hw : ∀ e, P e → e.pend = none → ∃ e', e.writeReg Config.chip r v = .ok e' ∧ e'.pend = none ∧ Q e') : Runs P Q (regWrite Config.chip r v) := by
  intro s h1 h2 h3
  obtain ⟨k1, k2⟩ := before_idle hP h2 h3
  obtain ⟨e', w1, w2, w3⟩ := hw _ k2 k1
  refine ⟨(), { beforeAccess Config.chip s with eng := e' }, ?_, w2, w3, (kept_beforeAccess (chip := Config.chip) s).seq.trans (sameSeq_eng _ _)⟩
  simp only [regWrite, w1]

/-- The flags of the two kinds of phase are both clear. -/
def flagsClear (e : Eng) : Prop :=
  e.devintst.getLsbD Config.chip.bitCCEMPTY = false ∧ e.devintst.getLsbD Config.chip.bitCDFULL = false

theorem steady_flagsClear : Steady flagsClear :=
  steady_and (steady_flag_eq 4 false (by decide) (by decide) (by decide)) (steady_flag_eq 5 false (by decide) (by decide) (by decide))

/-- One phase, with a property followed through it: `P` holds before and while it is pending, `R` after its completion. -/
theorem runs_phase {P R : Eng → Prop} {w : Word} {b : Nat} (hb : b = Config.chip.bitCCEMPTY ∨ b = Config.chip.bitCDFULL)
    (hP : Steady P) (hR : Steady R)
    (hPa : ∀ e, P e → P (e.accept w))
    (hc : ∀ e, P e → R (e.complete Config.chip (decodeCmdw Config.chip w)))
    (hRc : ∀ e, R e → R (e.writeDevintclr Config.chip (bit b)))
    (hd : ∀ e : Eng, (e.complete Config.chip (decodeCmdw Config.chip w)).pend = none ∧
      ∀ k, (k = Config.chip.bitCCEMPTY ∨ k = Config.chip.bitCDFULL) →
        (e.complete Config.chip (decodeCmdw Config.chip w)).devintst.getLsbD k = (e.devintst.getLsbD k || decide (k = b))) :
    Runs (fun e => flagsClear e ∧ P e) (fun e => flagsClear e ∧ R e) (phase Config.chip w b) := by
  intro s h1 h2 h3
  obtain ⟨k1, k2, k3⟩ := before_idle (steady_and steady_flagsClear hP) h2 h3
  have seq1 := (kept_beforeAccess (chip := Config.chip) s).seq
  obtain ⟨s1, hs1⟩ : ∃ s1 : State, s1 = { beforeAccess Config.chip s with eng := (beforeAccess Config.chip s).eng.accept w } := ⟨_, rfl⟩
  have hw : regWrite Config.chip .CMDCODE (w.setWidth Config.regMax) s = .ok () s1 := by
    simp only [regWrite, Eng.writeReg, word_of_reg, k1, hs1]; rfl
  have seq2 : SameSeq s s1 := by rw [hs1]; exact seq1.trans (sameSeq_eng _ _)
  -- while pending: the flags clear and P; after: the flag of this phase only, and R
  have hpost : Steady (fun e => (∀ k, (k = Config.chip.bitCCEMPTY ∨ k = Config.chip.bitCDFULL) →
      e.devintst.getLsbD k = decide (k = b)) ∧ R e) := by
    refine steady_and ?_ hR
    intro ev e e' o h hw k hk
    have := (wire_fields hw).2.2.2.2.2 k (by rcases hk with rfl | rfl <;> decide) (by rcases hk with rfl | rfl <;> decide)
      (by rcases hk with rfl | rfl <;> decide)
    exact this.trans (h k hk)
  have hcomp : ∀ e : Eng, (flagsClear e ∧ P e) → (e.complete Config.chip (decodeCmdw Config.chip w)).pend = none ∧
      ((∀ k, (k = Config.chip.bitCCEMPTY ∨ k = Config.chip.bitCDFULL) →
        (e.complete Config.chip (decodeCmdw Config.chip w)).devintst.getLsbD k = decide (k = b)) ∧ R (e.complete Config.chip (decodeCmdw Config.chip w))) := by
    intro e he
    refine ⟨(hd e).1, fun k hk => ?_, hc e he.2⟩
    rw [(hd e).2 k hk]
    rcases hk with rfl | rfl
    · rw [he.1.1]; rfl
    · rw [he.1.2]; rfl
  have start : Between w (fun e => flagsClear e ∧ P e) (fun e => (∀ k, (k = Config.chip.bitCCEMPTY ∨ k = Config.chip.bitCDFULL) →
      e.devintst.getLsbD k = decide (k = b)) ∧ R e) s1.eng := by
    left; rw [hs1]; exact ⟨rfl, k2, hPa _ k3⟩
  have mid := before_pending (steady_and steady_flagsClear hP) hpost hcomp start
  have seq3 := seq2.trans (kept_beforeAccess (chip := Config.chip) s1).seq
  -- the wait ends with the phase completed
  have wait : ∃ t, waitFlag Config.chip b s1 = .ok () t ∧ t.eng.pend = none ∧ (∀ k, (k = Config.chip.bitCCEMPTY ∨ k = Config.chip.bitCDFULL) →
      t.eng.devintst.getLsbD k = decide (k = b)) ∧ R t.eng ∧ SameSeq s t := by
    simp only [waitFlag]
    rcases mid with ⟨m1, m2, m3⟩ | ⟨m1, m2, m3⟩
    · have hclear : (beforeAccess Config.chip s1).eng.devintst.getLsbD b = false := by
        rcases hb with rfl | rfl
        · exact m2.1
        · exact m2.2
      have hresp : (beforeAccess Config.chip s1).cfg.engResponsive = true := by rw [seq3.responsive.1]; exact h1
      obtain ⟨c1, c2, c3⟩ := hcomp _ ⟨m2, m3⟩
      have hset : (engMove Config.chip (beforeAccess Config.chip s1)).eng.devintst.getLsbD b = true := by
        rw [engMove_ready hresp m1]; have := c2 b hb; simpa using this
      rw [hclear]
      simp only [Bool.false_eq_true, if_false, hset, if_true]
      refine ⟨_, rfl, ?_⟩
      rw [engMove_ready hresp m1]
      exact ⟨c1, c2, c3, seq3.trans (sameSeq_eng _ _)⟩
    · have hset : (beforeAccess Config.chip s1).eng.devintst.getLsbD b = true := by have := m2 b hb; simpa using this
      simp only [hset, if_true]
      exact ⟨_, rfl, m1, m2, m3, seq3⟩
  obtain ⟨t, t1, t2, t3, t4, t5⟩ := wait
  -- and the flag is cleared
  obtain ⟨_, u, u1, u2, u3, u4⟩ := runs_regWrite (Q := fun e => flagsClear e ∧ R e) .DEVINTCLR (bit b) hpost
    (fun e he hp => ⟨_, rfl, hp, ⟨by
      have := he.1 Config.chip.bitCCEMPTY (Or.inl rfl)
      simp only [Eng.writeDevintclr, BitVec.getLsbD_and, BitVec.getLsbD_not, bit_getLsbD, this]
      rcases hb with rfl | rfl <;> decide, by
      have := he.1 Config.chip.bitCDFULL (Or.inr rfl)
      simp only [Eng.writeDevintclr, BitVec.getLsbD_and, BitVec.getLsbD_not, bit_getLsbD, this]
      rcases hb with rfl | rfl <;> decide⟩, hRc _ he.2⟩) t (by rw [t5.responsive.1]; exact h1) t2 ⟨t3, t4⟩
  refine ⟨(), u, ?_, u2, u3, t5.trans u4⟩
  unfold phase
  exact (run_bind_ok hw).trans ((run_bind_ok t1).trans u1)

/-! ## The primitives -/

/-- A property that the bookkeeping of the command protocol respects: acceptance, the clears of the two flags. -/
structure Tame (P : Eng → Prop) : Prop where
  steady : Steady P
  accept : ∀ w e, P e → P (e.accept w)
  clear : ∀ v e, v.getLsbD Config.chip.bitEPRLZD = false → P e → P (e.writeDevintclr Config.chip v)

theorem tame_true : Tame (fun _ => True) := ⟨steady_true, fun _ _ _ => trivial, fun _ _ _ _ => trivial⟩
theorem tame_realize (P : Word → Prop) : Tame (fun e => P e.realize) := ⟨steady_realize P, fun _ _ h => h, fun _ _ _ h => h⟩
theorem tame_cur (x : Option Byte) : Tame (fun e => e.cur = x) := ⟨steady_cur x, fun _ _ h => h, fun _ _ _ h => h⟩
theorem tame_and {P Q : Eng → Prop} (hP : Tame P) (hQ : Tame Q) : Tame (fun e => P e ∧ Q e) :=
  ⟨steady_and hP.steady hQ.steady, fun w e h => ⟨hP.accept w e h.1, hQ.accept w e h.2⟩,
    fun v e hv h => ⟨hP.clear v e hv h.1, hQ.clear v e hv h.2⟩⟩
theorem tame_confirmed : Tame (fun e => e.devintst.getLsbD Config.chip.bitEPRLZD = true) :=
  ⟨steady_flag _, fun _ _ h => h, fun v e hv h => by
    simp only [Eng.writeDevintclr, BitVec.getLsbD_and, BitVec.getLsbD_not, hv, h]; decide⟩

/-- The first access of a primitive clears both flags (R172). -/
theorem runs_clearFlags {P : Eng → Prop} (hP : Tame P) :
    Runs P (fun e => flagsClear e ∧ P e) (regWrite Config.chip .DEVINTCLR (phaseFlags Config.chip)) :=
  runs_regWrite _ _ hP.steady fun e h hp => ⟨_, rfl, hp, ⟨by
    have h1 := (phaseFlags_clear e.devintst).1
    have h2 := (phaseFlags_clear e.devintst).2
    exact ⟨h1, h2⟩, hP.clear _ e (by decide) h⟩⟩

theorem complete_rdWord (c : Byte) (e : Eng) : (e.complete Config.chip (decodeCmdw Config.chip (rdWord Config.chip c))).pend = none ∧
    (e.complete Config.chip (decodeCmdw Config.chip (rdWord Config.chip c))).devintst = setBit e.devintst Config.chip.bitCDFULL := by
  have hp : (rdWord Config.chip c).extractLsb' 8 8 = Config.chip.phRead := by revert c; decide +kernel
  rw [decodeCmdw_rdWord]
  simp only [decodeReadCode]
  repeat' split
  all_goals
    simp only [Eng.complete, Eng.completeSelectEpRd, Eng.completeGetDevStatusRd, Eng.completeReserved, hp, if_true]
  all_goals (try split)
  all_goals exact ⟨rfl, rfl⟩

theorem writeData_pend (c : Byte) (d : Half) (e : Eng) : ∀ k, (k = Config.chip.bitCCEMPTY ∨ k = Config.chip.bitCDFULL) →
    (e.writeData Config.chip c d).devintst.getLsbD k = e.devintst.getLsbD k := by
  intro k hk
  have hne : ¬ Config.chip.bitEPRLZD = k := by rcases hk with rfl | rfl <;> decide
  unfold Eng.writeData
  split
  · rfl
  · split
    · unfold Eng.setMps
      split
      · simp only [setBit_getLsbD, decide_eq_false hne]; simp
      · rfl
    · split
      · rfl
      · split <;> rfl

theorem complete_wrWord (d : Half) (e : Eng) : (e.complete Config.chip (decodeCmdw Config.chip (wrWord Config.chip d))).pend = none ∧
    ∀ k, (k = Config.chip.bitCCEMPTY ∨ k = Config.chip.bitCDFULL) →
      (e.complete Config.chip (decodeCmdw Config.chip (wrWord Config.chip d))).devintst.getLsbD k = (e.devintst.getLsbD k || decide (k = Config.chip.bitCCEMPTY)) := by
  have flag : ∀ (w : RegWord) (j k : Nat), k < 64 → (setBit w j).getLsbD k = (w.getLsbD k || decide (k = j)) := by
    intro w j k hk
    rw [setBit_getLsbD, decide_eq_true hk, Bool.true_and]
    congr 1; simp only [eq_comm]
  rw [decodeCmdw_wrWord]
  simp only [Eng.complete, Eng.completeWrdata]
  split
  · refine ⟨rfl, fun k hk => ?_⟩
    rw [← writeData_pend _ d e k hk]
    exact flag _ _ _ (by rcases hk with rfl | rfl <;> decide)
  · exact ⟨rfl, fun k hk => flag _ _ _ (by rcases hk with rfl | rfl <;> decide)⟩

theorem flag_set (w : RegWord) (j : Nat) : ∀ k, (k = Config.chip.bitCCEMPTY ∨ k = Config.chip.bitCDFULL) →
    (setBit w j).getLsbD k = (w.getLsbD k || decide (k = j)) := by
  intro k hk
  rw [setBit_getLsbD, decide_eq_true (by rcases hk with rfl | rfl <;> decide), Bool.true_and]
  congr 1; simp only [eq_comm]

/-- The command phase, with a property followed. -/
theorem runs_cmdPhase {P R : Eng → Prop} (c : Byte) (hP : Tame P) (hR : Tame R)
    (hc : ∀ e, P e → R (e.complete Config.chip (decodeCmdw Config.chip (cmdWord Config.chip c)))) :
    Runs (fun e => flagsClear e ∧ P e) (fun e => flagsClear e ∧ R e) (phase Config.chip (cmdWord Config.chip c) Config.chip.bitCCEMPTY) :=
  runs_phase (Or.inl rfl) hP.steady hR.steady (hP.accept _) hc (fun e h => hR.clear _ e (by decide) h)
    (fun e => ⟨(complete_cmdWord c e).1, by rw [(complete_cmdWord c e).2]; exact flag_set _ _⟩)

/-- The write-data phase, with a property followed. -/
theorem runs_wrPhase {P R : Eng → Prop} (d : Half) (hP : Tame P) (hR : Tame R)
    (hc : ∀ e, P e → R (e.complete Config.chip (decodeCmdw Config.chip (wrWord Config.chip d)))) :
    Runs (fun e => flagsClear e ∧ P e) (fun e => flagsClear e ∧ R e) (phase Config.chip (wrWord Config.chip d) Config.chip.bitCCEMPTY) :=
  runs_phase (Or.inl rfl) hP.steady hR.steady (hP.accept _) hc (fun e h => hR.clear _ e (by decide) h)
    (fun e => complete_wrWord d e)

/-- The read-data phase. -/
theorem runs_rdPhase (c : Byte) : Runs (fun e => flagsClear e ∧ True) (fun e => flagsClear e ∧ True)
    (phase Config.chip (rdWord Config.chip c) Config.chip.bitCDFULL) :=
  runs_phase (Or.inr rfl) steady_true steady_true (fun _ _ => trivial) (fun _ _ => trivial) (fun _ _ => trivial)
    (fun e => ⟨(complete_rdWord c e).1, by rw [(complete_rdWord c e).2]; exact flag_set _ _⟩)

theorem Runs.weaken {P Q Q' : Eng → Prop} {m : SeqM α} (h : Runs P Q m) (hq : ∀ e, Q e → Q' e) : Runs P Q' m := by
  intro s h1 h2 h3
  obtain ⟨a, t, e1, e2, e3, e4⟩ := h s h1 h2 h3
  exact ⟨a, t, e1, e2, hq _ e3, e4⟩

/-- Nothing is asked and nothing is told but that none is pending. -/
abbrev RunsAny (m : SeqM α) : Prop := Runs (fun _ => True) (fun _ => True) m

theorem runs_command (c : Byte) : RunsAny (command Config.chip c) :=
  Runs.bind (runs_clearFlags tame_true) fun _ =>
    (runs_cmdPhase c tame_true tame_true fun _ _ => trivial).weaken fun _ _ => trivial

theorem runs_commandWrite (c : Byte) (d : Half) : RunsAny (commandWrite Config.chip c d) :=
  Runs.bind (runs_clearFlags tame_true) fun _ => Runs.bind (runs_cmdPhase c tame_true tame_true fun _ _ => trivial) fun _ =>
    (runs_wrPhase d tame_true tame_true fun _ _ => trivial).weaken fun _ _ => trivial

theorem runs_read (r : Reg) : RunsAny (regRead Config.chip r) := runs_regRead r steady_true fun _ _ => trivial

theorem runs_commandRead (c : Byte) : RunsAny (commandRead Config.chip c) :=
  Runs.bind (runs_clearFlags tame_true) fun _ => Runs.bind (runs_cmdPhase c tame_true tame_true fun _ _ => trivial) fun _ =>
    Runs.bind (runs_rdPhase c) fun _ => Runs.bind (runs_regRead .CMDDATA (steady_and steady_flagsClear steady_true)
      (Q := fun _ => True) fun _ _ => trivial) fun _ => runs_pure _

/-! ## The Endpoint Manager -/

/-- A write that every register but CMDCODE, DPCTL and REALIZE accepts. -/
theorem runs_write {r : Reg} {v : RegWord} (hw : ∀ e : Eng, e.pend = none → ∃ e' : Eng, e.writeReg Config.chip r v = .ok e' ∧ e'.pend = none) :
    RunsAny (regWrite Config.chip r v) :=
  runs_regWrite r v steady_true fun e _ hp => by
    obtain ⟨e', h1, h2⟩ := hw e hp
    exact ⟨e', h1, h2, trivial⟩

/-- A modification of the lock only. -/
theorem runs_lockPort (u : PortUse) : RunsAny (lockPort u) := fun _ _ h2 _ => ⟨(), _, rfl, h2, trivial, rfl⟩
theorem runs_unlockPort : RunsAny unlockPort := fun _ _ h2 _ => ⟨(), _, rfl, h2, trivial, rfl⟩

theorem runs_writeDpctl {v : RegWord} (hv : (rdEn Config.chip v && wrEn Config.chip v) = false) : RunsAny (regWrite Config.chip .DPCTL v) :=
  runs_write fun e hp => ⟨e.writeDpctl Config.chip v, by simp [Eng.writeReg, hv], hp⟩

theorem runs_readRawStatus (i : Idx) : RunsAny (readRawStatus Config.chip i) := Runs.bind (runs_commandRead _) fun _ => runs_pure _
theorem runs_getStatus (a : Byte) : RunsAny (getStatus Config.chip a) := Runs.bind (runs_readRawStatus _) fun _ => runs_pure _

theorem runs_drainPort (n : Nat) : RunsAny (drainPort Config.chip n) := by
  induction n with
  | zero => exact runs_pure _
  | succ n ih => exact Runs.bind (runs_read _) fun _ => Runs.bind ih fun _ => runs_pure _

theorem runs_epRead (a : Byte) (n : Nat) : RunsAny (epRead Config.chip a n) :=
  Runs.bind (runs_writeDpctl (by rw [(portOpen_read a).1, (portOpen_read a).2.1]; rfl)) fun _ =>
    Runs.bind (runs_lockPort _) fun _ => Runs.bind (runs_read _) fun _ => Runs.bind (runs_drainPort _) fun _ =>
      Runs.bind (runs_writeDpctl (by decide)) fun _ => Runs.bind (runs_command _) fun _ =>
        Runs.bind (runs_command _) fun _ => Runs.bind runs_unlockPort fun _ => runs_pure _

theorem closeTx_pend (e : Eng) : (e.closeTx Config.chip).pend = e.pend := rfl

theorem runs_writeTx (r : Reg) (hr : r = .TXDATA ∨ r = .TXPLEN) (v : RegWord) : RunsAny (regWrite Config.chip r v) :=
  runs_write fun e hp => by
    rcases hr with rfl | rfl
    · refine ⟨_, rfl, ?_⟩; split <;> exact hp
    · refine ⟨_, rfl, ?_⟩; split <;> exact hp

theorem runs_fillPort (bs : List Byte) (fuel w : Nat) : RunsAny (fillPort Config.chip bs fuel w) := by
  induction fuel generalizing w with
  | zero => exact runs_pure _
  | succ fuel ih =>
    refine Runs.bind (runs_read _) fun v => ?_
    cases h : wrEn Config.chip v with
    | true => exact Runs.bind (runs_writeTx _ (Or.inl rfl) _) fun _ => ih _
    | false => exact runs_pure _

theorem runs_epWrite (a : Byte) (bs : List Byte) : RunsAny (epWrite Config.chip a bs) :=
  Runs.bind (runs_writeDpctl (by rw [(portOpen_write a).1]; rfl)) fun _ =>
    Runs.bind (runs_lockPort _) fun _ => Runs.bind (runs_writeTx _ (Or.inr rfl) _) fun _ =>
      Runs.bind (runs_fillPort _ _ _) fun _ => Runs.bind (runs_writeDpctl (by decide)) fun _ =>
        Runs.bind (runs_command _) fun _ => Runs.bind (runs_command _) fun _ => runs_unlockPort

/-- The mark is set (R203 step 1): REALIZE is read and written back with the bit. -/
theorem runs_mark (i : Idx) : Runs (fun _ => True) (fun e => e.realize.getLsbD i.toNat = true) (regOr Config.chip .REALIZE (bit i.toNat)) := by
  intro s h1 h2 _
  obtain ⟨k1, k2⟩ := before_idle (Q := fun _ => True) steady_true h2 trivial
  have seq1 := (kept_beforeAccess (chip := Config.chip) s).seq
  have hr : regRead Config.chip .REALIZE s =
      .ok ((beforeAccess Config.chip s).eng.realize.setWidth Config.regMax) (beforeAccess Config.chip s) := rfl
  obtain ⟨_, u, u1, u2, u3, u4⟩ := runs_regWrite (P := fun e => e.realize = (beforeAccess Config.chip s).eng.realize)
    (Q := fun e => e.realize.getLsbD i.toNat = true) .REALIZE
    ((beforeAccess Config.chip s).eng.realize.setWidth Config.regMax ||| bit i.toNat)
    (steady_realize (fun w => w = (beforeAccess Config.chip s).eng.realize)) (fun e he hp => by
      refine ⟨{ e with realize := (beforeAccess Config.chip s).eng.realize ||| bit i.toNat }, ?_, hp, ?_⟩
      · simp only [Eng.writeReg, Eng.writeRealize, word_or_bit, he, or_bit_clears_nothing]; rfl
      · have := i.isLt
        simp only [BitVec.getLsbD_or, bit_getLsbD]
        rw [decide_eq_true (by omega)]; simp)
    (beforeAccess Config.chip s) (by rw [seq1.responsive.1]; exact h1) k1 rfl
  exact ⟨(), u, (run_bind_ok hr).trans u1, u2, u3, seq1.trans u4⟩

/-- `commandWrite(SET_MAXPKT + i, m)` on a marked index leaves the confirmation flag set (R184, R206). -/
theorem runs_setMaxpkt (i : Idx) (d : Half) : Runs (fun e => e.realize.getLsbD i.toNat = true)
    (fun e => e.devintst.getLsbD Config.chip.bitEPRLZD = true) (commandWrite Config.chip (codeWithIdx Config.chip.codeSetMaxpkt i) d) := by
  have hm := tame_realize (fun w => w.getLsbD i.toNat = true)
  have hcur := tame_cur (some (codeWithIdx Config.chip.codeSetMaxpkt i))
  unfold commandWrite
  refine Runs.bind (runs_clearFlags hm) fun _ => Runs.bind (runs_cmdPhase _ hm (tame_and hm hcur) fun e he => ?_) fun _ =>
    (runs_wrPhase d (tame_and hm hcur) tame_confirmed fun e he => ?_).weaken fun _ h => h.2
  · rw [decodeCmdw_cmdWord, codeWithIdx_maxpkt]; exact ⟨he, rfl⟩
  · rw [decodeCmdw_wrWord]
    simp [Eng.complete, Eng.completeWrdata, he.2, Eng.writeData, Eng.setMps, he.1, Eng.endWrite, setBit_getLsbD, Config.chip_bitEPRLZD]

theorem runs_waitConfirmed : Runs (fun e => e.devintst.getLsbD Config.chip.bitEPRLZD = true) (fun _ => True)
    (waitFlag Config.chip Config.chip.bitEPRLZD) := by
  intro s _ h2 h3
  obtain ⟨k1, k2⟩ := before_idle (steady_flag _) h2 h3
  refine ⟨(), beforeAccess Config.chip s, ?_, k1, trivial, (kept_beforeAccess (chip := Config.chip) s).seq⟩
  simp only [waitFlag, k2, if_true]

theorem runs_configureEndpoint (a : Byte) (m : Half) : RunsAny (configureEndpoint Config.chip a m) :=
  Runs.bind (runs_mark _) fun _ => Runs.bind (runs_setMaxpkt _ _) fun _ => Runs.bind runs_waitConfirmed fun _ =>
    Runs.bind (runs_write fun _ hp => ⟨_, rfl, hp⟩) fun _ =>
      Runs.bind (Runs.bind (runs_read _) fun _ => runs_write fun _ hp => ⟨_, rfl, hp⟩) fun _ =>
        Runs.bind (runs_read _) fun _ => runs_write fun _ hp => ⟨_, rfl, hp⟩

end Sys2Proof.Machine
end

