-- ==== Sys2Proof/Tests/Slice0.lean ====
section
/-! SUPPORT. Tests of one step on small states, with the expected results of the spec's own vectors (95_test_vectors.md,
96_test_vectors_transfers.md) or written out from its rules; and a witness for the hypotheses of every statement. -/

-- one declaration at a time: kernel evaluations that wait for each other would hold a thread each
set_option Elab.async false

namespace Sys2Proof.Tests

open Sys2Proof Sys2Proof.Machine

/-! ## WellFormed: one ill-formed term per check -/

def fields0 : SetupFields := { dir := false, rsv := 0#3, value := 0#16, index := 0#16, length := 0#16 }

theorem test_wf_reserved : Instr.wf Config.chip (.reservedCmdw 0x00D00500#32) = false := by decide
theorem test_wf_unknown_code : Instr.wf Config.chip (.unknownRequest fields0 0x06#8 0#2) = false := by decide
theorem test_wf_unknown_recipient : Instr.wf Config.chip (.unknownRequest fields0 0xFF#8 3#2) = false := by decide
theorem test_wf_setup_event : Instr.wf Config.chip (.setupEvent 0b00001#5) = false := by decide
theorem test_wf_out_data : Instr.wf Config.chip (.outDataEvent 0b00101#5) = false := by decide
theorem test_wf_out_status : Instr.wf Config.chip (.outStatusEvent 0b00100#5) = false := by decide
theorem test_wf_epRead_in : Instr.wf Config.chip (.epRead 0x80#8 8) = false := by decide
theorem test_wf_epWrite_out : Instr.wf Config.chip (.epWrite 0x00#8 []) = false := by decide
theorem test_wf_epWrite_long : Instr.wf Config.chip (.epWrite 0x80#8 (List.replicate 1024 0#8)) = false := by decide +kernel
theorem test_wf_configure_zero : Instr.wf Config.chip (.configureForSettingNonzero 0#8 0#8) = false := by decide

/-! ## Decoding: words written out from the spec's encodings (V-ENC1 and the examples of 44_standard_requests.md) -/

theorem test_decode_cmdw :
    [0x00000500, 0x00010200, 0x00410500, 0x00810500, 0x00D00500, 0x00D80500, 0x00F20500, 0x00FA0500, 0x00FE0500,
      0x00FE0200, 0x00080100, 0x00200500].map (decodeTableWord 32) =
    [some (.selectEp 0#5), some (.selectEpRd 1#5), some (.setEpStatus 1#5), some (.setMaxpkt 1#5), some .setAddress,
      some .configureDevice, some .clearBuffer, some .validateBuffer, some .getDevStatus, some .getDevStatusRd,
      some (.wrdata 8#16), some (.reservedCmdw 0x00200500#32)] := by decide +kernel

/-- A nonzero low byte, a fourth PHASE, and bits 31:24 of a command word are reserved (R122, R126). -/
theorem test_decode_reserved :
    [0x00D00501#32, 0x00D00300#32, 0x01D00500#32, 0x00D00200#32].map (decodeCmdw Config.chip) =
    [.reserved 0x00D00501#32, .reserved 0x00D00300#32, .reserved 0x01D00500#32, .reserved 0x00D00200#32] := by
  decide +kernel

/-- `80 06 00 01 00 00 12 00` (X1), `00 05 05 00 00 00 00 00` (X2), `02 03 00 00 81 00 00 00` (X5), `00 FF 00 ...` (X4). -/
theorem test_decode_setup :
    [0x0012000001000680, 0x0000000000050500, 0x0000008100000302, 0x000000000000FF00].map (decodeTableWord 64) =
    [some (.getDescriptorDev { fields0 with dir := true, value := 0x0100#16, length := 18#16 }),
      some (.setAddressDev { fields0 with value := 5#16 }), some (.setFeatureEp { fields0 with index := 0x0081#16 }),
      some (.unknownRequest fields0 0xFF#8 0#2)] := by decide +kernel

/-- The type field goes before the recipient; recipient 3; reserved type bits are ignored (R131, R133, R334). -/
theorem test_decode_types :
    [0x0000000000000020, 0x0000000000000A41, 0x000000000000FF62, 0x0000000000000003, 0x000000000000001D].map
      (decodeTableWord 64) =
    [some (.hReqClass fields0 0#8 0#2), some (.hReqVendor fields0 0x0A#8 1#2), some (.hReqReserved fields0 0xFF#8 2#2),
      some (.recipientOther fields0 0#8), some (.getStatusIf { fields0 with rsv := 7#3 })] := by decide +kernel

theorem test_decode_custom : decodeDispatch true 0x0000000000050500#64 = .hCustom { fields0 with value := 5#16 } 5#8 0#2 ∧
    decodeDispatch false 0x0000000000050500#64 = .setAddressDev { fields0 with value := 5#16 } := by decide

theorem test_decode_devint : [0x0000000D, 0x0000000C, 0x00000004].map (decodeTableWord 32) =
    [some .frameArm, some .devstatArm, some .endpointArm] := by decide +kernel

theorem test_decode_no_arm : decodeBytes Config.chip .devint false [0x30#8, 0x01#8, 0#8, 0#8] = .error .noArm := by decide

theorem test_decode_epevt :
    decodeBytes Config.chip .epevt false [0x00#8, 0x05#8] = .ok (.setupEvent 5#5) ∧
    decodeBytes Config.chip .epevt true [0x00#8, 0x01#8] = .ok (.outDataEvent 1#5) ∧
    decodeBytes Config.chip .epevt false [0x00#8, 0x01#8] = .ok (.outStatusEvent 1#5) ∧
    decodeBytes Config.chip .epevt false [0x80#8, 0x00#8] = .ok (.inEvent 0#5) ∧
    decodeBytes Config.chip .epevt false [0x81#8, 0x00#8] = .error .noEvent := by decide

/-- V-ENC2, at its corners. -/
theorem test_epIdx : [0x00#8, 0x80#8, 0x81#8, 0x02#8, 0x0F#8, 0x8F#8, 0xF1#8].map epIdx =
    [0#5, 1#5, 3#5, 4#5, 30#5, 31#5, 3#5] := by decide

/-! ## The fixture: S0 of 95_test_vectors.md, with the mask closed -/

/-- A record of the fixture. -/
def rec8 : EpRec := { mps := 8#10, stalled := false, nak := false, err := false, buf := .empty }

def eng0 : Eng :=
  (({ Eng.reset with
      devinten := 0x0D#64, epinten := 3#32, realize := 3#32, rlzd := 3#32, devaddr := 0x80#8, devstat := 1#5 } : Eng).setEp
    0#5 rec8).setEp 1#5 rec8

def s0 : State := { State.reset with eng := eng0, devflags := 5#3 }

/-- Table T of 95_test_vectors.md, 71 bytes. -/
def tableT : List Byte :=
  ([0x12, 0x01, 0x00, 0x02, 0x00, 0x00, 0x00, 0x08, 0xFF, 0xFF, 0x01, 0x00, 0x00, 0x01, 0x00, 0x00, 0x00, 0x01] ++
  [0x09, 0x02, 0x30, 0x00, 0x01, 0x01, 0x00, 0xC0, 0x32] ++ [0x09, 0x04, 0x00, 0x00, 0x02, 0xFF, 0x00, 0x00, 0x00] ++
  [0x07, 0x05, 0x81, 0x02, 0x40, 0x00, 0x00] ++ [0x07, 0x05, 0x02, 0x02, 0x40, 0x00, 0x00] ++
  [0x09, 0x04, 0x00, 0x01, 0x01, 0xFF, 0x00, 0x00, 0x00] ++ [0x07, 0x05, 0x83, 0x03, 0x08, 0x00, 0x0A] ++
  [0x04, 0x03, 0x09, 0x04] ++ [0x00]).map (BitVec.ofNat 8)

def sT : State := { s0 with desc := tableT }

/-- Does the outcome give a next state with this property? -/
def nextIs (o : Out) (p : State → Bool) : Bool :=
  match o with
  | .next t => p t
  | _ => false

/-- The state with a phase word's command latched. -/
def latched (c : Byte) (s : State) : State := { s with eng := { s.eng with cur := some c } }

/-! ## Format CMDW -/

theorem test_selectEp : nextIs (exec (.selectEp 3#5) s0) (fun t => t.eng.sel == 3#5 && t.eng.cur == some 0x03#8 &&
    t.eng.devintst == 0x10#64) = true := by decide +kernel

/-- A SETUP packet waits on index 0: raw 0x05 (R241). -/
theorem test_selectEpRd : nextIs (exec (.selectEpRd 0#5)
      (latched 0x00#8 { s0 with eng := s0.eng.setEp 0#5 { rec8 with buf := .full [] true } }))
    (fun t => t.eng.cmddata == 0x0005#16 && t.eng.devintst == 0x20#64 && t.eng.cur == none) = true := by decide +kernel

theorem test_setEpStatus : nextIs (exec (.wrdata 1#16) (latched 0x41#8 s0))
    (fun t => (t.eng.epAt 1#5).stalled && !(t.eng.epAt 0#5).stalled) = true := by decide +kernel

/-- The mark is set, the confirmation not yet: first realisation (R206). -/
theorem test_setMaxpkt : nextIs (exec (.wrdata 0x0440#16)
      (latched 0x83#8 { s0 with eng := { s0.eng with realize := 0xB#32 } }))
    (fun t => (t.eng.epAt 3#5).mps == 0x40#10 && t.eng.rlzd == 0xB#32 && t.eng.devintst == 0x110#64) = true := by
  decide +kernel

theorem test_setAddress : nextIs (exec (.wrdata 0x0085#16) (latched 0xD0#8 s0)) (fun t => t.eng.devaddr == 0x85#8) = true := by
  decide +kernel

theorem test_configureDevice : nextIs (exec (.wrdata 0x0003#16) (latched 0xD8#8 s0)) (fun t => t.eng.conf) = true := by
  decide +kernel

theorem test_clearBuffer : nextIs (exec .clearBuffer
      { s0 with eng := s0.eng.setEp 0#5 { rec8 with buf := .full [1#8] true, err := true, nak := true } })
    (fun t => t.eng.epAt 0#5 == { rec8 with nak := true } && t.eng.cur == some 0xF2#8) = true := by decide +kernel

/-- Exactly mps bytes, taken from an accumulator padded to whole words. -/
theorem test_validateBuffer : nextIs (exec .validateBuffer
      { s0 with eng := { s0.eng with sel := 1#5, txidx := 1#5, txlen := 2#10, txacc := [0xAA#8, 0xBB#8, 0#8, 0#8] } })
    (fun t => (t.eng.epAt 1#5).buf == .full [0xAA#8, 0xBB#8] false) = true := by decide +kernel

/-- 95_test_vectors.md V-CONN: CMDDATA 0x11, DEVSTAT 0x01 afterwards; the flag was cleared first. -/
theorem test_getDevStatusRd : nextIs (exec .getDevStatusRd
      (latched 0xFE#8 { s0 with eng := { s0.eng with devstat := 0x11#5, dsAck := true } }))
    (fun t => t.eng.cmddata == 0x11#16 && t.eng.devstat == 1#5 && !t.eng.devstatPoison && !t.eng.dsAck) = true := by
  decide +kernel

theorem test_getDevStatusRd_poisons : nextIs (exec .getDevStatusRd
      (latched 0xFE#8 { s0 with eng := { s0.eng with devintst := 8#64 } }))
    (fun t => t.eng.devstatPoison) = true := by decide +kernel

theorem test_reserved : nextIs (exec (.reservedCmdw 0x00200500#32) (latched 0x41#8 s0))
    (fun t => t.eng.cur == none && t.eng.devintst == 0x10#64) = true := by decide +kernel

/-! ## Format WIRE -/

def packet8 : Vector Byte 8 := #v[0x80#8, 0x06#8, 0x00#8, 0x01#8, 0x00#8, 0x00#8, 0x12#8, 0x00#8]

theorem test_wireSetup : nextIs (exec (.wireSetup packet8)
      { s0 with eng := s0.eng.setEp 1#5 { rec8 with stalled := true, buf := .full [7#8] false } })
    (fun t => (t.eng.epAt 0#5).buf == .full packet8.toList true && t.eng.epAt 1#5 == rec8 && t.eng.epintst == 1#32 &&
      t.eng.devintst == 4#64) = true := by decide +kernel

theorem test_wireOut_nak : nextIs (exec (.wireOut 0#4 (List.replicate 9 0#8)) s0)
    (fun t => (t.eng.epAt 0#5).nak && t.eng.epintst == 0#32) = true := by decide +kernel

theorem test_wireOut_ack : nextIs (exec (.wireOut 0#4 (List.replicate 8 0#8)) s0)
    (fun t => (t.eng.epAt 0#5).buf.isFull && t.eng.epintst == 1#32) = true := by decide +kernel

theorem test_wireIn : nextIs (exec (.wireIn 0#4) { s0 with eng := s0.eng.setEp 1#5 { rec8 with buf := .full [] false } })
    (fun t => (t.eng.epAt 1#5) == rec8 && t.eng.epintst == 2#32 && t.wireLog == [(.inn 0#4, .data [])]) = true := by
  decide +kernel

theorem test_wireSof : nextIs (exec .wireSof s0) (fun t => t.eng.devintst == 1#64) = true := by decide +kernel

theorem test_wireBusReset : nextIs (exec .wireBusReset
      { s0 with eng := { s0.eng.setEp 3#5 { rec8 with stalled := true } with devaddr := 0x85#8, conf := true } })
    (fun t => t.eng.devaddr == 0x80#8 && !t.eng.conf && t.eng.epAt 3#5 == rec8 && t.eng.devstat == 0x11#5 &&
      t.eng.devintst == 8#64) = true := by decide +kernel

theorem test_wireConnect : nextIs (exec (.wireConnect false) { s0 with eng := { s0.eng with devstat := 0b00101#5 } })
    (fun t => t.eng.devstat == 0b00010#5) = true := by decide +kernel

theorem test_wireSuspend : nextIs (exec (.wireSuspend true) s0) (fun t => t.eng.devstat == 0b01101#5) = true := by
  decide +kernel

/-! ## Format CALL -/

theorem test_command : nextIs (exec (.command 0x03#8) s0)
    (fun t => t.eng.sel == 3#5 && t.eng.devintst == 0#64 && t.eng.pend == none) = true := by decide +kernel

theorem test_command_context : exec (.command 0x03#8) { s0 with irqMask := false } = .fault .contextViolation := by rfl

theorem test_commandWrite : nextIs (exec (.commandWrite 0xD0#8 0x0085#16) s0) (fun t => t.eng.devaddr == 0x85#8) = true := by
  decide +kernel

theorem test_commandRead : nextIs (exec (.commandRead 0xFE#8) s0) (fun t => t.ret == .data 1#16) = true := by decide +kernel

theorem test_registerHandler : nextIs (exec (.registerHandler 0x81#8 (some (.ext 7))) s0)
    (fun t => t.hndAt 3#5 == some (.ext 7) && t.hndAt 2#5 == none) = true := by decide +kernel

/-- V-BOOT, the second endpoint: EPINTEN 3, DEVINTEN 4, EP_RLZD cleared again. -/
theorem test_configureEndpoint : nextIs (exec (.configureEndpoint 0x80#8 8#16)
      { State.reset with eng := { Eng.reset with realize := 1#32, rlzd := 1#32, epinten := 1#32, devinten := 4#64 } })
    (fun t => t.eng.realize == 3#32 && t.eng.rlzd == 3#32 && t.eng.epinten == 3#32 && t.eng.devinten == 4#64 &&
      t.eng.devintst == 0#64 && t.eng.epAt 1#5 == rec8) = true := by decide +kernel

theorem test_stall : nextIs (exec (.stall 0x80#8) s0) (fun t => (t.eng.epAt 1#5).stalled) = true := by decide +kernel

theorem test_unstall : nextIs (exec (.unstall 0x80#8) { s0 with eng := s0.eng.setEp 1#5 { rec8 with stalled := true } })
    (fun t => t.eng.epAt 1#5 == rec8) = true := by decide +kernel

/-- Raw 0x10 (nak) is normalised to bit 3, raw 0x08 (err) to bit 4 (R61). -/
theorem test_getStatus : nextIs (exec (.getStatus 0x80#8) { s0 with eng := s0.eng.setEp 1#5 { rec8 with nak := true } })
    (fun t => t.ret == .status 0b01000#5 && t.eng.sel == 1#5) = true := by decide +kernel

/-- V-EPM4 and program P5 of 95_test_vectors.md, index 3 and index 2 not realised: stalled reads 0x02, untouched reads 0x00. -/
theorem test_getStatus_unrealised : s0.eng.rlzd = 3#32 ∧
    nextIs (exec (.getStatus 0x81#8) { s0 with eng := s0.eng.setStalled 3#5 true }) (fun t => t.ret == .status 0x02#5) = true ∧
    nextIs (exec (.getStatus 0x01#8) { s0 with eng := s0.eng.setStalled 3#5 true }) (fun t => t.ret == .status 0x00#5) = true :=
  ⟨rfl, by decide +kernel, by decide +kernel⟩

theorem test_epRead : nextIs (exec (.epRead 0x00#8 4)
      { s0 with eng := s0.eng.setEp 0#5 { rec8 with buf := .full [1#8, 2#8, 3#8, 4#8, 5#8] false } })
    (fun t => t.ret == .bytes [1#8, 2#8, 3#8, 4#8] && t.eng.epAt 0#5 == rec8) = true := by decide +kernel

theorem test_epWrite : nextIs (exec (.epWrite 0x80#8 [1#8, 2#8, 3#8, 4#8, 5#8]) s0)
    (fun t => (t.eng.epAt 1#5).buf == .full [1#8, 2#8, 3#8, 4#8, 5#8] false && t.eng.dpctl == 0#64) = true := by
  decide +kernel

theorem test_dispatchNow : nextIs (exec .dispatchNow { s0 with su := packet8 })
    (fun t => t.ct.len == 18 && t.frames == [.dispatch, .replyNow]) = true := by decide +kernel

/-- V-CT1's third chunk: 2 bytes from (DESC, 16). -/
theorem test_dataIn : nextIs (exec .dataIn
      { sT with ct := { sT.ct with ptr := { space := .desc, off := 16 }, resid := 2#16 } })
    (fun t => (t.eng.epAt 1#5).buf == .full [0#8, 1#8] false && t.ct.resid == 0#16 && t.ct.ptr.off == 18) = true := by
  decide +kernel

theorem test_stallControl : nextIs (exec .stallControl { s0 with ct := { s0.ct with resid := 5#16, len := 9, phase := .dataD2H } })
    (fun t => (t.eng.epAt 1#5).stalled && t.ct.resid == 0#16 && t.ct.len == 0 && t.ct.phase == .idle) = true := by
  decide +kernel

/-- V-DSP1: the configuration reports its total length 48; string 0 its own. -/
theorem test_findDescriptor : nextIs (exec (.findDescriptor 0x0200#16 0#16) sT) (fun t => t.ret == .descriptor (some (18, 48))) &&
    nextIs (exec (.findDescriptor 0x0502#16 0#16) sT) (fun t => t.ret == .descriptor (some (59, 7))) = true := by
  decide +kernel

theorem test_findDescriptor_none : nextIs (exec (.findDescriptor 0x0503#16 0#16) sT) (fun t => t.ret == .descriptor none) = true := by
  decide +kernel

theorem test_unconfigure : nextIs (exec (.configureForSettingZero 3#8) { sT with eng := { sT.eng with conf := true } })
    (fun t => !t.eng.conf && t.eng.realize == 3#32) = true := by decide +kernel

/-- X3: REALIZE goes from 0x03 to 0x1B, the endpoint under alternate setting 1 is not realised. -/
theorem test_configureForSetting : nextIs (exec (.configureForSettingNonzero 1#8 0#8) sT)
    (fun t => t.eng.realize == 0x1B#32 && t.eng.conf && (t.eng.epAt 4#5).mps == 64#10) = true := by decide +kernel

/-! ## Format SETUP -/

/-- The two first bytes of STAGE. -/
def reply2 (t : State) : List (Option Byte) := [Memory.read t.stage 0, Memory.read t.stage 1]

theorem test_getStatusDev : nextIs (exec (.getStatusDev fields0) { s0 with cfg := { s0.cfg with selfPowered := true } })
    (fun t => reply2 t == [some 1#8, some 0#8] && t.ct.len == 2 && t.result == .ok) = true := by decide +kernel

theorem test_getStatusIf : nextIs (exec (.getStatusIf fields0) s0) (fun t => reply2 t == [some 0#8, some 0#8]) = true := by
  decide +kernel

/-- X5: a stalled endpoint 0x80. -/
theorem test_getStatusEp : nextIs (exec (.getStatusEp { fields0 with index := 0x0080#16 })
      { s0 with eng := s0.eng.setEp 1#5 { rec8 with stalled := true } })
    (fun t => reply2 t == [some 1#8, some 0#8]) = true := by decide +kernel

theorem test_reply_overrun : exec (.getStatusIf fields0) { s0 with cfg := { s0.cfg with controlSize := ⟨1, by decide⟩ } } = .fault .bufferOverrun := by
  rfl

theorem test_featureDev : nextIs (exec (.setFeatureDev { fields0 with value := 2#16 }) s0) (fun t => t.result == .ok) &&
    nextIs (exec (.clearFeatureDev { fields0 with value := 3#16 }) s0) (fun t => t.result == .fail) = true := by decide +kernel

theorem test_featureEp : nextIs (exec (.setFeatureEp { fields0 with index := 0x0080#16 }) s0)
      (fun t => (t.eng.epAt 1#5).stalled && t.result == .ok) &&
    nextIs (exec (.clearFeatureEp { fields0 with value := 1#16 }) s0) (fun t => t.result == .fail) = true := by decide +kernel

/-- X2. -/
theorem test_setAddressDev : nextIs (exec (.setAddressDev { fields0 with value := 5#16 }) s0)
    (fun t => t.eng.devaddr == 0x85#8 && t.result == .ok) = true := by decide +kernel

theorem test_getDescriptorDev : nextIs (exec (.getDescriptorDev { fields0 with value := 0x0100#16 }) sT)
    (fun t => t.ct.ptr == { space := .desc, off := 0 } && t.ct.len == 18 && t.result == .ok) = true := by decide +kernel

theorem test_getConfigurationDev : nextIs (exec (.getConfigurationDev fields0) { s0 with config := 1#8 })
    (fun t => Memory.read t.stage 0 == some 1#8 && t.ct.len == 1) = true := by decide +kernel

theorem test_setConfigurationDev : nextIs (exec (.setConfigurationDev { fields0 with value := 1#16 }) sT)
    (fun t => t.config == 1#8 && t.eng.conf && t.eng.realize == 0x1B#32) = true := by decide +kernel

theorem test_getInterfaceIf : nextIs (exec (.getInterfaceIf fields0) s0) (fun t => t.ct.len == 1) = true := by decide +kernel

theorem test_setInterfaceIf : nextIs (exec (.setInterfaceIf { fields0 with value := 1#16 }) s0)
    (fun t => t.result == .fail) = true := by decide +kernel

/-- X4. -/
theorem test_unknownRequest : exec (.unknownRequest fields0 0xFF#8 0#2) s0 = .next { s0 with result := .fail } := by rfl

theorem test_hReqVendor : nextIs (exec (.hReqVendor fields0 1#8 0#2)
      { s0 with hReq2 := some 4, hookAnswers := [.ok 3 { space := .hookmem, off := 0 } [(8, 1#8), (7, 9#8)] [5#8]] })
    (fun t => t.ct.len == 3 && t.hookmem == [5#8] && t.stage == [(7, 9#8)] && t.result == .ok) = true := by decide +kernel

theorem test_hCustom_declines : nextIs (exec (.hCustom fields0 1#8 0#2) { s0 with hCustom := some 4, hookAnswers := [.fail] })
    (fun t => t.frames == [.request]) = true := by decide +kernel

/-! ## Formats DEVINT and EPEVT -/

theorem test_frameArm : nextIs (exec .frameArm { s0 with eng := { s0.eng with devintst := 0xD#64 }, hSof := some 2 })
    (fun t => t.eng.devintst == 0xC#64 && t.hookLog == [.sof 2]) = true := by decide +kernel

/-- V-CONN: raw 0x11, DEVFLAGS 0b101. -/
theorem test_devstatArm : nextIs (exec .devstatArm
      { s0 with eng := { s0.eng with devintst := 8#64, devstat := 0x11#5 }, devflags := 0#3, hDevst := some 1 })
    (fun t => t.devflags == 5#3 && t.hookLog == [.devst 1 5#3] && t.eng.devintst == 0#64 && !t.eng.devstatPoison) = true := by
  decide +kernel

theorem test_endpointArm : nextIs (exec .endpointArm { s0 with eng := { s0.eng with devintst := 0xC#64 } })
    (fun t => t.eng.devintst == 8#64 && t.frames == [.scan 0]) = true := by decide +kernel

/-- R241's example: a setup packet on index 0, `call HND[0](0x00, 0x05)`. -/
theorem test_endpointEvent : nextIs (exec (.endpointEvent 0#5)
      { s0 with eng := { s0.eng.setEp 0#5 { rec8 with buf := .full packet8.toList true } with epintst := 3#32 }
                hnd := s0.hnd.set 0 (some .ctl) })
    (fun t => t.frames == [.handler 0x00#8 0x05#5] && t.eng.epintst == 2#32) = true := by decide +kernel

theorem test_setupEvent : nextIs (exec (.setupEvent 5#5) { s0 with eng := s0.eng.setEp 0#5 { rec8 with buf := .full packet8.toList true } })
    (fun t => t.su == packet8 && t.ct.resid == 18#16 && t.ct.dir && t.frames == [.dispatch, .replyNow] &&
      t.eng.epAt 0#5 == rec8) = true := by decide +kernel

theorem test_outDataEvent : nextIs (exec (.outDataEvent 1#5)
      { s0 with eng := s0.eng.setEp 0#5 { rec8 with buf := .full [1#8, 2#8, 3#8] false }
                ct := { s0.ct with resid := 2#16, phase := .dataH2D } })
    (fun t => t.stage == [(0, 1#8), (1, 2#8)] && t.ct.resid == 0#16 && t.frames == [.dispatch, .replyOut]) = true := by
  decide +kernel

theorem test_outStatusEvent : nextIs (exec (.outStatusEvent 1#5)
      { s0 with eng := s0.eng.setEp 0#5 { rec8 with buf := .full [] false }, ct := { s0.ct with phase := .statusStage } })
    (fun t => t.ct.phase == .idle && t.eng.epAt 0#5 == rec8) = true := by decide +kernel

theorem test_inEvent : nextIs (exec (.inEvent 0#5)
      { sT with ct := { sT.ct with ptr := { space := .desc, off := 8 }, resid := 10#16, phase := .dataD2H } })
    (fun t => (t.eng.epAt 1#5).buf == .full ((tableT.drop 8).take 8) false && t.ct.resid == 2#16 && t.ct.phase == .dataD2H) = true := by
  decide +kernel

/-! ## A step -/

theorem test_step_word : nextIs (step (State.reset.withFetchWord 32 0x001F0500)) (fun t => t.eng.sel == 31#5) &&
    nextIs (step (State.reset.withFetchWord 32 0x0000000C)) (fun t => t.frames == [.arms 8#64]) &&
    nextIs (step (State.reset.withFetchWord 64 0x0000000000050500)) (fun t => t.eng.devaddr == 0x85#8) = true := by
  decide +kernel

theorem test_step_entry : nextIs (step { s0 with irqMask := false, eng := { s0.eng with devintst := 4#64 } })
    (fun t => t.inIsr && t.snap == some 4#64 && t.frames == [.arms 0#64]) = true := by decide +kernel

/-! ## Another chip is another `Cfg` (R7) -/

/-- Two registers, two codes and two flags change places; another phase code, another size width. -/
def otherCfg : Cfg :=
  { Cfg.default with
    offDEVINTEN := 0x44, offREALIZE := 0x04, codeSetAddress := 0xD8#8, codeConfigureDevice := 0xD0#8
    bitFRAME := 3, bitDEVSTAT := 0, bitCCEMPTY := 9, phCmd := 0x06#8, mpsW := ⟨6, by decide⟩, fits := by decide }

def sOther : State := { s0 with cfg := otherCfg }

theorem test_other_chip_decode :
    [0x00D80600#32, 0x00D00600#32].map (decodeCmdw otherCfg.toChip) = [.setAddress, .configureDevice] ∧
    decodeCmdw otherCfg.toChip 0x00D80500#32 = .reserved 0x00D80500#32 ∧
    decodeDevint otherCfg.toChip 9#64 = some .frameArm ∧ decodeDevint otherCfg.toChip 1#64 = some .devstatArm := by decide

theorem test_other_chip_runs :
    nextIs (execApp (.regRead 0xE0090044 4) sOther) (fun t => t.ret == .word 0x0D#64) &&
    nextIs (exec (.selectEp 3#5) sOther) (fun t => t.eng.devintst == 0x200#64) &&
    nextIs (exec (.wrdata 0x0047#16) (latched 0x80#8 sOther)) (fun t => (t.eng.epAt 0#5).mps == 7#10) &&
    nextIs (exec (.commandWrite 0xD8#8 0x0085#16) sOther) (fun t => t.eng.devaddr == 0x85#8) = true := by decide +kernel

/-- Registers of 64 bits, at offsets 8 apart, with flags above bit 31. -/
def wideCfg : Cfg :=
  { Cfg.default with
    regW := ⟨64, by decide⟩
    offDEVINTST := 0x00, offDEVINTEN := 0x08, offDEVINTCLR := 0x10, offCMDCODE := 0x20, offCMDDATA := 0x28, offRXDATA := 0x30
    offTXDATA := 0x38, offRXPLEN := 0x40, offTXPLEN := 0x48, offDPCTL := 0x50, offEPINTST := 0x60, offEPINTEN := 0x68
    offEPINTCLR := 0x70, offREALIZE := 0x88
    bitFRAME := 40, bitCCEMPTY := 63, bitRDEN := 32, bitDV := 33, bitPKTRDY := 34, fits := by decide }

def sWide : State := { s0 with cfg := wideCfg }

/-- A whole aligned word is 8 bytes there; a half of one, and a word at an offset that is no multiple of 8, are refused (R85). -/
theorem test_wide_registers :
    nextIs (execApp (.regRead 0xE0090008 8) sWide) (fun t => t.ret == .word 0x0D#64) = true ∧
    execApp (.regRead 0xE0090008 4) sWide = .refused .badRegAccess ∧
    execApp (.regRead 0xE0090004 8) sWide = .refused .badRegAccess := ⟨by decide +kernel, rfl, rfl⟩

/-- Flags above bit 31 are raised, enabled, taken into a pass, waited for and cleared there, and the bits of the register that have
no name, 0 and 41, ignore the write (R40, R42, R60, R171, R232, R375). -/
theorem test_wide_flags :
    nextIs (exec .wireSof sWide) (fun t => t.eng.devintst == bit 40 &&
      decodeDevint wideCfg.toChip t.eng.devintst == some .frameArm) &&
    nextIs (execApp (.regWrite 0xE0090008 8 (bit 0 ||| bit 40 ||| bit 41 ||| bit 63)) sWide)
      (fun t => t.eng.devinten == bit 40 ||| bit 63) &&
    nextIs (exec (.selectEp 3#5) sWide) (fun t => t.eng.devintst == bit 63) &&
    nextIs (exec (.command 0x03#8) sWide) (fun t => t.eng.sel == 3#5 && t.eng.devintst == 0#64) &&
    nextIs (execApp (.regRead 0xE0090040 8) { sWide with eng := { sWide.eng with dpctl := bit 32 } })
      (fun t => t.ret == .word (bit 34)) = true := by decide +kernel

/-! ## Witnesses: states and operands that meet the hypotheses of the statements, clause by clause, at the ends of their
ranges -/

/-- A record of the largest size. -/
def rec1023 : EpRec := { rec8 with mps := 1023#10 }

theorem test_wit_CmdwRoundTrip : Instr.wf Config.chip (.selectEp 31#5) = true ∧
    encode Config.chip (.selectEp 31#5) = some (.cmdw 0x001F0500#32) := by decide

theorem test_wit_SetupRoundTrip :
    (Instr.wf Config.chip (.getStatusEp fields0) = true ∧ encode Config.chip (.getStatusEp fields0) = some (.setup 0x0000000000000002#64)) ∧
    encode Config.chip (.hCustom fields0 0xFF#8 3#2) = some (.setup 0x000000000000FF03#64) := by decide

theorem test_wit_EventRoundTrip :
    encode Config.chip .frameArm = some (.devint 1#64) ∧ (Instr.wf Config.chip (.setupEvent 4#5) = true ∧ encode Config.chip (.setupEvent 4#5) = some (.epevt 0#8 4#5)) ∧
    (Instr.wf Config.chip (.outDataEvent 0#5) = true ∧ encode Config.chip (.outDataEvent 0#5) = some (.epevt 0#8 0#5)) ∧
    (Instr.wf Config.chip (.outStatusEvent 27#5) = true ∧ encode Config.chip (.outStatusEvent 27#5) = some (.epevt 0#8 27#5)) ∧
    (Instr.wf Config.chip (.inEvent 31#5) = true ∧ encode Config.chip (.inEvent 31#5) = some (.epevt 0x80#8 31#5)) := by decide

theorem test_wit_EndpointIndexBijection : (0x8F#8 : Byte) &&& 0x70#8 = 0#8 := by decide

/-- A pending word. -/
def sPend : State := { s0 with eng := { s0.eng with pend := some 0x00D00500#32 } }

/-- An enabled source is pending and the mask is open: entry to a pass is enabled. -/
def sIrq : State := { s0 with eng := { s0.eng with devintst := 8#64 }, irqMask := false }

theorem test_wit_StepRunsTurn :
    (sPend.eng.pend = some 0x00D00500#32 ∧ sPend.cfg.engResponsive = true ∧ sPend.turns = [] ∧
      ({ sPend with turns := [.eng] } : State).turns = .eng :: []) ∧
    ({ s0 with turns := [.wire .sof] } : State).turns = .wire .sof :: [] ∧
    (let s : State := { s0 with turns := [.call (.stall 0x80#8) [[.eng]]] }
     s.turns = .call (.stall 0x80#8) [[.eng]] :: [] ∧ s.hung = none ∧ s.inIsr = false ∧ s.frames = [] ∧
      Instr.isCall (.stall 0x80#8) = true ∧ s.eng.devintst &&& s.eng.devinten = 0#64 ∧ s.irqMask = true) ∧
    ({ s0 with turns := [.app (.setMask true) []] } : State).turns = .app (.setMask true) [] :: [] ∧
    (let s : State := { sIrq with turns := [.app (.setMask true) []] }
     s.hung = none ∧ s.inIsr = false ∧ s.frames = [] ∧ s.eng.devintst &&& s.eng.devinten ≠ 0#64 ∧ s.irqMask = false ∧
      ∃ a, s.turns = .app a [] :: []) := by
  refine ⟨⟨rfl, rfl, rfl, rfl⟩, rfl, ⟨rfl, rfl, rfl, rfl, rfl, by decide, rfl⟩, rfl, rfl, rfl, rfl, by decide, rfl, _, rfl⟩

/-- The same with the mask closed. -/
def sIrqMasked : State := { sIrq with irqMask := true }

/-- R462: while entry is enabled an act of APP does not come first. -/
theorem test_step_entry_before_app : nextIs (step { sIrq with turns := [.app (.setMask true) []] })
    (fun t => t.inIsr && !t.irqMask && t.turns == [.app (.setMask true) []]) = true := by decide +kernel

/-- The ways SEQ has the turn. -/
theorem test_wit_seqTurn :
    seqTurn { s0 with turns := [.seq [[.eng]]] } { s0 with turns := [], slots := [[.eng]] } ∧
    seqTurn { s0 with inIsr := true, turns := [.app .readConfig []] } { s0 with inIsr := true, turns := [.app .readConfig []] } ∧
    seqTurn { sIrq with turns := [.app .readConfig []] } { sIrq with turns := [.app .readConfig []] } ∧
    seqTurn s0 s0 :=
  ⟨Or.inl ⟨_, _, rfl, rfl⟩, Or.inr (Or.inl ⟨_, _, rfl, rfl, rfl, rfl⟩),
    Or.inr (Or.inl ⟨_, _, rfl, rfl, by decide, rfl⟩), Or.inr (Or.inr ⟨rfl, rfl, rfl⟩)⟩

/-- SEQ stands at this frame. -/
def at' (f : Frame) (s : State) : State := { s with frames := [f] }

theorem seqTurn_at (f : Frame) (s : State) (h : s.turns = []) (hp : s.eng.pend = none) : seqTurn (at' f s) (at' f s) :=
  Or.inr (Or.inr ⟨h, by simp [at', Eng.ready, hp], rfl⟩)

theorem test_wit_StepRunsSeqInstruction :
    (seqTurn (at' (.arms 8#64) { s0 with snap := some 0xC#64 }) (at' (.arms 8#64) { s0 with snap := some 0xC#64 }) ∧
      decodeDevint Config.chip (((some 0xC#64 : Option RegWord)).getD 0#64 &&& ~~~(8#64)) = some .endpointArm) ∧
    seqTurn (at' (.epEvent 31#5) s0) (at' (.epEvent 31#5) s0) ∧
    (seqTurn (at' (.handler 0#8 4#5) s0) (at' (.handler 0#8 4#5) s0) ∧
      decodeEpevt Config.chip (decide (0 < s0.ct.resid.toNat)) 0#8 4#5 = some (.setupEvent 4#5) ∧
      decodeEpevt Config.chip (decide (0 < s0.ct.resid.toNat)) 0x81#8 4#5 = none) ∧
    seqTurn (at' (.hookOps [.stall 0x81#8]) s0) (at' (.hookOps [.stall 0x81#8]) s0) ∧
    seqTurn (at' .dispatch s0) (at' .dispatch s0) ∧ seqTurn (at' .request s0) (at' .request s0) ∧
    s0.hung = none := by
  refine ⟨⟨seqTurn_at _ _ rfl rfl, by decide⟩, seqTurn_at _ _ rfl rfl, ⟨seqTurn_at _ _ rfl rfl, by decide, by decide⟩,
    seqTurn_at _ _ rfl rfl, seqTurn_at _ _ rfl rfl, seqTurn_at _ _ rfl rfl, rfl⟩

theorem test_wit_PassEntry :
    (let s : State := { s0 with eng := { s0.eng with devintst := 8#64 }, irqMask := false }
     seqTurn s s ∧ s.hung = none ∧ s.frames = [] ∧ s.eng.devintst &&& s.eng.devinten ≠ 0#64 ∧ s.irqMask = false ∧
      s.inIsr = false) ∧
    (seqTurn s0 s0 ∧ s0.hung = none ∧ s0.frames = [] ∧ s0.eng.devintst &&& s0.eng.devinten = 0#64) ∧
    s0.irqMask = true ∧ ({ s0 with inIsr := true } : State).inIsr = true := by
  refine ⟨⟨Or.inr (Or.inr ⟨rfl, rfl, rfl⟩), rfl, rfl, by decide, rfl, rfl⟩,
    ⟨Or.inr (Or.inr ⟨rfl, rfl, rfl⟩), rfl, rfl, by decide⟩, rfl, rfl⟩

theorem test_wit_ScanAndExit :
    (seqTurn (at' (.scan 31) s0) (at' (.scan 31) s0) ∧ 31 < 32) ∧ (seqTurn (at' (.scan 32) s0) (at' (.scan 32) s0) ∧ 32 ≤ 32) ∧
    (let s : State := at' (.arms 0xD#64) { s0 with snap := some 0x3D#64 }
     seqTurn s s ∧ s.snap = some 0x3D#64 ∧ (0x3D#64 &&& ~~~(0xD#64)).getLsbD 0 = false ∧
      (0x3D#64 &&& ~~~(0xD#64)).getLsbD 2 = false ∧ (0x3D#64 &&& ~~~(0xD#64)).getLsbD 3 = false) := by
  refine ⟨⟨seqTurn_at _ _ rfl rfl, by omega⟩, ⟨seqTurn_at _ _ rfl rfl, by omega⟩, seqTurn_at _ _ rfl rfl, rfl, by decide,
    by decide, by decide⟩

theorem test_wit_CommandPhases :
    (Instr.getDevStatus, Config.chip.codeGetDevStatus) ∈ [(Instr.setAddress, Config.chip.codeSetAddress),
        (Instr.configureDevice, Config.chip.codeConfigureDevice), (Instr.getDevStatus, Config.chip.codeGetDevStatus)] ∧
    (∃ x, Instr.setMaxpkt 31#5 = .setMaxpkt x ∧ (0x9F#8 : Byte) = codeWithIdx Config.chip.codeSetMaxpkt x) :=
  ⟨by simp, 31#5, rfl, by decide⟩

theorem test_wit_SelectEpReadsStatus : (latched 0x1F#8 s0).specChip ∧
    (latched 0x1F#8 s0).eng.cur = some (codeWithIdx Config.chip.codeSelectEp 31#5) := ⟨rfl, by decide⟩

theorem test_wit_WriteDataPhase : (latched 0x5F#8 s0).specChip ∧
    (latched 0x5F#8 s0).eng.cur = some (codeWithIdx Config.chip.codeSetEpStatus 31#5) ∧
    (latched 0xD0#8 s0).eng.cur = some Config.chip.codeSetAddress ∧
    (latched 0xD8#8 s0).eng.cur = some Config.chip.codeConfigureDevice := ⟨rfl, by decide⟩

theorem test_wit_SetMaxPacket : (latched 0x9F#8 s0).specChip ∧
    ((latched 0x9F#8 s0).eng.cur = some (codeWithIdx Config.chip.codeSetMaxpkt 31#5) ∧ s0.eng.realize.getLsbD 31 = false) ∧
    ((latched 0x80#8 s0).eng.cur = some (codeWithIdx Config.chip.codeSetMaxpkt 0#5) ∧ s0.eng.realize.getLsbD 0 = true) := ⟨rfl, by decide⟩

/-- The accumulator holds exactly as many bytes as TXLEN says, and as the endpoint takes. -/
def sAcc : State := { s0 with eng := { s0.eng with sel := 1#5, txidx := 1#5, txlen := 8#10, txacc := List.replicate 8 0#8 } }

theorem test_wit_ValidateBuffer :
    (sAcc.eng.sel = sAcc.eng.txidx ∧ sAcc.eng.sel.getLsbD 0 = true ∧ sAcc.eng.dpctl.getLsbD 1 = false ∧
      sAcc.eng.txlen.toNat ≤ sAcc.eng.txacc.length ∧ sAcc.eng.txlen.toNat ≤ (sAcc.eng.epAt sAcc.eng.sel).mps.toNat ∧
      sAcc.eng.overLong = false) ∧
    ({ sAcc.eng with portLock := some { idx := 1#5, long := true } } : Eng).overLong = true ∧
    ({ sAcc.eng with txidx := 3#5 } : Eng).sel ≠ 3#5 ∧ ({ sAcc.eng with sel := 0#5 } : Eng).sel.getLsbD 0 = false ∧
    ({ sAcc.eng with dpctl := 2#64 } : Eng).dpctl.getLsbD 1 = true ∧
    ({ sAcc.eng with txlen := 9#10 } : Eng).txacc.length < 9 ∧ (sAcc.eng.epAt sAcc.eng.sel).mps.toNat < 9 := by
  decide +kernel

theorem test_wit_GetDevStatusRead : (latched 0xFE#8 s0).specChip ∧
    (latched 0xFE#8 s0).eng.cur = some Config.chip.codeGetDevStatus ∧ s0.eng.devstatPoison = false := ⟨rfl, by decide⟩

theorem test_wit_ReservedWords : s0.specChip ∧ (latched 0x1F#8 s0).specChip ∧
    (0x00200500#32 : Word).extractLsb' 8 8 = Config.chip.phCmd ∧ (0x00D00101#32 : Word).extractLsb' 8 8 = Config.chip.phWrite ∧
    (0x00D00200#32 : Word).extractLsb' 8 8 = Config.chip.phRead ∧
    ((0x00D00600#32 : Word).extractLsb' 8 8 ≠ Config.chip.phCmd ∧ (0x00D00000#32 : Word).extractLsb' 8 8 ≠ Config.chip.phWrite ∧
      (0x00D00300#32 : Word).extractLsb' 8 8 ≠ Config.chip.phRead) ∧ s0.eng.cur ≠ some (codeWithIdx Config.chip.codeSelectEp 0#5) ∧
    s0.eng.cur ≠ some Config.chip.codeGetDevStatus ∧ s0.eng.cur = none ∧
    (∃ c, (latched 0x1F#8 s0).eng.cur = some c ∧ c.extractLsb' 5 3 ≠ 2#3 ∧ c.extractLsb' 5 3 ≠ 4#3 ∧
      c ≠ Config.chip.codeSetAddress ∧ c ≠ Config.chip.codeConfigureDevice) :=
  ⟨rfl, rfl, by decide, by decide, by decide, by decide, by decide, by decide, by decide, 0x1F#8, rfl, by decide, by decide, by decide, by decide⟩

theorem reachable_ep0_out : reachable Config.chip 0#4 0#5 s0.eng := by unfold reachable; decide
theorem reachable_ep0_in : reachable Config.chip 0#4 1#5 s0.eng := by unfold reachable; decide

/-- Endpoint 15 OUT (index 30) of a configured device. -/
def eng15 : Eng := { s0.eng.setEp 30#5 rec8 with rlzd := 0x40000003#32, realize := 0x40000003#32, conf := true }

theorem test_wit_WireSetup : reachable Config.chip 0#4 0#5 s0.eng ∧ s0.eng.lockedIdx ≠ some 1#5 := ⟨reachable_ep0_out, by decide⟩

theorem test_wit_WireOut :
    30#5 = outIdx 15#4 ∧ reachable Config.chip 15#4 30#5 eng15 ∧
    ((eng15.setEp 30#5 { rec8 with stalled := true }).epAt 30#5).stalled = true ∧
    ((eng15.setEp 30#5 { rec8 with buf := .full [] false }).epAt 30#5).buf.isFull = true ∧
    (eng15.epAt 30#5).mps.toNat < (List.replicate 9 0#8).length ∧
    ((eng15.epAt 30#5).stalled = false ∧ (eng15.epAt 30#5).buf = .empty ∧
      (List.replicate 8 0#8).length ≤ (eng15.epAt 30#5).mps.toNat) := by unfold reachable; decide +kernel

theorem test_wit_WireIn :
    1#5 = inIdx 0#4 ∧ reachable Config.chip 0#4 1#5 s0.eng ∧ ((s0.eng.setEp 1#5 { rec8 with stalled := true }).epAt 1#5).stalled = true ∧
    ((s0.eng.epAt 1#5).stalled = false ∧ (s0.eng.epAt 1#5).buf = .empty) ∧
    ((s0.eng.setEp 1#5 { rec8 with buf := .full [] false }).epAt 1#5).buf = .full [] false := by
  unfold reachable; decide +kernel

theorem test_wit_BusStateEvents : (s0.specChip ∧ State.reset.specChip) ∧
    (s0.eng.devstat.getLsbD 0 = true ∧ s0.eng.devstat.getLsbD 2 = false) ∧ s0.eng.devstat.getLsbD 0 ≠ false ∧
    State.reset.eng.devstat.getLsbD 0 ≠ true ∧ s0.eng.devstat.getLsbD 2 ≠ true := ⟨⟨rfl, rfl⟩, by decide⟩

theorem test_wit_DisabledEventsDoNothing :
    ¬ reachable Config.chip 0#4 0#5 State.reset.eng ∧ ({ s0.eng with portLock := some { idx := 1#5, long := false } } : Eng).lockedIdx = some 1#5 ∧
    ¬ reachable Config.chip 1#4 (outIdx 1#4) s0.eng ∧ ¬ reachable Config.chip 15#4 (inIdx 15#4) s0.eng ∧
    State.reset.eng.devstat.getLsbD 0 = false ∧ s0.eng.devstat.getLsbD 0 = true ∧ s0.eng.devstat.getLsbD 2 = false := by
  unfold reachable; decide

theorem test_wit_calm : s0.specChip ∧ s0.calm ∧ s0.mayOperate = true ∧ sT.specChip ∧ sT.calm ∧ sT.mayOperate = true := ⟨rfl, ⟨rfl, rfl, rfl⟩, rfl, rfl, ⟨rfl, rfl, rfl⟩, rfl⟩

theorem test_wit_CommandCall :
    (s0.mayOperate = true ∧ s0.specChip ∧ s0.calm) ∧ (0x1F#8 : Byte) = codeWithIdx Config.chip.codeSelectEp 31#5 ∧
    (sAcc.specChip ∧ sAcc.calm ∧ sAcc.eng.sel = sAcc.eng.txidx ∧ sAcc.eng.overLong = false) ∧
    (isCommandCode Config.chip 0x9F#8 = true ∧ (0x9F#8 : Byte).extractLsb' 5 3 ≠ 0#3 ∧ (0x9F#8 : Byte) ≠ Config.chip.codeClearBuffer ∧
      (0x9F#8 : Byte) ≠ Config.chip.codeValidateBuffer) ∧ isCommandCode Config.chip 0xA0#8 = false :=
  ⟨⟨rfl, rfl, ⟨rfl, rfl, rfl⟩⟩, by decide, ⟨rfl, ⟨rfl, rfl, rfl⟩, rfl, rfl⟩, by decide, by decide⟩

theorem test_wit_CommandWriteCall : (s0.mayOperate = true ∧ s0.specChip ∧ s0.calm) ∧ s0.eng.realize.getLsbD 31 = false ∧
    s0.eng.realize.getLsbD 0 = true := ⟨⟨rfl, rfl, ⟨rfl, rfl, rfl⟩⟩, by decide, by decide⟩

theorem test_wit_CommandReadCall : (s0.mayOperate = true ∧ s0.specChip ∧ s0.calm) ∧ s0.eng.devstatPoison = false := ⟨⟨rfl, rfl, ⟨rfl, rfl, rfl⟩⟩, rfl⟩

/-- The read port stands before the last byte of a packet of 5. -/
def sRx : State :=
  { s0 with eng := { s0.eng.setEp 0#5 { rec8 with buf := .full [1#8, 2#8, 3#8, 4#8, 5#8] false } with
      dpctl := 1#64, rxOpened := true, rxpos := 4 } }

/-- The last word of a packet: its one byte and zeros, and the port closes (R51). -/
theorem test_read_rxdata : nextIs (execApp (.regRead 0xE0090018 4) sRx)
    (fun t => t.ret == .word 5#64 && t.eng.dpctl == 0#64 && t.eng.rxpos == 8) = true := by decide +kernel

/-- PKT_RDY, DV and the length, the same after the port has closed (R51, R86). -/
theorem test_read_rxplen :
    nextIs (execApp (.regRead 0xE0090020 4) sRx) (fun t => t.ret == .word 0xC05#64) &&
    nextIs (execApp (.regRead 0xE0090020 4) { sRx with eng := { sRx.eng with dpctl := 0#64 } })
      (fun t => t.ret == .word 0xC05#64) = true := by decide +kernel

/-- The first and the last register of the map; one address below, between and above, and a byte access (R40, R85). -/
theorem test_read_edges :
    nextIs (execApp (.regRead 0xE0090000 4) sIrqMasked) (fun t => t.ret == .word 8#64) = true ∧
    nextIs (execApp (.regRead 0xE0090044 4) sIrqMasked) (fun t => t.ret == .word 3#64) = true ∧
    (∀ p ∈ [(0xE008FFFC, 4), (0xE0090002, 4), (0xE009000C, 4), (0xE0090048, 4), (0xE0090000, 1)],
      regOfAddr Config.chip sIrqMasked.cfg.base p.1 p.2 = none) ∧
    execApp (.regRead 0xE0090048 4) sIrqMasked = .refused .badRegAccess := by
  refine ⟨by decide +kernel, by decide +kernel, by decide +kernel, rfl⟩

theorem test_wit_RegisterReads : (s0.specChip ∧ sRx.specChip) ∧
    (s0.irqMask = true ∧ s0.slots = []) ∧ sRx.eng.dpctl.getLsbD 0 = true ∧ s0.eng.dpctl.getLsbD 0 = false ∧
    s0.eng.rxOpened = false ∧ s0.eng.cmddataValid = false ∧
    (∀ off ∈ [0x00, 0x04, 0x08, 0x10, 0x14, 0x18, 0x1C, 0x20, 0x24, 0x28, 0x30, 0x34, 0x38, 0x44],
      0xE0090048 ≠ s0.cfg.base.toNat + off) := ⟨⟨rfl, rfl⟩, by decide⟩

/-- A CMDCODE write over a pending word; a mark taken back; both ports; an enable over a pending event (R461, U6, U7, R41). -/
theorem test_write_edges :
    execApp (.regWrite 0xE0090010 4 0x00000500#64) sPend = .fault .reentrancy ∧
    execApp (.regWrite 0xE0090044 4 2#64) s0 = .refused .unrealise ∧
    execApp (.regWrite 0xE0090028 4 3#64) s0 = .refused .bothPorts ∧
    nextIs (execApp (.regWrite 0xE0090034 4 0x80000000#64) { s0 with eng := { s0.eng with epintst := 0x80000000#32 } })
      (fun t => t.eng.epinten == 0x80000000#32 && t.eng.devintst == 4#64) = true := by
  refine ⟨rfl, rfl, rfl, by decide +kernel⟩

/-- Endpoint 15 in both directions, reserved bits of DPCTL ignored (R50). -/
theorem test_write_dpctl :
    nextIs (execApp (.regWrite 0xE0090028 4 0xFFFFFFFD#64) sRx)
      (fun t => t.eng.dpctl == 0x3D#64 && t.eng.rxidx == 30#5 && t.eng.rxpos == 0) &&
    nextIs (execApp (.regWrite 0xE0090028 4 0xFFFFFFFE#64) sRx)
      (fun t => t.eng.dpctl == 0x3E#64 && t.eng.txidx == 31#5 && t.eng.rxpos == 4) = true := by decide +kernel

theorem test_wit_RegisterWrites : (s0.specChip ∧ sPend.specChip) ∧
    (s0.irqMask = true ∧ s0.slots = [] ∧ ∀ off, (fun off => 0xE0090000 + off) off = s0.cfg.base.toNat + off) ∧
    s0.eng.pend = none ∧ sPend.eng.pend ≠ none ∧ ({ s0.eng with dpctl := 2#64 } : Eng).dpctl.getLsbD 1 = true ∧
    s0.eng.dpctl.getLsbD 1 = false ∧ ((3#64).getLsbD 0 = true ∧ (3#64).getLsbD 1 = true) ∧
    ((0x3D#64).getLsbD 1 = false ∧ (30#5).toNat = 2 * ((0x3D#64).toNat / 4 % 16) ∧
      (31#5).toNat = 2 * ((0x3D#64).toNat / 4 % 16) + 1) ∧
    (∃ k, (0x80000000#64).getLsbD k = true ∧ s0.eng.epinten.getLsbD k = false ∧
      ({ s0.eng with epintst := 0x80000000#32 } : Eng).epintst.getLsbD k = true) ∧
    (∀ k, (0x80000000#64).getLsbD k = true → s0.eng.epintst.getLsbD k = true → s0.eng.epinten.getLsbD k = true) ∧
    (∃ k, s0.eng.realize.getLsbD k = true ∧ (2#64).getLsbD k = false) ∧
    (∀ k, s0.eng.realize.getLsbD k = true → (3#64).getLsbD k = true) := by
  have h0 : ∀ k, s0.eng.epintst.getLsbD k = false := fun k => BitVec.getLsbD_zero
  refine ⟨⟨rfl, rfl⟩, ⟨rfl, rfl, fun _ => rfl⟩, rfl, by decide, by decide, by decide, by decide, by decide, ⟨31, by decide⟩,
    fun k _ h => ?_, ⟨0, by decide⟩, fun k h => h⟩
  rw [h0 k] at h; cases h

/-- APP writes SEQ state under the mask, and only then (R67, R432). -/
theorem test_app_writes :
    nextIs (execApp (.writeStage 6 [1#8, 2#8]) s0) (fun t => t.stage == [(6, 1#8), (7, 2#8)]) = true ∧
    nextIs (execApp (.writeConfig 3#8) s0) (fun t => t.config == 3#8) = true ∧
    execApp (.writeStage 7 [1#8, 2#8]) s0 = .fault .bufferOverrun ∧
    execApp (.writeSu packet8) { s0 with irqMask := false } = .fault .contextViolation := by
  refine ⟨by decide +kernel, by decide +kernel, rfl, rfl⟩

theorem test_wit_ContextRule :
    (let s : State := { s0 with irqMask := false }
     s.irqMask = false ∧ s.inIsr = false ∧ Instr.isCall .dataIn = true ∧ ∀ v, AppAct.readConfig ≠ .setMask v) ∧
    s0.irqMask = true ∧
    s0.bytesAt { space := .stage, off := 7 } 1 = some ([Config.freeByte 0], 1) ∧
    (s0.bytesAt { space := .stage, off := 7 } 2 = none ∧ s0.cfg.overrunDrops = false) ∧
    (Memory.wf s0.stage = true ∧ 6 + [1#8, 2#8].length ≤ s0.cfg.stageCap ∧ s0.cfg.stageCap < 7 + [1#8, 2#8].length) := by
  refine ⟨⟨rfl, rfl, rfl, fun _ h => by cases h⟩, rfl, rfl, ⟨by decide +kernel, rfl⟩, rfl, by decide, by decide⟩

theorem test_wit_ConfigureEndpointCall : s0.mayOperate = true ∧ s0.specChip ∧ s0.calm := ⟨rfl, rfl, ⟨rfl, rfl, rfl⟩⟩
theorem test_wit_StallUnstall : s0.mayOperate = true ∧ s0.specChip ∧ s0.calm := ⟨rfl, rfl, ⟨rfl, rfl, rfl⟩⟩
theorem test_wit_GetStatusCall : s0.mayOperate = true ∧ s0.specChip ∧ s0.calm ∧ s0.eng.epAt 0#5 = s0.eng.epAt (epIdx 0#8) :=
  ⟨rfl, rfl, ⟨rfl, rfl, rfl⟩, by decide⟩
theorem test_wit_RegisterHandler : s0.mayOperate = true := rfl

theorem test_wit_EpReadCall :
    let s : State := { s0 with eng := s0.eng.setEp 0#5 { rec1023 with buf := .full (List.replicate 1023 0#8) false } }
    s.mayOperate = true ∧ s.specChip ∧ s.calm ∧ (0x00#8 : Byte).getLsbD 7 = false ∧
      (s.eng.epAt (epIdx 0x00#8)).buf.packet.length ≤ 1023 := ⟨rfl, rfl, ⟨rfl, rfl, rfl⟩, by decide, by decide +kernel⟩

theorem test_wit_EpWriteCall : s0.mayOperate = true ∧ s0.specChip ∧ s0.calm ∧ (0x80#8 : Byte).getLsbD 7 = true ∧
    (List.replicate 8 0#8).length ≤ (s0.eng.epAt (epIdx 0x80#8)).mps.toNat ∧
    ((s0.eng.epAt (epIdx 0x80#8)).mps.toNat < (List.replicate 9 0#8).length ∧
      (s0.eng.epAt (epIdx 0x80#8)).mps.toNat < (List.replicate 1025 0#8).length) :=
  ⟨rfl, rfl, ⟨rfl, rfl, rfl⟩, by decide, by decide +kernel, by decide +kernel, by decide +kernel⟩

/-- 1025 bytes for an endpoint of 8: TXPLEN says 1, but the packet is any one (R220, U8). -/
theorem test_epWrite_over : nextIs (exec (.epWrite 0x80#8 (List.replicate 1025 7#8)) s0)
    (fun t => (t.eng.epAt 1#5).buf.isFull && t.eng.fresh == 1) = true := by decide +kernel

/-- Where the descriptors of table T stand. -/
def offsT : List Nat := [0, 18, 27, 36, 43, 50, 59, 66]

theorem wellFormedT : wellFormedTable sT.desc offsT ∧ fieldsInside sT.desc offsT := by
  unfold wellFormedTable fieldsInside; decide +kernel

theorem test_wit_FindDescriptorCall : sT.mayOperate = true ∧ wellFormedTable sT.desc offsT ∧
    offsT.filter (fun p => descField sT.desc p 1 == 5#8) = [36, 43, 59] := ⟨rfl, wellFormedT.1, by decide +kernel⟩

/-- The empty table is well formed too. -/
theorem test_wit_empty_table : wellFormedTable s0.desc [] ∧ fieldsInside s0.desc [] := by
  unfold wellFormedTable fieldsInside; decide +kernel

theorem test_wit_ConfigureForSetting : sT.mayOperate = true ∧ sT.specChip ∧ sT.calm ∧ (1#8 : Byte) ≠ 0#8 ∧
    wellFormedTable sT.desc offsT ∧ fieldsInside sT.desc offsT ∧
    enclosedEndpoints sT.desc offsT 1#8 0#8 = [(0x81#8, 64#16), (0x02#8, 64#16)] :=
  ⟨rfl, rfl, ⟨rfl, rfl, rfl⟩, by decide, wellFormedT.1, wellFormedT.2, by decide +kernel⟩

theorem test_wit_DispatchNow : s0.mayOperate = true := rfl

/-- A reply in table T with `off` bytes sent and `r` left. -/
def sReply (off : Nat) (r : Half) : State :=
  { sT with ct := { sT.ct with ptr := { space := .desc, off := off }, resid := r } }

/-- Data in STAGE at `off`, `r` bytes left. -/
def sStage (off : Nat) (r : Half) (drops : Bool) : State :=
  { s0 with ct := { s0.ct with ptr := { space := .stage, off := off }, resid := r }, cfg := { s0.cfg with overrunDrops := drops } }

theorem test_wit_DataInCall :
    (let s := sReply 70 1#16
     s.mayOperate = true ∧ s.specChip ∧ s.calm ∧ s.chunkLen ≤ (s.eng.epAt 1#5).mps.toNat ∧
      s.bytesAt s.ct.ptr s.chunkLen = some ([0#8], s.fresh)) ∧
    (sReply 71 1#16).bytesAt (sReply 71 1#16).ct.ptr (sReply 71 1#16).chunkLen = none ∧
    (sStage 8 1#16 false).bytesAt (sStage 8 1#16 false).ct.ptr (sStage 8 1#16 false).chunkLen = none ∧
    (sStage 7 2#16 true).bytesAt (sStage 7 2#16 true).ct.ptr (sStage 7 2#16 true).chunkLen = none :=
  ⟨⟨rfl, rfl, ⟨rfl, rfl, rfl⟩, by decide +kernel, by decide +kernel⟩, by decide +kernel, by decide +kernel, by decide +kernel⟩

theorem test_wit_StallControlCall : s0.mayOperate = true ∧ s0.specChip ∧ s0.calm := ⟨rfl, rfl, ⟨rfl, rfl, rfl⟩⟩

/-- GET_DESCRIPTOR answered with the device descriptor, DispatchNow about to send it. -/
def sAnswered : State :=
  { at' .replyNow sT with
    su := packet8, result := .ok, ct := { sT.ct with ptr := { space := .desc, off := 0 }, len := 18, dir := true } }

theorem test_wit_DispatchReply :
    (seqTurn sAnswered sAnswered ∧ sAnswered.hung = none ∧ sAnswered.frames = [.replyNow] ∧ sAnswered.specChip ∧ sAnswered.calm ∧
      sAnswered.result = .ok) ∧
    (let t : State := { sAnswered with
        frames := [], ct := { sAnswered.ct with resid := BitVec.ofNat 16 (min 18 (suLength packet8).toNat), phase := .dataD2H } }
     t.chunkLen ≤ (sAnswered.eng.epAt 1#5).mps.toNat ∧
      t.bytesAt t.ct.ptr t.chunkLen = some (tableT.take 8, t.fresh) ∧
      (let u : State := { t with desc := tableT.take 7 }; u.bytesAt u.ct.ptr u.chunkLen = none ∧ u.ct.ptr.space ≠ .stage) ∧
      (let u : State := { t with ct := { t.ct with ptr := { space := .stage, off := 1 } } }
       u.bytesAt u.ct.ptr u.chunkLen = none ∧ u.cfg.overrunDrops = false) ∧
      (let u : State := { t with
          ct := { t.ct with ptr := { space := .stage, off := 1 } }, cfg := { t.cfg with overrunDrops := true } }
       u.bytesAt u.ct.ptr u.chunkLen = none ∧ u.ct.ptr.space = .stage ∧ u.cfg.overrunDrops = true)) ∧
    ({ sAnswered with result := .fail } : State).result = .fail :=
  ⟨⟨Or.inr (Or.inr ⟨rfl, rfl, rfl⟩), rfl, rfl, rfl, ⟨rfl, rfl, rfl⟩, rfl⟩, ⟨by decide +kernel, by decide +kernel, by decide +kernel, by decide +kernel, by decide +kernel⟩, rfl⟩

theorem test_wit_StatusReply :
    (let s : State := { at' .replyOut s0 with result := .ok }
     seqTurn s s ∧ s.hung = none ∧ s.frames = [.replyOut] ∧ s.specChip ∧ s.calm ∧ s.result = .ok ∧ s.ct.resid = 0#16) ∧
    ({ at' .replyOut s0 with result := .fail } : State).result = .fail :=
  ⟨⟨Or.inr (Or.inr ⟨rfl, rfl, rfl⟩), rfl, rfl, rfl, ⟨rfl, rfl, rfl⟩, rfl, rfl⟩, rfl⟩

theorem test_wit_SetupEvent :
    (let s : State := { s0 with eng := s0.eng.setEp 0#5 { rec8 with buf := .full packet8.toList true } }
     s.specChip ∧ s.calm ∧ (s.eng.epAt 0#5).buf = .full packet8.toList true ∧ suDir packet8 = true) ∧
    (suLength #v[0#8, 5#8, 5#8, 0#8, 0#8, 0#8, 0#8, 0#8] = 0#16) ∧
    (suLength #v[0x40#8, 1#8, 0#8, 0#8, 0#8, 0#8, 1#8, 0#8] ≠ 0#16 ∧
      suDir #v[0x40#8, 1#8, 0#8, 0#8, 0#8, 0#8, 1#8, 0#8] = false) :=
  ⟨⟨rfl, ⟨rfl, rfl, rfl⟩, by decide +kernel, by decide⟩, by decide, by decide, by decide⟩

/-- Received data of 8 bytes, to be stored at `off`, `r` bytes expected. -/
def sOut (off : Nat) (r : Half) : State :=
  { sStage off r false with eng := s0.eng.setEp 0#5 { rec8 with buf := .full (List.replicate 8 1#8) false } }

theorem test_wit_OutDataEvent :
    ((sOut 0 8#16).specChip ∧ (sOut 0 8#16).calm ∧ (sOut 0 8#16).ct.ptr.space = .stage ∧ Memory.wf (sOut 0 8#16).stage = true ∧
      ((sOut 0 8#16).eng.epAt 0#5).buf.packet.length ≤ 1023 ∧
      (sOut 0 8#16).ct.ptr.off + (((sOut 0 8#16).eng.epAt 0#5).buf.packet.take 8).length ≤ (sOut 0 8#16).cfg.stageCap) ∧
    (((sOut 1 8#16).eng.epAt 0#5).buf.packet.take 8 ≠ [] ∧
      (sOut 1 8#16).cfg.stageCap < (sOut 1 8#16).ct.ptr.off + (((sOut 1 8#16).eng.epAt 0#5).buf.packet.take 8).length ∧
      (sOut 1 8#16).cfg.overrunDrops = false) :=
  ⟨⟨rfl, ⟨rfl, rfl, rfl⟩, rfl, rfl, by decide +kernel, by decide +kernel⟩, by decide +kernel, by decide +kernel, rfl⟩

theorem test_wit_OutStatusEvent : (sOut 0 0#16).specChip ∧ (sOut 0 0#16).calm ∧ ((sOut 0 0#16).eng.epAt 0#5).buf.packet.length ≤ 1023 :=
  ⟨rfl, ⟨rfl, rfl, rfl⟩, by decide +kernel⟩

theorem test_wit_InEvent : (sReply 16 2#16).specChip ∧ (sReply 16 2#16).calm ∧
    (sReply 71 1#16).bytesAt (sReply 71 1#16).ct.ptr (sReply 71 1#16).chunkLen = none ∧
    (sStage 7 2#16 true).bytesAt (sStage 7 2#16 true).ct.ptr (sStage 7 2#16 true).chunkLen = none ∧
    (sReply 16 2#16).chunkLen ≤ ((sReply 16 2#16).eng.epAt 1#5).mps.toNat ∧
    (sReply 16 2#16).bytesAt (sReply 16 2#16).ct.ptr (sReply 16 2#16).chunkLen = some ([0#8, 1#8], 0) :=
  ⟨rfl, ⟨rfl, rfl, rfl⟩, by decide +kernel, by decide +kernel, by decide +kernel, by decide +kernel⟩

theorem test_wit_DecidedCells : Instr.alwaysFails (.synchFrameEp fields0) = true ∧
    Instr.clearFeatureDev fields0 = .clearFeatureDev fields0 := ⟨rfl, rfl⟩

theorem test_wit_ReplyCells :
    (Memory.wf s0.stage = true ∧ s0.specChip ∧ s0.calm ∧
      (Instr.getInterfaceIf fields0, [0#8]) ∈ [(Instr.getStatusDev fields0, [if s0.cfg.selfPowered then 1#8 else 0#8, 0#8]),
        (.getStatusIf fields0, [0#8, 0#8]), (.getConfigurationDev fields0, [s0.config]), (.getInterfaceIf fields0, [0#8])]) ∧
    (let c2 : Cfg := { s0.cfg with controlSize := ⟨2, by decide⟩ }; [0#8, 0#8].length ≤ c2.m0 ∧ 2 ≤ c2.m0) ∧
    (let c1 : Cfg := { s0.cfg with controlSize := ⟨1, by decide⟩ }; c1.m0 < [0#8, 0#8].length ∧ c1.overrunDrops = false) :=
  ⟨⟨rfl, rfl, ⟨rfl, rfl, rfl⟩, by simp⟩, by decide, by decide⟩

theorem test_wit_CommandingCells : 1#5 = epIdx (({ fields0 with index := 0x0080#16 } : SetupFields).index.extractLsb' 0 8) ∧
    s0.specChip ∧ s0.calm ∧ fields0.value = 0#16 ∧ ({ fields0 with value := 1#16 } : SetupFields).value ≠ 0#16 :=
  ⟨by decide, rfl, ⟨rfl, rfl, rfl⟩, rfl, by decide⟩

theorem test_wit_GetDescriptorCell : wellFormedTable sT.desc offsT ∧
    offsT.filter (fun p => descField sT.desc p 1 == ({ fields0 with value := 0x0100#16 } : SetupFields).value.extractLsb' 8 8) = [0] :=
  ⟨wellFormedT.1, by decide +kernel⟩

theorem test_wit_SetConfigurationCell : sT.specChip ∧ sT.calm ∧ fields0.value.extractLsb' 0 8 = 0#8 ∧
    (({ fields0 with value := 0x00FF#16 } : SetupFields).value.extractLsb' 0 8 ≠ 0#8 ∧ wellFormedTable sT.desc offsT ∧
      fieldsInside sT.desc offsT) := ⟨rfl, ⟨rfl, rfl, rfl⟩, by decide, by decide, wellFormedT.1, wellFormedT.2⟩

theorem test_wit_HookRequests :
    (let s : State := { s0 with hReq1 := some 1, hCustom := some 2, hookAnswers := [.fail] }
     (∃ a s', s.answer = (a, s')) ∧ (Instr.hReqClass fields0 0#8 0#2, some 1) ∈ [(Instr.hReqClass fields0 0#8 0#2, s.hReq1),
        (.hReqVendor fields0 0#8 0#2, s.hReq2), (.hReqReserved fields0 0#8 0#2, s.hReq3)] ∧ s.hCustom = some 2) ∧
    s0.hReq1 = none ∧ s0.hCustom = none :=
  ⟨⟨⟨_, _, rfl⟩, by simp, rfl⟩, rfl, rfl⟩

theorem test_wit_FrameAndEndpointArms : s0.specChip ∧ s0.slots = [] := ⟨rfl, rfl⟩
theorem test_wit_DevstatArm : s0.specChip ∧ s0.calm ∧ s0.eng.devstatPoison = false := ⟨rfl, ⟨rfl, rfl, rfl⟩, rfl⟩

theorem test_wit_EndpointEventService : s0.specChip ∧ s0.calm ∧ s0.hndAt 31#5 = none ∧
    ({ s0 with hnd := s0.hnd.set 0 (some .ctl) } : State).hndAt 0#5 = some .ctl ∧
    ({ s0 with hnd := s0.hnd.set 31 (some (.ext 9)) } : State).hndAt 31#5 = some (.ext 9) :=
  ⟨rfl, ⟨rfl, rfl, rfl⟩, by decide, by decide, by decide⟩

/-- The invariant holds in the fixture. -/
theorem inv_s0 : Inv s0 := by
  have hep : ∀ i, (s0.eng.epAt i).buf = .empty := by decide +kernel
  exact {
    eng := { devintst_reserved := by decide, devinten_reserved := by decide, dpctl_reserved := by decide,
             realised_marked := by decide, event_realised := by decide,
             packets_short := fun i => (by rw [hep i]; decide),
             setup_packets := fun i b h => (by rw [hep i] at h; cases h),
             suspended_connected := by decide, rxidx_out := by decide },
    unlocked := rfl, stage_wf := rfl, stage_below := fun _ h => (by cases h),
    resid_le := Nat.zero_le _, h2d_dir := fun h => (by cases h), snap_isr := rfl }

/-- A write of CT with exactly the declared length left keeps the transfer, one with a byte more does not. -/
theorem test_wit_InvKept :
    s0.specChip ∧ Inv s0 ∧ (∃ t, step s0 = .next t) ∧
    AppAct.keepsTransfer { s0 with su := packet8 } (.writeCt { s0.ct with resid := 18#16 }) ∧
    ¬ AppAct.keepsTransfer { s0 with su := packet8 } (.writeCt { s0.ct with resid := 19#16 }) :=
  ⟨rfl, inv_s0, ⟨_, rfl⟩, ⟨by decide +kernel, fun h => by cases h⟩, fun h => absurd h.1 (by decide +kernel)⟩

theorem test_wit_ReplyChunks :
    let reply := tableT.take 18
    seqTurn sAnswered sAnswered ∧ sAnswered.hung = none ∧ sAnswered.frames = [.replyNow] ∧ sAnswered.result = .ok ∧
    sAnswered.specChip ∧ sAnswered.calm ∧ sAnswered.cfg.m0 = 8 ∧ 8 ≤ (sAnswered.eng.epAt 1#5).mps.toNat ∧
    (sAnswered.eng.epAt 1#5).stalled = false ∧ reachable Config.chip 0#4 1#5 sAnswered.eng ∧
    reply.length = min sAnswered.ct.len (suLength sAnswered.su).toNat ∧
    (∀ k n, 0 < n → k + n ≤ reply.length →
      sAnswered.bytesAt { sAnswered.ct.ptr with off := sAnswered.ct.ptr.off + k } n =
        some ((reply.drop k).take n, sAnswered.fresh)) := by
  refine ⟨Or.inr (Or.inr ⟨rfl, rfl, rfl⟩), rfl, rfl, rfl, rfl, ⟨rfl, rfl, rfl⟩, rfl, by decide +kernel, by decide +kernel,
    reachable_ep0_in, by decide +kernel, ?_⟩
  have key : ∀ k : Fin 19, ∀ n : Fin 19, 0 < n.val → k.val + n.val ≤ 18 →
      sAnswered.bytesAt { sAnswered.ct.ptr with off := sAnswered.ct.ptr.off + k.val } n.val =
        some (((tableT.take 18).drop k.val).take n.val, sAnswered.fresh) := by decide +kernel
  intro k n h0 h1
  have hl : (tableT.take 18).length = 18 := by decide
  rw [hl] at h1
  exact key ⟨k, by omega⟩ ⟨n, by omega⟩ h0 h1

theorem test_wit_OnlyTheseWrite : ∃ t, exec .frameArm s0 = .next t := ⟨_, rfl⟩

theorem test_wit_OperationsReturn :
    let s : State := { s0 with slots := [[.wire .busReset, .eng], [.wire (.setup packet8)], [], [.eng, .eng]] }
    s.specChip ∧ s.mayOperate = true ∧ s.cfg.engResponsive = true ∧ s.eng.pend = none := ⟨rfl, rfl, rfl, rfl⟩

theorem test_wit_HangForEver :
    (let s : State := { s0 with cfg := { s0.cfg with engResponsive := false } }
     s.specChip ∧ s.mayOperate = true ∧ s.slots = [] ∧ s.cfg.engResponsive = false ∧ s.eng.pend = none) ∧
    ({ s0 with hung := some 4 } : State).hung = some 4 := ⟨⟨rfl, rfl, rfl, rfl, rfl⟩, rfl⟩

end Sys2Proof.Tests
end

section
/-! SUPPORT. Which state of SEQ each instruction writes, row by row, and the statement about all of them (O58). -/

-- one declaration at a time: kernel evaluations that wait for each other would hold a thread each
set_option Elab.async false

namespace Sys2Proof.Machine

/-! ## The rows that write a guarded register of SEQ -/

/-- Only SET_CONFIGURATION.dev writes CONFIG (R31). -/
def setsConfig : Instr → Bool
  | .setConfigurationDev _ => true
  | _ => false

/-- Only SETUP_EVENT writes SU (R21). -/
def setsSu : Instr → Bool
  | .setupEvent _ => true
  | _ => false

/-- Only `registerHandler` writes HND (R33). -/
def setsHnd : Instr → Bool
  | .registerHandler _ _ => true
  | _ => false

/-- Only DEVSTAT_ARM writes DEVFLAGS (R32). -/
def setsDevflags : Instr → Bool
  | .devstatArm => true
  | _ => false

theorem setsConfig_eq_false {i : Instr} (hi : ∀ f, i ≠ .setConfigurationDev f) : setsConfig i = false := by
  unfold setsConfig
  split
  · exact absurd rfl (hi _)
  · rfl

theorem setsSu_eq_false {i : Instr} (hi : ∀ st, i ≠ .setupEvent st) : setsSu i = false := by
  unfold setsSu
  split
  · exact absurd rfl (hi _)
  · rfl

theorem setsHnd_eq_false {i : Instr} (hi : ∀ a h, i ≠ .registerHandler a h) : setsHnd i = false := by
  unfold setsHnd
  split
  · exact absurd rfl (hi _ _)
  · rfl

theorem setsDevflags_eq_false {i : Instr} (hi : i ≠ .devstatArm) : setsDevflags i = false := by
  unfold setsDevflags
  split
  · exact absurd rfl hi
  · rfl

/-! ## ENG's and WIRE's rows -/

variable {chip : Chip} {c u h d : Bool} {α : Type} {s t : State}

theorem writes_phaseRow (p : PhaseWord) (hn : exec p.toInstr s = .next t) : Writes c u h d s t := by
  rw [exec_phase] at hn
  cases hn
  exact { (Writes.refl s : Writes c u h d s s) with grows := EngGrows.complete p s.eng }

theorem exec_wireEvent (ev : WireEvent) (s : State) :
    exec ev.toInstr s = .next (wireState ev (s.eng.wire s.cfg.toChip ev) s) := by
  cases ev <;> rfl

theorem writes_wireRow (ev : WireEvent) (hn : exec ev.toInstr s = .next t) : Writes c u h d s t := by
  rw [exec_wireEvent] at hn
  cases hn
  exact (kept_wireState ev s).writes

/-! ## SEQ's rows -/

/-- `Writes.next` for an operation software calls. -/
theorem Writes.nextCall {m : SeqM α} (hm : Keeps (Writes c u h d) m) (hn : runCall m s = .next t) : Writes c u h d s t :=
  Writes.next hm (runCall_next hn)

/-- An operation software calls that hands its result back. -/
theorem writes_returning {m : SeqM α} (hm : Keeps (Writes c u h d) m) (f : α → Ret) :
    Keeps (Writes c u h d) (m >>= fun a => setRet (f a)) :=
  Keeps.bind writes_order hm fun _ => writes_setRet _

/-- CLEAR_FEATURE.ep and SET_FEATURE.ep. -/
theorem writes_haltFeature {m : SeqM Unit} (hm : Keeps (Writes c u h d) m) (f : SetupFields) :
    Keeps (Writes c u h d) (if f.value = Config.featEndpointHalt then (do m; passCell) else failCell) := by
  split
  · exact Keeps.bind writes_order hm fun _ => writes_setResult _
  · exact writes_setResult _

theorem writes_getStatusEp {f : SetupFields} (hn : execGetStatusEp f s = .next t) : Writes c u h d s t :=
  Writes.next (Keeps.bind writes_order (keeps_getStatus writes_closed _) fun _ => writes_replyBytes _) hn

theorem writes_getDescriptorDev {f : SetupFields} (hn : execGetDescriptorDev f s = .next t) : Writes c u h d s t := by
  refine Writes.next (Keeps.bind writes_order (Keeps.get writes_order) fun s' =>
    Keeps.bind writes_order (writes_liftWalk _) fun r => ?_) hn
  cases r with
  | none => exact writes_setResult _
  | some r => exact Keeps.bind writes_order (writes_setReply _ _) fun _ => writes_setResult _

theorem writes_config (b : Byte) : Keeps (Writes true u h d) (modify fun s => { s with config := b } : SeqM Unit) :=
  keeps_modify fun s => { (Writes.refl s : Writes true u h d s s) with keptConfig := fun hf => by cases hf }

theorem writes_setConfigurationDev {f : SetupFields} (hn : execSetConfigurationDev f s = .next t) :
    Writes true u h d s t :=
  Writes.next (Keeps.bind writes_order (keeps_configureForSetting writes_closed _ _) fun _ =>
    Keeps.bind writes_order (writes_config _) fun _ => writes_setResult _) hn

theorem writes_endpointArm : Keeps (Writes c u h d) (endpointArm chip) :=
  Keeps.bind writes_order (keeps_regWrite writes_closed _ _) fun _ => writes_pushFrames _

theorem writes_registerHandler (a : Byte) (k : Option Handler) : Keeps (Writes c u true d) (registerHandler a k) :=
  keeps_modify fun s => { (Writes.refl s : Writes c u true d s s) with keptHnd := fun hf => by cases hf }

theorem writes_findDescriptor {ti lang : Half} (hn : execFindDescriptor ti lang s = .next t) : Writes c u h d s t :=
  Writes.nextCall (Keeps.bind writes_order (Keeps.get writes_order) fun _ => writes_returning (writes_liftWalk _) _) hn

/-! ## All of them -/

/-- Every instruction writes of SEQ's guarded state at most what its row names. -/
theorem exec_writes {i : Instr} (hn : exec i s = .next t) :
    Writes (setsConfig i) (setsSu i) (setsHnd i) (setsDevflags i) s t := by
  cases i
  -- format CMDW
  case selectEp idx => exact writes_phaseRow (.selectEp idx) hn
  case selectEpRd idx => exact writes_phaseRow (.selectEpRd idx) hn
  case setEpStatus idx => exact writes_phaseRow (.setEpStatus idx) hn
  case setMaxpkt idx => exact writes_phaseRow (.setMaxpkt idx) hn
  case setAddress => exact writes_phaseRow .setAddress hn
  case configureDevice => exact writes_phaseRow .configureDevice hn
  case clearBuffer => exact writes_phaseRow .clearBuffer hn
  case validateBuffer => exact writes_phaseRow .validateBuffer hn
  case getDevStatus => exact writes_phaseRow .getDevStatus hn
  case getDevStatusRd => exact writes_phaseRow .getDevStatusRd hn
  case wrdata data => exact writes_phaseRow (.wrdata data) hn
  case reservedCmdw word => exact writes_phaseRow (.reserved word) hn
  -- format SETUP: the rows that only answer
  case clearFeatureIf | setFeatureIf | setAddressIf | setAddressEp | getDescriptorIf | getDescriptorEp | getConfigurationIf
      | getConfigurationEp | setConfigurationIf | setConfigurationEp | getInterfaceDev | getInterfaceEp | setInterfaceDev
      | setInterfaceEp | setDescriptorDev | setDescriptorIf | setDescriptorEp | synchFrameDev | synchFrameIf | synchFrameEp
      | unknownRequest | recipientOther => exact Writes.next (writes_setResult .fail) hn
  case clearFeatureDev f | setFeatureDev f => exact Writes.next (writes_deviceFeature f) hn
  case setInterfaceIf f =>
    refine Writes.next ?_ hn
    split <;> exact writes_setResult _
  -- format SETUP: the rows that reply, command or call a hook
  case getStatusDev | getConfigurationDev =>
    exact Writes.next (Keeps.bind writes_order (Keeps.get writes_order) fun _ => writes_replyBytes _) hn
  case getStatusIf | getInterfaceIf => exact Writes.next (writes_replyBytes _) hn
  case getStatusEp => exact writes_getStatusEp hn
  case clearFeatureEp | setFeatureEp =>
    exact Writes.next (writes_haltFeature (keeps_commandWrite writes_closed _ _) _) hn
  case setAddressDev =>
    exact Writes.next (Keeps.bind writes_order (keeps_commandWrite writes_closed _ _) fun _ => writes_setResult _) hn
  case getDescriptorDev => exact writes_getDescriptorDev hn
  case setConfigurationDev => exact writes_setConfigurationDev hn
  case hReqClass | hReqVendor | hReqReserved => exact Writes.next (writes_typeHook _) hn
  case hCustom => exact Writes.next (writes_customHook _) hn
  -- formats DEVINT and EPEVT
  case frameArm => exact Writes.next writes_frameArm hn
  case devstatArm => exact Writes.next writes_devStatArm hn
  case endpointArm => exact Writes.next writes_endpointArm hn
  case endpointEvent idx => exact Writes.next (writes_endpointEvent idx) hn
  case setupEvent => exact Writes.next writes_onSetup hn
  case outDataEvent => exact Writes.next writes_onOutData hn
  case outStatusEvent => exact Writes.next writes_onOutStatus hn
  case inEvent => exact Writes.next writes_onIn hn
  -- format CALL
  case command => exact Writes.nextCall (keeps_command writes_closed _) hn
  case commandWrite | stall | unstall | configureForSettingZero =>
    exact Writes.nextCall (keeps_commandWrite writes_closed _ _) hn
  case commandRead => exact Writes.nextCall (writes_returning (keeps_commandRead writes_closed _) _) hn
  case registerHandler a k => exact Writes.nextCall (writes_registerHandler a k) hn
  case configureEndpoint => exact Writes.nextCall (keeps_configureEndpoint writes_closed _ _) hn
  case getStatus => exact Writes.nextCall (writes_returning (keeps_getStatus writes_closed _) _) hn
  case epRead => exact Writes.nextCall (writes_returning (keeps_epRead writes_closed _ _) _) hn
  case epWrite => exact Writes.nextCall (keeps_epWrite writes_closed _ _) hn
  case dispatchNow => exact Writes.nextCall (writes_startDispatch _) hn
  case dataIn => exact Writes.nextCall writes_dataIn hn
  case stallControl => exact Writes.nextCall writes_stallControl hn
  case findDescriptor => exact writes_findDescriptor hn
  case configureForSettingNonzero => exact Writes.nextCall (keeps_configureForSetting writes_closed _ _) hn
  -- format WIRE
  case wireSetup b => exact writes_wireRow (.setup b) hn
  case wireOut num bytes => exact writes_wireRow (.out num bytes) hn
  case wireIn num => exact writes_wireRow (.inn num) hn
  case wireSof => exact writes_wireRow .sof hn
  case wireBusReset => exact writes_wireRow .busReset hn
  case wireConnect v => exact writes_wireRow (.connect v) hn
  case wireSuspend v => exact writes_wireRow (.suspend v) hn

/-- The form of "only grows" in which the marks and confirmations are stated, bit by bit. -/
theorem getLsbD_of_confined {n : Nat} {x m : BitVec n} (hx : x &&& ~~~m = 0#n) {k : Nat} (hk : x.getLsbD k = true) :
    m.getLsbD k = true := by
  have hlt : k < n := BitVec.lt_of_getLsbD hk
  have := congrArg (BitVec.getLsbD · k) hx
  simpa [hk, hlt] using this

/-- Settles O58: the clauses are the fields of `Writes`, the relation every instruction stays in (`exec_writes`). -/
theorem onlyTheseWrite : Obligations.OnlyTheseWrite := by
  unfold Obligations.OnlyTheseWrite
  intro i s t hn
  have w := exec_writes hn
  obtain ⟨hSof, hDevst, hReq1, hReq2, hReq3, hCustom⟩ := w.hooks
  exact ⟨⟨w.cfg, w.desc, w.irqMask, w.inIsr, w.snap, hSof, hDevst, hReq1, hReq2, hReq3, hCustom, w.turns⟩,
    fun hi => w.keptConfig (setsConfig_eq_false hi),
    fun hi => w.keptSu (setsSu_eq_false hi),
    fun hi => w.keptHnd (setsHnd_eq_false hi),
    fun hi => w.keptDevflags (setsDevflags_eq_false hi),
    fun _ => getLsbD_of_confined w.grows.realize,
    fun _ => getLsbD_of_confined w.grows.rlzd,
    w.grows.poison⟩

end Sys2Proof.Machine
end

section
/-! SUPPORT. The invariant along a step: every instruction, whatever SEQ fetches and every act of APP keep it (O56). -/

-- one declaration at a time: kernel evaluations that wait for each other would hold a thread each
set_option Elab.async false

namespace Sys2Proof.Machine

variable {α : Type} {s t : State}

/-! ## From a computation to the next state -/

/-- `Sound.next`, the run first: it names the computation whose soundness is asked for. -/
theorem SpecInv.after_runSeq {m : SeqM α} (hs : SpecInv s) (hn : runSeq m s = .next t) (hm : Sound m) : SpecInv t :=
  hm.next hs hn

/-- The same of an operation software calls. -/
theorem SpecInv.after_runCall {m : SeqM α} (hs : SpecInv s) (hn : runCall m s = .next t) (hm : Sound m) : SpecInv t :=
  hm.next hs (runCall_next hn)

theorem guarded_next {m : SeqM Unit} (hn : guarded m s = .next t) : runSeq m s = .next t := by
  unfold guarded at hn
  split at hn
  · exact hn
  · cases hn

/-- The same of an act of APP under the mask. -/
theorem SpecInv.after_guarded {m : SeqM Unit} (hs : SpecInv s) (hn : guarded m s = .next t) (hm : Sound m) : SpecInv t :=
  hm.next hs (guarded_next hn)

/-! ## ENG's and WIRE's rows -/

theorem specInv_phaseRow (p : PhaseWord) (hs : SpecInv s) (hn : exec p.toInstr s = .next t) : SpecInv t := by
  rw [exec_phase, hs.spec] at hn
  cases hn
  exact { hs with
    eng := hs.eng.complete p
    unlocked := (complete_portLock p s.eng).trans hs.unlocked }

theorem specInv_wireRow (ev : WireEvent) (hs : SpecInv s) (hn : exec ev.toInstr s = .next t) : SpecInv t := by
  rw [exec_wireEvent, hs.spec] at hn
  cases hn
  exact ((kept_wireState ev s).body hs.body).inv ((wireState_portLock ev s).trans hs.unlocked)

/-! ## SEQ's rows -/

/-- A computation that hands its result back. -/
theorem sound_returning {m : SeqM α} (hm : Sound m) (f : α → Ret) : Sound (m >>= fun a => setRet (f a)) :=
  Sound.bind hm fun _ => sound_setRet _

/-- CLEAR_FEATURE.ep and SET_FEATURE.ep. -/
theorem sound_haltFeature {m : SeqM Unit} (hm : Sound m) (f : SetupFields) :
    Sound (if f.value = Config.featEndpointHalt then (do m; passCell) else failCell) := by
  split
  · exact Sound.bind hm fun _ => sound_setResult _
  · exact sound_setResult _

theorem sound_endpointArm : Sound (endpointArm Config.chip) :=
  Sound.bind (sound_regWrite _ _) fun _ => sound_pushFrames _

theorem sound_registerHandler (a : Byte) (k : Option Handler) : Sound (registerHandler a k) :=
  sound_modify fun _ h => { h with }

theorem specInv_getDescriptorDev {f : SetupFields} (hs : SpecInv s) (hn : execGetDescriptorDev f s = .next t) :
    SpecInv t := by
  refine hs.after_runSeq hn (Sound.bind sound_get fun s' => Sound.bind (sound_liftWalk _) fun r => ?_)
  cases r with
  | none => exact sound_setResult _
  | some r => exact Sound.bind (sound_setReply _ _) fun _ => sound_setResult _

theorem specInv_setConfigurationDev {f : SetupFields} (hs : SpecInv s) (hn : execSetConfigurationDev f s = .next t) :
    SpecInv t := by
  refine hs.after_runSeq hn ?_
  rw [hs.spec]
  exact Sound.bind (sound_configureForSetting _ _) fun _ => Sound.bind (sound_modify fun _ h => { h with }) fun _ =>
    sound_setResult _

/-- Every instruction keeps the invariant. -/
theorem exec_specInv {i : Instr} (hs : SpecInv s) (hn : exec i s = .next t) : SpecInv t := by
  cases i
  -- format CMDW
  case selectEp idx => exact specInv_phaseRow (.selectEp idx) hs hn
  case selectEpRd idx => exact specInv_phaseRow (.selectEpRd idx) hs hn
  case setEpStatus idx => exact specInv_phaseRow (.setEpStatus idx) hs hn
  case setMaxpkt idx => exact specInv_phaseRow (.setMaxpkt idx) hs hn
  case setAddress => exact specInv_phaseRow .setAddress hs hn
  case configureDevice => exact specInv_phaseRow .configureDevice hs hn
  case clearBuffer => exact specInv_phaseRow .clearBuffer hs hn
  case validateBuffer => exact specInv_phaseRow .validateBuffer hs hn
  case getDevStatus => exact specInv_phaseRow .getDevStatus hs hn
  case getDevStatusRd => exact specInv_phaseRow .getDevStatusRd hs hn
  case wrdata data => exact specInv_phaseRow (.wrdata data) hs hn
  case reservedCmdw word => exact specInv_phaseRow (.reserved word) hs hn
  -- format SETUP: the rows that only answer
  case clearFeatureIf | setFeatureIf | setAddressIf | setAddressEp | getDescriptorIf | getDescriptorEp | getConfigurationIf
      | getConfigurationEp | setConfigurationIf | setConfigurationEp | getInterfaceDev | getInterfaceEp | setInterfaceDev
      | setInterfaceEp | setDescriptorDev | setDescriptorIf | setDescriptorEp | synchFrameDev | synchFrameIf | synchFrameEp
      | unknownRequest | recipientOther =>
    exact hs.after_runSeq (m := failCell) hn (sound_setResult .fail)
  case clearFeatureDev f | setFeatureDev f => exact hs.after_runSeq hn (sound_deviceFeature f)
  case setInterfaceIf f =>
    refine hs.after_runSeq hn ?_
    split <;> exact sound_setResult _
  -- format SETUP: the rows that reply, command or call a hook
  case getStatusDev | getConfigurationDev =>
    exact hs.after_runSeq hn (Sound.bind sound_get fun _ => sound_replyBytes _)
  case getStatusIf | getInterfaceIf => exact hs.after_runSeq hn (sound_replyBytes _)
  case getStatusEp =>
    exact hs.after_runSeq hn (hs.spec ▸ (Sound.bind (sound_getStatus _) fun _ => sound_replyBytes _))
  case clearFeatureEp | setFeatureEp => exact hs.after_runSeq hn (hs.spec ▸ sound_haltFeature (sound_commandWrite _ _) _)
  case setAddressDev =>
    exact hs.after_runSeq hn (hs.spec ▸ (Sound.bind (sound_commandWrite _ _) fun _ => sound_setResult _))
  case getDescriptorDev => exact specInv_getDescriptorDev hs hn
  case setConfigurationDev => exact specInv_setConfigurationDev hs hn
  case hReqClass | hReqVendor | hReqReserved => exact hs.after_runSeq hn (sound_typeHook _)
  case hCustom => exact hs.after_runSeq hn (sound_customHook _)
  -- formats DEVINT and EPEVT
  case frameArm => exact hs.after_runSeq hn (hs.spec ▸ sound_frameArm)
  case devstatArm => exact hs.after_runSeq hn (hs.spec ▸ sound_devStatArm)
  case endpointArm => exact hs.after_runSeq (m := endpointArm _) hn (hs.spec ▸ sound_endpointArm)
  case endpointEvent idx => exact hs.after_runSeq hn (hs.spec ▸ sound_endpointEvent idx)
  case setupEvent => exact hs.after_runSeq hn (hs.spec ▸ sound_onSetup)
  case outDataEvent => exact hs.after_runSeq hn (hs.spec ▸ sound_onOutData)
  case outStatusEvent => exact hs.after_runSeq hn (hs.spec ▸ sound_onOutStatus)
  case inEvent => exact hs.after_runSeq hn (hs.spec ▸ sound_onIn)
  -- format CALL
  case command => exact hs.after_runCall hn (hs.spec ▸ sound_command _)
  case commandWrite | stall | unstall | configureForSettingZero =>
    exact hs.after_runCall hn (hs.spec ▸ sound_commandWrite _ _)
  case commandRead => exact hs.after_runCall hn (hs.spec ▸ sound_returning (sound_commandRead _) _)
  case registerHandler => exact hs.after_runCall hn (sound_registerHandler _ _)
  case configureEndpoint => exact hs.after_runCall hn (hs.spec ▸ sound_configureEndpoint _ _)
  case getStatus => exact hs.after_runCall hn (hs.spec ▸ sound_returning (sound_getStatus _) _)
  case epRead => exact hs.after_runCall hn (hs.spec ▸ sound_returning (sound_epRead _ _) _)
  case epWrite => exact hs.after_runCall hn (hs.spec ▸ sound_epWrite _ _)
  case dispatchNow => exact hs.after_runCall hn (sound_startDispatch _)
  case dataIn => exact hs.after_runCall hn (hs.spec ▸ sound_dataIn)
  case stallControl => exact hs.after_runCall hn (hs.spec ▸ sound_stallControl)
  case findDescriptor =>
    exact hs.after_runCall hn (Sound.bind sound_get fun _ => sound_returning (sound_liftWalk _) _)
  case configureForSettingNonzero => exact hs.after_runCall hn (hs.spec ▸ sound_configureForSetting _ _)
  -- format WIRE
  case wireSetup b => exact specInv_wireRow (.setup b) hs hn
  case wireOut num bytes => exact specInv_wireRow (.out num bytes) hs hn
  case wireIn num => exact specInv_wireRow (.inn num) hs hn
  case wireSof => exact specInv_wireRow .sof hs hn
  case wireBusReset => exact specInv_wireRow .busReset hs hn
  case wireConnect v => exact specInv_wireRow (.connect v) hs hn
  case wireSuspend v => exact specInv_wireRow (.suspend v) hs hn

/-! ## What a step fetches -/

/-- The inputs, and SEQ's position, are free of the invariant. -/
theorem SpecInv.with_inputs (hs : SpecInv s) (ts : List Turn) (sl : List (List Move)) (fs : List Frame) :
    SpecInv { s with turns := ts, slots := sl, frames := fs } := { hs with }

/-- What a step fetches starts from the invariant, or has kept it already. -/
def Fetched.Sound : Fetched → Prop
  | .run _ s => SpecInv s
  | .done o => ∀ t, o = .next t → SpecInv t

theorem Fetched.Sound.out {f : Fetched} (hf : f.Sound) (hn : f.out = .next t) : SpecInv t := by
  cases f with
  | run i s => exact exec_specInv hf hn
  | done o => exact hf t hn

/-- A step that is done with a state. -/
theorem SpecInv.done (hs : SpecInv s) : (Fetched.done (.next s)).Sound := fun t ht => by cases ht; exact hs

theorem sound_scanStep (i : Nat) : Sound (scanStep Config.chip i) := by
  unfold scanStep
  refine Sound.bind (sound_regRead _) fun v => ?_
  split <;> exact sound_pushFrames _

theorem SpecInv.enterPass (hs : SpecInv s) : SpecInv (enterPass s) := { hs with snap_isr := rfl }

theorem SpecInv.exitPass (hs : SpecInv s) : SpecInv (exitPass s) := { hs with snap_isr := rfl }

theorem fetchFrame_sound (f : Frame) (hs : SpecInv s) : (fetchFrame f s).Sound := by
  cases f with
  | arms tested =>
    simp only [fetchFrame, fetchArm]
    split
    · exact hs.with_inputs _ _ _
    · exact hs.exitPass.done
  | scan i =>
    simp only [fetchFrame]
    split
    · exact fun t hn => hs.after_runSeq hn (hs.spec ▸ sound_scanStep i)
    · exact hs.done
  | epEvent i => exact hs
  | handler a st =>
    simp only [fetchFrame]
    split
    · exact hs
    · exact hs.done
  | hookOps ops =>
    cases ops with
    | nil => exact hs.done
    | cons op ops => exact hs.with_inputs _ _ _
  | dispatch => exact hs
  | request => exact hs
  | replyNow => exact fun t hn => hs.after_runSeq hn (hs.spec ▸ sound_replyNow)
  | replyOut => exact fun t hn => hs.after_runSeq hn (hs.spec ▸ sound_replyOut)

theorem fetchSeq_sound (hs : SpecInv s) : (fetchSeq s).Sound := by
  unfold fetchSeq
  split
  · exact hs.done
  · split
    · split
      · exact hs.enterPass.done
      · exact hs.done
    · exact fetchFrame_sound _ (hs.with_inputs _ _ _)

theorem fetchEng_sound (hs : SpecInv s) : (fetchEng s).Sound := by
  unfold fetchEng
  split
  · exact hs
  · exact hs.done

/-- A step fetches soundly, or it is an act of APP. -/
theorem fetch_sound (hs : SpecInv s) : (fetch s).Sound ∨
    ∃ a inter ts, s.turns = .app a inter :: ts ∧ fetch s = .done (execApp a { s with turns := ts, slots := inter }) := by
  unfold fetch
  split
  · left
    split
    · exact hs
    · exact fetchSeq_sound hs
  · exact .inl (hs.with_inputs _ _ _)
  · exact .inl (fetchEng_sound (hs.with_inputs _ _ _))
  · exact .inl (fetchSeq_sound (hs.with_inputs _ _ _))
  · left
    split
    · exact (hs.with_inputs _ _ _).done
    · split
      · exact fetchSeq_sound hs
      · split
        · exact hs.with_inputs _ _ _
        · exact fun t ht => by cases ht
  · rename_i a inter ts hturn
    split
    · exact .inl (hs.with_inputs _ _ _).done
    · split
      · exact .inl (fetchSeq_sound hs)
      · exact .inr ⟨a, inter, ts, hturn, rfl⟩

/-! ## Acts of APP -/

/-- What holds after any act of APP: the invariant but for the two clauses that tie CT to SU (R24, R281). -/
structure InvCore (s : State) : Prop where
  spec : s.specChip
  eng : EngInv s.cfg.toChip s.eng
  unlocked : s.eng.portLock = none
  stage_wf : Memory.wf s.stage = true
  stage_below : Memory.below s.cfg.stageCap s.stage
  snap_isr : s.snap.isSome = s.inIsr

theorem SpecInv.core (hs : SpecInv s) : InvCore s := { hs with eng := hs.inv.eng }

theorem sound_regAt (addr size : Nat) : Sound (regAt Config.chip addr size) := by
  unfold regAt
  refine Sound.bind sound_get fun s => ?_
  split
  · exact sound_pure _
  · exact sound_throw _

theorem specInv_installHook (slot : HookSlot) (h : Option Nat) (hs : SpecInv s) : SpecInv (installHook slot h s) := by
  cases slot <;> exact { hs with }

/-- A guarded update is made, or nothing is. -/
theorem guarded_modify_next {f : State → State} (hn : guarded (modify f) s = .next t) : t = f s := by
  have := guarded_next hn
  cases this
  rfl

theorem specInv_guardedModify {f : State → State} (hs : SpecInv s) (hn : guarded (modify f) s = .next t)
    (hf : ∀ s, SpecInv s → SpecInv (f s)) : SpecInv t := by
  rw [guarded_modify_next hn]
  exact hf s hs

/-- An act that writes neither SU nor CT keeps the whole invariant. -/
theorem execApp_specInv {a : AppAct} (hsu : ∀ b, a ≠ .writeSu b) (hct : ∀ c, a ≠ .writeCt c) (hs : SpecInv s)
    (hn : execApp a s = .next t) : SpecInv t := by
  cases a
  case setMask v => cases hn; exact { hs with }
  case setDesc d => exact specInv_guardedModify hs hn fun _ h => { h with }
  case writeConfig b => exact specInv_guardedModify hs hn fun _ h => { h with }
  case writeDevflags f => exact specInv_guardedModify hs hn fun _ h => { h with }
  case installHook slot h => exact specInv_guardedModify hs hn fun _ => specInv_installHook slot h
  case regRead =>
    exact hs.after_guarded hn (hs.spec ▸ (Sound.bind (sound_regAt _ _) fun r => sound_returning (sound_regRead r) _))
  case regWrite =>
    exact hs.after_guarded hn (hs.spec ▸ (Sound.bind (sound_regAt _ _) fun _ => sound_regWrite _ _))
  case regOr =>
    exact hs.after_guarded hn (hs.spec ▸ (Sound.bind (sound_regAt _ _) fun _ => sound_regOr _ _))
  case readConfig | readDevflags | readSu | readCt | readHandler | readHook =>
    exact hs.after_guarded hn (Sound.bind sound_get fun _ => sound_setRet _)
  case readStage => exact hs.after_guarded hn (sound_returning (sound_memRead _ _) _)
  case writeStage => exact hs.after_guarded hn (sound_stageWrite _ _)
  case writeSu b => exact absurd rfl (hsu b)
  case writeCt c => exact absurd rfl (hct c)

/-- Every act keeps what does not tie CT to SU; it keeps that too where its writes do. -/
theorem execApp_keeps {a : AppAct} (hs : SpecInv s) (hn : execApp a s = .next t) :
    InvCore t ∧ (AppAct.keepsTransfer s a → SpecInv t) := by
  by_cases hsu : ∃ b, a = .writeSu b
  · obtain ⟨b, rfl⟩ := hsu
    obtain rfl := guarded_modify_next hn
    exact ⟨{ hs.core with }, fun hk => { hs with resid_le := hk.1, h2d_dir := hk.2 }⟩
  · by_cases hct : ∃ c, a = .writeCt c
    · obtain ⟨c, rfl⟩ := hct
      obtain rfl := guarded_modify_next hn
      exact ⟨{ hs.core with }, fun hk => { hs with resid_le := hk.1, h2d_dir := hk.2 }⟩
    · have ht := execApp_specInv (fun b hb => hsu ⟨b, hb⟩) (fun c hc => hct ⟨c, hc⟩) hs hn
      exact ⟨ht.core, fun _ => ht⟩

/-! ## A step -/

/-- The premise on an act of APP reads SU and CT only. -/
theorem keepsTransfer_inputs {a : AppAct} (ts : List Turn) (sl : List (List Move)) (h : AppAct.keepsTransfer s a) :
    AppAct.keepsTransfer { s with turns := ts, slots := sl } a := by
  cases a <;> exact h

theorem step_keeps (hs : SpecInv s) (hn : step s = .next t) :
    InvCore t ∧ ((∀ a inter ts, s.turns = .app a inter :: ts → AppAct.keepsTransfer s a) → SpecInv t) := by
  rw [step_eq] at hn
  rcases fetch_sound hs with hf | ⟨a, inter, ts, hturn, hf⟩
  · exact ⟨(hf.out hn).core, fun _ => hf.out hn⟩
  · rw [hf] at hn
    obtain ⟨hcore, hall⟩ := execApp_keeps (hs.with_inputs ts inter s.frames) hn
    exact ⟨hcore, fun h => hall (keepsTransfer_inputs ts inter (h a inter ts hturn))⟩

/-! ## At reset -/

theorem reset_epAt (i : Idx) : Eng.reset.epAt i = EpRec.reset := by
  simp [Eng.epAt, Eng.reset]

theorem engInv_reset : EngInv Config.chip Eng.reset where
  devintst_reserved := by decide
  devinten_reserved := by decide
  dpctl_reserved := by decide
  realised_marked := by decide
  event_realised := by decide
  packets_short := fun i => by rw [reset_epAt]; decide
  setup_packets := fun i b h => by rw [reset_epAt] at h; cases h
  suspended_connected := by decide
  rxidx_out := by decide

theorem inv_reset : Inv State.reset where
  eng := engInv_reset
  unlocked := rfl
  stage_wf := rfl
  stage_below := fun _ h => by cases h
  resid_le := Nat.zero_le _
  h2d_dir := fun h => by cases h
  snap_isr := rfl

/-- Settles O56: a step either fetches soundly (`fetch_sound`) or is an act of APP (`execApp_keeps`). -/
theorem invKept : Obligations.InvKept := by
  unfold Obligations.InvKept
  refine ⟨inv_reset, fun s t hk hs hn hkeep => ?_, fun s t hk hs hn => ?_⟩
  · have ht := (step_keeps (hs.spec hk) hn).2 hkeep
    exact ⟨ht.inv, ht.spec⟩
  · obtain ⟨hspec, heng, hlock, hwf, hbelow, hsnap⟩ := (step_keeps (hs.spec hk) hn).1
    exact ⟨hspec, heng, hlock, hwf, hbelow, hsnap⟩

end Sys2Proof.Machine
end

section
/-! SUPPORT. Operations of SEQ run undisturbed, as what they leave of the state: the calls of the Endpoint Manager (O29, O31),
the SETUP event (O42), SET_CONFIGURATION.dev (O50), the device-status arm and the service of an endpoint event (O53, O54). -/

-- one declaration at a time: kernel evaluations that wait for each other would hold a thread each
set_option Elab.async false

namespace Sys2Proof.Machine

variable {α : Type} {s t : State}

/-- A row of SEQ that ends well on the chip the spec describes. -/
theorem runSeq_spec {m : Chip → SeqM α} {a : α} (hk : s.specChip) (h : m Config.chip s = .ok a t) :
    runSeq (m s.cfg.toChip) s = .next t := by
  rw [show s.cfg.toChip = Config.chip from hk]
  exact runSeq_ok h

/-- An operation software calls, the same. -/
theorem runCall_spec {m : Chip → SeqM α} {a : α} (hk : s.specChip) (ho : s.mayOperate = true)
    (h : m Config.chip s = .ok a t) : runCall (m s.cfg.toChip) s = .next t := by
  rw [show s.cfg.toChip = Config.chip from hk]
  exact runCall_ok ho h

/-! ## configureEndpoint (R203, R204) -/

theorem setBit_idem {n : Nat} (x : BitVec n) (k : Nat) : setBit (setBit x k) k = setBit x k := by
  rw [setBit, setBit, BitVec.or_assoc, BitVec.or_self]

/-- A flag set inside a mask stays set. -/
theorem setBit_masked_idem {n : Nat} (x m : BitVec n) (k : Nat) :
    setBit (setBit x k &&& m) k &&& m = setBit x k &&& m := by
  apply BitVec.eq_of_getLsbD_eq
  intro j hj
  simp only [BitVec.getLsbD_and, setBit_getLsbD, hj, decide_true, Bool.true_and]
  cases x.getLsbD j <;> cases decide (k = j) <;> cases m.getLsbD j <;> rfl

/-- Clearing other flags again keeps a flag raised since. -/
theorem setBit_cleared {n : Nat} (x m : BitVec n) {k : Nat} (hk : m.getLsbD k = false) :
    setBit (x &&& ~~~m) k &&& ~~~m = setBit (x &&& ~~~m) k := by
  apply BitVec.eq_of_getLsbD_eq
  intro j hj
  simp only [BitVec.getLsbD_and, BitVec.getLsbD_not, setBit_getLsbD, hj, decide_true, Bool.true_and]
  by_cases h : k = j
  · subst h; simp [hk]
  · simp [h]

theorem configured_epAt (i : Idx) (m : Half) (e : Eng) :
    (e.configured Config.chip i m).epAt i = e.sized i (sizeIn Config.chip m) :=
  epAt_setEp_same (e.quiet Config.chip) i _

/-- The record of an index that was just realised with a size already has it. -/
theorem configured_sized (i : Idx) (m : Half) (e : Eng) :
    (e.configured Config.chip i m).sized i (sizeIn Config.chip m) = e.sized i (sizeIn Config.chip m) := by
  have hr : (e.configured Config.chip i m).rlzd.getLsbD i.toNat = true := by
    have hi := i.isLt
    rw [show (e.configured Config.chip i m).rlzd = setBit e.rlzd i.toNat from rfl, setBit_getLsbD]
    simp [hi]
  rw [Eng.sized, if_pos hr, configured_epAt, Eng.sized]
  split <;> rfl

/-- A second configuration with the same size changes nothing more. -/
theorem configured_idem (i : Idx) (m : Half) (e : Eng) :
    (e.configured Config.chip i m).configured Config.chip i m = e.configured Config.chip i m := by
  have hen : (setBit e.epinten i.toNat).getLsbD i.toNat = true := by
    have hi := i.isLt
    rw [setBit_getLsbD]; simp [hi]
  have hmask : (phaseFlags Config.chip ||| bit Config.chip.bitEPRLZD).getLsbD Config.chip.bitEP = false := by decide
  rw [Eng.configured.eq_1 Config.chip i m (e.configured Config.chip i m), configured_sized]
  simp only [Eng.configured, Eng.quiet, Eng.setEp, Vector.set_set, setBit_idem, setBit_masked_idem, hen, Bool.not_true,
    Bool.false_and, Bool.false_eq_true, if_false]
  congr 1
  split
  · rw [setBit_cleared _ _ hmask]
  · rw [and_not_idem]

/-- Settles O29. -/
theorem configureEndpointCall : Obligations.ConfigureEndpointCall := by
  unfold Obligations.ConfigureEndpointCall
  intro a m s ho hk hc
  rw [show s.cfg.toChip = Config.chip from hk]
  refine ⟨?_, configured_idem _ _ _⟩
  exact runCall_spec (m := fun chip => configureEndpoint chip a m) hk ho (configureEndpoint_calm hc)

/-! ## getStatus (R212) -/

/-- Settles O31: the bits are those of the record's raw status, normalised (`normRaw_bits`). -/
theorem getStatusCall : Obligations.GetStatusCall := by
  unfold Obligations.GetStatusCall
  rintro a s r ho hk hc rfl
  refine ⟨normEp Config.chip ((s.eng.epAt (epIdx a)).raw Config.chip), ?_, normRaw_bits _⟩
  rw [show s.cfg.toChip = Config.chip from hk]
  exact runCall_spec (m := fun chip => do let st ← getStatus chip a; setRet (.status st)) hk ho
    (run_bind_ok (getStatus_calm hc))

/-! ## SETUP_EVENT (R262, R263) -/

/-- Eight bytes read replace the whole of SU. -/
theorem suCapture_toList (su b : Vector Byte 8) : suCapture su b.toList = b := by
  apply Vector.ext
  intro k hk
  simp [suCapture]

/-- `OnSetup()` up to the choice of R263: the packet is in SU, the transfer is reset, the buffer released. -/
theorem onSetup_captured {b : Vector Byte 8} {setup : Bool} (hc : s.calm)
    (hb : (s.eng.epAt 0#5).buf = .full b.toList setup) :
    onSetup Config.chip s =
      (if suLength b = 0#16 ∨ suDir b = true then dispatchNow else modifyCt (fun c => { c with phase := .dataH2D }))
        { s with
          eng := s.eng.released Config.chip 0#5, su := b
          ct := { phase := .setupCaptured, dir := suDir b, ptr := stageStart, resid := suLength b, len := 0 } } := by
  have he : epIdx 0x00#8 = 0#5 := by decide
  have hp : (s.eng.epAt 0#5).buf.packet = b.toList := by rw [hb]; rfl
  unfold onSetup modifyCt
  rw [run_modify_bind]
  rw [run_bind_ok (epRead_calm (a := 0x00#8) (by exact hc) (by decide) (by
    rw [he]; show (s.eng.epAt 0#5).buf.packet.length ≤ 1023; rw [hp]; simp))]
  rw [he, show ({ s with ct := s.ct.toIdle } : State).eng.epAt 0#5 = s.eng.epAt 0#5 from rfl, hp,
    List.take_of_length_le (by simp)]
  simp only [captureSetup, run_modify_bind, run_get_bind, suCapture_toList]
  rfl

/-- Settles O42: after the capture (`onSetup_captured`) the two cases are the two branches of R263. -/
theorem setupEvent : Obligations.SetupEvent := by
  unfold Obligations.SetupEvent
  intro st b setup s hk hc hb
  rw [show s.cfg.toChip = Config.chip from hk]
  refine ⟨fun hnow => ?_, fun hlen hdir => ?_⟩
  · refine runSeq_spec (m := onSetup) (a := ()) hk ?_
    rw [onSetup_captured hc hb, if_pos hnow]
    rfl
  · refine runSeq_spec (m := onSetup) (a := ()) hk ?_
    rw [onSetup_captured hc hb, if_neg (by simp [hlen, hdir]), hdir]
    rfl

/-! ## SET_CONFIGURATION.dev (R318, R355, R356) -/

theorem confOperand_bit (b : Bool) : (flagAt Config.chip.bitCONF b : Half).getLsbD 0 = b := by
  revert b; decide

/-- `configureForSetting(0, ..)` (R355). -/
theorem unconfigure_calm (hc : s.calm) :
    unconfigure Config.chip s = .ok () { s with eng := { s.eng.quiet Config.chip with conf := false } } := by
  unfold unconfigure
  rw [commandWrite_configure hc, confOperand_bit]

/-- On a well-formed table with its fields inside, the walk reads only what lies in the table. -/
theorem walkable_of_wellFormed {d : List Byte} {offs : List Nat} (hw : wellFormedTable d offs) (hf : fieldsInside d offs) :
    ∀ p ∈ offs, walkableAt d p :=
  fun p hp => ⟨(hw.2 p hp).1, hf p hp⟩

/-- `configureForSetting(c, a)` for `c != 0` (R356). -/
theorem configureWalk_calm {c a : Byte} {offs : List Nat} (hc : s.calm) (hw : wellFormedTable s.desc offs)
    (hf : fieldsInside s.desc offs) :
    configureWalk Config.chip c a s =
      .ok () { s with eng := s.eng.setting Config.chip (enclosedEndpoints s.desc offs c a) } := by
  have hwalk := settingFrom_spec (c := c) (a := a) (s.desc.length + 1) 0 [] hc hw.1 (walkable_of_wellFormed hw hf)
  rw [walked_enclosed offs (tableOffsets_sorted _ _ hw.1).1 [] offs rfl] at hwalk
  unfold configureWalk
  rw [run_get_bind]
  refine (run_bind_ok hwalk).trans ?_
  obtain ⟨hslots, hresp, hpend⟩ := hc
  rw [commandWrite_configure (by exact ⟨hslots, hresp, (Eng.configuredAll_pend _ _).trans hpend⟩), confOperand_bit]
  rfl

/-- The cell writes CONFIG after `configureForSetting(c, 0)` (R318). -/
theorem setConfigurationDev_of {f : SetupFields} {e : Eng} (hk : s.specChip)
    (he : configureForSetting Config.chip (f.value.extractLsb' 0 8) 0x00#8 s = .ok () { s with eng := e }) :
    exec (.setConfigurationDev f) s = .next { s with eng := e, config := f.value.extractLsb' 0 8, result := .ok } := by
  simp only [exec, execSetConfigurationDev, show s.cfg.toChip = Config.chip from hk]
  exact runSeq_ok (run_bind_ok he)

/-- Settles O50: the two clauses are the two meanings of `configureForSetting`. -/
theorem setConfigurationCell : Obligations.SetConfigurationCell := by
  unfold Obligations.SetConfigurationCell
  rintro f s c rfl hk hc
  rw [show s.cfg.toChip = Config.chip from hk]
  refine ⟨fun h0 => ?_, fun offs h0 hw hf => ?_⟩
  · rw [setConfigurationDev_of hk (by rw [configureForSetting, if_pos h0]; exact unconfigure_calm hc), h0]
  · exact setConfigurationDev_of hk (by rw [configureForSetting, if_neg h0]; exact configureWalk_calm hc hw hf)

/-! ## DEVSTAT_ARM (R235, R236) -/

/-- The five bits GET_DEV_STATUS returns (R187). -/
def Eng.devStatusBits (e : Eng) : BitVec 5 := if e.devstatPoison then Config.freeStatus e.fresh else e.devstat

theorem devStatusValue_eq (e : Eng) : e.devStatusValue = e.devStatusBits.setWidth 16 := rfl

theorem devStatusBits_clean {e : Eng} (h : e.devstatPoison = false) : e.devStatusBits = e.devstat := by
  rw [Eng.devStatusBits, h]; rfl

/-- The counter of free values moves where a poisoned status is read (log 3). -/
theorem fresh_of_poison (b : Bool) (n : Nat) : (if b then n + 1 else n) = n + b.toNat := by cases b <;> rfl

/-- ENG after the arm cleared its flag and read the status: no poison, since the clear came first (R187). -/
def Eng.devServed (e : Eng) : Eng :=
  { e.answered Config.chip e.devStatusValue with
    devintst := e.devintst &&& ~~~0x00000038#64
    devstat := e.devstat &&& 0b00101#5
    dsAck := false
    fresh := e.fresh + e.devstatPoison.toNat }

theorem clear_devstat_phases (x : RegWord) :
    x &&& ~~~(bit Config.chip.bitDEVSTAT) &&& ~~~(phaseFlags Config.chip) = x &&& ~~~0x00000038#64 := by
  rw [BitVec.and_assoc]
  congr 1

theorem devstat_flag_cleared (x : RegWord) :
    (x &&& ~~~(bit Config.chip.bitDEVSTAT)).getLsbD Config.chip.bitDEVSTAT = false := by
  simp [bit_getLsbD, Config.chip_bitDEVSTAT]

/-- The arm's read of the status, after its clear. -/
theorem afterDevStatus_acked (e : Eng) :
    ((e.writeDevintclr Config.chip (bit Config.chip.bitDEVSTAT)).afterDevStatus Config.chip).answered Config.chip
      e.devStatusValue = e.devServed := by
  dsimp only [Eng.writeDevintclr, Eng.afterDevStatus, Eng.answered, Eng.quiet, Eng.devServed]
  simp only [clear_devstat_phases, devstat_flag_cleared, Bool.false_and, Bool.or_false, devLevels_eq, fresh_of_poison]

/-- What the arm does with the status it read (R236). -/
theorem devStatArm_calm (hc : s.calm) :
    devStatArm Config.chip s = .ok () (
      if s.eng.devStatusBits.getLsbD 1 = true ∨ s.eng.devStatusBits.getLsbD 3 = true ∨
        s.eng.devStatusBits.getLsbD 4 = true then
      { s with
        eng := s.eng.devServed, devflags := normDev Config.chip s.eng.devStatusBits
        hookLog := match s.hDevst with
          | some id => .devst id (normDev Config.chip s.eng.devStatusBits) :: s.hookLog
          | none => s.hookLog }
      else { s with eng := s.eng.devServed }) := by
  have hw : ∀ x : BitVec 5, (x.setWidth 16).extractLsb' 0 5 = x := by decide +kernel
  obtain ⟨hslots, hresp, hpend⟩ := hc
  unfold devStatArm
  rw [run_bind_ok (regWrite_calm hslots rfl)]
  refine (run_bind_ok (commandRead_devStatus (by exact ⟨hslots, hresp, hpend⟩))).trans ?_
  rw [show ({ s with eng := s.eng.writeDevintclr Config.chip (bit Config.chip.bitDEVSTAT) } : State).eng.devStatusValue =
    s.eng.devStatusValue from rfl, afterDevStatus_acked]
  simp only [devStatusValue_eq, hw, devChanged_iff]
  split
  · rw [run_modify_bind, run_get_bind]
    dsimp only
    cases s.hDevst <;> rfl
  · rfl

/-- Settles O53. -/
theorem devstatArm : Obligations.DevstatArm := by
  unfold Obligations.DevstatArm
  intro s hk hc
  obtain ⟨n0, n1, n2⟩ := normDev_bits s.eng.devStatusBits
  refine ⟨s.eng.devStatusBits, normDev Config.chip s.eng.devStatusBits, { s with eng := s.eng.devServed },
    devStatusBits_clean, n0, n1, n2, ?_, ?_⟩
  · rw [show s.cfg.toChip = Config.chip from hk]; rfl
  · exact runSeq_spec (m := devStatArm) hk (devStatArm_calm hc)

/-! ## ENDPOINT_EVENT (R240, R241) -/

/-- The bit cleared and the status fetched, before the handler is called (R240). -/
theorem endpointEvent_calm {i : Idx} (hc : s.calm) :
    endpointEvent Config.chip i s = callHandler i (normEp Config.chip ((s.eng.epAt i).raw Config.chip))
      { s with eng := { s.eng.answered Config.chip (((s.eng.epAt i).raw Config.chip).setWidth 16) with
        epintst := s.eng.epintst &&& ~~~(1#32 <<< i.toNat), sel := i } } := by
  obtain ⟨hslots, hresp, hpend⟩ := hc
  unfold endpointEvent
  rw [run_bind_ok (regWrite_calm hslots rfl)]
  rw [run_bind_ok (readRawStatus_calm (by exact ⟨hslots, hresp, hpend⟩)), word_bit]
  rfl

/-- The script a handler runs is taken off the list (R246). -/
theorem nextScript_run (s : State) :
    nextScript s = .ok (s.handlerScripts.head?.getD []) { s with handlerScripts := s.handlerScripts.tail } := by
  unfold nextScript
  cases hs : s.handlerScripts with
  | nil => exact congrArg (EStateM.Result.ok []) (by rw [List.tail_nil, ← hs])
  | cons l rest => rfl

/-- What the call of `HND[i]` leaves, by what stands in the slot (R241, R246). -/
theorem callHandler_run (i : Idx) (st : BitVec 5) (s : State) :
    callHandler i st s = .ok () (match s.hndAt i with
      | none => s
      | some .ctl => { s with frames := .handler (epAddr i) st :: s.frames }
      | some (.ext id) => { s with
          hookLog := .handler id (epAddr i) st :: s.hookLog
          handlerScripts := s.handlerScripts.tail
          frames := .hookOps ((s.handlerScripts.head?.getD []).filter (handlerMay i)) :: s.frames }) := by
  unfold callHandler
  rw [run_get_bind]
  match hh : s.hndAt i with
  | none => rfl
  | some .ctl => rfl
  | some (.ext id) => exact (run_modify_bind _ _ s).trans (run_bind_ok (nextScript_run _))

/-- Settles O54: one clause for each thing the slot may hold (`callHandler_run`). -/
theorem endpointEventService : Obligations.EndpointEventService := by
  unfold Obligations.EndpointEventService
  rintro i s t r hk hc rfl rfl
  have run := runSeq_spec (m := fun chip => endpointEvent chip i) hk ((endpointEvent_calm hc).trans (callHandler_run ..))
  obtain ⟨b0, b1, b2, b3, b4⟩ := normRaw_bits (s.eng.epAt i)
  refine ⟨normEp Config.chip ((s.eng.epAt i).raw Config.chip), b0, b1, b2, b3, b4, fun h => ?_, fun h => ?_,
    fun id h => ?_⟩
  all_goals
    rw [show exec (.endpointEvent i) s = _ from run, show s.cfg.toChip = Config.chip from hk]
    simp only [State.hndAt] at h ⊢
    simp only [h]

end Sys2Proof.Machine
end

section
/-! SUPPORT. APP's single accesses, register by register (O26, O27), its other acts and the context rule (O28). -/

-- one declaration at a time: kernel evaluations that wait for each other would hold a thread each
set_option Elab.async false

namespace Sys2Proof.Machine

variable {s : State} {e : Eng} {r : Reg} {v : RegWord}

/-! ## Values of a register (R40, R45, R51) -/

/-- A 16-bit value in a register: its bits, and zeros above them (R45). -/
theorem reg_half_fields (x : Half) :
    (x.setWidth 64).extractLsb' 16 48 = 0#48 ∧ (x.setWidth 64).extractLsb' 0 16 = x := by
  constructor <;> apply BitVec.eq_of_getLsbD_eq <;> intro j hj
  · simp
  · simp [hj, show j < 64 by omega]

/-- A value nothing defines still has the 32 bits of the chip (R40, U3). -/
theorem anyWord_chip_lt (n : Nat) : (anyWord Config.chip n).toNat < 2 ^ 32 := anyWord_lt Config.chip n

theorem readReg_rxdata_open (h : e.dpctl.getLsbD 0 = true) :
    e.readReg Config.chip .RXDATA = ((portWord (e.epAt e.rxidx).buf.packet e.rxpos).setWidth 64, { e with
      rxpos := e.rxpos + 4
      dpctl := if (e.epAt e.rxidx).buf.packet.length ≤ e.rxpos + 4 then e.dpctl &&& ~~~1#64 else e.dpctl }) := by
  rw [Eng.readReg, rdEn_eq, if_pos h]
  rfl

theorem readReg_rxdata_closed (h : e.dpctl.getLsbD 0 = false) :
    e.readReg Config.chip .RXDATA = (anyWord Config.chip e.fresh, e.tick) := by
  rw [Eng.readReg, rdEn_eq, h]
  rfl

/-- A byte of the word read at the data port is the packet's, 0 past its end (R51). -/
theorem rxdata_byte (pkt : List Byte) (p : Nat) {k : Nat} (hk : k < 4) :
    ((portWord pkt p).setWidth 64).extractLsb' (8 * k) 8 = (pkt[p + k]?).getD 0#8 := by
  rw [reg_word_field _ (by omega), portWord_bytes pkt p k hk, byteOr0]

theorem readReg_rxplen (e : Eng) :
    e.readReg Config.chip .RXPLEN =
      (if e.rxOpened || e.dpctl.getLsbD 0 then rxplen Config.chip (e.epAt e.rxidx).buf else 0#64, e) := by
  rw [Eng.readReg, rdEn_eq]
  split <;> rfl

theorem readReg_cmddata (e : Eng) :
    e.readReg Config.chip .CMDDATA =
      if e.cmddataValid then (e.cmddata.setWidth 64, e) else ((Config.freeHalf e.fresh).setWidth 64, e.tick) := rfl

/-! ## Accesses outside the map (R85, U2) -/

/-- The map lists the offset of every register (R40). -/
theorem offset_listed (r : Reg) : r.offset Config.chip ∈
    [0x00, 0x04, 0x08, 0x10, 0x14, 0x18, 0x1C, 0x20, 0x24, 0x28, 0x30, 0x34, 0x38, 0x44] := by
  cases r <;> decide

section
variable {addr size : Nat} (hk : s.specChip) (hm : s.irqMask = true)
include hk hm

theorem execApp_regRead_refused (h : regOfAddr Config.chip s.cfg.base addr size = none) :
    execApp (.regRead addr size) s = .refused .badRegAccess := by
  refine guarded_refuse (t := s) hm ?_
  rw [show s.cfg.toChip = Config.chip from hk]
  exact run_bind_error (regAt_refused h)

theorem execApp_regWrite_refused (h : regOfAddr Config.chip s.cfg.base addr size = none) :
    execApp (.regWrite addr size v) s = .refused .badRegAccess := by
  refine guarded_refuse (t := s) hm ?_
  rw [show s.cfg.toChip = Config.chip from hk]
  exact run_bind_error (regAt_refused h)

theorem execApp_regOr_refused (h : regOfAddr Config.chip s.cfg.base addr 4 = none) :
    execApp (.regOr addr v) s = .refused .badRegAccess := by
  refine guarded_refuse (t := s) hm ?_
  rw [show s.cfg.toChip = Config.chip from hk]
  exact run_bind_error (regAt_refused h)

end

/-! ## Reads (R40 to R52) -/

/-- Settles O26: each listed offset is its register's (`execApp_regRead`), every other access names none (`regOfAddr_none`). -/
theorem registerReads : Obligations.RegisterReads := by
  unfold Obligations.RegisterReads
  intro s hk hm hs
  refine ⟨fun r off hoff => ?_, fun addr size v hout => ?_⟩
  · have hoff' : ∀ p ∈ [(Reg.DEVINTST, 0x00), (.DEVINTEN, 0x04), (.DEVINTCLR, 0x08), (.CMDCODE, 0x10), (.CMDDATA, 0x14),
        (.RXDATA, 0x18), (.TXDATA, 0x1C), (.RXPLEN, 0x20), (.TXPLEN, 0x24), (.DPCTL, 0x28), (.EPINTST, 0x30),
        (.EPINTEN, 0x34), (.EPINTCLR, 0x38), (.REALIZE, 0x44)], p.2 = p.1.offset Config.chip := by decide
    obtain rfl : off = r.offset Config.chip := hoff' _ hoff
    refine ⟨_, _, execApp_regRead hk hm hs r, ?_⟩
    cases r
    case DEVINTST | DEVINTEN | DPCTL | EPINTST | EPINTEN | REALIZE => exact ⟨rfl, rfl⟩
    case DEVINTCLR | CMDCODE | TXDATA | TXPLEN | EPINTCLR => exact ⟨anyWord_chip_lt _, rfl⟩
    case CMDDATA =>
      simp only [readReg_cmddata]
      split
      · exact ⟨(reg_half_fields _).1, (reg_half_fields _).2, rfl⟩
      · exact ⟨(reg_half_fields _).1, rfl⟩
    case RXDATA =>
      cases h : s.eng.dpctl.getLsbD 0 with
      | true =>
        simp only [readReg_rxdata_open h, if_true]
        exact ⟨reg_word_lt _, fun k hk => rxdata_byte _ _ hk, trivial⟩
      | false =>
        simp only [readReg_rxdata_closed h]
        exact ⟨anyWord_chip_lt _, rfl⟩
    case RXPLEN =>
      simp only [readReg_rxplen, true_and]
      split
      · exact rxplen_bits _
      · rfl
  · have hnone : ∀ n, n = size → regOfAddr Config.chip s.cfg.base addr n = none := fun n hn =>
      regOfAddr_none _ _ _ (hn ▸ hout.imp id fun h r => h _ (offset_listed r))
    exact ⟨execApp_regRead_refused hk hm (hnone _ rfl), execApp_regWrite_refused hk hm (hnone _ rfl),
      fun h4 => execApp_regOr_refused hk hm (hnone 4 h4.symm)⟩

/-! ## What a write makes of ENG, register by register -/

theorem writeReg_devinten (e : Eng) (v : RegWord) :
    e.writeReg Config.chip .DEVINTEN v = .ok { e with devinten := v &&& 0x0000013D#64 } := by
  rw [Eng.writeReg, devintMask_eq]

theorem writeReg_cmdcode_idle (h : e.pend = none) :
    e.writeReg Config.chip .CMDCODE v = .ok { e with pend := some (v.setWidth 32), cmddataValid := false } := by
  rw [Eng.writeReg, h]
  rfl

theorem writeReg_cmdcode_pending (h : e.pend ≠ none) :
    e.writeReg Config.chip .CMDCODE v = .error (.fault .reentrancy) := by
  rw [Eng.writeReg, if_pos (Option.isSome_iff_ne_none.mpr h)]

theorem wordBytes_reg (v : RegWord) : wordBytes (v.setWidth 32) =
    [v.extractLsb' 0 8, v.extractLsb' 8 8, v.extractLsb' 16 8, v.extractLsb' 24 8] := by
  simp only [wordBytes, word_reg_field v (show 0 + 8 ≤ 32 by decide), word_reg_field v (show 8 + 8 ≤ 32 by decide),
    word_reg_field v (show 16 + 8 ≤ 32 by decide), word_reg_field v (show 24 + 8 ≤ 32 by decide)]

theorem writeReg_txdata_open (h : e.dpctl.getLsbD 1 = true) :
    e.writeReg Config.chip .TXDATA v = .ok { e with
      txacc := e.txacc ++ [v.extractLsb' 0 8, v.extractLsb' 8 8, v.extractLsb' 16 8, v.extractLsb' 24 8]
      dpctl := if e.txlen.toNat ≤ e.txacc.length + 4 then e.dpctl &&& ~~~2#64 else e.dpctl } := by
  rw [Eng.writeReg, wrEn_eq, if_pos h, Eng.writeTxdata, wordBytes_reg, Eng.closeTx]
  simp only [List.length_append, List.length_cons, List.length_nil]
  rfl

theorem writeReg_txplen_open (h : e.dpctl.getLsbD 1 = true) :
    e.writeReg Config.chip .TXPLEN v = .ok { e with
      txlen := v.extractLsb' 0 10, txacc := []
      dpctl := if v.extractLsb' 0 10 = 0#10 then e.dpctl &&& ~~~2#64 else e.dpctl } := by
  have hz : (v.extractLsb' 0 10).toNat ≤ 0 ↔ v.extractLsb' 0 10 = 0#10 :=
    ⟨fun h => BitVec.eq_of_toNat_eq (Nat.le_zero.mp h), fun h => by rw [h]; exact Nat.le_refl 0⟩
  rw [Eng.writeReg, wrEn_eq, if_pos h, Eng.writeTxplen, word_reg_field v (by decide), Eng.closeTx]
  simp only [List.length_nil, hz]
  rfl

theorem writeReg_txdata_closed (h : e.dpctl.getLsbD 1 = false) : e.writeReg Config.chip .TXDATA v = .ok e := by
  rw [Eng.writeReg, wrEn_eq, h]
  rfl

theorem writeReg_txplen_closed (h : e.dpctl.getLsbD 1 = false) : e.writeReg Config.chip .TXPLEN v = .ok e := by
  rw [Eng.writeReg, wrEn_eq, h]
  rfl

theorem writeReg_dpctl_both (h : v.getLsbD 0 = true ∧ v.getLsbD 1 = true) :
    e.writeReg Config.chip .DPCTL v = .error (.refuse .bothPorts) := by
  rw [Eng.writeReg, rdEn_eq, wrEn_eq, h.1, h.2]
  rfl

theorem writeReg_dpctl {rx tx : Idx} (h : v.getLsbD 0 = false ∨ v.getLsbD 1 = false)
    (hrx : rx.toNat = 2 * (v.toNat / 4 % 16)) (htx : tx.toNat = 2 * (v.toNat / 4 % 16) + 1) :
    e.writeReg Config.chip .DPCTL v = .ok { e with
      dpctl := v &&& 0x0000003F#64
      rxidx := if v.getLsbD 0 then rx else e.rxidx
      rxpos := if v.getLsbD 0 then 0 else e.rxpos
      rxOpened := e.rxOpened || v.getLsbD 0
      txidx := if v.getLsbD 1 then tx else e.txidx } := by
  have hr : outIdx (logEp Config.chip v) = rx := BitVec.eq_of_toNat_eq (by rw [outIdx_toNat, logEp_toNat, hrx])
  have ht : inIdx (logEp Config.chip v) = tx := BitVec.eq_of_toNat_eq (by rw [inIdx_toNat, logEp_toNat, htx])
  have hno : (v.getLsbD 0 && v.getLsbD 1) = false := by
    rcases h with h | h
    · rw [h, Bool.false_and]
    · rw [h, Bool.and_false]
  rw [Eng.writeReg, rdEn_eq, wrEn_eq, hno, Eng.writeDpctl, hr, ht, dpctlMask_eq]
  rfl

/-- A bitmap is not 0 exactly if it has a bit. -/
theorem bne_zero_iff {n : Nat} (x : BitVec n) : (x != 0#n) = true ↔ ∃ k, x.getLsbD k = true := by
  rw [bne_iff_ne]
  constructor
  · intro h
    by_contra hno
    refine h (BitVec.eq_of_getLsbD_eq fun k _ => ?_)
    rw [BitVec.getLsbD_zero]
    exact Bool.eq_false_iff.mpr fun hk => hno ⟨k, hk⟩
  · rintro ⟨k, hk⟩ rfl
    simp at hk

/-- Over which writes of EPINTEN the umbrella flag is raised (R41, R47). -/
theorem raises_iff (v : RegWord) (en pend : Word) :
    ((v.setWidth 32 &&& ~~~en &&& pend) != 0#32) = true ↔
      ∃ k, v.getLsbD k = true ∧ en.getLsbD k = false ∧ pend.getLsbD k = true := by
  rw [bne_zero_iff]
  refine exists_congr fun k => ?_
  by_cases hk : k < 32
  · simp [hk, and_assoc]
  · simp [BitVec.getLsbD_of_ge pend k (by rw [Config.wordW_eq]; omega)]

theorem writeReg_epinten_raises
    (h : ∃ k, v.getLsbD k = true ∧ e.epinten.getLsbD k = false ∧ e.epintst.getLsbD k = true) :
    e.writeReg Config.chip .EPINTEN v = .ok { e with
      epinten := v.setWidth 32, devintst := setBit e.devintst Config.chip.bitEP } := by
  rw [Eng.writeReg, Eng.writeEpinten, if_pos ((raises_iff _ _ _).mpr h)]

theorem writeReg_epinten_quiet
    (h : ∀ k, v.getLsbD k = true → e.epintst.getLsbD k = true → e.epinten.getLsbD k = true) :
    e.writeReg Config.chip .EPINTEN v = .ok { e with epinten := v.setWidth 32 } := by
  rw [Eng.writeReg, Eng.writeEpinten, if_neg]
  rw [raises_iff]
  rintro ⟨k, hv, hen, hst⟩
  rw [h k hv hst] at hen
  cases hen

/-- Which writes of REALIZE take a mark back (R49). -/
theorem unmarks_iff (v : RegWord) (marks : Word) :
    ((marks &&& ~~~(v.setWidth 32)) != 0#32) = true ↔ ∃ k, marks.getLsbD k = true ∧ v.getLsbD k = false := by
  rw [bne_zero_iff]
  refine exists_congr fun k => ?_
  by_cases hk : k < 32
  · simp [hk]
  · simp [BitVec.getLsbD_of_ge marks k (by rw [Config.wordW_eq]; omega)]

theorem writeReg_realize_unmarks (h : ∃ k, e.realize.getLsbD k = true ∧ v.getLsbD k = false) :
    e.writeReg Config.chip .REALIZE v = .error (.refuse .unrealise) := by
  rw [Eng.writeReg, Eng.writeRealize, if_pos ((unmarks_iff _ _).mpr h)]

theorem writeReg_realize_marks (h : ∀ k, e.realize.getLsbD k = true → v.getLsbD k = true) :
    e.writeReg Config.chip .REALIZE v = .ok { e with realize := v.setWidth 32 } := by
  rw [Eng.writeReg, Eng.writeRealize, if_neg]
  rw [unmarks_iff]
  rintro ⟨k, hm, hv⟩
  rw [h k hm] at hv
  cases hv

/-! ## Writes (R41 to R52) -/

section
variable (hk : s.specChip) (hm : s.irqMask = true) (hs : s.slots = [])
include hk hm hs

theorem execApp_regWrite_ok (r : Reg) (hw : s.eng.writeReg Config.chip r v = .ok e) :
    execApp (.regWrite (s.cfg.base.toNat + r.offset Config.chip) 4 v) s = .next { s with eng := e } := by
  rw [execApp_regWrite hk hm hs, hw]

theorem execApp_regWrite_fault (r : Reg) {f : Fault} (hw : s.eng.writeReg Config.chip r v = .error (.fault f)) :
    execApp (.regWrite (s.cfg.base.toNat + r.offset Config.chip) 4 v) s = .fault f := by
  rw [execApp_regWrite hk hm hs, hw]

theorem execApp_regWrite_refuse (r : Reg) {x : Refusal} (hw : s.eng.writeReg Config.chip r v = .error (.refuse x)) :
    execApp (.regWrite (s.cfg.base.toNat + r.offset Config.chip) 4 v) s = .refused x := by
  rw [execApp_regWrite hk hm hs, hw]

/-- The five read-only registers ignore a write (log 9). -/
theorem execApp_regWrite_readOnly : ∀ off ∈ [0x00, 0x14, 0x18, 0x20, 0x30],
    execApp (.regWrite (s.cfg.base.toNat + off) 4 v) s = .next s := by
  intro off hoff
  simp only [List.mem_cons, List.not_mem_nil, or_false] at hoff
  rcases hoff with rfl | rfl | rfl | rfl | rfl
  · exact execApp_regWrite_ok hk hm hs .DEVINTST rfl
  · exact execApp_regWrite_ok hk hm hs .CMDDATA rfl
  · exact execApp_regWrite_ok hk hm hs .RXDATA rfl
  · exact execApp_regWrite_ok hk hm hs .RXPLEN rfl
  · exact execApp_regWrite_ok hk hm hs .EPINTST rfl

/-- An OR of a register whose read changes nothing is a write (R87). -/
theorem execApp_regOr_plain {off : Nat} {x : RegWord}
    (h : (off, x) ∈ [(0x04, s.eng.devinten), (0x34, s.eng.epinten.setWidth 64), (0x44, s.eng.realize.setWidth 64)]) :
    execApp (.regOr (s.cfg.base.toNat + off) v) s = execApp (.regWrite (s.cfg.base.toNat + off) 4 (x ||| v)) s := by
  simp only [List.mem_cons, List.not_mem_nil, or_false, Prod.mk.injEq] at h
  rcases h with ⟨rfl, rfl⟩ | ⟨rfl, rfl⟩ | ⟨rfl, rfl⟩
  · exact execApp_regOr hk hm hs .DEVINTEN _ v rfl
  · exact execApp_regOr hk hm hs .EPINTEN _ v rfl
  · exact execApp_regOr hk hm hs .REALIZE _ v rfl

end

/-- Settles O27: one clause for each register, from what a write makes of ENG. -/
theorem registerWrites : Obligations.RegisterWrites := by
  unfold Obligations.RegisterWrites
  intro v s at_ hk hm hs hat
  obtain rfl : at_ = fun off => s.cfg.base.toNat + off := funext hat
  have ok := fun (r : Reg) (e : Eng) (hw : s.eng.writeReg Config.chip r v = .ok e) => execApp_regWrite_ok hk hm hs r hw
  rw [show s.cfg.bitEP = Config.chip.bitEP from congrArg (fun c : Chip => c.bitEP) hk]
  refine ⟨execApp_regWrite_readOnly hk hm hs, ok .DEVINTEN _ (writeReg_devinten _ _), ok .DEVINTCLR _ rfl,
    fun h => ok .CMDCODE _ (writeReg_cmdcode_idle h),
    fun h => execApp_regWrite_fault hk hm hs .CMDCODE (writeReg_cmdcode_pending h),
    fun h => ⟨ok .TXDATA _ (writeReg_txdata_open h), ok .TXPLEN _ (writeReg_txplen_open h)⟩,
    fun h => ⟨ok .TXDATA _ (writeReg_txdata_closed h), ok .TXPLEN _ (writeReg_txplen_closed h)⟩,
    fun h => execApp_regWrite_refuse hk hm hs .DPCTL (writeReg_dpctl_both h),
    fun h rx tx hrx htx => ok .DPCTL _ (writeReg_dpctl h hrx htx),
    fun h => ok .EPINTEN _ (writeReg_epinten_raises h), fun h => ok .EPINTEN _ (writeReg_epinten_quiet h),
    ok .EPINTCLR _ rfl,
    fun h => execApp_regWrite_refuse hk hm hs .REALIZE (writeReg_realize_unmarks h),
    fun h => ok .REALIZE _ (writeReg_realize_marks h), fun off x h => execApp_regOr_plain hk hm hs h⟩

/-! ## The context rule (R432) -/

theorem runCall_context {α : Type} {m : SeqM α} (h : s.mayOperate = false) : runCall m s = .fault .contextViolation := by
  rw [runCall, h]
  rfl

/-- Outside a pass and with the mask open, no operation of format CALL runs (R176). -/
theorem exec_call_context {i : Instr} (h : s.mayOperate = false) (hi : i.isCall = true) :
    exec i s = .fault .contextViolation := by
  cases i
  case command | commandWrite | commandRead | registerHandler | configureEndpoint | stall | unstall | getStatus | epRead
      | epWrite | dispatchNow | dataIn | stallControl | findDescriptor | configureForSettingZero
      | configureForSettingNonzero => exact runCall_context h
  all_goals cases hi

/-- With the mask open no act but the write of the mask is made. -/
theorem execApp_open {a : AppAct} (h : s.irqMask = false) (ha : ∀ v, a ≠ .setMask v) :
    execApp a s = .fault .contextViolation := by
  cases a
  case setMask v => exact absurd rfl (ha v)
  all_goals exact guarded_open h

/-- A store past STAGE_CAP, by default (R404). -/
theorem stageWrite_overrun {off : Nat} {bs : List Byte} (h0 : bs ≠ []) (hl : s.cfg.stageCap < off + bs.length)
    (hd : s.cfg.overrunDrops = false) : stageWrite off bs s = .error (.fault .bufferOverrun) s := by
  unfold stageWrite
  rw [if_neg (by simpa using h0), if_neg (by omega), hd]
  rfl

/-- Settles O28: without the mask nothing is done, under it each act is the one update of its computation (`guarded_ok`). -/
theorem contextRule : Obligations.ContextRule := by
  unfold Obligations.ContextRule
  intro s
  refine ⟨fun _ => rfl, fun hopen => ⟨fun hisr i hi => ?_, fun a ha => execApp_open hopen ha⟩, fun hm => ?_⟩
  · exact exec_call_context (by rw [State.mayOperate, hisr, hopen]; rfl) hi
  · have act := fun (m : SeqM Unit) (t : State) (h : m s = .ok () t) => guarded_ok hm h
    refine ⟨fun _ => act _ _ rfl, fun _ => act _ _ rfl, fun _ => act _ _ rfl, fun _ => act _ _ rfl, fun _ => act _ _ rfl,
      fun slot h => ?_, act _ _ rfl, act _ _ rfl, act _ _ rfl, act _ _ rfl, fun _ => act _ _ rfl, fun _ => act _ _ rfl,
      fun off n bs fresh hb => ?_, fun off n hb hd => ?_, fun off bytes hwf => ⟨fun hfit => ?_, fun h0 hl hd => ?_⟩⟩
    · exact ⟨installHook slot h s, act _ _ rfl, fun k => installHook_hookIn slot k h s, by cases slot <;> rfl⟩
    · exact act _ _ (run_bind_ok (memRead_ok hb))
    · exact guarded_fault hm (run_bind_error ((memRead_stage_overrun hb rfl).trans (by rw [hd]; rfl)))
    · exact ⟨_, fun a => Memory.read_writeList _ _ _ _ hwf, act _ _ (stageWrite_fits hfit)⟩
    · exact guarded_fault hm (stageWrite_overrun h0 hl hd)

end Sys2Proof.Machine
end

section
/-! SUPPORT. Entry to a pass (O8), the read-data phase of GET_DEV_STATUS (O16), and the reset values (O55). -/

-- one declaration at a time: kernel evaluations that wait for each other would hold a thread each
set_option Elab.async false

namespace Sys2Proof.Machine

variable {s : State}

/-! ## Entry to a pass (R230, R231) -/

/-- "IRQ = 1, IRQ_MASK = 0 and IN_ISR = 0" (R60, R230). -/
theorem entryEnabled_iff (s : State) : s.entryEnabled = true ↔
    s.eng.devintst &&& s.eng.devinten ≠ 0#64 ∧ s.irqMask = false ∧ s.inIsr = false := by
  simp [State.entryEnabled, Eng.irq, and_assoc]

/-- SEQ with nothing to do enters a pass if that is enabled, and else does nothing (R230). -/
theorem fetchSeq_idle (hh : s.hung = none) (hf : s.frames = []) :
    fetchSeq s = .done (.next (if s.entryEnabled then enterPass s else s)) := by
  unfold fetchSeq
  rw [hh, hf]
  cases s.entryEnabled <;> rfl

/-- SEQ's turn, with nothing to do. -/
theorem step_idle {s' : State} (hturn : seqTurn s s') (hh : s.hung = none) (hf : s.frames = []) :
    step s = .next (if s.entryEnabled then enterPass s' else s') := by
  rw [step_seqTurn hturn hh]
  obtain ⟨ts, sl, rfl⟩ := seqTurn_inputs hturn
  exact congrArg Fetched.out (fetchSeq_idle (s := { s with turns := ts, slots := sl }) hh hf)

theorem seqTurn_devintst {s' : State} (hturn : seqTurn s s') : s'.eng.devintst = s.eng.devintst := by
  obtain ⟨ts, sl, rfl⟩ := seqTurn_inputs hturn
  rfl

/-- Settles O8: the two clauses are the two branches of `step_idle`. -/
theorem passEntry : Obligations.PassEntry := by
  unfold Obligations.PassEntry
  intro s s' hturn hh hf
  rw [step_idle hturn hh hf]
  refine ⟨fun hirq hmask hisr => ?_, fun hno => ?_⟩
  · rw [if_pos ((entryEnabled_iff s).mpr ⟨hirq, hmask, hisr⟩), enterPass, seqTurn_devintst hturn]
  · rw [if_neg]
    rw [entryEnabled_iff]
    rintro ⟨hirq, hmask, hisr⟩
    rcases hno with h | h | h
    · exact hirq h
    · exact Bool.false_ne_true (hmask.symm.trans h)
    · exact Bool.false_ne_true (hisr.symm.trans h)

/-! ## GET_DEV_STATUS, read-data phase (R187) -/

/-- What the phase leaves of ENG, its code latched. -/
theorem completeGetDevStatusRd_latched {e : Eng} (hc : e.cur = some Config.chip.codeGetDevStatus) :
    e.completeGetDevStatusRd Config.chip = { e with
      cmddata := e.devStatusBits.setWidth 16, cmddataValid := true, cur := none, pend := none
      devintst := setBit e.devintst Config.chip.bitCDFULL
      devstat := e.devstat &&& 0b00101#5
      dsAck := false
      devstatPoison := e.devstatPoison || (e.devintst.getLsbD 3 && !e.dsAck)
      fresh := e.fresh + e.devstatPoison.toNat } := by
  rw [Eng.completeGetDevStatusRd, if_pos hc, devStatusValue_eq, Eng.afterDevStatus, Eng.endRead, devLevels_eq,
    fresh_of_poison]
  rfl

/-- Settles O16. -/
theorem getDevStatusRead : Obligations.GetDevStatusRead := by
  unfold Obligations.GetDevStatusRead
  intro s hk hc
  have hk' : s.cfg.toChip = Config.chip := hk
  refine ⟨s.eng.devStatusBits, devStatusBits_clean, ?_⟩
  rw [hk'] at hc ⊢
  rw [show exec .getDevStatusRd s = .next { s with eng := s.eng.completeGetDevStatusRd s.cfg.toChip } from rfl, hk',
    completeGetDevStatusRd_latched hc]

/-! ## Reset (R65, R66) -/

theorem reset_hndAt (i : Idx) : State.reset.hndAt i = none := by
  simp [State.hndAt, State.reset]

/-- Settles O55: the records and the handlers are `reset_epAt` and `reset_hndAt`, the rest stands in the two reset states. -/
theorem resetState : Obligations.ResetState := by
  unfold Obligations.ResetState
  refine ⟨⟨Eng.reset, rfl, ?_⟩, rfl, fun _ => rfl, rfl, rfl, reset_hndAt, rfl, rfl, rfl, rfl, rfl, rfl, rfl, rfl⟩
  exact ⟨rfl, rfl, rfl, rfl, rfl, rfl, rfl, rfl, rfl, rfl, rfl, rfl, rfl, rfl, rfl, rfl, rfl, rfl, rfl, rfl, rfl, rfl, rfl,
    reset_epAt⟩

end Sys2Proof.Machine
end

section
/-! SUPPORT. A chunk sent, wherever it lies: DataIn called (O38), after a dispatch (O40) and at an IN event (O45); the walk of
findDescriptor (O35); and the turns of ENG, WIRE and APP (O6). -/

namespace Sys2Proof.Machine

variable {s t : State}

/-! ## DataIn (R268, R404) -/

/-- An operation software calls, where it may be called, is the computation itself. -/
theorem runCall_open {α : Type} {m : SeqM α} (ho : s.mayOperate = true) : runCall m s = runSeq m s := by
  rw [runCall, if_pos ho]

/-- DataIn by where its chunk lies: inside its space, outside a table, or past STAGE_CAP under either treatment of R404. -/
theorem runSeq_dataIn (hk : s.specChip) (hc : s.calm) (hm : s.chunkLen ≤ (s.eng.epAt 1#5).mps.toNat) :
    (∀ bs fresh, s.bytesAt s.ct.ptr s.chunkLen = some (bs, fresh) →
      runSeq (dataIn Config.chip) s = .next (s.sent bs fresh s.chunkLen)) ∧
    (s.bytesAt s.ct.ptr s.chunkLen = none → s.ct.ptr.space ≠ .stage →
      runSeq (dataIn Config.chip) s = .fault .tableOverrun) ∧
    (s.bytesAt s.ct.ptr s.chunkLen = none → s.ct.ptr.space = .stage →
      (s.cfg.overrunDrops = false → runSeq (dataIn Config.chip) s = .fault .bufferOverrun) ∧
      (s.cfg.overrunDrops = true → runSeq (dataIn Config.chip) s =
        .next (s.sent (Memory.readList s.stage s.ct.ptr.off (s.cfg.stageCap - s.ct.ptr.off) s.fresh).1
          (Memory.readList s.stage s.ct.ptr.off (s.cfg.stageCap - s.ct.ptr.off) s.fresh).2 s.chunkLen))) := by
  refine ⟨fun bs fresh hb => ?_, fun hb hp => ?_, fun hb hp => ⟨fun hd => ?_, fun hd => ?_⟩⟩
  · exact runSeq_ok (dataIn_calm hk hc hm hb)
  · exact runSeq_fault (dataIn_table_fault hb hp)
  · exact runSeq_fault (dataIn_stage_fault hb hp hd)
  · exact runSeq_ok (dataIn_stage_drop hk hc hm hb hp hd)

theorem exec_dataIn (hk : s.specChip) (ho : s.mayOperate = true) :
    exec .dataIn s = runSeq (dataIn Config.chip) s := by
  rw [← show s.cfg.toChip = Config.chip from hk]
  exact runCall_open ho

/-- Settles O38: the call is DataIn itself, and its cases are those of `runSeq_dataIn`. -/
theorem dataInCall : Obligations.DataInCall := by
  unfold Obligations.DataInCall
  intro s ho hk hc hm
  rw [exec_dataIn hk ho]
  exact runSeq_dataIn hk hc hm

/-! ## DispatchNow's reply (R264, R266) -/

/-- SEQ's turn at the reply of DispatchNow. -/
theorem step_replyNow {rest : List Frame} (hturn : seqTurn s t) (hh : s.hung = none) (hf : s.frames = .replyNow :: rest)
    (hk : s.specChip) : step s = runSeq (replyNow Config.chip) { t with frames := rest } := by
  rw [step_frame hturn hh hf]
  obtain ⟨ts, sl, rfl⟩ := seqTurn_inputs hturn
  rw [← show s.cfg.toChip = Config.chip from hk]
  rfl

/-- A failed dispatch aborts the transfer (R264, R270). -/
theorem replyNow_fail {chip : Chip} (hr : s.result = .fail) : replyNow chip s = stallControl chip s := by
  rw [replyNow, run_get_bind, hr]

/-- After a dispatch that answered, the first chunk of the clamped transfer is sent (R264, R266). -/
theorem replyNow_ok {chip : Chip} (hr : s.result = .ok) :
    replyNow chip s = dataIn chip { s with ct := s.ct.clamped (suLength s.su) } := by
  simp only [replyNow, modifyCt, run_get_bind, hr, run_modify_bind]

/-- Settles O40: the abort (`stallControl_calm`), or DataIn from the clamped transfer (`runSeq_dataIn`). -/
theorem dispatchReply : Obligations.DispatchReply := by
  unfold Obligations.DispatchReply
  intro s s' rest hturn hh hf hk hc
  rw [step_replyNow hturn hh hf hk]
  obtain ⟨ts, sl, rfl⟩ := seqTurn_inputs hturn
  refine ⟨fun hr => ?_, fun hr t ht hm => ?_⟩
  · exact runSeq_ok ((replyNow_fail (by exact hr)).trans (stallControl_calm (by exact hk) (by exact hc)))
  · have hstep : runSeq (replyNow Config.chip) { s with turns := ts, slots := sl, frames := rest } =
        runSeq (dataIn Config.chip) t := by
      rw [ht]
      exact congrArg outcome (replyNow_ok hr)
    rw [hstep]
    subst ht
    exact runSeq_dataIn hk hc hm

/-! ## IN_EVENT (R272, R280) -/

/-- The phase at an IN event moves only where nothing remains. -/
theorem inPhase_eq (len : Half) (c : Ct) : c.inPhase len = { c with phase :=
    if c.resid ≠ 0#16 then c.phase
    else if c.phase = .dataD2H then .statusStage
    else if c.phase = .statusStage ∧ (c.dir = false ∨ len = 0#16) then .idle
    else c.phase } := by
  obtain ⟨phase, dir, ptr, resid, reported⟩ := c
  by_cases hr : resid = 0#16
  · subst hr
    cases phase with
    | statusStage => by_cases hend : dir = false ∨ len = 0#16 <;> simp [Ct.inPhase, hend]
    | dataD2H | idle | setupCaptured | dataH2D => simp [Ct.inPhase]
  · simp [Ct.inPhase, hr]

/-- An IN event is DataIn after the move of the phase. -/
theorem exec_inEvent (st : BitVec 5) (hk : s.specChip) :
    exec (.inEvent st) s = runSeq (dataIn Config.chip) { s with ct := s.ct.inPhase (suLength s.su) } := by
  rw [← show s.cfg.toChip = Config.chip from hk]
  rfl

/-- Settles O45: the phase moves first (`inPhase_eq`), and the chunk is that of DataIn (`runSeq_dataIn`). -/
theorem inEvent : Obligations.InEvent := by
  unfold Obligations.InEvent
  intro st s t hk hc ht hm
  have hexec : exec (.inEvent st) s = runSeq (dataIn Config.chip) t := by
    rw [exec_inEvent st hk, inPhase_eq, ht]
  have hchunk := runSeq_dataIn (s := t) (by rw [ht]; exact hk) (by rw [ht]; exact hc) (by rw [ht]; exact hm)
  rw [hexec]
  subst ht
  exact hchunk

/-! ## findDescriptor (R351 to R353) -/

/-- Over a well-formed table the walk finds the K-th descriptor of the type, at its reported length. -/
theorem findDescriptor_wellFormed {d : List Byte} {offs : List Nat} (typeIndex langId : Half) (hw : wellFormedTable d offs) :
    findDescriptor d typeIndex langId = .ok
      ((offs.filter (fun p => descField d p 1 == typeIndex.extractLsb' 8 8))[(typeIndex.extractLsb' 0 8).toNat]?.map
        (fun p => (p, reportedLength d p))) :=
  findFrom_spec (d.length + 1) 0 0 hw.1 (fun p hp => ⟨(hw.2 p hp).1, fun hty => ((hw.2 p hp).2 hty).1⟩) (Nat.zero_le _)

theorem exec_findDescriptor_ok {typeIndex langId : Half} {r : Option (Nat × Nat)} (ho : s.mayOperate = true)
    (h : findDescriptor s.desc typeIndex langId = .ok r) :
    exec (.findDescriptor typeIndex langId) s = .next { s with ret := .descriptor r } :=
  runCall_ok ho (run_bind_ok (liftWalk_ok h))

theorem exec_findDescriptor_error {typeIndex langId : Half} {f : Fault} (ho : s.mayOperate = true)
    (h : findDescriptor s.desc typeIndex langId = .error f) :
    exec (.findDescriptor typeIndex langId) s = .fault f := by
  refine (runCall_open ho).trans (runSeq_fault (s' := s) ((run_get_bind _ s).trans (run_bind_error ?_)))
  rw [h]
  rfl

/-- Settles O35: what the walk finds on a well-formed table, and what it can end with on any (`findFrom_fault`). -/
theorem findDescriptorCall : Obligations.FindDescriptorCall := by
  unfold Obligations.FindDescriptorCall
  intro typeIndex langId s ho
  refine ⟨?_, ?_⟩
  · rintro offs matching hw rfl
    exact exec_findDescriptor_ok ho (findDescriptor_wellFormed typeIndex langId hw)
  · cases h : findDescriptor s.desc typeIndex langId with
    | ok r => exact .inr ⟨r, exec_findDescriptor_ok ho h⟩
    | error f =>
      obtain rfl := findFrom_fault _ _ _ h
      exact .inl (exec_findDescriptor_error ho h)

/-! ## Turns of ENG, WIRE and APP (R91, R230, R462) -/

/-- With a word pending, an ENG that answers has its completion ready (R181). -/
theorem ready_pending {chip : Chip} {e : Eng} {w : Word} (hp : e.pend = some w) :
    e.ready chip true = some (decodeCmdw chip w) := by
  rw [Eng.ready, hp]
  rfl

/-- ENG's listed turn runs the pending word. -/
theorem step_engTurn {w : Word} {ts : List Turn} (hp : s.eng.pend = some w) (hr : s.cfg.engResponsive = true)
    (ht : s.turns = .eng :: ts) : step s = exec (decodeCmdw s.cfg.toChip w).toInstr { s with turns := ts } := by
  simp only [step_eq, fetch, ht, fetchEng, hr, ready_pending hp, Fetched.out]

/-- With no turn listed ENG moves first. -/
theorem step_engUnlisted {w : Word} (hp : s.eng.pend = some w) (hr : s.cfg.engResponsive = true) (ht : s.turns = []) :
    step s = exec (decodeCmdw s.cfg.toChip w).toInstr s := by
  simp only [step_eq, fetch, ht, hr, ready_pending hp, Fetched.out]

theorem step_wireTurn {ev : WireEvent} {ts : List Turn} (ht : s.turns = .wire ev :: ts) :
    step s = exec ev.toInstr { s with turns := ts } := by
  simp only [step_eq, fetch, ht, Fetched.out]

/-- Outside every pass and frame, APP waits only for entry to a pass (R437, R462). -/
theorem appWaits_idle (hi : s.inIsr = false) (hf : s.frames = []) : s.appWaits = s.entryEnabled := by
  rw [State.appWaits, State.seqBusy, hi, hf]
  rfl

theorem step_callTurn {i : Instr} {inter : List (List Move)} {ts : List Turn} (hh : s.hung = none)
    (hw : s.appWaits = false) (ht : s.turns = .call i inter :: ts) (hi : i.isCall = true) :
    step s = exec i { s with turns := ts, slots := inter } := by
  simp [step_eq, fetch, ht, hh, hw, hi, Fetched.out]

theorem step_appTurn {a : AppAct} {inter : List (List Move)} {ts : List Turn} (hh : s.hung = none)
    (hw : s.appWaits = false) (ht : s.turns = .app a inter :: ts) :
    step s = execApp a { s with turns := ts, slots := inter } := by
  simp [step_eq, fetch, ht, hh, hw, Fetched.out]

/-- A turn of APP that waits while entry is enabled: the pass is entered, the turn stays listed (R230, R462). -/
theorem step_entryFirst {u : Turn} {ts : List Turn} (ht : s.turns = u :: ts) (hu : u.ofApp = true) (hh : s.hung = none)
    (hi : s.inIsr = false) (hf : s.frames = []) (he : s.entryEnabled = true) : step s = .next (enterPass s) := by
  have hturn : seqTurn s s := .inr (.inl ⟨u, ts, ht, hu, (appWaits_idle hi hf).trans he, rfl⟩)
  rw [step_idle hturn hh hf, if_pos he]

/-- Settles O6: one lemma for each kind of turn; APP's turn waits exactly while entry is enabled (`appWaits_idle`). -/
theorem stepRunsTurn : Obligations.StepRunsTurn := by
  unfold Obligations.StepRunsTurn
  refine ⟨fun s w hp hr => ⟨step_engUnlisted hp hr, fun ts => step_engTurn hp hr⟩, fun s ev ts => step_wireTurn,
    fun s inter ts hh hi hf => ⟨fun hno => ?_, fun hirq hmask hturn => ?_⟩⟩
  · have hw : s.appWaits = false := by
      rw [appWaits_idle hi hf, Bool.eq_false_iff, ne_eq, entryEnabled_iff]
      rintro ⟨hirq, hmask, -⟩
      rcases hno with h | h
      · exact hirq h
      · exact Bool.false_ne_true (hmask.symm.trans h)
    exact ⟨fun i => step_callTurn hh hw, fun a => step_appTurn hh hw⟩
  · have he := (entryEnabled_iff s).mpr ⟨hirq, hmask, hi⟩
    rcases hturn with ⟨i, ht⟩ | ⟨a, ht⟩ <;> exact step_entryFirst ht rfl hh hi hf he

end Sys2Proof.Machine
end

section
/-! SUPPORT. The codes (30_encoding.md): bytes and back, then each format's round trip (O2 to O4), the words written out (O1)
and the endpoint indices (O5). -/

namespace Sys2Proof.Machine

variable {chip : Chip}

/-! ## Codes as bytes (R82, R120) -/

theorem ofLeBytes_leBytes (n w : Nat) : ofLeBytes (leBytes n w) = w % 256 ^ n := by
  induction n generalizing w with
  | zero => simp [leBytes, ofLeBytes, Nat.mod_one]
  | succ n ih =>
    rw [leBytes, ofLeBytes, ih, BitVec.toNat_ofNat, pow_succ' 256 n, Nat.mod_mul]

/-- A number that fits its bytes is read back from them (R82). -/
theorem ofNat_ofLeBytes_leBytes {k n : Nat} (w : BitVec k) (h : w.toNat < 256 ^ n) :
    BitVec.ofNat k (ofLeBytes (leBytes n w.toNat)) = w := by
  rw [ofLeBytes_leBytes, Nat.mod_eq_of_lt h, BitVec.ofNat_toNat, BitVec.setWidth_eq]

/-- Does a code lie in its format's bytes? Only a snapshot can be wider, where `REG_W` is less than the 64 bits that hold it
(log 22). -/
def codeFits (chip : Chip) : Code → Prop
  | .devint w => w.toNat < 256 ^ regBytes chip
  | _ => True

theorem codeOfBytes_bytesOfCode (c : Code) (h : codeFits chip c) :
    codeOfBytes chip (bytesOfCode chip c).1 (bytesOfCode chip c).2 = .ok c := by
  rw [codeOfBytes, if_neg (not_not.mpr (bytesOfCode_length chip c))]
  cases c with
  | cmdw w =>
    simp only [bytesOfCode]
    rw [ofNat_ofLeBytes_leBytes w (by exact w.isLt)]
  | setup w =>
    simp only [bytesOfCode]
    rw [ofNat_ofLeBytes_leBytes w (by exact w.isLt)]
  | devint w =>
    simp only [bytesOfCode]
    rw [ofNat_ofLeBytes_leBytes w h]
  | epevt a st =>
    have ha := a.isLt
    have hst := st.isLt
    simp only [bytesOfCode, ofLeBytes_leBytes]
    congr 2 <;> apply BitVec.eq_of_toNat_eq <;> rw [BitVec.toNat_ofNat] <;> omega

/-- Decoding the bytes of a code is decoding the code. -/
theorem decodeBytes_bytesOfCode (p : Bool) (c : Code) (h : codeFits chip c) :
    decodeBytes chip (bytesOfCode chip c).1 p (bytesOfCode chip c).2 = decode chip p c := by
  rw [decodeBytes, codeOfBytes_bytesOfCode c h]

/-! ## CMDW: an instruction's word decodes to it (R121 to R126) -/

/-- The rows with a command-register word are the phase words'. -/
theorem phaseWord_of_encode {i : Instr} {w : Word} (h : encode chip i = some (.cmdw w)) :
    ∃ p : PhaseWord, i = p.toInstr := by
  cases i
  case selectEp idx => exact ⟨.selectEp idx, rfl⟩
  case selectEpRd idx => exact ⟨.selectEpRd idx, rfl⟩
  case setEpStatus idx => exact ⟨.setEpStatus idx, rfl⟩
  case setMaxpkt idx => exact ⟨.setMaxpkt idx, rfl⟩
  case setAddress => exact ⟨.setAddress, rfl⟩
  case configureDevice => exact ⟨.configureDevice, rfl⟩
  case clearBuffer => exact ⟨.clearBuffer, rfl⟩
  case validateBuffer => exact ⟨.validateBuffer, rfl⟩
  case getDevStatus => exact ⟨.getDevStatus, rfl⟩
  case getDevStatusRd => exact ⟨.getDevStatusRd, rfl⟩
  case wrdata data => exact ⟨.wrdata data, rfl⟩
  case reservedCmdw word => exact ⟨.reserved word, rfl⟩
  all_goals cases h

/-- Only SELECT_EP's own codes have its base (R124, R125). -/
theorem hasBase_select_withIdx (i : Idx) :
    hasBase Config.chip.codeSelectEp (codeWithIdx Config.chip.codeSelectEp i) = true ∧
    hasBase Config.chip.codeSelectEp (codeWithIdx Config.chip.codeSetEpStatus i) = false ∧
    hasBase Config.chip.codeSelectEp (codeWithIdx Config.chip.codeSetMaxpkt i) = false := by
  revert i; decide +kernel

theorem decodeCommandCode_selectEp (i : Idx) (w : Word) :
    decodeCommandCode Config.chip (codeWithIdx Config.chip.codeSelectEp i) w = .selectEp i := by
  simp [decodeCommandCode, hasBase_select_withIdx]

theorem decodeCommandCode_setEpStatus (i : Idx) (w : Word) :
    decodeCommandCode Config.chip (codeWithIdx Config.chip.codeSetEpStatus i) w = .setEpStatus i := by
  simp [decodeCommandCode, hasBase_select_withIdx]

theorem decodeCommandCode_setMaxpkt (i : Idx) (w : Word) :
    decodeCommandCode Config.chip (codeWithIdx Config.chip.codeSetMaxpkt i) w = .setMaxpkt i := by
  simp [decodeCommandCode, hasBase_select_withIdx]

theorem decodeReadCode_selectEp (i : Idx) (w : Word) :
    decodeReadCode Config.chip (codeWithIdx Config.chip.codeSelectEp i) w = .selectEpRd i := by
  simp [decodeReadCode, hasBase_select_withIdx]

/-- A code outside R124's list is reserved in a command phase. -/
theorem decodeCommandCode_unlisted {c : Byte} (w : Word) (h : isCommandCode chip c = false) :
    decodeCommandCode chip c w = .reserved w := by
  simp only [isCommandCode, Bool.or_eq_false_iff, beq_eq_false_iff_ne, ne_eq] at h
  simp [decodeCommandCode, h]

/-- A code without read data is reserved in a read-data phase. -/
theorem decodeReadCode_unlisted {c : Byte} (w : Word) (h : isReadCode chip c = false) :
    decodeReadCode chip c w = .reserved w := by
  simp only [isReadCode, Bool.or_eq_false_iff, beq_eq_false_iff_ne, ne_eq] at h
  simp [decodeReadCode, h]

/-- What R126 reserves decodes as reserved. -/
theorem decodeCmdw_of_reserved {w : Word} (h : isReservedWord Config.chip w = true) :
    decodeCmdw Config.chip w = .reserved w := by
  have hne : Config.chip.phCmd ≠ Config.chip.phRead := by decide
  have hcw : Config.chip.phCmd ≠ Config.chip.phWrite := by decide
  have hrw : Config.chip.phRead ≠ Config.chip.phWrite := by decide
  unfold isReservedWord at h
  unfold decodeCmdw
  split
  · rfl
  · next hlow =>
    split
    · next hphase => simp [hlow, hphase] at h
    · split
      · rfl
      · next hhigh =>
        split
        · next hcmd => exact decodeCommandCode_unlisted w (by simpa [hlow, hhigh, hcmd, hcw, hne] using h)
        · split
          · next hread => exact decodeReadCode_unlisted w (by simpa [hlow, hhigh, hread, hrw, hne.symm] using h)
          · rfl

/-- An instruction's word decodes to it. -/
theorem decodeCmdw_of_encode {p : PhaseWord} {w : Word} (hwf : p.toInstr.wf Config.chip = true)
    (h : encode Config.chip p.toInstr = some (.cmdw w)) : decodeCmdw Config.chip w = p := by
  cases p
  case reserved v => cases h; exact decodeCmdw_of_reserved hwf
  case wrdata d => cases h; exact decodeCmdw_wrWord d
  case selectEp i => cases h; exact (decodeCmdw_cmdWord _).trans (decodeCommandCode_selectEp i _)
  case setEpStatus i => cases h; exact (decodeCmdw_cmdWord _).trans (decodeCommandCode_setEpStatus i _)
  case setMaxpkt i => cases h; exact (decodeCmdw_cmdWord _).trans (decodeCommandCode_setMaxpkt i _)
  case selectEpRd i => cases h; exact (decodeCmdw_rdWord _).trans (decodeReadCode_selectEp i _)
  case setAddress | configureDevice | clearBuffer | validateBuffer | getDevStatus | getDevStatusRd => cases h; decide

/-! ## CMDW: every word is the code of what it decodes to (R121, R126) -/

/-- The fields of a command-register word make it up (R121). -/
theorem word_fields (w : Word) : w = w.extractLsb' 16 16 ++ w.extractLsb' 8 8 ++ w.extractLsb' 0 8 := by
  have htop := BitVec.extractLsb'_append_extractLsb'_eq_extractLsb' (x := w) (start₁ := 8) (len₁ := 8) (len₂ := 16) rfl
  have hall := BitVec.extractLsb'_append_extractLsb'_eq_extractLsb' (x := w) (start₁ := 0) (len₁ := 8) (len₂ := 24) rfl
  rw [htop]
  exact (hall.trans BitVec.extractLsb'_eq_self).symm

/-- The two bytes of the payload (R122). -/
theorem payload_fields (w : Word) : w.extractLsb' 16 16 = w.extractLsb' 24 8 ++ w.extractLsb' 16 8 :=
  (BitVec.extractLsb'_append_extractLsb'_eq_extractLsb' (start₁ := 16) (len₁ := 8) (len₂ := 8) rfl).symm

/-- A word is reserved, or one of the three that software writes (R123, R126). -/
theorem word_cases (w : Word) :
    isReservedWord Config.chip w = true ∨ (∃ d, w = wrWord Config.chip d) ∨
    (∃ c, isCommandCode Config.chip c = true ∧ w = cmdWord Config.chip c) ∨
    (∃ c, isReadCode Config.chip c = true ∧ w = rdWord Config.chip c) := by
  have hw := word_fields w
  by_cases hres : isReservedWord Config.chip w = true
  · exact .inl hres
  simp only [isReservedWord, Bool.or_eq_true, Bool.and_eq_true, bne_iff_ne, beq_iff_eq, not_or, not_and, not_not,
    Bool.not_eq_true', Bool.not_eq_false] at hres
  obtain ⟨hlow, hrest⟩ := hres
  rw [hlow] at hw
  by_cases hwrite : w.extractLsb' 8 8 = Config.chip.phWrite
  · rw [hwrite] at hw
    exact .inr (.inl ⟨_, hw⟩)
  · obtain ⟨hhigh, hcode⟩ := hrest hwrite
    rw [payload_fields, hhigh] at hw
    rcases hcode with ⟨hphase, hc⟩ | ⟨hphase, hc⟩ <;> rw [hphase] at hw
    · exact .inr (.inr (.inl ⟨_, hc, hw⟩))
    · exact .inr (.inr (.inr ⟨_, hc, hw⟩))

/-- The base and the index in it make up the code (R125). -/
theorem codeWithIdx_indexIn {base c : Byte} (h : hasBase base c = true) : codeWithIdx base (indexIn base c) = c := by
  have hlt : (c - base).toNat < 32 := of_decide_eq_true h
  have hsub := BitVec.toNat_sub c base
  have hb := base.isLt
  have hc := c.isLt
  apply BitVec.eq_of_toNat_eq
  simp only [codeWithIdx, indexIn, BitVec.toNat_add, BitVec.toNat_setWidth]
  omega

/-- A listed code's word is the code of what it decodes to. -/
theorem encode_decodeCommandCode {c : Byte} (hc : isCommandCode chip c = true) (w : Word) :
    (decodeCommandCode chip c w).toInstr.wf chip = true ∧
    encode chip (decodeCommandCode chip c w).toInstr = some (.cmdw (cmdWord chip c)) := by
  have based {base : Byte} (hb : hasBase base c = true) :
      some (Code.cmdw (cmdWord chip (codeWithIdx base (indexIn base c)))) = some (.cmdw (cmdWord chip c)) := by
    rw [codeWithIdx_indexIn hb]
  simp only [isCommandCode, Bool.or_eq_true, beq_iff_eq] at hc
  unfold decodeCommandCode
  split_ifs with hsel hstat hmps haddr hconf hclear hvalid hdev
  · exact ⟨rfl, based hsel⟩
  · exact ⟨rfl, based hstat⟩
  · exact ⟨rfl, based hmps⟩
  · exact ⟨rfl, haddr ▸ rfl⟩
  · exact ⟨rfl, hconf ▸ rfl⟩
  · exact ⟨rfl, hclear ▸ rfl⟩
  · exact ⟨rfl, hvalid ▸ rfl⟩
  · exact ⟨rfl, hdev ▸ rfl⟩
  · simp [hsel, hstat, hmps, haddr, hconf, hclear, hvalid, hdev] at hc

/-- The same of a read-data word. -/
theorem encode_decodeReadCode {c : Byte} (hc : isReadCode chip c = true) (w : Word) :
    (decodeReadCode chip c w).toInstr.wf chip = true ∧
    encode chip (decodeReadCode chip c w).toInstr = some (.cmdw (rdWord chip c)) := by
  simp only [isReadCode, Bool.or_eq_true, beq_iff_eq] at hc
  unfold decodeReadCode
  split_ifs with hsel hdev
  · refine ⟨rfl, ?_⟩
    rw [PhaseWord.toInstr, encode, codeWithIdx_indexIn hsel]
  · exact ⟨rfl, hdev ▸ rfl⟩
  · simp [hsel, hdev] at hc

theorem encode_decodeCmdw (w : Word) : (decodeCmdw Config.chip w).toInstr.wf Config.chip = true ∧
    encode Config.chip (decodeCmdw Config.chip w).toInstr = some (.cmdw w) := by
  rcases word_cases w with hres | ⟨d, rfl⟩ | ⟨c, hc, rfl⟩ | ⟨c, hc, rfl⟩
  · rw [decodeCmdw_of_reserved hres]
    exact ⟨hres, rfl⟩
  · rw [decodeCmdw_wrWord]
    exact ⟨rfl, rfl⟩
  · rw [decodeCmdw_cmdWord]
    exact encode_decodeCommandCode hc _
  · rw [decodeCmdw_rdWord]
    exact encode_decodeReadCode hc _

/-- Settles O2: the rows of the format are the phase words' (`phaseWord_of_encode`), and every word is reserved or one of the
three that software writes (`word_cases`). -/
theorem cmdwRoundTrip : Obligations.CmdwRoundTrip := by
  unfold Obligations.CmdwRoundTrip
  refine ⟨fun p i w hwf henc => ?_, encode_decodeCmdw⟩
  obtain ⟨pw, rfl⟩ := phaseWord_of_encode henc
  refine (decodeBytes_bytesOfCode p (.cmdw w) trivial).trans ?_
  rw [decode, decodeCmdw_of_encode hwf henc]

/-! ## SETUP: the packet and its fields (R130 to R132) -/

theorem append_toNat {n m : Nat} (x : BitVec n) (y : BitVec m) : (x ++ y).toNat = x.toNat * 2 ^ m + y.toNat := by
  rw [BitVec.toNat_append, ← Nat.shiftLeft_add_eq_or_of_lt y.isLt, Nat.shiftLeft_eq]

theorem setupWord_toNat (f : SetupFields) (rtype recip : BitVec 2) (req : Byte) :
    (setupWord f rtype recip req).toNat = recip.toNat + 4 * f.rsv.toNat + 32 * rtype.toNat + 128 * f.dir.toNat +
      256 * req.toNat + 65536 * f.value.toNat + 4294967296 * f.index.toNat + 281474976710656 * f.length.toNat := by
  have h : (setupWord f rtype recip req).toNat = BitVec.toNat (w := 16 + 16 + 16 + 8 + 1 + 2 + 3 + 2)
    (f.length ++ f.index ++ f.value ++ req ++ BitVec.ofBool f.dir ++ rtype ++ f.rsv ++ recip) := rfl
  rw [h]
  simp only [append_toNat, BitVec.toNat_ofBool]
  omega

theorem fields_of_setupWord (f : SetupFields) (rtype recip : BitVec 2) (req : Byte) :
    setupFields (setupWord f rtype recip req) = f ∧ setupRtype (setupWord f rtype recip req) = rtype ∧
    setupRecip (setupWord f rtype recip req) = recip ∧ setupReq (setupWord f rtype recip req) = req := by
  have h := setupWord_toNat f rtype recip req
  obtain ⟨dir, rsv, value, index, length⟩ := f
  dsimp only at h
  have := recip.isLt
  have := rsv.isLt
  have := rtype.isLt
  have := dir.toNat_lt
  have := req.isLt
  have := value.isLt
  have := index.isLt
  have := length.isLt
  simp only [setupFields, setupRtype, setupRecip, setupReq, SetupFields.mk.injEq]
  refine ⟨⟨?_, ?_, ?_, ?_, ?_⟩, ?_, ?_, ?_⟩
  case refine_1 =>
    rw [Bool.eq_iff_iff, ← Bool.toNat_eq_one, ← Bool.toNat_eq_one, BitVec.getLsbD, Nat.toNat_testBit, h]
    omega
  all_goals
    apply BitVec.eq_of_toNat_eq
    simp only [BitVec.extractLsb'_toNat, h, Nat.shiftRight_eq_div_pow]
    omega

theorem setupWord_of_fields (w : BitVec 64) :
    setupWord (setupFields w) (setupRtype w) (setupRecip w) (setupReq w) = w := by
  have hw := w.isLt
  apply BitVec.eq_of_toNat_eq
  rw [setupWord_toNat]
  simp only [setupFields, setupRtype, setupRecip, setupReq, BitVec.extractLsb'_toNat, Nat.shiftRight_eq_div_pow,
    BitVec.getLsbD, Nat.toNat_testBit]
  omega

/-! ## SETUP: a request's packet decodes to it (R133, R134) -/

/-- A packet decodes by its type first (R133, R293). -/
theorem decodeSetup_setupWord (f : SetupFields) (rtype recip : BitVec 2) (req : Byte) :
    decodeSetup (setupWord f rtype recip req) =
      if rtype = Config.rtypeClass then .hReqClass f req recip
      else if rtype = Config.rtypeVendor then .hReqVendor f req recip
      else if rtype = Config.rtypeReserved then .hReqReserved f req recip
      else decodeStandard f recip req := by
  obtain ⟨hf, htype, hrecip, hreq⟩ := fields_of_setupWord f rtype recip req
  simp only [decodeSetup, hf, htype, hrecip, hreq]

/-- With the custom hook there, a standard request's packet is offered to it (R290). -/
theorem decodeDispatch_setupWord (f : SetupFields) (recip : BitVec 2) (req : Byte) :
    decodeDispatch true (setupWord f Config.rtypeStandard recip req) = .hCustom f req recip := by
  obtain ⟨hf, htype, hrecip, hreq⟩ := fields_of_setupWord f Config.rtypeStandard recip req
  simp only [decodeDispatch, hf, htype, hrecip, hreq]
  rfl

theorem decodeSetup_standard {f : SetupFields} {recip : BitVec 2} {req : Byte} {w : BitVec 64}
    (h : encodeStd f recip req = some (.setup w)) : decodeSetup w = decodeStandard f recip req := by
  cases h
  exact decodeSetup_setupWord f Config.rtypeStandard recip req

theorem recipient_cases {recip : BitVec 2} (h : recip ≠ Config.recipOther) :
    recip = Config.recipDevice ∨ recip = Config.recipInterface ∨ recip = Config.recipEndpoint := by
  revert recip; decide

/-- A request code outside the table, to a recipient inside it (R333). -/
theorem decodeStandard_unknown {recip : BitVec 2} {req : Byte} (f : SetupFields) (hrecip : recip ≠ Config.recipOther)
    (hreq : isRequestCode req = false) : decodeStandard f recip req = .unknownRequest f req recip := by
  simp only [isRequestCode, Bool.or_eq_false_iff, beq_eq_false_iff_ne, ne_eq] at hreq
  rcases recipient_cases hrecip with rfl | rfl | rfl
  · simp [decodeStandard, stdDevice, hreq]
  · simp [decodeStandard, stdInterface, hreq]
  · simp [decodeStandard, stdEndpoint, hreq]

/-- An instruction's packet decodes to it, but for the custom hook's, which decodes to its cell (R290). -/
theorem decodeSetup_of_encode {i : Instr} {w : BitVec 64} (hwf : i.wf Config.chip = true)
    (h : encode Config.chip i = some (.setup w)) (hcustom : ∀ f req recip, i ≠ .hCustom f req recip) :
    decodeSetup w = i := by
  cases i
  case getStatusDev | clearFeatureDev | setFeatureDev | setAddressDev | getDescriptorDev | getConfigurationDev
      | setConfigurationDev | getInterfaceDev | setInterfaceDev | setDescriptorDev | synchFrameDev =>
    exact decodeSetup_standard (recip := Config.recipDevice) h
  case getStatusIf | clearFeatureIf | setFeatureIf | setAddressIf | getDescriptorIf | getConfigurationIf
      | setConfigurationIf | getInterfaceIf | setInterfaceIf | setDescriptorIf | synchFrameIf =>
    exact decodeSetup_standard (recip := Config.recipInterface) h
  case getStatusEp | clearFeatureEp | setFeatureEp | setAddressEp | getDescriptorEp | getConfigurationEp
      | setConfigurationEp | getInterfaceEp | setInterfaceEp | setDescriptorEp | synchFrameEp =>
    exact decodeSetup_standard (recip := Config.recipEndpoint) h
  case recipientOther => exact decodeSetup_standard (recip := Config.recipOther) h
  case unknownRequest f req recip =>
    simp only [Instr.wf, Bool.and_eq_true, Bool.not_eq_true', bne_iff_ne] at hwf
    obtain ⟨hreq, hrecip⟩ := hwf
    exact (decodeSetup_standard h).trans (decodeStandard_unknown f hrecip hreq)
  case hReqClass | hReqVendor | hReqReserved =>
    cases h
    exact decodeSetup_setupWord _ _ _ _
  case hCustom => exact absurd rfl (hcustom _ _ _)
  all_goals cases h

/-! ## SETUP: every packet is the code of what it decodes to -/

/-- The request codes of the table (R134). -/
theorem requestCode_cases {req : Byte} (h : isRequestCode req = true) :
    req = Config.reqGetStatus ∨ req = Config.reqClearFeature ∨ req = Config.reqSetFeature ∨
    req = Config.reqSetAddress ∨ req = Config.reqGetDescriptor ∨ req = Config.reqSetDescriptor ∨
    req = Config.reqGetConfiguration ∨ req = Config.reqSetConfiguration ∨ req = Config.reqGetInterface ∨
    req = Config.reqSetInterface ∨ req = Config.reqSynchFrame := by
  simpa only [isRequestCode, Bool.or_eq_true, beq_iff_eq, or_assoc] using h

/-- A row of the table, by recipient and request code. -/
theorem encode_decodeStandard (f : SetupFields) (recip : BitVec 2) (req : Byte) :
    (decodeStandard f recip req).wf Config.chip = true ∧
    encode Config.chip (decodeStandard f recip req) = encodeStd f recip req := by
  by_cases hrecip : recip = Config.recipOther
  · subst hrecip
    exact ⟨rfl, rfl⟩
  cases hreq : isRequestCode req with
  | false =>
    rw [decodeStandard_unknown f hrecip hreq]
    exact ⟨by simpa [Instr.wf, hreq] using hrecip, rfl⟩
  | true =>
    rcases recipient_cases hrecip with rfl | rfl | rfl <;>
      rcases requestCode_cases hreq with rfl | rfl | rfl | rfl | rfl | rfl | rfl | rfl | rfl | rfl | rfl <;>
      exact ⟨rfl, rfl⟩

theorem rtype_cases (t : BitVec 2) :
    t = Config.rtypeClass ∨ t = Config.rtypeVendor ∨ t = Config.rtypeReserved ∨ t = Config.rtypeStandard := by
  revert t; decide

/-- Every packet is made of its fields. -/
theorem setupWord_cases (w : BitVec 64) : ∃ f rtype recip req, w = setupWord f rtype recip req :=
  ⟨_, _, _, _, (setupWord_of_fields w).symm⟩

theorem encode_decodeSetup (w : BitVec 64) : (decodeSetup w).wf Config.chip = true ∧
    encode Config.chip (decodeSetup w) = some (.setup w) := by
  obtain ⟨f, rtype, recip, req, rfl⟩ := setupWord_cases w
  rw [decodeSetup_setupWord]
  rcases rtype_cases rtype with rfl | rfl | rfl | rfl
  · exact ⟨rfl, rfl⟩
  · exact ⟨rfl, rfl⟩
  · exact ⟨rfl, rfl⟩
  · exact encode_decodeStandard f recip req

theorem encode_decodeDispatch (hook : Bool) (w : BitVec 64) : (decodeDispatch hook w).wf Config.chip = true ∧
    encode Config.chip (decodeDispatch hook w) = some (.setup w) := by
  by_cases h : (hook && setupRtype w == Config.rtypeStandard) = true
  · obtain ⟨rfl, ht⟩ := Bool.and_eq_true_iff.mp h
    have hw := setupWord_of_fields w
    rw [beq_iff_eq.mp ht] at hw
    rw [← hw, decodeDispatch_setupWord]
    exact ⟨rfl, rfl⟩
  · rw [decodeDispatch, if_neg h]
    exact encode_decodeSetup w

/-- Settles O3: packet and fields determine each other (`fields_of_setupWord`, `setupWord_of_fields`); the rest is the table,
read by type, recipient and request code. -/
theorem setupRoundTrip : Obligations.SetupRoundTrip := by
  unfold Obligations.SetupRoundTrip
  refine ⟨fun p i w hwf henc hcustom => ?_, fun f req recip w h => ?_, encode_decodeDispatch⟩
  · refine (decodeBytes_bytesOfCode p (.setup w) trivial).trans ?_
    rw [decode, decodeSetup_of_encode hwf henc hcustom]
  · cases h
    exact decodeDispatch_setupWord f recip req

/-! ## DEVINT and EPEVT (R140 to R144, R261) -/

/-- An arm's snapshot selects it, and its one bit lies in the register. -/
theorem snapshot_of_encode {i : Instr} {w : RegWord} (h : encode Config.chip i = some (.devint w)) :
    codeFits Config.chip (.devint w) ∧ decodeDevint Config.chip w = some i := by
  cases i
  case frameArm | devstatArm | endpointArm =>
    cases h
    exact ⟨by unfold codeFits; decide, rfl⟩
  all_goals cases h

/-- A SETUP packet on endpoint 0 OUT (R144, R261). -/
theorem decodeEpevt_setup {st : BitVec 5} (p : Bool) (h : statusSetup chip st = true) :
    decodeEpevt chip p 0x00#8 st = some (.setupEvent st) := by
  simp [decodeEpevt, h]

/-- Any other packet there: data or status, by CT.resid (R261). -/
theorem decodeEpevt_out {st : BitVec 5} (p : Bool) (h : statusSetup chip st = false) :
    decodeEpevt chip p 0x00#8 st = some (if p then .outDataEvent st else .outStatusEvent st) := by
  cases p <;> simp [decodeEpevt, h]

theorem decodeEpevt_in (p : Bool) (st : BitVec 5) : decodeEpevt chip p 0x80#8 st = some (.inEvent st) := rfl

/-- The bytes of an endpoint event decode as its pair does. -/
theorem decodeBytes_epevt {p : Bool} {a : Byte} {st : BitVec 5} {i : Instr} (h : decodeEpevt chip p a st = some i) :
    decodeBytes chip .epevt p (bytesOfCode chip (.epevt a st)).2 = .ok i := by
  refine (decodeBytes_bytesOfCode p (.epevt a st) trivial).trans ?_
  rw [decode, h]

/-- Settles O4: an arm's snapshot by `snapshot_of_encode`, an endpoint event by the arm of `Ctl`'s decode that gives it. -/
theorem eventRoundTrip : Obligations.EventRoundTrip := by
  unfold Obligations.EventRoundTrip
  refine ⟨fun p i w h => ?_, fun i a st hwf h => ?_, fun w => rfl⟩
  · obtain ⟨hfits, hdec⟩ := snapshot_of_encode h
    refine (decodeBytes_bytesOfCode p (.devint w) hfits).trans ?_
    rw [decode, hdec]
  · cases i
    case setupEvent st =>
      cases h
      refine ⟨fun _ hx => ?_, fun _ hx => ?_, fun _ p => decodeBytes_epevt (decodeEpevt_setup p hwf)⟩ <;> cases hx
    case inEvent st =>
      cases h
      refine ⟨fun _ hx => ?_, fun _ hx => ?_, fun _ p => decodeBytes_epevt (decodeEpevt_in p st)⟩ <;> cases hx
    case outDataEvent st =>
      cases h
      have hst : statusSetup Config.chip st = false := by simpa [Instr.wf] using hwf
      refine ⟨fun _ _ => decodeBytes_epevt (decodeEpevt_out true hst), fun _ hx => ?_, fun hne => absurd rfl (hne st).1⟩
      cases hx
    case outStatusEvent st =>
      cases h
      have hst : statusSetup Config.chip st = false := by simpa [Instr.wf] using hwf
      refine ⟨fun _ hx => ?_, fun _ _ => decodeBytes_epevt (decodeEpevt_out false hst), fun hne => absurd rfl (hne st).2⟩
      cases hx
    all_goals cases h

/-! ## Words written out, and the endpoint indices -/

/-- Settles O1: each word is a literal, and the decoder is run on it. -/
theorem writtenWordsDecode : Obligations.WrittenWordsDecode := by
  unfold Obligations.WrittenWordsDecode
  refine ⟨?_, ?_, ?_, ?_, ?_, ?_, ?_, ?_, ?_, ?_, ?_, ?_, ?_, ?_⟩ <;> decide

theorem epIdx_epAddr (i : Idx) : epIdx (epAddr i) = i := by
  revert i; decide +kernel

/-- The bytes with bits 6:4 zero are the endpoint addresses (R128). -/
theorem epAddr_epIdx {a : Byte} (h : a &&& 0x70#8 = 0#8) : epAddr (epIdx a) = a := by
  revert a; decide +kernel

/-- Settles O5: the two maps undo each other, and are `epIdx_toNat` and `epAddr_toNat` in numbers. -/
theorem endpointIndexBijection : Obligations.EndpointIndexBijection := by
  unfold Obligations.EndpointIndexBijection
  exact ⟨epIdx_epAddr, fun _ => epAddr_epIdx, epIdx_toNat, epAddr_toNat⟩

end Sys2Proof.Machine
end

section
/-! SUPPORT. The phase words without effect and the status read of an index (O11, O17), the replies built in STAGE (O47), and
what SEQ runs at each frame (O7). -/

namespace Sys2Proof.Machine

variable {chip : Chip} {s : State}

/-! ## SELECT_EP, read-data phase (R189) -/

/-- A phase word's row, on the chip the spec describes. -/
theorem exec_phase_spec (hk : s.specChip) (p : PhaseWord) :
    exec p.toInstr s = .next { s with eng := s.eng.complete Config.chip p } := by
  rw [exec_phase, show s.cfg.toChip = Config.chip from hk]

/-- Settles O11: the phase gives the raw status, and its bits are those of the record (`raw_bits`). -/
theorem selectEpReadsStatus : Obligations.SelectEpReadsStatus := by
  unfold Obligations.SelectEpReadsStatus
  intro i s hk hc
  rw [show s.cfg.toChip = Config.chip from hk] at hc ⊢
  refine ⟨((s.eng.epAt i).raw Config.chip).setWidth 16, ?_, ?_⟩
  · refine (exec_phase_spec hk (.selectEpRd i)).trans ?_
    rw [Eng.complete, Eng.completeSelectEpRd, if_pos hc, Eng.endRead]
  · obtain ⟨hwide, hhigh⟩ := wide_bits ((s.eng.epAt i).raw Config.chip)
    obtain ⟨h0, h1, h2, h3, h4⟩ := raw_bits (s.eng.epAt i)
    exact ⟨(hwide 0).trans h0, (hwide 1).trans h1, (hwide 2).trans h2, (hwide 3).trans h3, (hwide 4).trans h4, hhigh⟩

/-! ## Reserved phase words (R126, R193) -/

theorem phases_distinct : Config.chip.phCmd ≠ Config.chip.phRead ∧ Config.chip.phWrite ≠ Config.chip.phRead := by
  decide

/-- A reserved command or write-data word only ends its phase. -/
theorem completeReserved_ends {w : Word} (e : Eng)
    (hw : w.extractLsb' 8 8 = Config.chip.phCmd ∨ w.extractLsb' 8 8 = Config.chip.phWrite) :
    e.completeReserved Config.chip w = e.endWrite Config.chip := by
  obtain ⟨hcmd, hwrite⟩ := phases_distinct
  have hne : w.extractLsb' 8 8 ≠ Config.chip.phRead := by
    rcases hw with h | h <;> rw [h] <;> assumption
  rw [Eng.completeReserved, if_neg hne, if_pos hw]

/-- A reserved read-data phase leaves any value in CMDDATA. -/
theorem exec_reservedRead {p : PhaseWord} (hk : s.specChip)
    (h : s.eng.complete Config.chip p = s.eng.reservedRead Config.chip) :
    ∃ v : Half, exec p.toInstr s = .next { s with eng := { s.eng with
      cmddata := v, cmddataValid := true, cur := none, pend := none, fresh := s.eng.fresh + 1
      devintst := setBit s.eng.devintst Config.chip.bitCDFULL } } :=
  ⟨Config.freeHalf s.eng.fresh, by rw [exec_phase_spec hk, h]; rfl⟩

/-- A word of no known PHASE ends in one of the two ways (log 10). -/
theorem completeReserved_unknown {w : Word} (e : Eng) (hcmd : w.extractLsb' 8 8 ≠ chip.phCmd)
    (hwrite : w.extractLsb' 8 8 ≠ chip.phWrite) (hread : w.extractLsb' 8 8 ≠ chip.phRead) :
    e.completeReserved chip w = (e.endWrite chip).tick ∨
    ∃ v, e.completeReserved chip w = (Eng.endRead chip v e).tick.tick := by
  rw [Eng.completeReserved, if_neg hread, if_neg (not_or.mpr ⟨hcmd, hwrite⟩), Eng.reservedPhase]
  split
  · exact .inl rfl
  · exact .inr ⟨_, rfl⟩

/-- A code outside the four with write data has no effect in that phase (R126). -/
theorem writeData_none {c : Byte} (d : Half) (e : Eng) (hstat : c.extractLsb' 5 3 ≠ 2#3) (hmps : c.extractLsb' 5 3 ≠ 4#3)
    (haddr : c ≠ Config.chip.codeSetAddress) (hconf : c ≠ Config.chip.codeConfigureDevice) :
    e.writeData Config.chip c d = e := by
  simp [Eng.writeData, hasBase_status, hasBase_maxpkt, hstat, hmps, haddr, hconf]

/-- With no code in CUR that has write data, the write-data word only ends (R126, R193). -/
theorem completeWrdata_none {e : Eng} (d : Half)
    (h : e.cur = none ∨ ∃ c, e.cur = some c ∧ c.extractLsb' 5 3 ≠ 2#3 ∧ c.extractLsb' 5 3 ≠ 4#3 ∧
      c ≠ Config.chip.codeSetAddress ∧ c ≠ Config.chip.codeConfigureDevice) :
    e.completeWrdata Config.chip d = e.endWrite Config.chip := by
  rcases h with hcur | ⟨c, hcur, hstat, hmps, haddr, hconf⟩ <;> simp only [Eng.completeWrdata, hcur]
  rw [writeData_none d e hstat hmps haddr hconf]

/-- Settles O17: the four clauses are the ends of a reserved word, and of a write-data word with no effect. -/
theorem reservedWords : Obligations.ReservedWords := by
  unfold Obligations.ReservedWords
  intro s hk
  have run := exec_phase_spec hk
  rw [show s.cfg.toChip = Config.chip from hk]
  refine ⟨fun w hw => ?_, fun i hi => ?_, fun w hcmd hwrite hread => ?_, fun d hd => ?_⟩
  · refine (run (.reserved w)).trans ?_
    rw [Eng.complete, completeReserved_ends _ hw, Eng.endWrite]
  · rcases hi with ⟨w, rfl, hw⟩ | ⟨x, rfl, hx⟩ | ⟨rfl, hc⟩
    · exact exec_reservedRead (p := .reserved w) hk (if_pos hw)
    · exact exec_reservedRead (p := .selectEpRd x) hk (if_neg hx)
    · exact exec_reservedRead (p := .getDevStatusRd) hk (if_neg hc)
  · rcases completeReserved_unknown s.eng hcmd hwrite hread with h | ⟨v, h⟩
    · exact .inl ((run (.reserved w)).trans (by rw [Eng.complete, h]; rfl))
    · exact .inr ⟨v, (run (.reserved w)).trans (by rw [Eng.complete, h]; rfl)⟩
  · refine (run (.wrdata d)).trans ?_
    rw [Eng.complete, completeWrdata_none d hd, Eng.endWrite]

/-! ## The replies (R294, R300 to R302, R315, R322) -/

/-- A row that builds a reply, from the bytes it stores (R294). -/
theorem runSeq_replyBytes {bs : List Byte} (hw : Memory.wf s.stage = true) (h0 : bs ≠ []) :
    (bs.length ≤ s.cfg.m0 ∨ s.cfg.overrunDrops = true →
      ∃ m : Memory,
        (∀ k, Memory.read m k = if k < bs.length ∧ k < s.cfg.m0 then bs[k]? else Memory.read s.stage k) ∧
        runSeq (replyBytes bs) s = .next { s with
          stage := m, result := .ok
          ct := { s.ct with ptr := { space := .stage, off := 0 }, len := bs.length } }) ∧
    (s.cfg.m0 < bs.length → s.cfg.overrunDrops = false → runSeq (replyBytes bs) s = .fault .bufferOverrun) := by
  obtain ⟨hfits, hover⟩ := replyBytes_run hw h0
  refine ⟨fun h => ?_, fun hm hd => runSeq_fault (hover hm hd)⟩
  obtain ⟨m, hread, hrun⟩ := hfits h
  exact ⟨m, hread, runSeq_ok hrun⟩

/-- After the status fetch of an index: the raw status in CMDDATA, SEL moved (R212, R240). -/
def State.statusFetched (i : Idx) (s : State) : State :=
  { s with eng := { s.eng.answered Config.chip (((s.eng.epAt i).raw Config.chip).setWidth 16) with sel := i } }

/-- The first byte of the reply of GET_STATUS.ep is the halt bit (R302). -/
theorem statusByte_normEp (r : EpRec) :
    statusByte (statusStalled Config.chip (normEp Config.chip (r.raw Config.chip))) = if r.stalled then 1#8 else 0#8 := by
  obtain ⟨-, hstalled, -⟩ := normRaw_bits r
  rw [statusStalled, Config.chip_bitSTALLED, hstalled, statusByte]

/-- GET_STATUS.ep builds its reply once the status is fetched (R302). -/
theorem exec_getStatusEp (f : SetupFields) (hk : s.specChip) (hc : s.calm) :
    exec (.getStatusEp f) s =
      runSeq (replyBytes [if (s.eng.epAt (epIdx (indexAddress f))).stalled then 1#8 else 0#8, 0#8])
        (s.statusFetched (epIdx (indexAddress f))) := by
  rw [exec, execGetStatusEp, show s.cfg.toChip = Config.chip from hk, runSeq, run_bind_ok (getStatus_calm hc),
    statusByte_normEp]
  rfl

/-- Settles O47: each row is a reply of its bytes (`runSeq_replyBytes`), GET_STATUS.ep after the status fetch. -/
theorem replyCells : Obligations.ReplyCells := by
  unfold Obligations.ReplyCells
  intro f s hwf
  refine ⟨fun i bs hmem => ?_, fun hk hc i r hi hr => ?_⟩
  · simp only [List.mem_cons, List.not_mem_nil, or_false, Prod.mk.injEq] at hmem
    rcases hmem with ⟨rfl, rfl⟩ | ⟨rfl, rfl⟩ | ⟨rfl, rfl⟩ | ⟨rfl, rfl⟩ <;>
      exact runSeq_replyBytes hwf (List.cons_ne_nil _ _)
  · subst hi hr
    rw [exec_getStatusEp f hk hc, show s.cfg.toChip = Config.chip from hk]
    exact runSeq_replyBytes (s := s.statusFetched _) (bs := [_, 0#8]) hwf (List.cons_ne_nil _ _)

/-! ## SEQ's frames (R140, R144, R241, R261, R290) -/

/-- Settles O7: the step takes the frame SEQ stands at (`step_frame`), and each frame runs what it decodes to. -/
theorem stepRunsSeqInstruction : Obligations.StepRunsSeqInstruction := by
  unfold Obligations.StepRunsSeqInstruction
  intro s s' f rest hturn hh hf
  rw [step_frame hturn hh hf]
  obtain ⟨ts, sl, rfl⟩ := seqTurn_inputs hturn
  refine ⟨?_, ?_, ?_, ?_, ?_, ?_⟩
  · rintro tested i rfl hi
    simp only [fetchFrame, fetchArm, Config.regMax_eq, hi, Fetched.out]
  · rintro i rfl
    rfl
  · rintro a st rfl
    refine ⟨fun i hi => ?_, fun hi => ?_⟩ <;> simp only [fetchFrame, hi, Fetched.out]
  · rintro op ops rfl
    rfl
  · rintro rfl
    rfl
  · rintro rfl
    rfl

end Sys2Proof.Machine
end

section
/-! SUPPORT. ENG's commands, phase by phase (O10, O12 to O15). -/

namespace Sys2Proof.Machine

variable {chip : Chip} {s : State} {e : Eng}

/-! ## Command phases (R181, R188, R191) -/

/-- Settles O10: each row is the completion of its phase word (`exec_phase`), and these latch their code. -/
theorem commandPhases : Obligations.CommandPhases := by
  unfold Obligations.CommandPhases
  intro s
  refine ⟨fun i => exec_phase (.selectEp i) s, fun i c hi => ?_⟩
  rcases hi with hmem | ⟨x, ⟨rfl, rfl⟩ | ⟨rfl, rfl⟩⟩
  · simp only [List.mem_cons, List.not_mem_nil, or_false, Prod.mk.injEq] at hmem
    rcases hmem with ⟨rfl, rfl⟩ | ⟨rfl, rfl⟩ | ⟨rfl, rfl⟩
    · exact exec_phase .setAddress s
    · exact exec_phase .configureDevice s
    · exact exec_phase .getDevStatus s
  · exact exec_phase (.setEpStatus x) s
  · exact exec_phase (.setMaxpkt x) s

/-- Settles O14. -/
theorem clearBuffer : Obligations.ClearBuffer := by
  unfold Obligations.ClearBuffer
  exact exec_phase .clearBuffer

/-! ## VALIDATE_BUFFER (R192) -/

/-- The preconditions of R192, one by one (log 11). -/
theorem mayValidate_iff : e.mayValidate chip = true ↔
    e.sel = e.txidx ∧ e.sel.getLsbD 0 = true ∧ e.dpctl.getLsbD chip.bitWREN = false ∧ e.txlen.toNat ≤ e.txacc.length ∧
      e.txlen.toNat ≤ (e.epAt e.sel).mps.toNat ∧ e.overLong = false := by
  simp [Eng.mayValidate, wrEn, and_assoc]

/-- Where one of them fails. -/
theorem mayValidate_eq_false (h : e.sel ≠ e.txidx ∨ e.sel.getLsbD 0 = false ∨ e.dpctl.getLsbD chip.bitWREN = true ∨
    e.txacc.length < e.txlen.toNat ∨ (e.epAt e.sel).mps.toNat < e.txlen.toNat ∨ e.overLong = true) :
    e.mayValidate chip = false := by
  rw [Bool.eq_false_iff, ne_eq, mayValidate_iff]
  rintro ⟨hsel, hin, hclosed, hacc, hfits, hshort⟩
  rcases h with h | h | h | h | h | h
  · exact h hsel
  · exact Bool.false_ne_true (h.symm.trans hin)
  · exact Bool.false_ne_true (hclosed.symm.trans h)
  · omega
  · omega
  · exact Bool.false_ne_true (hshort.symm.trans h)

/-- The accumulated packet is handed over. -/
theorem validateBuffer_exact (h : e.mayValidate chip = true) : e.validateBuffer chip =
    e.setEp e.sel { e.epAt e.sel with buf := .full (e.txacc.take e.txlen.toNat) false } := by
  rw [Eng.validateBuffer, if_pos h]

/-- Settles O15: the two clauses are the two branches of the completion, the preconditions those of `mayValidate_iff`. -/
theorem validateBuffer : Obligations.ValidateBuffer := by
  unfold Obligations.ValidateBuffer
  intro s
  have run : exec .validateBuffer s = .next { s with eng := s.eng.completeValidateBuffer s.cfg.toChip } :=
    exec_phase .validateBuffer s
  refine ⟨fun hsel hin hclosed hacc hfits hshort => ?_, fun h => ⟨Config.freePacket s.eng.fresh, freePacket_short _, ?_⟩⟩
  · rw [run, Eng.completeValidateBuffer, validateBuffer_exact (mayValidate_iff.mpr ⟨hsel, hin, hclosed, hacc, hfits, hshort⟩),
      Eng.endCommand]
    rfl
  · rw [run, Eng.completeValidateBuffer, Eng.validateBuffer, if_neg (by rw [mayValidate_eq_false h]; exact Bool.false_ne_true)]
    rfl

/-! ## Write-data phases (R182, R184 to R186, R190) -/

/-- With a code latched the phase does its effect and ends the command. -/
theorem exec_wrdata {c : Byte} (d : Half) (hk : s.specChip) (hc : s.eng.cur = some c) :
    exec (.wrdata d) s = .next { s with eng := (s.eng.writeData Config.chip c d).endWrite Config.chip } := by
  refine (exec_phase_spec hk (.wrdata d)).trans ?_
  rw [Eng.complete, Eng.completeWrdata, hc]

theorem writeData_setEpStatus (i : Idx) (d : Half) (e : Eng) :
    e.writeData Config.chip (codeWithIdx Config.chip.codeSetEpStatus i) d = e.setStalled i (d.getLsbD 0) := by
  simp [Eng.writeData]

theorem writeData_setMaxpkt (i : Idx) (d : Half) (e : Eng) :
    e.writeData Config.chip (codeWithIdx Config.chip.codeSetMaxpkt i) d = e.setMps Config.chip i (d.extractLsb' 0 10) := by
  simp [Eng.writeData]

theorem writeData_setAddress (d : Half) (e : Eng) :
    e.writeData Config.chip Config.chip.codeSetAddress d = { e with devaddr := d.extractLsb' 0 8 } := rfl

theorem writeData_configureDevice (d : Half) (e : Eng) :
    e.writeData Config.chip Config.chip.codeConfigureDevice d = { e with conf := d.getLsbD 0 } := rfl

/-- Settles O12: one lemma for the effect of each code. -/
theorem writeDataPhase : Obligations.WriteDataPhase := by
  unfold Obligations.WriteDataPhase
  intro d s hk
  rw [show s.cfg.toChip = Config.chip from hk]
  refine ⟨fun i hc => ?_, fun hc => ?_, fun hc => ?_⟩
  · rw [exec_wrdata d hk hc, writeData_setEpStatus]
    rfl
  · rw [exec_wrdata d hk hc, writeData_setAddress]
    rfl
  · rw [exec_wrdata d hk hc, writeData_configureDevice]
    rfl

/-- The size of an index not marked in REALIZE is stored, and nothing else happens (R184). -/
theorem setMps_unmarked {i : Idx} (m : Mps) (h : e.realize.getLsbD i.toNat = false) :
    e.setMps chip i m = e.setEp i { e.epAt i with mps := m } := by
  rw [Eng.setMps, h]
  rfl

/-- A marked index is confirmed, and emptied the first time (R206). -/
theorem setMps_marked {i : Idx} (m : Mps) (h : e.realize.getLsbD i.toNat = true) :
    e.setMps chip i m = { e.setEp i (e.sized i m) with
      rlzd := setBit e.rlzd i.toNat, devintst := setBit e.devintst chip.bitEPRLZD } := by
  rw [Eng.setMps, if_pos h]
  rfl

/-- Settles O13: the two clauses are `setMps_unmarked` and `setMps_marked`. -/
theorem setMaxPacket : Obligations.SetMaxPacket := by
  unfold Obligations.SetMaxPacket
  intro i d s hk hc
  rw [show s.cfg.toChip = Config.chip from hk] at hc ⊢
  rw [exec_wrdata d hk hc, writeData_setMaxpkt]
  refine ⟨fun h => ?_, fun h => ?_⟩
  · rw [setMps_unmarked _ h]
    rfl
  · rw [setMps_marked _ h]
    rfl

end Sys2Proof.Machine
end

section
/-! SUPPORT. The primitives of the command interface (O23 to O25), EpWrite (O34) and configureForSetting (O36), run undisturbed. -/

namespace Sys2Proof.Machine

variable {s : State}

/-! ## command(code) (R172) -/

/-- A listed code without an effect in its command phase is latched (R181). -/
theorem complete_latches {c : Byte} (w : Word) (e : Eng) (hc : isCommandCode Config.chip c = true)
    (hsel : c.extractLsb' 5 3 ≠ 0#3) (hclear : c ≠ Config.chip.codeClearBuffer) (hvalid : c ≠ Config.chip.codeValidateBuffer) :
    e.complete Config.chip (decodeCommandCode Config.chip c w) = e.endCommand Config.chip c := by
  have hsel' : hasBase Config.chip.codeSelectEp c = false := by rw [hasBase_select]; exact beq_eq_false_iff_ne.mpr hsel
  simp only [isCommandCode, hsel', Bool.false_or, Bool.or_eq_true, beq_iff_eq] at hc
  rw [decodeCommandCode, hsel', if_neg Bool.false_ne_true]
  split_ifs with hstat hmps haddr hconf hdev
  · rw [Eng.complete, Eng.completeSetEpStatus, codeWithIdx_indexIn hstat]
  · rw [Eng.complete, Eng.completeSetMaxpkt, codeWithIdx_indexIn hmps]
  · rw [haddr]; rfl
  · rw [hconf]; rfl
  · rw [hdev]; rfl
  · simp [hstat, hmps, haddr, hconf, hclear, hvalid, hdev] at hc

/-- A code that R124 does not list only ends its phase (R193). -/
theorem complete_unlisted {c : Byte} (e : Eng) (hc : isCommandCode Config.chip c = false) :
    e.complete Config.chip (decodeCmdw Config.chip (cmdWord Config.chip c)) = e.endWrite Config.chip := by
  have hphase : (cmdWord Config.chip c).extractLsb' 8 8 = Config.chip.phCmd := by revert c; decide +kernel
  rw [decodeCmdw_cmdWord, decodeCommandCode_unlisted _ hc, Eng.complete, completeReserved_ends e (.inl hphase)]

/-- Settles O23: one clause for each kind of completion. -/
theorem commandCall : Obligations.CommandCall := by
  unfold Obligations.CommandCall
  intro c s ho hk hc
  have run {t : State} (h : command Config.chip c s = .ok () t) : exec (.command c) s = .next t :=
    runCall_spec (m := fun chip => command chip c) hk ho h
  rw [show s.cfg.toChip = Config.chip from hk]
  have ⟨_, _, hpend⟩ := hc
  refine ⟨?_, ?_, ?_, fun hlisted hsel hclear hvalid => run ?_, fun hunlisted => run ?_⟩
  · rintro i rfl
    exact run (command_selectEp hc)
  · rintro rfl
    exact run (command_clearBuffer hc)
  · rintro rfl hsel hin hclosed hacc hfits hshort
    have hv : (s.eng.quiet Config.chip).mayValidate Config.chip = true :=
      mayValidate_iff.mpr ⟨hsel, hin, hclosed, hacc, hfits, hshort⟩
    rw [run (command_validateBuffer hc), validateBuffer_exact hv]
    rfl
  · rw [command_calm hc, decodeCmdw_cmdWord, complete_latches _ _ hlisted hsel hclear hvalid, Eng.endCommand, Eng.primed,
      Eng.quiet, hpend]
  · rw [command_calm hc, complete_unlisted _ hunlisted, Eng.endWrite, Eng.primed, Eng.quiet, hpend]

/-! ## commandWrite(code, data) (R173) -/

/-- A flag outside a mask is raised before or after the mask's flags are cleared. -/
theorem setBit_outside {n : Nat} (x m : BitVec n) {k : Nat} (hk : m.getLsbD k = false) :
    setBit x k &&& ~~~m = setBit (x &&& ~~~m) k := by
  apply BitVec.eq_of_getLsbD_eq
  intro j hj
  simp only [BitVec.getLsbD_and, BitVec.getLsbD_not, setBit_getLsbD, hj, decide_true, Bool.true_and]
  by_cases h : k = j
  · subst h; simp [hk]
  · simp [h]

/-- Settles O24: the effect of SET_MAXPKT is that of `setMps_unmarked` or `setMps_marked`, the others are their primitives. -/
theorem commandWriteCall : Obligations.CommandWriteCall := by
  unfold Obligations.CommandWriteCall
  intro d s ho hk hc
  have run {c : Byte} {t : State} (h : commandWrite Config.chip c d s = .ok () t) : exec (.commandWrite c d) s = .next t :=
    runCall_spec (m := fun chip => commandWrite chip c d) hk ho h
  have hrlzd : (phaseFlags Config.chip).getLsbD Config.chip.bitEPRLZD = false := by decide
  rw [show s.cfg.toChip = Config.chip from hk]
  refine ⟨fun i => run (commandWrite_status hc), fun i h => ?_, fun i h => ?_, run (commandWrite_address hc),
    run (commandWrite_configure hc)⟩
  · rw [run (commandWrite_maxpkt hc), setMps_unmarked _ h]
    rfl
  · rw [run (commandWrite_maxpkt hc), setMps_marked _ h]
    simp only [Eng.quiet, setBit_outside _ _ hrlzd]
    rfl

/-! ## commandRead(code) (R174) -/

/-- ENG after `commandRead(GET_DEV_STATUS)`, field by field (R187). -/
theorem afterDevStatus_answered (e : Eng) (v : Half) : (e.afterDevStatus Config.chip).answered Config.chip v =
    { e.answered Config.chip v with
      devstat := e.devstat &&& 0b00101#5
      dsAck := false
      devstatPoison := e.devstatPoison || (e.devintst.getLsbD 3 && !e.dsAck)
      fresh := e.fresh + e.devstatPoison.toNat } := by
  simp only [Eng.afterDevStatus, Eng.answered, Eng.quiet, devLevels_eq, fresh_of_poison]
  rfl

/-- Settles O25. -/
theorem commandReadCall : Obligations.CommandReadCall := by
  unfold Obligations.CommandReadCall
  intro s ho hk hc
  have run {c : Byte} {v : Half} {t : State} (h : commandRead Config.chip c s = .ok v t) :
      exec (.commandRead c) s = .next { t with ret := .data v } :=
    runCall_spec (m := fun chip => do let v ← commandRead chip c; setRet (.data v)) hk ho (run_bind_ok h)
  rw [show s.cfg.toChip = Config.chip from hk]
  refine ⟨?_, s.eng.devStatusBits, devStatusBits_clean, ?_⟩
  · rintro i v rfl
    exact run (commandRead_select hc)
  · rw [run (commandRead_devStatus hc), afterDevStatus_answered, devStatusValue_eq]

/-! ## EpWrite and configureForSetting (R220, R355, R356) -/

/-- Settles O34: a packet that fits (`epWrite_calm`), or one that does not (`epWrite_over`). -/
theorem epWriteCall : Obligations.EpWriteCall := by
  unfold Obligations.EpWriteCall
  intro a bytes s ho hk hc ha
  have run {t : State} (h : epWrite Config.chip a bytes s = .ok () t) : exec (.epWrite a bytes) s = .next t :=
    runCall_spec (m := fun chip => epWrite chip a bytes) hk ho h
  rw [show s.cfg.toChip = Config.chip from hk]
  exact ⟨fun hfits => run (epWrite_calm hc ha hfits),
    fun hover => ⟨Config.freePacket s.eng.fresh, freePacket_short _, run (epWrite_over hc ha hover)⟩⟩

/-- Settles O36: `configureForSetting` is the walk where the configuration is not 0. -/
theorem configureForSetting_call : Obligations.ConfigureForSetting := by
  unfold Obligations.ConfigureForSetting
  intro a s ho hk hc
  rw [show s.cfg.toChip = Config.chip from hk]
  refine ⟨runCall_spec (m := unconfigure) hk ho (unconfigure_calm hc), fun c offs h0 hw hf => ?_⟩
  refine runCall_spec (m := fun chip => configureForSetting chip c a) (a := ()) hk ho ?_
  rw [configureForSetting, if_neg h0]
  exact configureWalk_calm hc hw hf

end Sys2Proof.Machine
end

section
/-! SUPPORT. Operations of an ENG that answers return (O59); with one that never answers a command hangs, and a hang is for ever
(O60). -/

namespace Sys2Proof.Machine

variable {α : Type} {s t : State}

/-! ## Every operation returns (R175, R176) -/

/-- An operation that runs to its end, called, returns. -/
theorem call_returns {m : Chip → SeqM α} (hk : s.specChip) (ho : s.mayOperate = true) (hr : s.cfg.engResponsive = true)
    (hp : s.eng.pend = none) (hm : RunsAny (m Config.chip)) :
    ∃ t, runCall (m s.cfg.toChip) s = .next t ∧ t.hung = s.hung ∧ t.eng.pend = none := by
  obtain ⟨a, t, hrun, hpend, -, hseq⟩ := hm s hr hp trivial
  exact ⟨t, runCall_spec hk ho hrun, hseq.responsive.2, hpend⟩

/-- So does one that hands its result back. -/
theorem call_returns_value {m : Chip → SeqM α} (f : α → Ret) (hk : s.specChip) (ho : s.mayOperate = true)
    (hr : s.cfg.engResponsive = true) (hp : s.eng.pend = none) (hm : RunsAny (m Config.chip)) :
    ∃ t, runCall (m s.cfg.toChip >>= fun a => setRet (f a)) s = .next t ∧ t.hung = s.hung ∧ t.eng.pend = none := by
  obtain ⟨a, t, hrun, hpend, -, hseq⟩ := hm s hr hp trivial
  exact ⟨{ t with ret := f a }, runCall_spec (m := fun chip => m chip >>= fun a => setRet (f a)) hk ho (run_bind_ok hrun),
    hseq.responsive.2, hpend⟩

/-- Settles O59: each operation runs to its end, whatever ENG and WIRE do (`Runs`). -/
theorem operationsReturn : Obligations.OperationsReturn := by
  unfold Obligations.OperationsReturn
  rintro i s hk ho hr hp (⟨c, d, rfl | rfl | rfl⟩ | ⟨a, m, rfl | rfl | rfl | rfl⟩ | ⟨a, n, bs, rfl | rfl⟩)
  · exact call_returns (m := fun chip => command chip c) hk ho hr hp (runs_command c)
  · exact call_returns (m := fun chip => commandWrite chip c d) hk ho hr hp (runs_commandWrite c d)
  · exact call_returns_value (m := fun chip => commandRead chip c) .data hk ho hr hp (runs_commandRead c)
  · exact call_returns (m := fun chip => configureEndpoint chip a m) hk ho hr hp (runs_configureEndpoint a m)
  · exact call_returns (m := fun chip => stall chip a) hk ho hr hp (runs_commandWrite _ _)
  · exact call_returns (m := fun chip => unstall chip a) hk ho hr hp (runs_commandWrite _ _)
  · exact call_returns_value (m := fun chip => getStatus chip a) .status hk ho hr hp (runs_getStatus a)
  · exact call_returns_value (m := fun chip => epRead chip a n) .bytes hk ho hr hp (runs_epRead a n)
  · exact call_returns (m := fun chip => epWrite chip a bs) hk ho hr hp (runs_epWrite a bs)

/-! ## A command to an ENG that never answers (R175, R403) -/

/-- An ENG that is not responsive makes no step (R175). -/
theorem engMove_silent {chip : Chip} (hr : s.cfg.engResponsive = false) : engMove chip s = s := by
  simp [engMove, Eng.advance, Eng.ready, hr]

/-- Then a wait for a clear flag is for ever. -/
theorem waitFlag_silent {chip : Chip} {b : Nat} (hs : s.slots = []) (hr : s.cfg.engResponsive = false)
    (hb : s.eng.devintst.getLsbD b = false) : waitFlag chip b s = .error (.hang b) s := by
  simp [waitFlag, beforeAccess_nil hs, engMove_silent hr, hb]

/-- A phase hangs, its word accepted and never completed. -/
theorem phase_silent {w : Word} {b : Nat} (hs : s.slots = []) (hr : s.cfg.engResponsive = false) (hp : s.eng.pend = none)
    (hb : s.eng.devintst.getLsbD b = false) :
    phase Config.chip w b s = .error (.hang b) { s with eng := s.eng.accept w } := by
  have haccept : s.eng.writeReg Config.chip .CMDCODE (w.setWidth Config.regMax) = .ok (s.eng.accept w) := by
    simp [Eng.writeReg, hp]
  rw [phase, run_bind_ok (regWrite_calm hs haccept)]
  exact run_bind_error (waitFlag_silent (s := { s with eng := s.eng.accept w }) hs hr hb)

/-- A command clears the flags and hangs in its command phase. -/
theorem command_silent {c : Byte} (hs : s.slots = []) (hr : s.cfg.engResponsive = false) (hp : s.eng.pend = none) :
    command Config.chip c s = .error (.hang Config.chip.bitCCEMPTY)
      { s with eng := s.eng.primed (cmdWord Config.chip c) } := by
  rw [command, run_bind_ok (regWrite_calm hs rfl), writeDevintclr_phaseFlags]
  exact phase_silent (s := { s with eng := { s.eng with devintst := s.eng.devintst &&& ~~~(phaseFlags Config.chip) } })
    hs hr hp (phaseFlags_clear _).1

/-- `commandWrite` and `commandRead` begin as `command` does (R172 to R174). -/
theorem commandWrite_eq (chip : Chip) (c : Byte) (d : Half) :
    commandWrite chip c d = command chip c >>= fun _ => phase chip (wrWord chip d) chip.bitCCEMPTY := by
  simp only [commandWrite, command, bind_assoc]

theorem commandRead_eq (chip : Chip) (c : Byte) :
    commandRead chip c = command chip c >>= fun _ => (do
      phase chip (rdWord chip c) chip.bitCDFULL
      let v ← regRead chip .CMDDATA
      pure (v.extractLsb' 0 16)) := by
  simp only [commandRead, command, bind_assoc]

/-- An operation that hangs, called. -/
theorem runCall_hang {m : Chip → SeqM α} {b : Nat} (hk : s.specChip) (ho : s.mayOperate = true)
    (h : m Config.chip s = .error (.hang b) t) : runCall (m s.cfg.toChip) s = .next (hangState b t) := by
  rw [show s.cfg.toChip = Config.chip from hk, runCall_open ho, runSeq_hang h]

/-- Every primitive hangs where `command` does. -/
theorem exec_primitive_silent {c : Byte} {d : Half} {i : Instr} (hi : i = .command c ∨ i = .commandWrite c d ∨ i = .commandRead c)
    (hk : s.specChip) (ho : s.mayOperate = true) (hs : s.slots = []) (hr : s.cfg.engResponsive = false)
    (hp : s.eng.pend = none) :
    exec i s = .next (hangState Config.chip.bitCCEMPTY { s with eng := s.eng.primed (cmdWord Config.chip c) }) := by
  have h := command_silent (c := c) hs hr hp
  rcases hi with rfl | rfl | rfl
  · exact runCall_hang (m := fun chip => command chip c) hk ho h
  · exact runCall_hang (m := fun chip => commandWrite chip c d) hk ho (by rw [commandWrite_eq]; exact run_bind_error h)
  · exact runCall_hang (m := fun chip => commandRead chip c >>= fun v => setRet (.data v)) hk ho
      (run_bind_error (by rw [commandRead_eq]; exact run_bind_error h))

/-! ## A hang is for ever (R403) -/

/-- Only ENG and WIRE moved: SEQ's and APP's state is as it was (log 6). -/
def SilentStep (s t : State) : Prop :=
  { s with eng := t.eng, turns := t.turns, slots := t.slots, wireLog := t.wireLog } = t

/-- A completion of ENG, the inputs moved on. -/
theorem exec_phase_silentStep (p : PhaseWord) (ts : List Turn) :
    ∃ t, exec p.toInstr { s with turns := ts } = .next t ∧ SilentStep s t :=
  ⟨_, exec_phase p _, rfl⟩

/-- An event of the host or the cable, the inputs moved on. -/
theorem exec_wire_silentStep (ev : WireEvent) (ts : List Turn) :
    ∃ t, exec ev.toInstr { s with turns := ts } = .next t ∧ SilentStep s t := by
  refine ⟨_, exec_wireEvent ev _, ?_⟩
  show SilentStep s (wireState ev (s.eng.wire s.cfg.toChip ev) { s with turns := ts })
  cases s.eng.wire s.cfg.toChip ev <;> rfl

/-- SEQ's turn is nothing once it hangs. -/
theorem fetchSeq_hung {b : Nat} (h : s.hung = some b) : (fetchSeq s).out = .next s := by
  rw [fetchSeq, h]
  rfl

/-- What a step of a hung machine does, by whose turn it is. -/
theorem step_hung {b : Nat} (h : s.hung = some b) : ∃ t, step s = .next t ∧ SilentStep s t := by
  rw [step_eq, fetch.eq_def]
  cases ht : s.turns with
  | nil =>
    cases s.eng.ready s.cfg.toChip s.cfg.engResponsive with
    | some p => exact exec_phase_silentStep p s.turns
    | none => exact ⟨s, fetchSeq_hung h, rfl⟩
  | cons turn ts =>
    cases turn with
    | wire ev => exact exec_wire_silentStep ev ts
    | eng =>
      simp only [fetchEng]
      cases s.eng.ready s.cfg.toChip s.cfg.engResponsive with
      | some p => exact exec_phase_silentStep p ts
      | none => exact ⟨{ s with turns := ts }, rfl, rfl⟩
    | seq inter => exact ⟨{ s with turns := ts, slots := inter }, fetchSeq_hung h, rfl⟩
    | call i inter => exact ⟨{ s with turns := ts }, by simp only [h]; rfl, rfl⟩
    | app a inter => exact ⟨{ s with turns := ts }, by simp only [h]; rfl, rfl⟩

/-- Settles O60: the hang in the command phase (`exec_primitive_silent`), and the steps after a hang (`step_hung`). -/
theorem hangForEver : Obligations.HangForEver := by
  unfold Obligations.HangForEver
  refine ⟨fun c d i s hi hk ho hs hr hp => ?_, fun b s h => step_hung h⟩
  rw [exec_primitive_silent hi hk ho hs hr hp, show s.cfg.toChip = Config.chip from hk]
  rfl

end Sys2Proof.Machine
end

section
/-! SUPPORT. The Endpoint Manager's calls that write a halt bit (O30), register a handler (O32) and read a packet (O33). -/

namespace Sys2Proof.Machine

variable {s : State}

/-! ## stall and unstall (R208, R209) -/

theorem haltOperand_bit (b : Bool) : (flagAt Config.chip.bitHALT b : Half).getLsbD 0 = b := by
  revert b; decide

/-- The command both calls are: SET_EP_STATUS writes the halt bit of its index (R190). -/
theorem setHalt_calm {i : Idx} (b : Bool) (hc : s.calm) :
    commandWrite Config.chip (codeWithIdx Config.chip.codeSetEpStatus i) (flagAt Config.chip.bitHALT b) s =
      .ok () { s with eng := (s.eng.quiet Config.chip).setEp i { s.eng.epAt i with stalled := b } } := by
  rw [commandWrite_status hc, haltOperand_bit]
  rfl

/-- Settles O30: each call is `setHalt_calm` with its own bit. -/
theorem stallUnstall : Obligations.StallUnstall := by
  unfold Obligations.StallUnstall
  intro a s ho hk hc
  rw [show s.cfg.toChip = Config.chip from hk]
  exact ⟨runCall_spec (m := fun chip => stall chip a) hk ho (setHalt_calm true hc),
    runCall_spec (m := fun chip => unstall chip a) hk ho (setHalt_calm false hc)⟩

/-! ## registerHandler (R214) -/

/-- Settles O32: the new table is the old one with the slot of the address set (`hndAt_set`). -/
theorem registerHandler_call : Obligations.RegisterHandler := by
  unfold Obligations.RegisterHandler
  intro a h s ho
  exact ⟨_, runCall_ok ho (run_modify _ s), fun j => hndAt_set s (epIdx a) j h⟩

/-! ## EpRead (R216, R217) -/

/-- Settles O33: the packet drained and the buffer released (`epRead_calm`), then handed to APP. -/
theorem epReadCall : Obligations.EpReadCall := by
  unfold Obligations.EpReadCall
  intro a maxlen s ho hk hc ha hlen
  rw [show s.cfg.toChip = Config.chip from hk]
  exact runCall_spec (m := fun chip => do let bs ← epRead chip a maxlen; setRet (.bytes bs)) hk ho
    (run_bind_ok (epRead_calm hc ha hlen))

end Sys2Proof.Machine
end

section
/-! SUPPORT. The Interrupt Dispatcher's scan and exit (O9), and its frame and endpoint arms (O52). -/

namespace Sys2Proof.Machine

variable {chip : Chip} {s : State}

/-! ## The scan of EPINTST (R238, R239) -/

/-- The moves of ENG and WIRE before an access leave SEQ's frames. -/
theorem beforeAccess_frames (s : State) : (beforeAccess chip s).frames = s.frames := by
  rw [← (kept_beforeAccess (chip := chip) s).seq]

/-- A scan step tests its bit as EPINTST stands after the moves before the access; the scan of the next index stays below the
event of a set bit (R238, R239). -/
theorem scanStep_run (i : Nat) (s : State) :
    scanStep chip i s = .ok () { beforeAccess chip s with
      frames := if (beforeAccess chip s).eng.epintst.getLsbD i then .epEvent (BitVec.ofNat 5 i) :: .scan (i + 1) :: s.frames
        else .scan (i + 1) :: s.frames } := by
  have hread : regRead chip .EPINTST s =
      .ok ((beforeAccess chip s).eng.epintst.setWidth Config.regMax) (beforeAccess chip s) := rfl
  rw [scanStep, run_bind_ok hread, reg_word_getLsbD, ← beforeAccess_frames (chip := chip) s]
  split <;> rfl

/-! ## The end of a pass (R232, R242) -/

/-- A snapshot with none of the three flags selects no arm (R140). -/
theorem decodeDevint_none {w : RegWord} (hframe : w.getLsbD chip.bitFRAME = false)
    (hdev : w.getLsbD chip.bitDEVSTAT = false) (hep : w.getLsbD chip.bitEP = false) : decodeDevint chip w = none := by
  simp [decodeDevint, hframe, hdev, hep]

/-- With no arm left the pass returns (R242). -/
theorem fetchArm_exit {tested w : RegWord} (hsnap : s.snap = some w)
    (h : decodeDevint s.cfg.toChip (w &&& ~~~tested) = none) : fetchArm tested s = .done (.next (exitPass s)) := by
  rw [fetchArm, hsnap, Option.getD_some, h]

/-- Settles O9: a scan step is `scanStep_run` below 32, and the arms end where none decodes (`fetchArm_exit`). -/
theorem scanAndExit : Obligations.ScanAndExit := by
  unfold Obligations.ScanAndExit
  intro s s' f rest hturn hh hf
  rw [step_frame hturn hh hf]
  obtain ⟨ts, sl, rfl⟩ := seqTurn_inputs hturn
  refine ⟨?_, ?_, ?_⟩
  · rintro i rfl hi t rfl
    rw [fetchFrame, if_pos (by exact hi)]
    exact runSeq_ok (scanStep_run i _)
  · rintro i rfl hi
    rw [fetchFrame, if_neg (by exact Nat.not_lt.mpr hi)]
    rfl
  · rintro tested w rfl hsnap hframe hep hdev
    exact congrArg Fetched.out (fetchArm_exit (s := { s with turns := ts, slots := sl, frames := rest }) hsnap
      (decodeDevint_none hframe hdev hep))

/-! ## The frame and the endpoint arm (R233, R234, R237, R238) -/

/-- A clear of DEVINTST that leaves DEV_STAT alone writes nothing but the flags (R43). -/
theorem writeDevintclr_keeps_dsAck {v : RegWord} (e : Eng) (h : v.getLsbD chip.bitDEVSTAT = false) :
    e.writeDevintclr chip v = { e with devintst := e.devintst &&& ~~~v } := by
  rw [Eng.writeDevintclr, h, Bool.or_false]

/-- The arm's clear of its own flag, undisturbed. -/
theorem regWrite_devintclr {v : RegWord} (hs : s.slots = []) (h : v.getLsbD chip.bitDEVSTAT = false) :
    regWrite chip .DEVINTCLR v s = .ok () { s with eng := { s.eng with devintst := s.eng.devintst &&& ~~~v } } :=
  regWrite_calm hs (congrArg Except.ok (writeDevintclr_keeps_dsAck s.eng h))

/-- The frame arm: its flag cleared, then the hook, where one is installed (R233, R234). -/
theorem frameArm_run (hs : s.slots = []) :
    frameArm Config.chip s = .ok () { s with
      eng := { s.eng with devintst := s.eng.devintst &&& ~~~0x00000001#64 }
      hookLog := match s.hSof with
        | some id => .sof id :: s.hookLog
        | none => s.hookLog } := by
  unfold frameArm
  rw [run_bind_ok (regWrite_devintclr hs (by decide)), run_get_bind]
  dsimp only
  cases s.hSof <;> rfl

/-- The endpoint arm: the umbrella flag cleared, then the scan from index 0 (R237, R238). -/
theorem endpointArm_run (hs : s.slots = []) :
    endpointArm Config.chip s = .ok () { s with
      eng := { s.eng with devintst := s.eng.devintst &&& ~~~0x00000004#64 }
      frames := .scan 0 :: s.frames } :=
  run_bind_ok (regWrite_devintclr hs (by decide))

/-- Settles O52: each arm is its own computation run undisturbed. -/
theorem frameAndEndpointArms : Obligations.FrameAndEndpointArms := by
  unfold Obligations.FrameAndEndpointArms
  intro s hk hs
  exact ⟨runSeq_spec (m := frameArm) hk (frameArm_run hs), runSeq_spec (m := endpointArm) hk (endpointArm_run hs)⟩

end Sys2Proof.Machine
end

section
/-! SUPPORT. The Control Transfer Engine: StallControl (O39) and DispatchNow (O37) called, the reply of OnOutData (O41), the OUT
data and OUT status events (O43, O44), and the packets of a whole reply (O57). -/

namespace Sys2Proof.Machine

variable {s t : State}

/-! ## DispatchNow and StallControl, called (R264, R270) -/

/-- Settles O37: up to the dispatch the call only writes CT and pushes its two frames. -/
theorem dispatchNow_call : Obligations.DispatchNow := by
  unfold Obligations.DispatchNow
  intro s ho
  exact runCall_ok ho (rfl : dispatchNow s = .ok () _)

/-- Settles O39: the call is `stallControl_calm`. -/
theorem stallControlCall : Obligations.StallControlCall := by
  unfold Obligations.StallControlCall
  intro s ho hk hc
  exact runCall_spec (m := stallControl) hk ho (stallControl_calm hk hc)

/-! ## OnOutData's reply (R269, R270) -/

/-- SEQ's turn at the reply of OnOutData. -/
theorem step_replyOut {rest : List Frame} (hturn : seqTurn s t) (hh : s.hung = none) (hf : s.frames = .replyOut :: rest)
    (hk : s.specChip) : step s = runSeq (replyOut Config.chip) { t with frames := rest } := by
  rw [step_frame hturn hh hf]
  obtain ⟨ts, sl, rfl⟩ := seqTurn_inputs hturn
  rw [← show s.cfg.toChip = Config.chip from hk]
  rfl

/-- A failed dispatch aborts the transfer (R269, R270). -/
theorem replyOut_fail {chip : Chip} (hr : s.result = .fail) : replyOut chip s = stallControl chip s := by
  rw [replyOut, run_get_bind, hr]

/-- After a dispatch that answered, DataIn sends from the status stage (R269). -/
theorem replyOut_ok {chip : Chip} (hr : s.result = .ok) :
    replyOut chip s = dataIn chip { s with ct := { s.ct with phase := .statusStage } } := by
  simp only [replyOut, modifyCt, run_get_bind, hr, run_modify_bind]

/-- With nothing left DataIn sends a zero-length packet, and CT stays (R268). -/
theorem dataIn_empty (hk : s.specChip) (hc : s.calm) (h0 : s.ct.resid = 0#16) :
    dataIn Config.chip s = .ok () { s with eng := s.eng.armed s.cfg.toChip 1#5 [] } := by
  have hlen : s.chunkLen = 0 := by simp [State.chunkLen, h0]
  have hbytes : s.bytesAt s.ct.ptr s.chunkLen = some ([], s.fresh) := by rw [hlen]; rfl
  rw [dataIn_calm hk hc (by rw [hlen]; exact Nat.zero_le _) hbytes, hlen]
  simp [State.sent]

/-- Settles O41: the abort (`stallControl_calm`), or the zero-length response (`dataIn_empty`). -/
theorem statusReply : Obligations.StatusReply := by
  unfold Obligations.StatusReply
  intro s s' rest hturn hh hf hk hc
  rw [step_replyOut hturn hh hf hk]
  obtain ⟨ts, sl, rfl⟩ := seqTurn_inputs hturn
  refine ⟨fun hr => ?_, fun hr h0 => ?_⟩
  · exact runSeq_ok ((replyOut_fail (by exact hr)).trans (stallControl_calm (by exact hk) (by exact hc)))
  · exact runSeq_ok ((replyOut_ok (by exact hr)).trans (dataIn_empty (by exact hk) (by exact hc) (by exact h0)))

/-! ## OUT_DATA_EVENT (R269, R404) -/

/-- Through a pointer into STAGE, received bytes are stored there, or there are none (R81). -/
theorem memWrite_stage {p : Ptr} {bs : List Byte} (hp : p.space = .stage) : memWrite p bs s = stageWrite p.off bs s := by
  unfold memWrite stageWrite
  rw [hp]
  split <;> rfl

/-- `EpRead` of endpoint 0 OUT takes at most `n` bytes and releases the buffer (R216). -/
theorem epRead_control {n : Nat} (hc : s.calm) (hlen : (s.eng.epAt 0#5).buf.packet.length ≤ 1023) :
    epRead Config.chip 0x00#8 n s = .ok ((s.eng.epAt 0#5).buf.packet.take n)
      { s with eng := s.eng.released Config.chip 0#5 } := by
  have hidx : epIdx 0x00#8 = 0#5 := by decide
  have hrun := epRead_calm (a := 0x00#8) (maxlen := n) hc (by decide) (by rw [hidx]; exact hlen)
  rwa [hidx] at hrun

section
variable {bs : List Byte} (hc : s.calm) (hp : s.ct.ptr.space = .stage)
  (hlen : (s.eng.epAt 0#5).buf.packet.length ≤ 1023) (hbs : bs = (s.eng.epAt 0#5).buf.packet.take s.ct.resid.toNat)
include hc hp hlen hbs

/-- `OnOutData()` up to the choice of R269: the bytes are stored, CT has moved past them, the buffer is released. -/
theorem onOutData_stored (hfit : bs = [] ∨ s.ct.ptr.off + bs.length ≤ s.cfg.stageCap) :
    onOutData Config.chip s =
      (if s.ct.resid - BitVec.ofNat 16 bs.length = 0#16 then startDispatch .replyOut else pure ())
        { s with
          eng := s.eng.released Config.chip 0#5
          stage := Memory.writeList s.stage s.ct.ptr.off bs
          ct := s.ct.moved bs.length } := by
  unfold onOutData
  rw [run_get_bind, run_bind_ok (epRead_control hc hlen), ← hbs,
    run_bind_ok ((memWrite_stage hp).trans (stageWrite_fits (by exact hfit)))]
  rfl

/-- Bytes that reach past STAGE_CAP are the fault (R404). -/
theorem onOutData_overrun (h0 : bs ≠ []) (hover : s.cfg.stageCap < s.ct.ptr.off + bs.length)
    (hd : s.cfg.overrunDrops = false) : ∃ t, onOutData Config.chip s = .error (.fault .bufferOverrun) t := by
  unfold onOutData
  rw [run_get_bind, run_bind_ok (epRead_control hc hlen), ← hbs]
  exact ⟨_, run_bind_error ((memWrite_stage hp).trans (stageWrite_overrun h0 hover hd))⟩

end

theorem exec_outDataEvent (st : BitVec 5) (hk : s.specChip) :
    exec (.outDataEvent st) s = runSeq (onOutData Config.chip) s := by
  rw [← show s.cfg.toChip = Config.chip from hk]
  rfl

/-- Settles O43: the bytes stored (`onOutData_stored`) and then the choice of R269, or the fault (`onOutData_overrun`). -/
theorem outDataEvent : Obligations.OutDataEvent := by
  unfold Obligations.OutDataEvent
  intro st s bs hk hc hp hw hlen hbs
  rw [exec_outDataEvent st hk, show s.cfg.toChip = Config.chip from hk]
  refine ⟨fun hfit => ⟨Memory.writeList s.stage s.ct.ptr.off bs, fun a => Memory.read_writeList _ _ a _ hw, ?_⟩,
    fun h0 hover hd => ?_⟩
  · have hrun := onOutData_stored hc hp hlen hbs hfit
    split
    case isTrue hdone =>
      rw [if_pos hdone] at hrun
      rw [← hdone]
      exact runSeq_ok hrun
    case isFalse hleft =>
      rw [if_neg hleft] at hrun
      exact runSeq_ok hrun
  · obtain ⟨t, hrun⟩ := onOutData_overrun hc hp hlen hbs h0 hover hd
    exact runSeq_fault hrun

/-! ## OUT_STATUS_EVENT (R271) -/

/-- Settles O44: the packet is taken off (`epRead_control`), and the phase is all that is written of CT. -/
theorem outStatusEvent : Obligations.OutStatusEvent := by
  unfold Obligations.OutStatusEvent
  intro st s hk hc hlen
  rw [show s.cfg.toChip = Config.chip from hk]
  exact runSeq_spec (m := onOutStatus) hk (run_bind_ok (epRead_control hc hlen))

/-! ## The packets of a reply (R268, R272, R273, R374) -/

/-- `j` packets of a reply that starts at `p` were given to endpoint 0 IN, and the host can take them: CT stands after their
bytes, and the rest can be read. -/
structure PacketsSent (m : Nat) (reply : List Byte) (p : Ptr) (j : Nat) (s : State) : Prop where
  spec : s.specChip
  calm : s.calm
  m0 : s.cfg.m0 = m
  fits : m ≤ (s.eng.epAt 1#5).mps.toNat
  unstalled : (s.eng.epAt 1#5).stalled = false
  host : reachable Config.chip 0#4 1#5 s.eng
  ptr : s.ct.ptr = { p with off := p.off + min (j * m) reply.length }
  resid : s.ct.resid.toNat = reply.length - min (j * m) reply.length
  readable : ∀ k n, 0 < n → k + n ≤ reply.length →
    s.bytesAt { p with off := p.off + k } n = some ((reply.drop k).take n, s.fresh)

/-- The buffer of endpoint 0 IN holds packet `j`, the last given. -/
structure PacketWaits (m : Nat) (reply : List Byte) (p : Ptr) (j : Nat) (s : State) : Prop where
  sent : PacketsSent m reply p (j + 1) s
  buf : (s.eng.epAt 1#5).buf = .full (packetAt m reply j) false

variable {m j : Nat} {reply : List Byte} {p : Ptr}

/-- Bytes sent after one packet more. -/
theorem sentBytes_succ (m len j : Nat) :
    min (j * m) len + min m (len - min (j * m) len) = min ((j + 1) * m) len := by
  rw [Nat.succ_mul]; omega

theorem armed_epAt (chip : Chip) (i : Idx) (bs : List Byte) (e : Eng) :
    (e.armed chip i bs).epAt i = { e.epAt i with buf := .full bs false } := epAt_setEp_same (e.quiet chip) i _

/-- What arms a buffer ends the use of the port, and leaves the host's way to the index (R371, R379). -/
theorem reachable_armed {chip : Chip} {num : BitVec 4} {i k : Idx} {bs : List Byte} {e : Eng} (h : reachable chip num i e) :
    reachable chip num i (e.armed chip k bs) := by
  obtain ⟨hcon, hsus, hen, hrlzd, hconf, -⟩ := h
  exact ⟨hcon, hsus, hen, hrlzd, hconf, nofun⟩

/-- DataIn gives ENG the next packet. -/
theorem PacketsSent.dataIn_gives (h : PacketsSent m reply p j s) :
    ∃ u, dataIn Config.chip s = .ok () u ∧ PacketWaits m reply p j u := by
  have hrun := send_chunk s h.spec h.calm h.m0 h.fits h.readable (Nat.min_le_right _ _) h.ptr h.resid
  rw [chunk_eq j _ rfl] at hrun
  have hep := armed_epAt s.cfg.toChip 1#5 (packetAt m reply j) s.eng
  refine ⟨_, hrun, ?_, congrArg EpRec.buf hep⟩
  exact {
    spec := h.spec, calm := h.calm, m0 := h.m0, readable := h.readable
    fits := h.fits.trans_eq (congrArg (fun r => r.mps.toNat) hep).symm
    unstalled := (congrArg EpRec.stalled hep).trans h.unstalled
    host := reachable_armed (bs := packetAt m reply j) (k := 1#5) h.host
    ptr := by simp only [State.sent, h.ptr, Nat.add_assoc, sentBytes_succ]
    resid := by
      have hlt := s.ct.resid.isLt
      have hr := h.resid
      have hsucc := sentBytes_succ m reply.length j
      simp only [State.sent, BitVec.toNat_sub, BitVec.toNat_ofNat]
      omega }

/-- The bookkeeping of the phase does not touch the bytes (R280). -/
theorem PacketsSent.inPhase_keeps (h : PacketsSent m reply p j s) (len : Half) :
    PacketsSent m reply p j { s with ct := s.ct.inPhase len } := by
  rw [inPhase_eq]
  exact { h with }

/-- The host takes a full buffer's packet, and the event is raised (R374, R381). -/
theorem exec_wireIn_taken {num : BitVec 4} {bytes : List Byte} {setup : Bool} (hr : reachable s.cfg.toChip num (inIdx num) s.eng)
    (hs : (s.eng.epAt (inIdx num)).stalled = false) (hb : (s.eng.epAt (inIdx num)).buf = .full bytes setup) :
    exec (.wireIn num) s = .next (s.observed (.inn num) (.data bytes)
      (setEpInt s.cfg.toChip (inIdx num)
        (s.eng.setEp (inIdx num) { s.eng.epAt (inIdx num) with buf := .empty, nak := false }))) := by
  have hask : s.eng.wireIn s.cfg.toChip num = some (s.eng.askIn s.cfg.toChip (inIdx num)) := by
    rw [Eng.wireIn, if_pos ((packetEnabled_iff num _ _).mpr hr)]
  show execWireIn num s = _
  rw [execWireIn, hask]
  simp only [Eng.askIn, hs, hb]
  rfl

/-- The host's taking the waiting packet leaves CT and the way to the index. -/
theorem PacketWaits.taken (h : PacketWaits m reply p j s) :
    ∃ t, exec (.wireIn 0#4) s = .next t ∧ t.wireLog = (.inn 0#4, .data (packetAt m reply j)) :: s.wireLog ∧
      PacketsSent m reply p (j + 1) t := by
  have hchip : s.cfg.toChip = Config.chip := h.sent.spec
  have hrun := exec_wireIn_taken (num := 0#4) (by rw [hchip]; exact h.sent.host) h.sent.unstalled h.buf
  refine ⟨_, hrun, rfl, ?_⟩
  have hep := epAt_setEp_same s.eng 1#5 { s.eng.epAt 1#5 with buf := .empty, nak := false }
  exact { h.sent with
    fits := h.sent.fits.trans_eq (congrArg (fun r => r.mps.toNat) hep).symm
    unstalled := (congrArg EpRec.stalled hep).trans h.sent.unstalled }

/-- One round: the host has the waiting packet, and the next one waits. -/
theorem PacketWaits.inRound_takes (h : PacketWaits m reply p j s) :
    ∃ u, inRound s = some (packetAt m reply j, u) ∧ PacketWaits m reply p (j + 1) u := by
  obtain ⟨t, hwire, hlog, ht⟩ := h.taken
  obtain ⟨u, hrun, hu⟩ := (ht.inPhase_keeps (suLength t.su)).dataIn_gives
  have hev : exec (.inEvent 0#5) t = .next u := (exec_inEvent 0#5 ht.spec).trans (runSeq_ok hrun)
  refine ⟨u, ?_, hu⟩
  simp only [inRound, hwire, hlog, hev]

/-- `k` rounds: the host has the next `k` packets. -/
theorem PacketWaits.inRounds_take (k : Nat) (h : PacketWaits m reply p j s) :
    ∃ u, inRounds k s = some ((List.range' j k).map (packetAt m reply), u) := by
  induction k generalizing j s with
  | zero => exact ⟨s, rfl⟩
  | succ k ih =>
    obtain ⟨t, hround, ht⟩ := h.inRound_takes
    obtain ⟨u, hrounds⟩ := ih ht
    refine ⟨u, ?_⟩
    simp only [inRounds, hround, hrounds, Option.map_some, List.range'_succ, List.map_cons]

/-- Settles O57: the reply of DispatchNow gives packet 0 to ENG (`replyNow_ok`), and each round the host takes one and the next
is given (`PacketWaits.inRounds_take`). -/
theorem replyChunks : Obligations.ReplyChunks := by
  unfold Obligations.ReplyChunks
  intro m reply s s' rest hturn hh hf hr hk hc hm0 hfits hstall hreach hlen hread
  rw [step_replyNow hturn hh hf hk]
  obtain ⟨ts, sl, rfl⟩ := seqTurn_inputs hturn
  have hlt := (suLength s.su).isLt
  have hstart : PacketsSent m reply s.ct.ptr 0
      { s with turns := ts, slots := sl, frames := rest, ct := s.ct.clamped (suLength s.su) } := {
    spec := hk, calm := hc, m0 := hm0, fits := hfits, unstalled := hstall, readable := hread
    host := by rw [← show s.cfg.toChip = Config.chip from hk]; exact hreach
    ptr := by simp [Ct.clamped]
    resid := by simp only [Ct.clamped, BitVec.toNat_ofNat, Nat.zero_mul, Nat.zero_min]; omega }
  obtain ⟨t, hrun, ht⟩ := hstart.dataIn_gives
  refine ⟨t, runSeq_ok ((replyNow_ok (by exact hr)).trans hrun), fun k => ?_⟩
  rw [List.range_eq_range']
  exact ht.inRounds_take k

end Sys2Proof.Machine
end

section
/-! SUPPORT. The Standard Request Handler: the cells that only pass or fail (O46), ENDPOINT_HALT and SET_ADDRESS (O48),
GET_DESCRIPTOR.dev (O49), and the request hooks (O51). -/

namespace Sys2Proof.Machine

variable {s s' : State} {f : SetupFields}

/-! ## Cells that only pass or fail (R294) -/

theorem runSeq_failCell (s : State) : runSeq failCell s = .next { s with result := .fail } := rfl

/-- A cell that passes on a condition alone. -/
theorem runSeq_passIf (p : Prop) [Decidable p] (s : State) :
    runSeq (if p then passCell else failCell) s = .next { s with result := if p then .ok else .fail } := by
  split <;> rfl

/-- A row that fails whatever its operands is `failCell`. -/
theorem exec_alwaysFails {i : Instr} (h : Instr.alwaysFails i = true) (s : State) : exec i s = runSeq failCell s := by
  cases i
  case clearFeatureIf | setFeatureIf | setAddressIf | setAddressEp | getDescriptorIf | getDescriptorEp | getConfigurationIf
      | getConfigurationEp | setConfigurationIf | setConfigurationEp | getInterfaceDev | getInterfaceEp | setInterfaceDev
      | setInterfaceEp | setDescriptorDev | setDescriptorIf | setDescriptorEp | synchFrameDev | synchFrameIf | synchFrameEp
      | unknownRequest | recipientOther => rfl
  all_goals exact absurd h Bool.false_ne_true

/-- Settles O46: a failing row is `failCell` (`exec_alwaysFails`), the others choose between the two cells (`runSeq_passIf`). -/
theorem decidedCells : Obligations.DecidedCells := by
  unfold Obligations.DecidedCells
  intro s
  refine ⟨fun i hi => (exec_alwaysFails hi s).trans (runSeq_failCell s), ?_, fun f => runSeq_passIf (f.value = 0#16) s⟩
  rintro i f (rfl | rfl) <;> exact runSeq_passIf (f.value = 1#16 ∨ f.value = 2#16) s

/-! ## ENDPOINT_HALT (R305, R308) -/

/-- CLEAR_FEATURE.ep and SET_FEATURE.ep are one cell, which writes its bit as the halt bit of the addressed endpoint. -/
def haltCell (chip : Chip) (b : Bool) (f : SetupFields) : SeqM Unit :=
  if f.value = Config.featEndpointHalt then do
    commandWrite chip (codeWithIdx chip.codeSetEpStatus (epIdx (indexAddress f))) (flagAt chip.bitHALT b)
    passCell
  else failCell

theorem exec_clearFeatureEp (f : SetupFields) (s : State) :
    exec (.clearFeatureEp f) s = runSeq (haltCell s.cfg.toChip false f) s := rfl

theorem exec_setFeatureEp (f : SetupFields) (s : State) :
    exec (.setFeatureEp f) s = runSeq (haltCell s.cfg.toChip true f) s := rfl

theorem haltCell_run {b : Bool} (hc : s.calm) (h0 : f.value = 0#16) :
    haltCell Config.chip b f s = .ok () { s with
      eng := (s.eng.quiet Config.chip).setEp (epIdx (indexAddress f)) { s.eng.epAt (epIdx (indexAddress f)) with stalled := b }
      result := .ok } := by
  rw [haltCell, if_pos (by exact h0)]
  exact run_bind_ok (setHalt_calm b hc)

/-- Another selector fails, and no command is issued. -/
theorem haltCell_other {chip : Chip} {b : Bool} (h0 : f.value ≠ 0#16) : haltCell chip b f = failCell :=
  if_neg h0

/-! ## SET_ADDRESS (R309) -/

/-- DEVADDR takes DEV_EN = 1 over the low seven bits of the value. -/
theorem addressOperand_toNat (v : Half) :
    ((addressOperand Config.chip v).extractLsb' 0 8).toNat = 128 + v.toNat % 128 := by
  have hlow : ∀ x : BitVec 7,
      ((flagAt Config.chip.bitDEVEN true ||| x.setWidth 16 : Half).extractLsb' 0 8).toNat = 128 + x.toNat := by
    decide +kernel
  rw [addressOperand, hlow, BitVec.extractLsb'_toNat, Nat.shiftRight_zero]

/-- Settles O48: the two ENDPOINT_HALT rows are `haltCell` with their own bit, SET_ADDRESS is its one command. -/
theorem commandingCells : Obligations.CommandingCells := by
  unfold Obligations.CommandingCells
  rintro f s i rfl hk hc
  rw [exec_clearFeatureEp, exec_setFeatureEp, show s.cfg.toChip = Config.chip from hk]
  refine ⟨fun h0 => ⟨runSeq_ok (haltCell_run hc h0), runSeq_ok (haltCell_run hc h0)⟩, fun h0 => ?_,
    (addressOperand Config.chip f.value).extractLsb' 0 8, addressOperand_toNat f.value, ?_⟩
  · rw [haltCell_other h0, haltCell_other h0]
    exact ⟨runSeq_failCell s, runSeq_failCell s⟩
  · exact runSeq_spec
      (m := fun chip => do commandWrite chip chip.codeSetAddress (addressOperand chip f.value); passCell) hk
      (run_bind_ok (commandWrite_address hc))

/-! ## GET_DESCRIPTOR.dev (R312) -/

theorem exec_getDescriptorDev_found {p len : Nat} (h : findDescriptor s.desc f.value f.index = .ok (some (p, len))) :
    exec (.getDescriptorDev f) s = .next { s with
      result := .ok, ct := { s.ct with ptr := { space := .desc, off := p }, len := len } } :=
  runSeq_ok (run_bind_ok (liftWalk_ok h))

theorem exec_getDescriptorDev_missing (h : findDescriptor s.desc f.value f.index = .ok none) :
    exec (.getDescriptorDev f) s = .next { s with result := .fail } :=
  runSeq_ok (run_bind_ok (liftWalk_ok h))

theorem exec_getDescriptorDev_error {x : Fault} (h : findDescriptor s.desc f.value f.index = .error x) :
    exec (.getDescriptorDev f) s = .fault x := by
  refine runSeq_fault (s' := s) ((run_get_bind _ s).trans (run_bind_error ?_))
  rw [h]
  rfl

/-- Settles O49: the answer is what the walk finds (`findDescriptor_wellFormed`), and a walk can end with one fault only
(`findFrom_fault`). -/
theorem getDescriptorCell : Obligations.GetDescriptorCell := by
  unfold Obligations.GetDescriptorCell
  intro f s
  refine ⟨?_, ?_⟩
  · rintro offs matching hw rfl
    have hwalk := findDescriptor_wellFormed f.value f.index hw
    split
    case h_1 p hp => exact exec_getDescriptorDev_found (by rw [hwalk, hp]; rfl)
    case h_2 hp => exact exec_getDescriptorDev_missing (by rw [hwalk, hp]; rfl)
  · match h : findDescriptor s.desc f.value f.index with
    | .error x =>
      obtain rfl := findFrom_fault _ _ _ h
      exact .inl (exec_getDescriptorDev_error h)
    | .ok none => exact .inr (.inl (exec_getDescriptorDev_missing h))
    | .ok (some (p, len)) => exact .inr (.inr ⟨p, len, exec_getDescriptorDev_found h⟩)

/-! ## Request hooks (R290 to R292, R335 to R338) -/

/-- A request of class, vendor or reserved type goes to the hook of its type. -/
theorem exec_typeHook {req : Byte} {recip : BitVec 2} {i : Instr} {h : Option Nat}
    (hi : (i, h) ∈ [(Instr.hReqClass f req recip, s.hReq1), (.hReqVendor f req recip, s.hReq2),
      (.hReqReserved f req recip, s.hReq3)]) : exec i s = runSeq (typeHook h) s := by
  simp only [List.mem_cons, List.not_mem_nil, or_false, Prod.mk.injEq] at hi
  obtain ⟨rfl, rfl⟩ | ⟨rfl, rfl⟩ | ⟨rfl, rfl⟩ := hi <;> rfl

theorem exec_hCustom {req : Byte} {recip : BitVec 2} {h : Option Nat} (hh : s.hCustom = h) :
    exec (.hCustom f req recip) s = runSeq (customHook h) s := by
  subst hh
  rfl

/-- With no custom hook the standard cell comes next (R290). -/
theorem customHook_none (s : State) : customHook none s = .ok () { s with frames := .request :: s.frames } := rfl

section
variable {a : HookAnswer} (id : Nat) (ha : s.answer = (a, s'))
include ha

theorem typeHook_run : typeHook (some id) s =
    .ok () { s'.hooked id a with result := if HookAnswer.accepts a then .ok else .fail } :=
  run_bind_ok (callHook_run ha)

/-- Taking the answer leaves the frames. -/
theorem answer_frames : s'.frames = s.frames := by
  unfold State.answer at ha
  split at ha <;> (cases ha; rfl)

theorem hooked_frames : (s'.hooked id a).frames = s.frames := by
  rw [← answer_frames ha]
  cases a <;> rfl

/-- The custom hook takes the request, or it declines and the standard cell comes next (R338). -/
theorem customHook_run : customHook (some id) s =
    .ok () (if HookAnswer.accepts a then { s'.hooked id a with result := .ok }
      else { s'.hooked id a with frames := .request :: s.frames }) := by
  refine (run_bind_ok (callHook_run ha)).trans ?_
  split
  · rfl
  · rw [← hooked_frames id ha]
    rfl

end

/-- Settles O51: a hook is called and answers (`callHook_run`); what follows is `typeHook_run` or `customHook_run`. -/
theorem hookRequests : Obligations.HookRequests := by
  unfold Obligations.HookRequests
  intro f req recip s s' a ha
  refine ⟨fun i h hi => ?_, fun hnone => ?_, fun id hsome => ?_⟩
  · rw [exec_typeHook hi]
    refine ⟨?_, ?_⟩
    · rintro rfl
      rfl
    · rintro id rfl
      exact runSeq_ok (typeHook_run id ha)
  · rw [exec_hCustom hnone]
    exact runSeq_ok (customHook_none s)
  · rw [exec_hCustom hsome]
    exact runSeq_ok (customHook_run id ha)

end Sys2Proof.Machine
end

section
/-! SUPPORT. The events of the host and the cable: the packet events (O18 to O20), the bus-state events (O21), and events that
are not enabled (O22). -/

namespace Sys2Proof.Machine

variable {s : State} {e : Eng} {chip : Chip} {num : BitVec 4} {i : Idx} {bytes : List Byte} {o : WireOutcome}

/-! ## An event that happens, and one that does not (R371) -/

theorem exec_wire_happens (ev : WireEvent) (h : s.eng.wire s.cfg.toChip ev = some (e, o)) :
    exec ev.toInstr s = .next (s.observed ev o e) := by
  rw [exec_wireEvent, h]
  rfl

theorem exec_wire_happens_spec (hk : s.specChip) (ev : WireEvent) (h : s.eng.wire Config.chip ev = some (e, o)) :
    exec ev.toInstr s = .next (s.observed ev o e) :=
  exec_wire_happens ev (by rw [show s.cfg.toChip = Config.chip from hk, h])

theorem exec_wire_disabled (ev : WireEvent) (h : s.eng.wire s.cfg.toChip ev = none) : exec ev.toInstr s = .next s := by
  rw [exec_wireEvent, h]
  rfl

/-! ## Packet events on an enabled index (R372 to R374) -/

theorem wire_setup (h0 : reachable chip 0#4 0#5 e) (h1 : e.lockedIdx ≠ some 1#5) (b : Vector Byte 8) :
    e.wire chip (.setup b) = some (e.acceptSetup chip b.toList, .ack) := by
  have h1' : e.unlocked 1#5 = true := bne_iff_ne.mpr h1
  rw [Eng.wire, Eng.wireSetup, (packetEnabled_iff ..).mpr h0, h1']
  rfl

theorem wire_out (h : reachable chip num (outIdx num) e) (bytes : List Byte) :
    e.wire chip (.out num bytes) = some (e.offerOut chip (outIdx num) bytes) := if_pos ((packetEnabled_iff ..).mpr h)

theorem wire_inn (h : reachable chip num (inIdx num) e) : e.wire chip (.inn num) = some (e.askIn chip (inIdx num)) :=
  if_pos ((packetEnabled_iff ..).mpr h)

theorem offerOut_stall (h : (e.epAt i).stalled = true) : e.offerOut chip i bytes = (e, .stall) := if_pos h

theorem offerOut_nak (hs : (e.epAt i).stalled = false) (h : (e.epAt i).buf.isFull = true ∨ (e.epAt i).mps.toNat < bytes.length) :
    e.offerOut chip i bytes = (e.setEp i { e.epAt i with nak := true }, .nak) :=
  (if_neg (ne_true_of_eq_false hs)).trans (if_pos (by simpa using h))

theorem offerOut_ack (hs : (e.epAt i).stalled = false) (hb : (e.epAt i).buf = .empty) (hm : bytes.length ≤ (e.epAt i).mps.toNat) :
    e.offerOut chip i bytes = (setEpInt chip i (e.setEp i { e.epAt i with buf := .full bytes false, nak := false }), .ack) :=
  (if_neg (ne_true_of_eq_false hs)).trans (if_neg (by simpa [hb, Buf.isFull] using hm))

theorem askIn_stall (h : (e.epAt i).stalled = true) : e.askIn chip i = (e, .stall) := if_pos h

theorem askIn_nak (hs : (e.epAt i).stalled = false) (hb : (e.epAt i).buf = .empty) :
    e.askIn chip i = (e.setEp i { e.epAt i with nak := true }, .nak) := by
  simp only [Eng.askIn, hs, hb]
  rfl

/-! ## What a SETUP packet writes (R372) -/

theorem acceptSetup_samePort (bytes : List Byte) : samePort e (e.acceptSetup chip bytes) := rfl

theorem acceptSetup_ep0_out (bytes : List Byte) : (e.acceptSetup chip bytes).epAt 0#5 = { e.epAt 0#5 with
    buf := .full bytes true, stalled := false, nak := false, err := (e.epAt 0#5).err || (e.epAt 0#5).buf.isFull } := by
  rw [Eng.acceptSetup, setEpInt_epAt, epAt_setEp_ne _ _ (by decide), epAt_setEp_same]

theorem acceptSetup_ep0_in (bytes : List Byte) :
    (e.acceptSetup chip bytes).epAt 1#5 = { e.epAt 1#5 with buf := .empty, stalled := false } := by
  rw [Eng.acceptSetup, setEpInt_epAt, epAt_setEp_same]

theorem acceptSetup_epAt_ne (bytes : List Byte) (h0 : i ≠ 0#5) (h1 : i ≠ 1#5) : (e.acceptSetup chip bytes).epAt i = e.epAt i := by
  rw [Eng.acceptSetup, setEpInt_epAt, epAt_setEp_ne _ _ h1, epAt_setEp_ne _ _ h0]

/-- Settles O18: both indices are open, so the packet is accepted; each record it writes is read back. -/
theorem wireSetup : Obligations.WireSetup := by
  unfold Obligations.WireSetup
  intro b s h0 h1
  exact ⟨s.eng.acceptSetup s.cfg.toChip b.toList, exec_wire_happens (.setup b) (wire_setup h0 h1 b), acceptSetup_samePort _,
    acceptSetup_ep0_out _, acceptSetup_ep0_in _, fun _ => acceptSetup_epAt_ne _, rfl, rfl⟩

/-- Settles O19: one lemma about `offerOut` for each outcome. -/
theorem wireOut : Obligations.WireOut := by
  unfold Obligations.WireOut
  rintro num bytes s _ rfl hr
  have happens {e' : Eng} {o : WireOutcome} (h : s.eng.offerOut s.cfg.toChip (outIdx num) bytes = (e', o)) :
      exec (.wireOut num bytes) s = .next (s.observed (.out num bytes) o e') :=
    exec_wire_happens (.out num bytes) ((wire_out hr bytes).trans (congrArg some h))
  exact ⟨fun hs => happens (offerOut_stall hs), fun hs h => happens (offerOut_nak hs h),
    fun hs hb hm => happens (offerOut_ack hs hb hm)⟩

/-- Settles O20: one lemma about `askIn` for each refusal; a taken packet is `exec_wireIn_taken`. -/
theorem wireIn : Obligations.WireIn := by
  unfold Obligations.WireIn
  rintro num s _ rfl hr
  have happens {e' : Eng} {o : WireOutcome} (h : s.eng.askIn s.cfg.toChip (inIdx num) = (e', o)) :
      exec (.wireIn num) s = .next (s.observed (.inn num) o e') :=
    exec_wire_happens (.inn num) ((wire_inn hr).trans (congrArg some h))
  exact ⟨fun hs => happens (askIn_stall hs), fun hs hb => happens (askIn_nak hs hb), fun _ _ hs hb => exec_wireIn_taken hr hs hb⟩

/-! ## Bus-state events (R375 to R378) -/

theorem wire_sof (hc : e.connected chip = true) (hs : e.suspended chip = false) :
    e.wire chip .sof = some ({ e with devintst := setBit e.devintst chip.bitFRAME }, .done) := if_pos (by simp [hc, hs])

/-- The engine after a bus reset (R376). -/
def Eng.afterBusReset (chip : Chip) (e : Eng) : Eng :=
  { e with
    devaddr := flagAt chip.bitDEVEN true
    conf := false
    ep := e.ep.map EpRec.busReset
    devstat := devPut chip.bitRST true (devPut chip.bitSUS false e.devstat)
    devintst := setBit e.devintst chip.bitDEVSTAT }

theorem wire_busReset (hc : e.connected chip = true) : e.wire chip .busReset = some (e.afterBusReset chip, .done) := if_pos hc

theorem afterBusReset_epAt (i : Idx) : (e.afterBusReset chip).epAt i = (e.epAt i).busReset := Vector.getElem_map ..

/-- The raw device status after a change of the cable (R377): on removal the bus is no longer suspended. -/
def devConnect (chip : Chip) (v : Bool) (d : BitVec 5) : BitVec 5 :=
  devPut chip.bitCON v (devPut chip.bitCONCH true (if v then d else devPut chip.bitSUS false d))

theorem wire_connect {v : Bool} (h : e.connected chip ≠ v) : e.wire chip (.connect v) =
    some ({ e with devstat := devConnect chip v e.devstat, devintst := setBit e.devintst chip.bitDEVSTAT }, .done) :=
  if_pos (bne_iff_ne.mpr h)

theorem devConnect_bit (v : Bool) (d : BitVec 5) {k : Nat} (hk : k < 5) : (devConnect Config.chip v d).getLsbD k =
    if k = 0 then v else if k = 1 then true else if k = 2 then (v && d.getLsbD 2) else d.getLsbD k := by
  rw [devConnect, devPut_bit _ _ (by decide) hk, devPut_bit _ _ (by decide) hk]
  cases v with
  | true =>
    obtain rfl | h2 := eq_or_ne k 2
    · rfl
    · simp [h2]
  | false => simp [devPut_bit _ _ _ hk]

theorem wire_suspend {v : Bool} (hc : e.connected chip = true) (hs : e.suspended chip ≠ v) : e.wire chip (.suspend v) =
    some ({ e with devstat := devPut chip.bitSUS v (devPut chip.bitSUSCH true e.devstat)
                   devintst := setBit e.devintst chip.bitDEVSTAT }, .done) := if_pos (by simp [hc, hs])

/-- Settles O21: each event happens and writes what its lemma says; the device status is read back bit by bit (`devPut_bit`,
`devConnect_bit`). -/
theorem busStateEvents : Obligations.BusStateEvents := by
  unfold Obligations.BusStateEvents
  intro s hk
  rw [show s.cfg.toChip = Config.chip from hk]
  refine ⟨fun hc hs => ?_, fun hc => ?_, fun v hv => ?_, fun v hc hv => ?_⟩
  · exact exec_wire_happens_spec hk .sof (wire_sof hc hs)
  · refine ⟨s.eng.afterBusReset Config.chip, exec_wire_happens_spec hk .busReset (wire_busReset hc), rfl, rfl, rfl, rfl,
      afterBusReset_epAt, fun k h5 => ?_⟩
    exact (devPut_bit true _ (by decide) h5).trans (if_congr Iff.rfl rfl (devPut_bit false _ (by decide) h5))
  · exact ⟨_, exec_wire_happens_spec hk (.connect v) (wire_connect hv), fun _ => devConnect_bit v s.eng.devstat⟩
  · refine ⟨_, exec_wire_happens_spec hk (.suspend v) (wire_suspend hc hv), fun k h5 => ?_⟩
    exact (devPut_bit v _ (by decide) h5).trans (if_congr Iff.rfl rfl (devPut_bit true _ (by decide) h5))

/-! ## Events that are not enabled (R371, R375 to R379) -/

theorem wire_setup_disabled (h : ¬ reachable chip 0#4 0#5 e ∨ e.lockedIdx = some 1#5) (b : Vector Byte 8) :
    e.wire chip (.setup b) = none := by
  refine if_neg fun hen => ?_
  obtain ⟨h0, h1⟩ := Bool.and_eq_true_iff.mp hen
  exact h.elim (· ((packetEnabled_iff ..).mp h0)) (bne_iff_ne.mp h1)

theorem wire_out_disabled (h : ¬ reachable chip num (outIdx num) e) (bytes : List Byte) : e.wire chip (.out num bytes) = none :=
  if_neg (h ∘ (packetEnabled_iff ..).mp)

theorem wire_inn_disabled (h : ¬ reachable chip num (inIdx num) e) : e.wire chip (.inn num) = none :=
  if_neg (h ∘ (packetEnabled_iff ..).mp)

theorem wire_sof_disabled (h : e.connected chip = false ∨ e.suspended chip = true) : e.wire chip .sof = none := by
  refine if_neg ?_
  obtain h | h := h <;> simp [h]

theorem wire_busReset_disabled (h : e.connected chip = false) : e.wire chip .busReset = none := if_neg (by simp [h])

theorem wire_connect_disabled {v : Bool} (h : e.connected chip = v) : e.wire chip (.connect v) = none := if_neg (by simp [h])

theorem wire_suspend_disabled {v : Bool} (h : e.connected chip = false ∨ e.suspended chip = v) :
    e.wire chip (.suspend v) = none := by
  refine if_neg ?_
  obtain h | h := h <;> simp [h]

/-- Settles O22: each event's condition fails, so `Eng.wire` answers `none`. -/
theorem disabledEventsDoNothing : Obligations.DisabledEventsDoNothing := by
  unfold Obligations.DisabledEventsDoNothing
  intro s
  exact ⟨fun b h => exec_wire_disabled (.setup b) (wire_setup_disabled h b),
    fun _ bytes h => exec_wire_disabled (.out _ bytes) (wire_out_disabled h bytes),
    fun _ h => exec_wire_disabled (.inn _) (wire_inn_disabled h),
    fun h => exec_wire_disabled .sof (wire_sof_disabled h),
    fun h => exec_wire_disabled .busReset (wire_busReset_disabled h),
    fun _ h => exec_wire_disabled (.connect _) (wire_connect_disabled h),
    fun _ h => exec_wire_disabled (.suspend _) (wire_suspend_disabled h)⟩

end Sys2Proof.Machine
end
